-- ==== Sys2Proof/Word.lean ====
section
/-! DEFINITION. The words that frames and stored records are made of. -/

namespace Sys2Proof

/-- One byte of a frame or of a stored record. -/
abbrev Byte := BitVec 8

/-- A number of two bytes: a power, a length, a cause set, a check code. -/
abbrev Half := BitVec 16

/-- A number of four bytes: a frequency, a station time. -/
abbrev Word := BitVec 32

end Sys2Proof
end

