-- ==== Sys2Proof/Config.lean ====
section
/-! DEFINITION. What the spec leaves open (free values without a body) and the two times it fixes. -/

namespace Sys2Proof

/-- FREE VALUE. The spec lets two events that fall at one moment be taken in either order (R19, R44, R78, R97, R153,
R167). Applied to the counter `State.choices`, it picks which of the expiries that fall due together comes next.
Log entry 3. -/
opaque Config.choice : Nat → Nat

/-- FREE VALUE. Whether a remaining time of this many milliseconds, when it is not a whole number of units of 100 ms,
is reported as the next whole number of units rather than the one before (R77, R110, R197 give the unit and no
rounding). Log entry 9. -/
opaque Config.roundsUp : Nat → Bool

/-- FREE VALUE. Whether the status record of a `sta` whose own taking clears the check-corruption flag still shows the
flag set (R168 reads the record in the event in which R169 clears the flag). Log entry 10. -/
opaque Config.statusShowsClearedFlag : Bool

/-- R147: the supply-confirm time is fixed, in ms. -/
def Config.supplyConfirmTime : Nat := 2000

/-- R183: a store write completes no later than this many ms after it starts. -/
def Config.storeWriteLatest : Nat := 12

end Sys2Proof
end

