-- ==== Sys2Proof/Syntax.lean ====
section
/-! DEFINITION. The commands of the part: one constructor of `Instr` for each row of spec/opcode_table.json, and the
requests that request frames carry. -/

namespace Sys2Proof

/-- The six inputs of the Interlock Monitor (R124), in input order (R195). -/
inductive Input where
  | refl | ampf | supok | estop | localKey | ants
deriving DecidableEq, Repr

/-- The lines whose change is the row INTERLOCK_INPUT_CHANGE. -/
inductive InterlockLine where
  | refl | ampf | estop | localKey
deriving DecidableEq, Repr

/-- One segment slot of a `pfw` body (R198). -/
structure SegmentSlot where
  lower : Word
  upper : Word
  modes : Byte
  ceiling : Half
deriving DecidableEq, Repr

/-- One range slot of an `anw` body (R198). -/
structure RangeSlot where
  lower : Word
  upper : Word
deriving DecidableEq, Repr

/-- What a request frame asks for: a kind of the request catalogue with the fields of its body (R194, R195), a kind
outside the catalogue, or a kind of the catalogue with a body of another length. -/
inductive Request where
  | sta
  | mwr (member state : Byte) (callsign : List Byte) (standing profile : Byte) (allowance : Half) (emergency : Byte)
  | mrd (member : Byte)
  | pfw (index count : Byte) (slots : List SegmentSlot)
  | pfr (index : Byte)
  | anw (index state count : Byte) (ranges : List RangeSlot) (rating : Half)
  | anr (index : Byte)
  | prw (record : List Byte)
  | prr
  | idw (count : Byte) (slots : List Byte)
  | idr
  | cls (order : Byte)
  | run
  | set
  | spw (setting : Byte)
  | bft (setting : Byte)
  | sus (member setting : Byte)
  | qrf (member : Byte)
  | qrd
  | jrd
  | nen (causes : Half)
  | ncl (causes : Half)
  | icl
  | fcl
  | tst
  | rst
  | brkAuthority (take : Byte)
  | req (emergency : Byte) (expiry length : Half)
  | hld
  | rel
  | key
  | unk
  | tun (frequency : Word) (mode : Byte) (power : Half) (antenna : Byte)
  | qst
  | wch (setting : Byte)
  | brkMember (take : Byte)
  | unknownKind (kind : Byte) (body : List Byte)
  | malformed (kind : Byte) (body : List Byte)
deriving DecidableEq, Repr

/-- A request frame that has passed its check code: the sequence tag, the member field and the request (R157). -/
structure Frame where
  tag : Byte
  member : Byte
  request : Request
deriving DecidableEq, Repr

/-- The commands. A request row is the arrival at the Link Port of a valid frame that carries that request (log entry
4): `tag` is its sequence tag and `member` its member field; an authority request has the member field 255. -/
inductive Instr where
  -- requests, by the chapter of their owner
  | req (tag member emergency : Byte) (expiry length : Half)
  | rel (tag member : Byte)
  | brkMember (tag member take : Byte)
  | brkAuthority (tag take : Byte)
  | qst (tag member : Byte)
  | qrd (tag : Byte)
  | cls (tag order : Byte)
  | mwr (tag member state : Byte) (callsign : List Byte) (standing profile : Byte) (allowance : Half) (emergency : Byte)
  | mrd (tag member : Byte)
  | pfw (tag index count : Byte) (slots : List SegmentSlot)
  | pfr (tag index : Byte)
  | susSuspend (tag member : Byte)
  | susReinstate (tag member : Byte)
  | qrf (tag member : Byte)
  | wchOn (tag member : Byte)
  | wchOff (tag member : Byte)
  | key (tag member : Byte)
  | unk (tag member : Byte)
  | hld (tag member : Byte)
  | fcl (tag : Byte)
  | tun (tag member : Byte) (frequency : Word) (mode : Byte) (power : Half) (antenna : Byte)
  | anw (tag index state count : Byte) (ranges : List RangeSlot) (rating : Half)
  | anr (tag index : Byte)
  | idw (tag count : Byte) (slots : List Byte)
  | idr (tag : Byte)
  | icl (tag : Byte)
  | spwUp (tag : Byte)
  | spwDown (tag : Byte)
  | bftOn (tag : Byte)
  | bftOff (tag : Byte)
  | sta (tag : Byte)
  | tst (tag : Byte)
  | nen (tag : Byte) (causes : Half)
  | ncl (tag : Byte) (causes : Half)
  | jrd (tag : Byte)
  | prw (tag : Byte) (record : List Byte)
  | prr (tag : Byte)
  | run (tag : Byte)
  | set (tag : Byte)
  | rst (tag : Byte)
  | unknownKindRequest (kind tag member : Byte) (body : List Byte)
  -- the station link
  /-- `bytes`: the frame after its sync byte, from the length byte to the last byte of the check code. -/
  | requestFrameArrival (bytes : List Byte)
  /-- `received`: the bytes received before the gap, since the last command about LRXD. -/
  | linkByteGap (received : List Byte)
  /-- `received`: the bytes received before the framing error or break, since the last command about LRXD. -/
  | linkFramingError (received : List Byte)
  | replySent
  | noticeSent
  | linkSupervisionExpiry
  -- turns, queue, members
  | offerDeadline
  | turnDeadline
  | idleDeadline
  | entryExpiry (member : Byte)
  | allowanceExhausted
  | watchExpiry
  -- the keying chain
  | amprdyChange (active : Bool)
  | txcChange (active : Bool)
  | ampReadyLatestBound
  | txConfirmLatestBound
  | txDropLimit
  | ampHoldExpiry
  | deadManExpiry
  | transmissionLimitExpiry
  | reKeyHoldoffExpiry
  -- the setting unit and the rig port
  | antennaSenseChange (valid : Bool) (code : BitVec 2)
  | settleLimit
  | readbackTimeout
  | readback (tag : Byte) (frequency : Word) (mode : Byte) (power : Half) (check : Half)
  | rigSilenceExpiry
  /-- `received`: the bytes received before the gap, since the last command about RRXD. -/
  | rigByteGap (received : List Byte)
  /-- `received`: the bytes received before the framing error or break, since the last command about RRXD. -/
  | rigFramingError (received : List Byte)
  | settingFrameSent
  -- the identification sender
  | intervalTimerExpiry
  | graceTimerExpiry
  | idElementEnd
  -- the interlock monitor
  | interlockInputChange (line : InterlockLine) (active : Bool)
  | filterTimerExpiry (input : Input)
  | reflBlankingExpiry
  -- station power
  | supokChange (active : Bool)
  | supplyConfirmExpiry
  | warmUpExpiry
  | coolDownExpiry
  | restartHoldoffExpiry
  -- the store and the resets
  | storeWriteCompletion
  | powerOnReset
  | pinReset
  | pinResetEnd
  | clockFailure
  | clockRecovery
  | powerOnResetEnd
  /-- `length`: the length byte received after a sync byte. -/
  | requestLengthOutOfRange (length : Byte)
deriving DecidableEq, Repr

end Sys2Proof
end

