-- ==== Sys2Proof/WellFormed.lean ====
section
/-! DEFINITION. Which terms are commands that the row of the table can stand for. -/

namespace Sys2Proof

/-- R195: the kind codes of the request catalogue. -/
def catalogueKind (kind : Byte) : Bool :=
  (0x10 ≤ kind.toNat && kind.toNat ≤ 0x2A) || (0x40 ≤ kind.toNat && kind.toNat ≤ 0x48)

/-- R157: a length byte that does not discard its frame. -/
def lengthInRange (length : Nat) : Bool := 3 ≤ length && length ≤ 243

/-- R157: the bytes of a complete frame after its sync byte are the length, as many bytes as it counts, and the two
bytes of the check code. -/
def completeFrame (bytes : List Byte) : Bool :=
  match bytes with
  | [] => false
  | length :: rest => lengthInRange length.toNat && rest.length == length.toNat + 2

/-- R194: the lists of a request's body have the lengths of its layout. -/
def Request.shaped : Request → Bool
  | .mwr _ _ callsign _ _ _ _ => callsign.length == 10
  | .pfw _ _ slots => slots.length == 6
  | .anw _ _ _ ranges _ => ranges.length == 4
  | .prw record => record.length == 43
  | .idw _ slots => slots.length == 96
  | .unknownKind kind body => !catalogueKind kind && body.length ≤ 240
  | .malformed _ _ => false
  | _ => true

/-- The well-formed commands. -/
def Instr.wf : Instr → Bool
  | .mwr _ _ _ callsign _ _ _ _ => callsign.length == 10
  | .pfw _ _ _ slots => slots.length == 6
  | .anw _ _ _ _ ranges _ => ranges.length == 4
  | .prw _ record => record.length == 43
  | .idw _ _ slots => slots.length == 96
  | .unknownKindRequest kind _ _ body => !catalogueKind kind && body.length ≤ 240
  | .requestFrameArrival bytes => completeFrame bytes
  | .entryExpiry member => member.toNat < 32
  | .requestLengthOutOfRange length => !lengthInRange length.toNat
  | _ => true

end Sys2Proof
end

