-- ==== Sys2Proof/Decode.lean ====
section
/-! DEFINITION. The frames: what the bytes of a request frame ask for (R193, R194), and the table's words (none). -/

namespace Sys2Proof

/-- A byte of a body. -/
def at8 (l : List Byte) (i : Nat) : Byte := l.getD i 0

/-- Two bytes of a body, most significant first. -/
def at16 (l : List Byte) (i : Nat) : Half := at8 l i ++ at8 l (i + 1)

/-- Four bytes of a body, most significant first. -/
def at32 (l : List Byte) (i : Nat) : Word := at16 l i ++ at16 l (i + 2)

/-- R198: the segment slot at a place of a `pfw` body. -/
def segmentSlotAt (l : List Byte) (i : Nat) : SegmentSlot :=
  ⟨at32 l i, at32 l (i + 4), at8 l (i + 8), at16 l (i + 9)⟩

/-- R198: the range slot at a place of an `anw` body. -/
def rangeSlotAt (l : List Byte) (i : Nat) : RangeSlot := ⟨at32 l i, at32 l (i + 4)⟩

/-- R194, R195: the kinds with the length of their bodies and what their bodies say. -/
def catalogueEntry (kind : Byte) (b : List Byte) : Option (Nat × Request) :=
  if kind = 0x10 then some (0, .sta)
  else if kind = 0x11 then
    some (17, .mwr (at8 b 0) (at8 b 1) ((b.drop 2).take 10) (at8 b 12) (at8 b 13) (at16 b 14) (at8 b 16))
  else if kind = 0x12 then some (1, .mrd (at8 b 0))
  else if kind = 0x13 then
    some (68, .pfw (at8 b 0) (at8 b 1) ([2, 13, 24, 35, 46, 57].map (segmentSlotAt b)))
  else if kind = 0x14 then some (1, .pfr (at8 b 0))
  else if kind = 0x15 then
    some (37, .anw (at8 b 0) (at8 b 1) (at8 b 2) ([3, 11, 19, 27].map (rangeSlotAt b)) (at16 b 35))
  else if kind = 0x16 then some (1, .anr (at8 b 0))
  else if kind = 0x17 then some (43, .prw b)
  else if kind = 0x18 then some (0, .prr)
  else if kind = 0x19 then some (97, .idw (at8 b 0) (b.drop 1))
  else if kind = 0x1A then some (0, .idr)
  else if kind = 0x1B then some (1, .cls (at8 b 0))
  else if kind = 0x1C then some (0, .run)
  else if kind = 0x1D then some (0, .set)
  else if kind = 0x1E then some (1, .spw (at8 b 0))
  else if kind = 0x1F then some (1, .bft (at8 b 0))
  else if kind = 0x20 then some (2, .sus (at8 b 0) (at8 b 1))
  else if kind = 0x21 then some (1, .qrf (at8 b 0))
  else if kind = 0x22 then some (0, .qrd)
  else if kind = 0x23 then some (0, .jrd)
  else if kind = 0x24 then some (2, .nen (at16 b 0))
  else if kind = 0x25 then some (2, .ncl (at16 b 0))
  else if kind = 0x26 then some (0, .icl)
  else if kind = 0x27 then some (0, .fcl)
  else if kind = 0x28 then some (0, .tst)
  else if kind = 0x29 then some (0, .rst)
  else if kind = 0x2A then some (1, .brkAuthority (at8 b 0))
  else if kind = 0x40 then some (5, .req (at8 b 0) (at16 b 1) (at16 b 3))
  else if kind = 0x41 then some (0, .hld)
  else if kind = 0x42 then some (0, .rel)
  else if kind = 0x43 then some (0, .key)
  else if kind = 0x44 then some (0, .unk)
  else if kind = 0x45 then some (8, .tun (at32 b 0) (at8 b 4) (at16 b 5) (at8 b 7))
  else if kind = 0x46 then some (0, .qst)
  else if kind = 0x47 then some (1, .wch (at8 b 0))
  else if kind = 0x48 then some (1, .brkMember (at8 b 0))
  else none

/-- What a kind with a body asks for; a kind outside the catalogue and a body of another length keep their bytes
(general checks 1 and 3 of R161). -/
def requestOf (kind : Byte) (body : List Byte) : Request :=
  match catalogueEntry kind body with
  | none => .unknownKind kind body
  | some (length, r) => if body.length = length then r else .malformed kind body

/-- R193: the frame that the bytes after the sync byte spell: the length, the kind, the tag, the member, the body and
the two bytes of the check code. -/
def frameOf (bytes : List Byte) : Frame :=
  ⟨at8 bytes 2, at8 bytes 3, requestOf (at8 bytes 1) ((bytes.drop 4).take ((at8 bytes 0).toNat - 3))⟩

/-- The command that a word of the table spells: spec/opcode_table.json gives no row any bits, so no word spells one
(log entry 19). -/
def decodeTableWord (_nbits _w : Nat) : Option Instr := none

end Sys2Proof
end

