-- ==== Sys2Proof/Machine/Checks.lean ====
section
/-! DEFINITION. The check code of frames and the record check of stored records (R2). -/

namespace Sys2Proof.Machine

/-- One bit of a cyclic code of width `w`, most significant bit first. -/
def crcBit {w : Nat} (poly c : BitVec w) : BitVec w :=
  if c.msb then (c <<< 1) ^^^ poly else c <<< 1

/-- The eight bits of one byte, already added to the top of `c`. -/
def crcEight {w : Nat} (poly c : BitVec w) : BitVec w :=
  crcBit poly (crcBit poly (crcBit poly (crcBit poly (crcBit poly (crcBit poly (crcBit poly (crcBit poly c)))))))

/-- R2: the check code takes in one byte; the polynomial is x^16 + x^12 + x^5 + 1. -/
def checkCodeByte (c : Half) (b : Byte) : Half :=
  crcEight 0x1021#16 (c ^^^ (b.setWidth 16 <<< 8))

/-- R2: the check code of the bytes after the sync byte: initial value all ones, no final inversion. -/
def checkCode (bytes : List Byte) : Half :=
  bytes.foldl checkCodeByte 0xFFFF#16

/-- R2: the record check of a stored record: polynomial x^8 + x^2 + x + 1, initial value zero.
DESIGN CHOICE (log entry 11, unobservable): bits most significant first. -/
def recordCheck (bytes : List Byte) : Byte :=
  bytes.foldl (fun c b => crcEight 0x07#8 (c ^^^ b)) 0#8

end Sys2Proof.Machine
end

