-- ==== Sys2Proof/Machine/Types.lean ====
section
/-! DEFINITION. The states, classes, causes, outcomes and records that the blocks hold. Order of constructors: the
order of the code tables of R195. -/

namespace Sys2Proof.Machine

/-! ## Turns and the queue -/

/-- R36: the standing class of a member. -/
inductive Standing where
  | control | member | supervised
deriving DecidableEq, Repr

/-- R4, R20: the class of a queue entry and of a turn. -/
inductive TurnClass where
  | emergency
  | standing (c : Standing)
deriving DecidableEq, Repr

/-- R20, R21: the placement of an entry; a BREAK entry has its order of placement. -/
inductive Placement where
  | normal
  | brk (order : Nat)
deriving DecidableEq, Repr

/-- R20: one entry of the request queue; times are station times, the length is in seconds. -/
structure Entry where
  member : Nat
  cls : TurnClass
  placement : Placement
  arrival : Nat
  expiry : Option Nat
  length : Option Nat
deriving DecidableEq, Repr

/-- Section 1.4: the causes that end a turn. -/
inductive EndCause where
  | noAnswer | declined | released | idleLimit | turnLimit | deadman | quota | brk | preempted | noWatch
  | suspended | trip | chainFault | localControl | stationDown | linkLost
deriving DecidableEq, Repr

/-- R4: the turn record while OFFERED; the on-air total is 0 (R6). -/
structure OfferedTurn where
  holder : Nat
  cls : TurnClass
  offeredAt : Nat
  length : Option Nat
  offerDeadline : Nat
  onAirTotal : Nat
deriving DecidableEq, Repr

/-- R4: the turn record while OPEN. -/
structure OpenTurn where
  holder : Nat
  cls : TurnClass
  offeredAt : Nat
  openedAt : Nat
  turnDeadline : Nat
  idleDeadline : Option Nat
  onAirTotal : Nat
deriving DecidableEq, Repr

/-- R4: the turn record while CLOSING. -/
structure ClosingTurn where
  holder : Nat
  cls : TurnClass
  offeredAt : Nat
  openedAt : Nat
  onAirTotal : Nat
  endCause : EndCause
deriving DecidableEq, Repr

/-- R4: the turn record. -/
inductive Turn where
  | free
  | offered (t : OfferedTurn)
  | opened (t : OpenTurn)
  | closing (t : ClosingTurn)
deriving DecidableEq, Repr

/-! ## Members and privileges -/

/-- R36: the contents of an ENROLLED entry; the allowance is in seconds, 0 for unlimited. -/
structure Enrolment where
  callsign : List Byte
  standing : Standing
  profile : Nat
  allowance : Nat
  emergency : Bool
deriving DecidableEq, Repr

/-- R36: an entry of the member table. -/
inductive MemberEntry where
  | empty
  | enrolled (e : Enrolment)
  | damaged
deriving DecidableEq, Repr

/-- R37: an entry with its run-time items; the remaining allowance is in tenths of a second. -/
structure MemberSlot where
  entry : MemberEntry
  suspended : Bool
  remaining : Nat
deriving DecidableEq, Repr

/-- R85: the mode of a setting. -/
inductive Mode where
  | cw | voice | data | fm
deriving DecidableEq, Repr

/-- R38: one segment; the permitted modes are the mode set of R195, CW in bit 0. -/
structure Segment where
  lower : Nat
  upper : Nat
  modes : BitVec 4
  ceiling : Nat
deriving DecidableEq, Repr

/-- R38: a privilege profile. -/
inductive Profile where
  | valid (segments : List Segment)
  | damaged
deriving DecidableEq, Repr

/-- R48: the control watch record. -/
inductive Watch where
  | inactive
  | active (watcher beganAt expiry : Nat)
deriving DecidableEq, Repr

/-- R162: the reasons of a DENIED outcome. -/
inductive Reason where
  | frequency | mode | power | antenna | quota | noWatch | cls | station | setting
deriving DecidableEq, Repr

/-! ## The keying chain -/

/-- R58: the chain states. -/
inductive ChainState where
  | idle | ampUp | txUp | onAir | txDown | ampDown | faulted
deriving DecidableEq, Repr

/-- R58: the claimants. -/
inductive Claimant where
  | none | holder | ident
deriving DecidableEq, Repr

/-- Section 3.3, R72, R74: the twelve causes of the last-transmission record. -/
inductive KeyDownCause where
  | unkey | deadman | txLimit | outOfPrivilege | rigSilent | idForced | quota | turnEnd | patternEnd
  | trip | localControl | fault
deriving DecidableEq, Repr

/-- R71: the fault kinds. -/
inductive FaultKind where
  | ampEarly | ampLate | txEarly | txLate | ampDrop | txDrop | txStuck
deriving DecidableEq, Repr

/-- R72: the fault record. -/
structure FaultRecord where
  kind : FaultKind
  stage : ChainState
  claimant : Claimant
  member : Option Nat
  time : Nat
deriving DecidableEq, Repr

/-- R70: the last-transmission record; the duration is in tenths of a second. -/
structure LastTransmission where
  claimant : Claimant
  member : Option Nat
  start : Option Nat
  duration : Nat
  cause : KeyDownCause
deriving DecidableEq, Repr

/-! ## The setting unit -/

/-- R85: the values of a setting. -/
structure Setting where
  frequency : Nat
  mode : Mode
  power : Nat
deriving DecidableEq, Repr

/-- R85: the confirmed setting; its values are absent until the first readback after a reset. -/
structure Confirmed where
  values : Option Setting
  fresh : Bool
deriving DecidableEq, Repr

/-- R86: the requested setting; its tag stands with the retune state. `turn` is the model's own (log entry 23): the number of
the requester's turn among the accepted ones. -/
structure Requested where
  setting : Setting
  antenna : BitVec 2
  requester : Nat
  turn : Nat
deriving DecidableEq, Repr

/-- R86: the retune state with the requested setting and the running timer. -/
inductive Retune where
  | steady
  | switching (req : Requested) (settle : Nat)
  | awaiting (req : Requested) (tag : Byte) (readback : Nat)
deriving DecidableEq, Repr

/-- R86: the results of a retune. -/
inductive RetuneResult where
  | none | done | failedTimeout | failedMismatch | overtaken | antennaFault
deriving DecidableEq, Repr

/-- R86: the last result record. -/
structure LastResult where
  result : RetuneResult
  owner : Option Nat
  tag : Option Byte
  time : Option Nat
deriving DecidableEq, Repr

/-- R87: one frequency range of an antenna. -/
structure Range where
  lower : Nat
  upper : Nat
deriving DecidableEq, Repr

/-- R87: the contents of a PRESENT antenna entry. -/
structure AntennaData where
  ranges : List Range
  rating : Nat
deriving DecidableEq, Repr

/-- R87: an entry of the antenna table. -/
inductive Antenna where
  | absent
  | present (a : AntennaData)
  | damaged
deriving DecidableEq, Repr

/-- R104, R200: a SETTING frame. -/
structure SettingFrame where
  tag : Byte
  setting : Setting
deriving DecidableEq, Repr

/-- R104: the rig port transmitter. -/
structure RigTransmitter where
  sending : Option SettingFrame
  waiting : Option SettingFrame
deriving DecidableEq, Repr

/-- R102, R157: a receiver, hunting or assembling with the bytes received after the sync byte. -/
inductive Receiver where
  | hunting
  | assembling (got : List Byte)
deriving DecidableEq, Repr

/-! ## Identification -/

/-- R108: the elements of the ID pattern. -/
inductive Element where
  | dit | dah | charGap | wordGap
deriving DecidableEq, Repr

/-- R108: the ID pattern. -/
inductive Pattern where
  | valid (elements : List Element)
  | damaged
deriving DecidableEq, Repr

/-- R110: the trigger of a send. -/
inductive Trigger where
  | interval | closing
deriving DecidableEq, Repr

/-- R110, R116: how far a send has come; `element` counts from 0 and began at `since`, times in ms. -/
inductive Progress where
  | notBegun
  | running (start element since : Nat)
  | ended (start : Nat)
deriving DecidableEq, Repr

/-- R110: the ID record; owed-since is a station time, the timers hold the moment of expiry in ms, and an expired
grace timer is `none`. -/
inductive IdRecord where
  | clear
  | owed (since interval : Nat)
  | due (since : Nat) (grace : Option Nat)
  | sending (since : Nat) (trigger : Trigger) (progress : Progress)
deriving DecidableEq, Repr

/-- R178: the outcome of an identification. -/
inductive IdOutcome where
  | sent | missed
deriving DecidableEq, Repr

/-! ## Interlocks -/

/-- One item for each input of the Interlock Monitor. -/
structure PerInput (α : Type) where
  refl : α
  ampf : α
  supok : α
  estop : α
  localKey : α
  ants : α
deriving DecidableEq, Repr

/-- R125: a filter record; a timer holds the moment of its expiry in ms. -/
inductive Filter where
  | quiet
  | headingActive (timer : Nat)
  | active
  | headingQuiet (timer : Nat)
deriving DecidableEq, Repr

/-! ## Station power -/

/-- R144: the power record's state with the fields and timers that stand in it; timers hold moments of expiry. -/
inductive Power where
  | off (holdoff : Option Nat)
  | supplyWait (confirm : Nat)
  | warmUp (timer : Nat)
  | ready
  | cooling (timer : Nat) (confirmed : Bool)
deriving DecidableEq, Repr

/-- R149: the result of a self-check item. -/
inductive ItemResult where
  | pass | fail | notTested
deriving DecidableEq, Repr

/-- R149: the item results of a self-check. -/
structure SelfCheck where
  supok : ItemResult
  ampf : ItemResult
  refl : ItemResult
  txc : ItemResult
  amprdy : ItemResult
  antenna : ItemResult
deriving DecidableEq, Repr

/-- R144, R195: the four station power states. -/
inductive PowerState where
  | off | warming | ready | cooling
deriving DecidableEq, Repr

/-! ## The link -/

/-- R162: the outcomes of a request. -/
inductive ReplyOutcome where
  | ok | noChange | malformed | unknownKind | range | wrongSource | unknownMember | wrongPhase | busy | tooSoon
  | denied (r : Reason)
  | full | notHolder | damaged | localControl | held | suspended
deriving DecidableEq, Repr

/-- R160: a reply frame, with its check code as it is sent. -/
structure Reply where
  kind : Byte
  tag : Byte
  outcome : ReplyOutcome
  summary : Half
  body : List Byte
  check : Half
deriving DecidableEq, Repr

/-- R173, R193: a notice frame. -/
structure Notice where
  pending : Half
  summary : Half
deriving DecidableEq, Repr

/-- R159: the transmitter and the frame it is sending. -/
inductive LinkTransmitter where
  | idle
  | replying (r : Reply)
  | notifying (n : Notice)
deriving DecidableEq, Repr

/-! ## Notices and the journal -/

/-- Section 9.1: the notice causes. -/
inductive Cause where
  | grant | turnEnd | keyFault | trip | idDue | power | link | frame | store | journal | watch | setting
deriving DecidableEq, Repr

/-- R178: the kinds of journal record with their fields. -/
inductive JournalBody where
  | turn (member : Nat) (cls : TurnClass) (openedAt duration onAir : Nat) (cause : EndCause)
  | ident (trigger : Trigger) (outcome : IdOutcome) (duration : Nat)
  | trip (input : Input) (chain : ChainState) (member : Option Nat)
  | fault (record : FaultRecord)
  | power (state : PowerState) (summary : Option SelfCheck)
  | watch (member : Nat) (began : Bool)
  | warning (input : Input)
  | link
deriving DecidableEq, Repr

/-- R178: a journal record: its fields, its gap mark and the station time at which it was written. -/
structure JournalRecord where
  body : JournalBody
  gap : Bool
  time : Nat
deriving DecidableEq, Repr

/-! ## The store and the resets -/

/-- Section 10.2: the parameter record; units as in its table. -/
structure Params where
  deadManWindow : Nat
  transmissionLimit : Nat
  reKeyHoldoff : Nat
  turnLimit : Nat
  idleLimit : Nat
  offerWindow : Nat
  idInterval : Nat
  idGrace : Nat
  idSpeed : Nat
  linkSupervision : Nat
  readbackTimeout : Nat
  rigSilenceLimit : Nat
  watchPeriod : Nat
  ampReadyEarliest : Nat
  ampReadyLatest : Nat
  txConfirmEarliest : Nat
  txConfirmLatest : Nat
  txDropLimit : Nat
  ampHold : Nat
  settleLimit : Nat
  reflBlanking : Nat
  filterTimes : PerInput Nat
  reflReport : Bool
  ampfReport : Bool
  warmUp : Nat
  coolDown : Nat
  restartHoldoff : Nat
  barefootCeiling : Nat
  classRanking : Nat
deriving DecidableEq, Repr

/-- R182: a stored record: its contents and the record check kept beside them. -/
structure Stored (α : Type) where
  contents : α
  check : Byte
deriving DecidableEq, Repr

/-- R183: the record that a store write in flight writes, with the contents handed to the Store. A `cls` writes the
parameter record too, and hands on the ranking alone to TAR (R34). -/
inductive StoreWrite where
  | member (number : Nat) (contents : Option Enrolment)
  | profile (index : Nat) (segments : List Segment)
  | antenna (index : Nat) (contents : Option AntennaData)
  | pattern (elements : List Element)
  | params (p : Params)
  | ranking (p : Params)
deriving DecidableEq, Repr

/-- R189: the operating phase. -/
inductive Phase where
  | setup | run
deriving DecidableEq, Repr

/-- R189: the kinds of reset. -/
inductive ResetKind where
  | powerOn | pin | soft | clock
deriving DecidableEq, Repr

end Sys2Proof.Machine
end

