-- ==== Sys2Proof/Machine/Codes.lean ====
section
/-! DEFINITION. The codes of R195 and the bytes of numbers (most significant byte first). -/

namespace Sys2Proof.Machine

/-! ## Numbers -/

/-- One byte; a larger number is sent modulo 256 (log entry 13). -/
def bytes1 (n : Nat) : List Byte := [BitVec.ofNat 8 n]

/-- Two bytes, most significant first; a larger number is sent modulo 2^16 (log entry 13). -/
def bytes2 (n : Nat) : List Byte := [BitVec.ofNat 8 (n / 256), BitVec.ofNat 8 n]

/-- Four bytes, most significant first; a larger number is sent modulo 2^32 (log entry 13). -/
def bytes4 (n : Nat) : List Byte :=
  [BitVec.ofNat 8 (n / 16777216), BitVec.ofNat 8 (n / 65536), BitVec.ofNat 8 (n / 256), BitVec.ofNat 8 n]

/-- `n` bytes of zero. -/
def zeros (n : Nat) : List Byte := List.replicate n 0#8

/-- R192: what is there, followed by zero bytes up to `n`. -/
def padTo (n : Nat) (l : List Byte) : List Byte := l ++ zeros (n - l.length)

/-- The byte at a place of a record. -/
def byteAt (l : List Byte) (i : Nat) : Nat := (l.getD i 0#8).toNat

/-- The two-byte number at a place of a record. -/
def halfAt (l : List Byte) (i : Nat) : Nat := byteAt l i * 256 + byteAt l (i + 1)

/-- The four-byte number at a place of a record. -/
def wordAt (l : List Byte) (i : Nat) : Nat := halfAt l i * 65536 + halfAt l (i + 2)

/-- A flag at a bit of a number. -/
def bitOf (k : Nat) (b : Bool) : Nat := if b then 2 ^ k else 0

/-- R192: an absent number is sent as zero. -/
def orZero (n : Option Nat) : Nat := n.getD 0

/-- R192: an absent member number is sent as 0xFF. -/
def memberCode (m : Option Nat) : Nat := m.getD 255

/-! ## Enumerations (R195) -/

def Standing.code : Standing → Nat
  | .control => 1 | .member => 2 | .supervised => 3

/-- The standing class of a class code; EMERGENCY is no standing class (R53). -/
def standingOf (b : Byte) : Option Standing :=
  if b = 1 then some .control else if b = 2 then some .member else if b = 3 then some .supervised else none

def TurnClass.code : TurnClass → Nat
  | .emergency => 0 | .standing c => c.code

def EndCause.code : EndCause → Nat
  | .noAnswer => 1 | .declined => 2 | .released => 3 | .idleLimit => 4 | .turnLimit => 5 | .deadman => 6
  | .quota => 7 | .brk => 8 | .preempted => 9 | .noWatch => 10 | .suspended => 11 | .trip => 12
  | .chainFault => 13 | .localControl => 14 | .stationDown => 15 | .linkLost => 16

def Turn.code : Turn → Nat
  | .free => 0 | .offered _ => 1 | .opened _ => 2 | .closing _ => 3

def Mode.code : Mode → Nat
  | .cw => 0 | .voice => 1 | .data => 2 | .fm => 3

/-- The mode of a mode code. -/
def modeOf (b : Byte) : Option Mode :=
  if b = 0 then some .cw else if b = 1 then some .voice else if b = 2 then some .data
  else if b = 3 then some .fm else none

def Reason.code : Reason → Nat
  | .frequency => 1 | .mode => 2 | .power => 3 | .antenna => 4 | .quota => 5 | .noWatch => 6 | .cls => 7
  | .station => 8 | .setting => 9

def ChainState.code : ChainState → Nat
  | .idle => 0 | .ampUp => 1 | .txUp => 2 | .onAir => 3 | .txDown => 4 | .ampDown => 5 | .faulted => 6

def Claimant.code : Claimant → Nat
  | .none => 0 | .holder => 1 | .ident => 2

def KeyDownCause.code : KeyDownCause → Nat
  | .unkey => 1 | .deadman => 2 | .txLimit => 3 | .outOfPrivilege => 4 | .rigSilent => 5 | .idForced => 6
  | .quota => 7 | .turnEnd => 8 | .patternEnd => 9 | .trip => 10 | .localControl => 11 | .fault => 12

def FaultKind.code : FaultKind → Nat
  | .ampEarly => 1 | .ampLate => 2 | .txEarly => 3 | .txLate => 4 | .ampDrop => 5 | .txDrop => 6 | .txStuck => 7

def PowerState.code : PowerState → Nat
  | .off => 0 | .warming => 1 | .ready => 2 | .cooling => 3

/-- R144: the state of the power record. -/
def Power.state : Power → PowerState
  | .off _ => .off | .supplyWait _ => .warming | .warmUp _ => .warming | .ready => .ready | .cooling _ _ => .cooling

/-- The warming stage, 0 outside WARMING. -/
def Power.stageCode : Power → Nat
  | .supplyWait _ => 1 | .warmUp _ => 2 | _ => 0

/-- R128, R144: whether the supply is confirmed. -/
def Power.confirmed : Power → Bool
  | .off _ => false | .supplyWait _ => false | .warmUp _ => true | .ready => true | .cooling _ c => c

/-- The running power timer: the moment of its expiry. -/
def Power.timer : Power → Option Nat
  | .off h => h | .supplyWait t => some t | .warmUp t => some t | .ready => none | .cooling t _ => some t

def Trigger.code : Trigger → Nat
  | .interval => 1 | .closing => 2

def IdOutcome.code : IdOutcome → Nat
  | .sent => 1 | .missed => 2

def IdRecord.code : IdRecord → Nat
  | .clear => 0 | .owed _ _ => 1 | .due _ _ => 2 | .sending _ _ _ => 3

def Element.code : Element → Nat
  | .dit => 1 | .dah => 2 | .charGap => 3 | .wordGap => 4

/-- The element of an element code. -/
def elementOf (b : Byte) : Option Element :=
  if b = 1 then some .dit else if b = 2 then some .dah else if b = 3 then some .charGap
  else if b = 4 then some .wordGap else none

def Retune.code : Retune → Nat
  | .steady => 0 | .switching _ _ => 1 | .awaiting _ _ _ => 2

def RetuneResult.code : RetuneResult → Nat
  | .none => 0 | .done => 1 | .failedTimeout => 2 | .failedMismatch => 3 | .overtaken => 4 | .antennaFault => 5

/-- The code of an input. -/
def inputCode : Input → Nat
  | .refl => 0 | .ampf => 1 | .supok => 2 | .estop => 3 | .localKey => 4 | .ants => 5

def Filter.code : Filter → Nat
  | .quiet => 0 | .headingActive _ => 1 | .active => 2 | .headingQuiet _ => 3

def ItemResult.code : ItemResult → Nat
  | .pass => 1 | .fail => 2 | .notTested => 3

def MemberEntry.code : MemberEntry → Nat
  | .empty => 0 | .enrolled _ => 1 | .damaged => 2

def Antenna.code : Antenna → Nat
  | .absent => 0 | .present _ => 1 | .damaged => 2

def Profile.code : Profile → Nat
  | .valid _ => 0 | .damaged => 1

def Pattern.code : Pattern → Nat
  | .valid _ => 0 | .damaged => 1

def ResetKind.code : ResetKind → Nat
  | .powerOn => 1 | .pin => 2 | .soft => 3 | .clock => 4

def Phase.code : Phase → Nat
  | .setup => 0 | .run => 1

def JournalBody.code : JournalBody → Nat
  | .turn _ _ _ _ _ _ => 1 | .ident _ _ _ => 2 | .trip _ _ _ => 3 | .fault _ => 4 | .power _ _ => 5
  | .watch _ _ => 6 | .warning _ => 7 | .link => 8

/-- R195: the outcome codes. -/
def ReplyOutcome.code : ReplyOutcome → Byte
  | .ok => 0x00 | .noChange => 0x01 | .malformed => 0x10 | .unknownKind => 0x11 | .range => 0x12
  | .wrongSource => 0x13 | .unknownMember => 0x14 | .wrongPhase => 0x15 | .busy => 0x16 | .tooSoon => 0x17
  | .denied _ => 0x18 | .full => 0x19 | .notHolder => 0x1A | .damaged => 0x1B | .localControl => 0x1C
  | .held => 0x1D | .suspended => 0x1E

/-- R162: the accepting outcomes. -/
def ReplyOutcome.accepts : ReplyOutcome → Bool
  | .ok => true | .noChange => true | _ => false

/-! ## Cause sets -/

/-- R195: the bit of a cause. -/
def Cause.bit : Cause → Nat
  | .grant => 0 | .turnEnd => 1 | .keyFault => 2 | .trip => 3 | .idDue => 4 | .power => 5 | .link => 6
  | .frame => 7 | .store => 8 | .journal => 9 | .watch => 10 | .setting => 11

/-- The set of one cause. -/
def Cause.mask (c : Cause) : Half := 1#16 <<< c.bit

/-- Whether a set holds a cause. -/
def hasCause (m : Half) (c : Cause) : Bool := m &&& c.mask != 0

/-- R174, R175: a mark in bits 12 to 15 names no cause. -/
def causesInRange (m : Half) : Bool := m &&& 0xF000#16 == 0

/-! ## One item per input -/

def PerInput.get {α : Type} (p : PerInput α) : Input → α
  | .refl => p.refl | .ampf => p.ampf | .supok => p.supok | .estop => p.estop | .localKey => p.localKey | .ants => p.ants

def PerInput.set {α : Type} (p : PerInput α) (i : Input) (x : α) : PerInput α :=
  match i with
  | .refl => { p with refl := x }
  | .ampf => { p with ampf := x }
  | .supok => { p with supok := x }
  | .estop => { p with estop := x }
  | .localKey => { p with localKey := x }
  | .ants => { p with ants := x }

/-- The same item for every input. -/
def PerInput.all {α : Type} (x : α) : PerInput α := ⟨x, x, x, x, x, x⟩

/-- The items in input order. -/
def PerInput.toList {α : Type} (p : PerInput α) : List α := [p.refl, p.ampf, p.supok, p.estop, p.localKey, p.ants]

/-- R195: an input set, REFL in bit 0. -/
def inputSet (p : PerInput Bool) : Nat :=
  bitOf 0 p.refl + bitOf 1 p.ampf + bitOf 2 p.supok + bitOf 3 p.estop + bitOf 4 p.localKey + bitOf 5 p.ants

/-- R195: the two bytes of a self-check summary, all zeros for "none". -/
def summaryCode : Option SelfCheck → Nat
  | none => 0
  | some c => c.supok.code + 4 * c.ampf.code + 16 * c.refl.code + 64 * c.txc.code + 256 * c.amprdy.code
      + 1024 * c.antenna.code

end Sys2Proof.Machine
end

