-- ==== Sys2Proof/Machine/Records.lean ====
section
/-! DEFINITION. The stored records: their bytes (R198), their record checks (R182) and what a load makes of them (R184). -/

namespace Sys2Proof.Machine

/-! ## Bytes in stored order (R198), without the record check -/

/-- R198: a member entry; every field but the state is zero for EMPTY (R192). -/
def memberBytes : Option Enrolment → List Byte
  | none => zeros 16
  | some e => bytes1 1 ++ padTo 10 e.callsign ++ bytes1 e.standing.code ++ bytes1 e.profile
      ++ bytes2 e.allowance ++ bytes1 (bitOf 0 e.emergency)

/-- R198: one segment slot. -/
def segmentBytes (g : Segment) : List Byte :=
  bytes4 g.lower ++ bytes4 g.upper ++ bytes1 g.modes.toNat ++ bytes2 g.ceiling

/-- R198: a profile; slots beyond the count are zero (R192). -/
def profileBytes (l : List Segment) : List Byte :=
  bytes1 l.length ++ padTo 66 (l.flatMap segmentBytes)

/-- R198: one range slot. -/
def rangeBytes (r : Range) : List Byte := bytes4 r.lower ++ bytes4 r.upper

/-- R198: an antenna entry; every field is zero for ABSENT. -/
def antennaBytes : Option AntennaData → List Byte
  | none => zeros 36
  | some a => bytes1 1 ++ bytes1 a.ranges.length ++ padTo 32 (a.ranges.flatMap rangeBytes) ++ bytes2 a.rating

/-- R198: the ID pattern; slots beyond the count are zero. -/
def patternBytes (l : List Element) : List Byte :=
  bytes1 l.length ++ padTo 96 (l.flatMap fun e => bytes1 e.code)

/-- R198: the 43 bytes of the parameter record. -/
def paramsBytes (p : Params) : List Byte :=
  bytes1 p.deadManWindow ++ bytes2 p.transmissionLimit ++ bytes1 p.reKeyHoldoff ++ bytes2 p.turnLimit
    ++ bytes2 p.idleLimit ++ bytes1 p.offerWindow ++ bytes2 p.idInterval ++ bytes1 p.idGrace ++ bytes1 p.idSpeed
    ++ bytes2 p.linkSupervision ++ bytes2 p.readbackTimeout ++ bytes1 p.rigSilenceLimit ++ bytes1 p.watchPeriod
    ++ bytes1 p.ampReadyEarliest ++ bytes1 p.ampReadyLatest ++ bytes1 p.txConfirmEarliest ++ bytes1 p.txConfirmLatest
    ++ bytes1 p.txDropLimit ++ bytes1 p.ampHold ++ bytes2 p.settleLimit ++ bytes1 p.reflBlanking
    ++ p.filterTimes.toList.flatMap bytes1 ++ bytes1 (bitOf 0 p.reflReport + bitOf 1 p.ampfReport)
    ++ bytes2 p.warmUp ++ bytes2 p.coolDown ++ bytes2 p.restartHoldoff ++ bytes1 p.barefootCeiling
    ++ bytes1 p.classRanking

/-- R198: the parameter record that 43 bytes spell; bits 0 and 1 of the options byte are read. -/
def paramsOf (l : List Byte) : Params where
  deadManWindow := byteAt l 0
  transmissionLimit := halfAt l 1
  reKeyHoldoff := byteAt l 3
  turnLimit := halfAt l 4
  idleLimit := halfAt l 6
  offerWindow := byteAt l 8
  idInterval := halfAt l 9
  idGrace := byteAt l 11
  idSpeed := byteAt l 12
  linkSupervision := halfAt l 13
  readbackTimeout := halfAt l 15
  rigSilenceLimit := byteAt l 17
  watchPeriod := byteAt l 18
  ampReadyEarliest := byteAt l 19
  ampReadyLatest := byteAt l 20
  txConfirmEarliest := byteAt l 21
  txConfirmLatest := byteAt l 22
  txDropLimit := byteAt l 23
  ampHold := byteAt l 24
  settleLimit := halfAt l 25
  reflBlanking := byteAt l 27
  filterTimes := ⟨byteAt l 28, byteAt l 29, byteAt l 30, byteAt l 31, byteAt l 32, byteAt l 33⟩
  reflReport := byteAt l 34 % 2 == 1
  ampfReport := byteAt l 34 / 2 % 2 == 1
  warmUp := halfAt l 35
  coolDown := halfAt l 37
  restartHoldoff := halfAt l 39
  barefootCeiling := byteAt l 41
  classRanking := byteAt l 42

/-- Section 10.2: the defaults. -/
def Params.default : Params where
  deadManWindow := 30
  transmissionLimit := 180
  reKeyHoldoff := 10
  turnLimit := 1200
  idleLimit := 120
  offerWindow := 15
  idInterval := 600
  idGrace := 60
  idSpeed := 20
  linkSupervision := 50
  readbackTimeout := 500
  rigSilenceLimit := 5
  watchPeriod := 60
  ampReadyEarliest := 5
  ampReadyLatest := 60
  txConfirmEarliest := 2
  txConfirmLatest := 40
  txDropLimit := 40
  ampHold := 20
  settleLimit := 200
  reflBlanking := 30
  filterTimes := PerInput.all 5
  reflReport := false
  ampfReport := false
  warmUp := 180
  coolDown := 120
  restartHoldoff := 30
  barefootCeiling := 100
  classRanking := 0

/-- A number within a range, both ends included. -/
def within (lo hi n : Nat) : Bool := lo ≤ n && n ≤ hi

/-- R185 step 1: every field within its range of section 10.2. -/
def Params.inRange (p : Params) : Bool :=
  within 10 100 p.deadManWindow && within 30 600 p.transmissionLimit && within 2 60 p.reKeyHoldoff
    && within 60 3600 p.turnLimit && within 30 900 p.idleLimit && within 5 60 p.offerWindow
    && within 60 900 p.idInterval && within 10 120 p.idGrace && within 10 30 p.idSpeed
    && within 10 300 p.linkSupervision && within 100 2000 p.readbackTimeout && within 1 30 p.rigSilenceLimit
    && within 5 240 p.watchPeriod && within 0 250 p.ampReadyEarliest && within 0 250 p.ampReadyLatest
    && within 0 250 p.txConfirmEarliest && within 0 250 p.txConfirmLatest && within 5 250 p.txDropLimit
    && within 0 250 p.ampHold && within 20 1000 p.settleLimit && within 0 100 p.reflBlanking
    && p.filterTimes.toList.all (within 0 50) && within 0 600 p.warmUp && within 0 600 p.coolDown
    && within 5 300 p.restartHoldoff && within 5 200 p.barefootCeiling && within 0 5 p.classRanking

/-- R185 step 2: each window's earliest bound is below its latest. -/
def Params.windowsOrdered (p : Params) : Bool :=
  p.ampReadyEarliest < p.ampReadyLatest && p.txConfirmEarliest < p.txConfirmLatest

/-- R192: a mark of the options byte outside bits 0 and 1 is out of range. -/
def optionsInRange (record : List Byte) : Bool := byteAt record 34 < 4

/-! ## Record checks -/

/-- R183: a record with a freshly computed check. -/
def storedFresh {α : Type} (bytes : α → List Byte) (c : α) : Stored α := ⟨c, recordCheck (bytes c)⟩

/-- R184: the stored check matches the contents. -/
def storedSound {α : Type} (bytes : α → List Byte) (r : Stored α) : Bool := recordCheck (bytes r.contents) == r.check

/-- R184: a record whose write a reset cut short fails its check (log entry 11). -/
def storedSpoilt {α : Type} (bytes : α → List Byte) (r : Stored α) : Stored α :=
  ⟨r.contents, ~~~recordCheck (bytes r.contents)⟩

/-- R184: what the load makes of a member record. -/
def loadMember (r : Stored (Option Enrolment)) : MemberEntry :=
  if storedSound memberBytes r then
    match r.contents with
    | none => .empty
    | some e => .enrolled e
  else .damaged

/-- R184: what the load makes of a profile record. -/
def loadProfile (r : Stored (List Segment)) : Profile :=
  if storedSound profileBytes r then .valid r.contents else .damaged

/-- R184: what the load makes of an antenna record. -/
def loadAntenna (r : Stored (Option AntennaData)) : Antenna :=
  if storedSound antennaBytes r then
    match r.contents with
    | none => .absent
    | some a => .present a
  else .damaged

/-- R184: what the load makes of the ID pattern. -/
def loadPattern (r : Stored (List Element)) : Pattern :=
  if storedSound patternBytes r then .valid r.contents else .damaged

end Sys2Proof.Machine
end

