-- ==== Sys2Proof/Machine/Blocks.lean ====
section
/-! DEFINITION. What each block holds, the parameter copies among them, and each block after a reset. A timer is the
moment of its expiry in ms, `none` while stopped; a deadline is a station time. -/

namespace Sys2Proof.Machine

/-! ## Parameter copies (section 10.2, last column) -/

/-- TAR's copy (R7, R8, R21). -/
structure ArbiterCopy where
  ranking : Nat
  turnLimit : Nat
  idleLimit : Nat
  offerWindow : Nat
deriving DecidableEq, Repr

/-- MRG's copy (R40, R48). -/
structure RegisterCopy where
  watchPeriod : Nat
  barefootCeiling : Nat
deriving DecidableEq, Repr

/-- KCH's copy (R61). -/
structure ChainCopy where
  deadManWindow : Nat
  transmissionLimit : Nat
  reKeyHoldoff : Nat
  ampReadyEarliest : Nat
  ampReadyLatest : Nat
  txConfirmEarliest : Nat
  txConfirmLatest : Nat
  txDropLimit : Nat
  ampHold : Nat
deriving DecidableEq, Repr

/-- SEU's copy (R107). -/
structure SettingCopy where
  settleLimit : Nat
  readbackTimeout : Nat
  rigSilenceLimit : Nat
deriving DecidableEq, Repr

/-- IDS's copy (R109). -/
structure SenderCopy where
  speed : Nat
  interval : Nat
  grace : Nat
deriving DecidableEq, Repr

/-- ILM's copy (R124). -/
structure MonitorCopy where
  filterTimes : PerInput Nat
  reflReport : Bool
  ampfReport : Bool
  reflBlanking : Nat
deriving DecidableEq, Repr

/-- SPC's copy (R156). -/
structure PowerCopy where
  warmUp : Nat
  coolDown : Nat
  restartHoldoff : Nat
deriving DecidableEq, Repr

def arbiterCopy (p : Params) : ArbiterCopy := ⟨p.classRanking, p.turnLimit, p.idleLimit, p.offerWindow⟩
def registerCopy (p : Params) : RegisterCopy := ⟨p.watchPeriod, p.barefootCeiling⟩
def chainCopy (p : Params) : ChainCopy :=
  ⟨p.deadManWindow, p.transmissionLimit, p.reKeyHoldoff, p.ampReadyEarliest, p.ampReadyLatest, p.txConfirmEarliest,
    p.txConfirmLatest, p.txDropLimit, p.ampHold⟩
def settingCopy (p : Params) : SettingCopy := ⟨p.settleLimit, p.readbackTimeout, p.rigSilenceLimit⟩
def senderCopy (p : Params) : SenderCopy := ⟨p.idSpeed, p.idInterval, p.idGrace⟩
def monitorCopy (p : Params) : MonitorCopy := ⟨p.filterTimes, p.reflReport, p.ampfReport, p.reflBlanking⟩
def powerCopy (p : Params) : PowerCopy := ⟨p.warmUp, p.coolDown, p.restartHoldoff⟩

/-! ## The blocks -/

/-- The Turn Arbiter. `queue` is in order of joining; `placements` counts the BREAK placements (R20); `acceptances` is the
model's own (log entry 23): it counts the turns that have become OPEN, so that one turn of a member is told from the next. -/
structure Arbiter where
  turn : Turn
  queue : List Entry
  placements : Nat
  acceptances : Nat
  copy : ArbiterCopy
deriving DecidableEq, Repr

/-- The Member Register. `unitOwed` is the model's own (log entry 16): the last unit of the holder's remaining allowance
has been spent on the air, and the event of R43 that takes the count to 0 is still to be taken. -/
structure Register where
  members : Vector MemberSlot 32
  profiles : Vector Profile 8
  watch : Watch
  unitOwed : Bool
  copy : RegisterCopy
deriving DecidableEq, Repr

/-- The Keying Chain: the chain record of R58. `stageStart` is in ms; `onAirStart` and `onAirEnd` (the station time at
leaving ON_AIR, R70) are station times. -/
structure Chain where
  state : ChainState
  claimant : Claimant
  stageStart : Option Nat
  stageTimer : Option Nat
  keyDownCause : Option KeyDownCause
  onAirStart : Option Nat
  onAirEnd : Option Nat
  deadMan : Option Nat
  txLimit : Option Nat
  holdoff : Option Nat
  fault : Option FaultRecord
  last : Option LastTransmission
  copy : ChainCopy
deriving DecidableEq, Repr

/-- The Setting Unit and the rig port. -/
structure SettingUnit where
  confirmed : Confirmed
  retune : Retune
  lastResult : LastResult
  tagCounter : Byte
  antennas : Vector Antenna 4
  selected : BitVec 2
  rigSilence : Option Nat
  rx : Receiver
  tx : RigTransmitter
  copy : SettingCopy
deriving DecidableEq, Repr

/-- The Identification Sender; `tone` is IDTONE asserted. -/
structure Sender where
  record : IdRecord
  tone : Bool
  pattern : Pattern
  copy : SenderCopy
deriving DecidableEq, Repr

/-- The Interlock Monitor. `arisen` is the model's own (log entry 7): the inputs that became ACTIVE (true) or QUIET
(false) in the event in progress and are still to be acted on; it is empty between events. -/
structure Monitor where
  filters : PerInput Filter
  latched : PerInput Bool
  blanking : Option Nat
  arisen : List (Input × Bool)
  copy : MonitorCopy
deriving DecidableEq, Repr

/-- The Station Power Controller. -/
structure PowerControl where
  power : Power
  downRequested : Bool
  since : Option Nat
  selfCheck : Option (SelfCheck × Nat)
  barefoot : Bool
  copy : PowerCopy
deriving DecidableEq, Repr

/-- The Link Port. `supervisionTime` is its parameter copy, in units of 100 ms. -/
structure Link where
  rx : Receiver
  queue : List Frame
  tx : LinkTransmitter
  lost : Bool
  supervision : Option Nat
  corruptNext : Bool
  resetIndication : Bool
  supervisionTime : Nat
deriving DecidableEq, Repr

/-- The Notice Unit: cause sets in the bits of R195. -/
structure NoticeUnit where
  pending : Half
  enabled : Half
  held : Bool
  deferredStore : Bool
  waiting : Bool
deriving DecidableEq, Repr

/-- The non-volatile memory: 46 records (R182). -/
structure Records where
  members : Vector (Stored (Option Enrolment)) 32
  profiles : Vector (Stored (List Segment)) 8
  antennas : Vector (Stored (Option AntennaData)) 4
  params : Stored Params
  pattern : Stored (List Element)
deriving DecidableEq, Repr

/-- A store write in flight and the latest moment of its completion in ms (R183). -/
structure WriteInFlight where
  write : StoreWrite
  latest : Nat
deriving DecidableEq, Repr

/-- The Configuration Store. The flag of R183 is set exactly while `writing` is present; `softReset` is an `rst`
answered OK whose reply is still being sent (R190). -/
structure Store where
  records : Records
  paramsDamaged : Bool
  writing : Option WriteInFlight
  phase : Phase
  resetCause : ResetKind
  softReset : Bool
deriving DecidableEq, Repr

/-- The input lines in their working sense (R143); `resetnLow` is RESETN held low, `code` is ANTS1 and ANTS0. -/
structure Lines where
  supok : Bool
  amprdy : Bool
  txc : Bool
  refl : Bool
  ampf : Bool
  antv : Bool
  code : BitVec 2
  estop : Bool
  localKey : Bool
  resetnLow : Bool
deriving DecidableEq, Repr

/-! ## The factory state (R182) -/

/-- R182: every record in its factory state, each with a matching check. -/
def factoryRecords : Records where
  members := Vector.replicate 32 (storedFresh memberBytes none)
  profiles := Vector.replicate 8 (storedFresh profileBytes [])
  antennas := Vector.replicate 4 (storedFresh antennaBytes none)
  params := storedFresh paramsBytes Params.default
  pattern := storedFresh patternBytes []

/-- R185: the parameters the blocks take at a load: the stored ones, or the defaults if the record is DAMAGED. -/
def loadedParams (r : Records) : Params :=
  if storedSound paramsBytes r.params then r.params.contents else Params.default

/-- R184: at least one of the 46 records fails its check. -/
def anyDamaged (r : Records) : Bool :=
  !(r.members.toList.all (storedSound memberBytes) && r.profiles.toList.all (storedSound profileBytes)
    && r.antennas.toList.all (storedSound antennaBytes) && storedSound paramsBytes r.params
    && storedSound patternBytes r.pattern)

/-! ## Each block after a reset -/

/-- R35: TAR after every reset. -/
def arbiterAfterReset (p : Params) : Arbiter where
  turn := .free
  queue := []
  placements := 0
  acceptances := 0
  copy := arbiterCopy p

/-- R57: MRG after every reset. -/
def registerAfterReset (r : Records) (p : Params) : Register where
  members := r.members.map fun m => { entry := loadMember m, suspended := false, remaining := 0 }
  profiles := r.profiles.map loadProfile
  watch := .inactive
  unitOwed := false
  copy := registerCopy p

/-- R84: KCH after every reset. -/
def chainAfterReset (p : Params) : Chain where
  state := .idle
  claimant := .none
  stageStart := none
  stageTimer := none
  keyDownCause := none
  onAirStart := none
  onAirEnd := none
  deadMan := none
  txLimit := none
  holdoff := none
  fault := none
  last := none
  copy := chainCopy p

/-- R107: SEU after every reset. -/
def settingAfterReset (r : Records) (p : Params) : SettingUnit where
  confirmed := { values := none, fresh := false }
  retune := .steady
  lastResult := { result := .none, owner := none, tag := none, time := none }
  tagCounter := 0
  antennas := r.antennas.map loadAntenna
  selected := 0
  rigSilence := none
  rx := .hunting
  tx := { sending := none, waiting := none }
  copy := settingCopy p

/-- R123: IDS after every reset. -/
def senderAfterReset (r : Records) (p : Params) : Sender where
  record := .clear
  tone := false
  pattern := loadPattern r.pattern
  copy := senderCopy p

/-- R142: ILM after every reset, before the inputs are filtered afresh. -/
def monitorAfterReset (p : Params) : Monitor where
  filters := PerInput.all .quiet
  latched := PerInput.all false
  blanking := none
  arisen := []
  copy := monitorCopy p

/-- R156: SPC after every reset. -/
def powerAfterReset (p : Params) : PowerControl where
  power := .off none
  downRequested := false
  since := none
  selfCheck := none
  barefoot := false
  copy := powerCopy p

/-- R170: LP after every reset. -/
def linkAfterReset (p : Params) : Link where
  rx := .hunting
  queue := []
  tx := .idle
  lost := false
  supervision := none
  corruptNext := false
  resetIndication := true
  supervisionTime := p.linkSupervision

/-- R181: NTU after a reset, before the STORE of the load is deferred or raised. -/
def noticesAfterReset (kind : ResetKind) (n : NoticeUnit) : NoticeUnit :=
  match kind with
  | .soft => { pending := 0, enabled := n.enabled, held := n.held, deferredStore := false, waiting := false }
  | _ => { pending := 0, enabled := 0, held := true, deferredStore := false, waiting := false }

/-- R189: CST after a reset of a kind, with the records as they stand. -/
def storeAfterReset (kind : ResetKind) (r : Records) : Store where
  records := r
  paramsDamaged := !storedSound paramsBytes r.params
  writing := none
  phase := .setup
  resetCause := kind
  softReset := false

end Sys2Proof.Machine
end

