-- ==== Sys2Proof/Machine/State.lean ====
section
/-! DEFINITION. The state of the part, the reasons a command can stop, and the state after reset. -/

namespace Sys2Proof.Machine

/-- Everything the part holds, the levels of its input lines, and the queue of waiting commands.

`clock` is the time in ms since station time was last 0; station time is `clock / 100` (R1).
`choices` is the model's own: it counts the free choices of order consumed so far (log entry 3).
`pending` is the queue of commands, the first to come first (log entry 5).
`powerHeld`, `lines.resetnLow` and a clock that is not good hold the part in reset; `span` is the kind of the reset it is
held in (R189). -/
structure State where
  clock : Nat
  choices : Nat
  pending : List Instr
  lines : Lines
  tar : Arbiter
  mrg : Register
  kch : Chain
  seu : SettingUnit
  ids : Sender
  ilm : Monitor
  spc : PowerControl
  lp : Link
  ntu : NoticeUnit
  journal : List JournalRecord
  cst : Store
  powerHeld : Bool
  clockGood : Bool
  span : Option ResetKind
deriving DecidableEq, Repr

/-- No command faults: every stop the spec describes is a state of the part (a refusal in a reply, FAULTED, a trip
latch, a DAMAGED mark, a reset). -/
inductive Fault where
deriving DecidableEq, Repr

/-- Why a command has no next state. -/
inductive Refusal where
  /-- Raised by an arm of `exec` whose command has no meaning yet; safe: nothing is claimed of it. -/
  | notModelled (mnemonic : String)
deriving DecidableEq, Repr

/-- DESIGN CHOICE (log entry 6): every input line inactive, the sense code 0, RESETN high. -/
def linesAtReset : Lines where
  supok := false
  amprdy := false
  txc := false
  refl := false
  ampf := false
  antv := false
  code := 0
  estop := false
  localKey := false
  resetnLow := false

/-- The part right after a POWER-ON reset in its factory state: the values of R35, R57, R84, R107, R123, R142, R156,
R170, R181 and R189 (log entries 5 and 6). -/
def State.reset : State where
  clock := 0
  choices := 0
  pending := []
  lines := linesAtReset
  tar := arbiterAfterReset Params.default
  mrg := registerAfterReset factoryRecords Params.default
  kch := chainAfterReset Params.default
  seu := settingAfterReset factoryRecords Params.default
  ids := senderAfterReset factoryRecords Params.default
  ilm := monitorAfterReset Params.default
  spc := powerAfterReset Params.default
  lp := linkAfterReset Params.default
  ntu := { pending := 0, enabled := 0, held := true, deferredStore := false, waiting := false }
  journal := []
  cst := storeAfterReset .powerOn factoryRecords
  powerHeld := false
  clockGood := true
  span := none

end Sys2Proof.Machine
end

