-- ==== Sys2Proof/Machine/Operands.lean ====
section
/-! DEFINITION. The operands of requests: kinds, sources, phases and body lengths (R161, R194, R195), and the range tests
and readings of the fields of bodies. -/

namespace Sys2Proof.Machine

/-! ## The request catalogue -/

/-- R195: the kind code. -/
def kindCode : Request → Byte
  | .sta => 0x10 | .mwr _ _ _ _ _ _ _ => 0x11 | .mrd _ => 0x12 | .pfw _ _ _ => 0x13 | .pfr _ => 0x14
  | .anw _ _ _ _ _ => 0x15 | .anr _ => 0x16 | .prw _ => 0x17 | .prr => 0x18 | .idw _ _ => 0x19 | .idr => 0x1A
  | .cls _ => 0x1B | .run => 0x1C | .set => 0x1D | .spw _ => 0x1E | .bft _ => 0x1F | .sus _ _ => 0x20
  | .qrf _ => 0x21 | .qrd => 0x22 | .jrd => 0x23 | .nen _ => 0x24 | .ncl _ => 0x25 | .icl => 0x26 | .fcl => 0x27
  | .tst => 0x28 | .rst => 0x29 | .brkAuthority _ => 0x2A | .req _ _ _ => 0x40 | .hld => 0x41 | .rel => 0x42
  | .key => 0x43 | .unk => 0x44 | .tun _ _ _ _ => 0x45 | .qst => 0x46 | .wch _ => 0x47 | .brkMember _ => 0x48
  | .unknownKind kind _ => kind | .malformed kind _ => kind

/-- R195: the kinds of the member source have codes 0x40 to 0x48. -/
def memberKind (r : Request) : Bool := 0x40 ≤ (kindCode r).toNat && (kindCode r).toNat ≤ 0x48

/-- R161 check 2: the member field suits the kind's source. -/
def sourceSuits (r : Request) (member : Byte) : Bool :=
  if memberKind r then member.toNat < 32 else member == 255

/-- Section 8.4: the one phase in which a kind is taken, or `none` for either. -/
def kindPhase : Request → Option Phase
  | .cls _ => some .setup | .mwr _ _ _ _ _ _ _ => some .setup | .pfw _ _ _ => some .setup
  | .anw _ _ _ _ _ => some .setup | .idw _ _ => some .setup | .prw _ => some .setup | .run => some .setup
  | .req _ _ _ => some .run | .rel => some .run | .brkMember _ => some .run | .brkAuthority _ => some .run
  | .sus _ _ => some .run | .qrf _ => some .run | .wch _ => some .run | .key => some .run | .unk => some .run
  | .hld => some .run | .tun _ _ _ _ => some .run | .set => some .run
  | _ => none

/-- R161 check 5. -/
def phaseSuits (r : Request) (p : Phase) : Bool :=
  match kindPhase r with
  | none => true
  | some q => p == q

/-! ## Range tests and readings -/

/-- R192: a flag byte counts as set when it is non-zero. -/
def flagSet (b : Byte) : Bool := b != 0

/-- R53: a character of a callsign: A to Z, 0 to 9 or "/" (codes 47 to 57 are "/" and the digits). -/
def callsignChar (b : Byte) : Bool :=
  (65 ≤ b.toNat && b.toNat ≤ 90) || (47 ≤ b.toNat && b.toNat ≤ 57)

/-- R192: a callsign ends at its first zero byte. -/
def callsignOf (l : List Byte) : List Byte := l.takeWhile (· != 0)

/-- R53: 3 to 10 characters, each of them allowed. -/
def callsignInRange (c : List Byte) : Bool := within 3 10 c.length && c.all callsignChar

/-- R53 step 2: the enrolment that the fields of an `mwr` body give, if every field is in range. -/
def enrolmentOf (callsign : List Byte) (standing profile : Byte) (allowance : Half) (emergency : Byte) :
    Option Enrolment :=
  match standingOf standing with
  | none => none
  | some c =>
    if callsignInRange (callsignOf callsign) && profile.toNat ≤ 7 && allowance.toNat ≤ 36000 then
      some ⟨callsignOf callsign, c, profile.toNat, allowance.toNat, flagSet emergency⟩
    else none

/-- A frequency of the part: 1,800,000 to 54,000,000 Hz. -/
def frequencyInRange (f : Nat) : Bool := within 1800000 54000000 f

/-- R55 step 2: one counted segment is in range. -/
def segmentInRange (g : SegmentSlot) : Bool :=
  g.lower.toNat < g.upper.toNat && frequencyInRange g.lower.toNat && frequencyInRange g.upper.toNat
    && g.modes &&& 0x0F#8 != 0 && within 1 1500 g.ceiling.toNat

/-- A counted segment as it is stored; bits 4 to 7 of the mode set are unused (R192). -/
def segmentOf (g : SegmentSlot) : Segment := ⟨g.lower.toNat, g.upper.toNat, g.modes.setWidth 4, g.ceiling.toNat⟩

/-- R105 step 2: one counted range is in range. -/
def rangeInRange (r : RangeSlot) : Bool :=
  r.lower.toNat < r.upper.toNat && frequencyInRange r.lower.toNat && frequencyInRange r.upper.toNat

/-- A counted range as it is stored. -/
def rangeOf (r : RangeSlot) : Range := ⟨r.lower.toNat, r.upper.toNat⟩

/-- R105 steps 1 and 2: the entry that the fields of an `anw` body give, if the state and a PRESENT entry are in range. -/
def antennaOf (state count : Byte) (ranges : List RangeSlot) (rating : Half) : Option (Option AntennaData) :=
  if state = 0 then some none
  else if state = 1 then
    let counted := ranges.take count.toNat
    if within 1 4 count.toNat && counted.all rangeInRange && within 1 1500 rating.toNat then
      some (some ⟨counted.map rangeOf, rating.toNat⟩)
    else none
  else none

/-- R121 steps 1 to 3: the pattern that the fields of an `idw` body give, if it is in range. -/
def patternOf (count : Byte) (slots : List Byte) : Option (List Element) :=
  let counted := slots.take count.toNat
  if within 1 96 count.toNat && counted.all (fun b => (elementOf b).isSome) then
    let elements := counted.filterMap elementOf
    if elements.any (fun e => e == .dit || e == .dah) then some elements else none
  else none

/-- R90 step 1: the antenna a `tun` names; `some none` is AUTO. -/
def antennaChoiceOf (b : Byte) : Option (Option (BitVec 2)) :=
  if b = 0xFF then some none
  else if b.toNat < 4 then some (some (b.setWidth 2))
  else none

end Sys2Proof.Machine
end

