-- ==== Sys2Proof/Machine/Ops.lean ====
section
/-! DEFINITION. The named operations over the state: the parts of the state, time, causes, the journal, members, the
antenna sense. -/

namespace Sys2Proof.Machine

/-! ## Writing one part of the state -/

def State.setLines (s : State) (x : Lines) : State := { s with lines := x }
def State.setTar (s : State) (x : Arbiter) : State := { s with tar := x }
def State.setMrg (s : State) (x : Register) : State := { s with mrg := x }
def State.setKch (s : State) (x : Chain) : State := { s with kch := x }
def State.setSeu (s : State) (x : SettingUnit) : State := { s with seu := x }
def State.setIds (s : State) (x : Sender) : State := { s with ids := x }
def State.setIlm (s : State) (x : Monitor) : State := { s with ilm := x }
def State.setSpc (s : State) (x : PowerControl) : State := { s with spc := x }
def State.setLp (s : State) (x : Link) : State := { s with lp := x }
def State.setNtu (s : State) (x : NoticeUnit) : State := { s with ntu := x }
def State.setJournal (s : State) (x : List JournalRecord) : State := { s with journal := x }
def State.setCst (s : State) (x : Store) : State := { s with cst := x }
def State.setClock (s : State) (x : Nat) : State := { s with clock := x }
def State.setPending (s : State) (x : List Instr) : State := { s with pending := x }
def State.setChoices (s : State) (x : Nat) : State := { s with choices := x }
def State.setHold (s : State) (power clock : Bool) (span : Option ResetKind) : State :=
  { s with powerHeld := power, clockGood := clock, span := span }

/-! ## Time -/

/-- R1: station time, in units of 100 ms. -/
def now (s : State) : Nat := s.clock / 100

/-- R189: the part is held in reset. -/
def inReset (s : State) : Bool := s.powerHeld || s.lines.resetnLow || !s.clockGood

/-! ## Members -/

/-- An entry that no member number names. -/
def noMember : MemberSlot := { entry := .empty, suspended := false, remaining := 0 }

/-- R36, R37: the entry of a member with its run-time items. -/
def memberSlot (m : Nat) (s : State) : MemberSlot := s.mrg.members[m]?.getD noMember

/-- Writes a member's entry and run-time items. -/
def setMember (m : Nat) (x : MemberSlot) (s : State) : State :=
  s.setMrg { s.mrg with members := s.mrg.members.setIfInBounds m x }

/-- Writes whether the last unit of the holder's allowance is owed (log entry 16). -/
def State.setUnitOwed (s : State) (b : Bool) : State := s.setMrg { s.mrg with unitOwed := b }

/-- The contents of a member's entry, if it is ENROLLED. -/
def enrolment (m : Nat) (s : State) : Option Enrolment :=
  match (memberSlot m s).entry with
  | .enrolled e => some e
  | _ => none

/-- R37: the member is suspended. -/
def isSuspended (m : Nat) (s : State) : Bool := (memberSlot m s).suspended

/-- R37: the member's allowance is limited: ENROLLED with a stored allowance above 0. -/
def isLimited (m : Nat) (s : State) : Bool :=
  match enrolment m s with
  | none => false
  | some e => e.allowance != 0

/-- R37: the remaining allowance is zero: limited, with the count at 0. -/
def allowanceZero (m : Nat) (s : State) : Bool := isLimited m s && (memberSlot m s).remaining == 0

/-- The member's standing class, if it is ENROLLED. -/
def standing (m : Nat) (s : State) : Option Standing := (enrolment m s).map (·.standing)

/-! ## The turn -/

/-- R4: the holder of the turn. -/
def holder (s : State) : Option Nat :=
  match s.tar.turn with
  | .free => none
  | .offered t => some t.holder
  | .opened t => some t.holder
  | .closing t => some t.holder

/-- R4: the class of the turn. -/
def turnClass (s : State) : Option TurnClass :=
  match s.tar.turn with
  | .free => none
  | .offered t => some t.cls
  | .opened t => some t.cls
  | .closing t => some t.cls

/-- The turn is OPEN. -/
def turnOpen (s : State) : Bool :=
  match s.tar.turn with
  | .opened _ => true
  | _ => false

/-- The turn is OFFERED or OPEN. -/
def turnRunning (s : State) : Bool :=
  match s.tar.turn with
  | .offered _ => true
  | .opened _ => true
  | _ => false

/-- The turn is CLOSING. -/
def turnClosing (s : State) : Bool :=
  match s.tar.turn with
  | .closing _ => true
  | _ => false

def State.setTurn (s : State) (t : Turn) : State := s.setTar { s.tar with turn := t }
def State.setQueue (s : State) (q : List Entry) : State := s.setTar { s.tar with queue := q }

/-- Writes the idle deadline of an OPEN turn. -/
def setIdleDeadline (d : Option Nat) (s : State) : State :=
  match s.tar.turn with
  | .opened t => s.setTurn (.opened { t with idleDeadline := d })
  | _ => s

/-- R10: the idle deadline of an OPEN turn becomes now plus the idle limit. -/
def startIdleDeadline (s : State) : State := setIdleDeadline (some (now s + 10 * s.tar.copy.idleLimit)) s

/-! ## The chain, the setting and the lines, as others read them -/

/-- The chain is IDLE. -/
def chainIdle (s : State) : Bool := s.kch.state == .idle

/-- R58: the chain is at rest, in IDLE or FAULTED. -/
def chainAtRest (s : State) : Bool := s.kch.state == .idle || s.kch.state == .faulted

/-- The chain is ON_AIR with claimant HOLDER. -/
def holderOnAir (s : State) : Bool := s.kch.state == .onAir && s.kch.claimant == .holder

/-- R72, R131: the member for whom the chain runs. -/
def chainMember (s : State) : Option Nat := if s.kch.claimant == .holder then holder s else none

/-- R86: a retune is in flight. -/
def retuneInFlight (s : State) : Bool :=
  match s.seu.retune with
  | .steady => false
  | _ => true

/-- R88: the antenna sense confirms the selection. -/
def senseConfirms (s : State) : Bool := s.lines.antv && s.lines.code == s.seu.selected

/-- R125: a filter state that is ACTIVE or FILTERING with heading QUIET. -/
def Filter.isActive : Filter → Bool
  | .active => true
  | .headingQuiet _ => true
  | _ => false

/-- R125: an input is ACTIVE, in the filtered sense. -/
def inputActive (i : Input) (s : State) : Bool := (s.ilm.filters.get i).isActive

/-- R136: LOCAL is ACTIVE. -/
def localActive (s : State) : Bool := inputActive .localKey s

/-- R130: the trip latch set is non-empty. -/
def anyLatched (s : State) : Bool := s.ilm.latched.toList.any id

/-- R126: the live input set. -/
def liveSet (s : State) : PerInput Bool :=
  ⟨inputActive .refl s, inputActive .ampf s, inputActive .supok s, inputActive .estop s, inputActive .localKey s,
    inputActive .ants s⟩

/-- The station power state is READY. -/
def stationReady (s : State) : Bool := s.spc.power == .ready

/-- R5: a hold condition stands. -/
def selectionHeld (s : State) : Bool :=
  s.cst.phase == .setup || localActive s || anyLatched s || s.kch.state == .faulted || !stationReady s
    || s.spc.downRequested || s.lp.lost

/-! ## Causes and the journal -/

/-- R171, R173: a cause is raised. It joins the pending set unless recording is held; an enabled cause that joins
triggers a notice. -/
def raise (c : Cause) (s : State) : State :=
  if s.ntu.held || hasCause s.ntu.pending c then s
  else s.setNtu { s.ntu with
    pending := s.ntu.pending ||| c.mask
    waiting := s.ntu.waiting || hasCause s.ntu.enabled c }

/-- R177: the gap mark of the record that has become oldest is set. -/
def markOldest : List JournalRecord → List JournalRecord
  | [] => []
  | r :: rest => { r with gap := true } :: rest

/-- R177: the ring of 48 with one more record. -/
def ringAdd (r : JournalRecord) (j : List JournalRecord) : List JournalRecord :=
  if j.length < 48 then j ++ [r] else markOldest (j.drop 1) ++ [r]

/-- R177, R180: a record is written; the count reaching 24 raises JOURNAL. -/
def writeJournal (b : JournalBody) (s : State) : State :=
  let s' := s.setJournal (ringAdd { body := b, gap := false, time := now s } s.journal)
  if s.journal.length = 23 then raise .journal s' else s'

/-! ## The counts of time on the air -/

/-- R11: the on-air total of an OPEN or CLOSING turn grows by `n` tenths. -/
def addOnAir (n : Nat) : Turn → Turn
  | .opened t => .opened { t with onAirTotal := t.onAirTotal + n }
  | .closing t => .closing { t with onAirTotal := t.onAirTotal + n }
  | t => t

/-- R42, R44: the holder's remaining allowance, if limited, falls by `n` tenths. Its last tenth is held back for the event
of R43, so that an event taken before that one finds the count short of 0 (log entry 16). -/
def spendAllowance (n : Nat) (s : State) : State :=
  match holder s with
  | none => s
  | some m =>
    let left := (memberSlot m s).remaining
    if n = 0 || !isLimited m s then s
    else if n < left then
      (setMember m { memberSlot m s with remaining := left - n } s).setUnitOwed false
    else (setMember m { memberSlot m s with remaining := min left 1 } s).setUnitOwed true

/-- R11, R42: `n` units of station time pass; they count while the holder is on the air. -/
def countAir (n : Nat) (s : State) : State :=
  if holderOnAir s then (spendAllowance n s).setTurn (addOnAir n s.tar.turn) else s

/-- Time goes on to a moment in ms, if it has not come yet (R1). -/
def passTo (t : Nat) (s : State) : State :=
  if s.clock < t then countAir (t / 100 - s.clock / 100) (s.setClock t) else s

end Sys2Proof.Machine
end

