-- ==== Sys2Proof/Machine/Filters.lean ====
section
/-! DEFINITION. The fault conditions and filters of the six inputs (R124, R125, R127, R128, R129). -/

namespace Sys2Proof.Machine

/-- R124: the fault condition of an input. -/
def faultCondition (i : Input) (s : State) : Bool :=
  match i with
  | .refl => s.lines.refl && s.ilm.blanking.isNone
  | .ampf => s.lines.ampf && !s.spc.barefoot
  | .supok => !s.lines.supok && s.spc.power.confirmed
  | .estop => s.lines.estop
  | .localKey => s.lines.localKey
  | .ants => !chainAtRest s && !senseConfirms s

/-- Writes a filter record. -/
def setFilter (i : Input) (f : Filter) (s : State) : State :=
  s.setIlm { s.ilm with filters := s.ilm.filters.set i f }

/-- An input becomes ACTIVE or QUIET; what follows is taken at the end of the event (log entry 7). -/
def become (i : Input) (active : Bool) (s : State) : State :=
  s.setIlm { s.ilm with
    filters := s.ilm.filters.set i (if active then .active else .quiet)
    arisen := s.ilm.arisen ++ [(i, active)] }

/-- R125: the filter of an input starts toward ACTIVE or QUIET; a filter time of 0 ends in the same event. -/
def startFilter (i : Input) (active : Bool) (s : State) : State :=
  if s.ilm.copy.filterTimes.get i = 0 then become i active s
  else
    let moment := s.clock + s.ilm.copy.filterTimes.get i
    setFilter i (if active then .headingActive moment else .headingQuiet moment) s

/-- R125: the filter of an input takes the fault condition as it stands. -/
def senseInput (i : Input) (s : State) : State :=
  match s.ilm.filters.get i with
  | .quiet => if faultCondition i s then startFilter i true s else s
  | .headingActive _ => if faultCondition i s then s else setFilter i .quiet s
  | .active => if faultCondition i s then s else startFilter i false s
  | .headingQuiet _ => if faultCondition i s then setFilter i .active s else s

/-- R142: every input is filtered afresh. Where inputs with a filter time of 0 become ACTIVE in the event that ends a reset,
R133 allows either order of their trips, and this one is REFL, AMPF, SUPOK, ESTOP, LOCAL, ANTS (log entry 24, DESIGN
CHOICE). -/
def senseAll (s : State) : State :=
  senseInput .ants (senseInput .localKey (senseInput .estop (senseInput .supok (senseInput .ampf (senseInput .refl s)))))

/-- R125: the filter timer of an input expires. -/
def filterExpires (i : Input) (s : State) : State :=
  match s.ilm.filters.get i with
  | .headingActive _ => become i true s
  | .headingQuiet _ => become i false s
  | _ => s

/-- R127: REFL blanking begins, unless its time is 0. -/
def startBlanking (s : State) : State :=
  if s.ilm.copy.reflBlanking = 0 then s
  else senseInput .refl (s.setIlm { s.ilm with blanking := some (s.clock + s.ilm.copy.reflBlanking) })

/-- R127: REFL blanking ends, if it is running. -/
def stopBlanking (s : State) : State :=
  match s.ilm.blanking with
  | none => s
  | some _ => senseInput .refl (s.setIlm { s.ilm with blanking := none })

end Sys2Proof.Machine
end

