-- ==== Sys2Proof/Machine/PowerOps.lean ====
section
/-! DEFINITION. The passages of the station power state (R144, R148, R149, R151) and the identification missed at OFF
(R120). -/

namespace Sys2Proof.Machine

/-- The cool-down, warm-up and holdoff times are in s. -/
def afterSeconds (n : Nat) (s : State) : Nat := s.clock + 1000 * n

/-- R144: the power record takes a new state: state since, a POWER record with its summary, and the cause POWER. -/
def changePower (p : Power) (summary : Option SelfCheck) (s : State) : State :=
  raise .power (writeJournal (.power p.state summary) (s.setSpc { s.spc with power := p, since := some (now s) }))

/-- Writes the ID record. -/
def setRecord (r : IdRecord) (s : State) : State := s.setIds { s.ids with record := r }

/-- The ID record is OWED or DUE. -/
def idOwed (s : State) : Bool :=
  match s.ids.record with
  | .owed _ _ => true
  | .due _ _ => true
  | _ => false

/-- The ID record is SENDING. -/
def idSending (s : State) : Bool :=
  match s.ids.record with
  | .sending _ _ _ => true
  | _ => false

/-- An ID record is written as MISSED with duration 0, and the record becomes CLEAR. -/
def missIdentification (t : Trigger) (s : State) : State := setRecord .clear (writeJournal (.ident t .missed 0) s)

/-- R120: at OFF, a record still OWED or DUE is MISSED. -/
def missedAtOff (s : State) : State :=
  if idOwed s then missIdentification (if turnClosing s then .closing else .interval) s else s

/-- R151: the entry to OFF, with the summary of its POWER record. -/
def enterOff (summary : Option SelfCheck) (s : State) : State :=
  let s1 := s.setSpc { s.spc with downRequested := false }
  let s2 := changePower (.off (some (afterSeconds s.spc.copy.restartHoldoff s))) summary s1
  missedAtOff (senseInput .supok s2)

/-- R151: the entry to COOLING; a cool-down time of 0 goes on to OFF. -/
def enterCooling (s : State) : State :=
  let s1 := s.setSpc { s.spc with downRequested := false }
  let s2 := changePower (.cooling (afterSeconds s.spc.copy.coolDown s) s.spc.power.confirmed) none s1
  if s.spc.copy.coolDown = 0 then enterOff none s2 else s2

/-- R149: PASS or FAIL. -/
def itemResult (passes : Bool) : ItemResult := if passes then .pass else .fail

/-- R149: the six items, as the lines stand. -/
def selfCheckItems (s : State) : SelfCheck where
  supok := itemResult s.lines.supok
  ampf := if s.spc.barefoot then .notTested else itemResult (!s.lines.ampf)
  refl := itemResult (!s.lines.refl)
  txc := itemResult (!s.lines.txc)
  amprdy := itemResult (!s.lines.amprdy)
  antenna := itemResult (senseConfirms s)

/-- R149: no item is FAIL. -/
def SelfCheck.passes (c : SelfCheck) : Bool :=
  [c.supok, c.ampf, c.refl, c.txc, c.amprdy, c.antenna].all (· != .fail)

/-- R147: the items of a supply failure. -/
def supplyFailure : SelfCheck := ⟨.fail, .notTested, .notTested, .notTested, .notTested, .notTested⟩

/-- R149: the self-check record is written. -/
def recordCheckItems (c : SelfCheck) (s : State) : State := s.setSpc { s.spc with selfCheck := some (c, now s) }

end Sys2Proof.Machine
end

