-- ==== Sys2Proof/Machine/Queue.lean ====
section
/-! DEFINITION. The request queue: ranking, eligibility, joining and selection (R6, R20 to R25). -/

namespace Sys2Proof.Machine

/-! ## Rank (R21) -/

/-- R34: the place, 0 to 2, of a standing class in the order of a ranking number. -/
def classPlace (order : Nat) (c : Standing) : Nat :=
  match order, c with
  | 0, .control => 0 | 0, .member => 1 | 0, .supervised => 2
  | 1, .control => 0 | 1, .supervised => 1 | 1, .member => 2
  | 2, .member => 0 | 2, .control => 1 | 2, .supervised => 2
  | 3, .member => 0 | 3, .supervised => 1 | 3, .control => 2
  | 4, .supervised => 0 | 4, .control => 1 | 4, .member => 2
  | _, .supervised => 0 | _, .member => 1 | _, .control => 2

/-- R21: the key of an entry: its group, and its order within the group; entries of one key keep their order of
joining. -/
def rankKey (order : Nat) (e : Entry) : Nat × Nat :=
  match e.cls, e.placement with
  | .emergency, _ => (0, 0)
  | .standing _, .brk n => (1, n)
  | .standing c, .normal => (2, classPlace order c)

/-- One entry ranks strictly before another by their keys. -/
def keyBefore (a b : Nat × Nat) : Bool := a.1 < b.1 || (a.1 == b.1 && a.2 < b.2)

/-- An entry takes its place before the first entry that ranks after it. -/
def insertRanked (order : Nat) (e : Entry) : List Entry → List Entry
  | [] => [e]
  | x :: rest =>
    if keyBefore (rankKey order e) (rankKey order x) then e :: x :: rest else x :: insertRanked order e rest

/-- R21: the entries in rank order. -/
def ranked (order : Nat) (q : List Entry) : List Entry := q.foldl (fun l e => insertRanked order e l) []

/-- R21: the queue of the state in rank order. -/
def rankedQueue (s : State) : List Entry := ranked s.tar.copy.ranking s.tar.queue

/-- R21: a member's rank, counted from 1 across all entries; 0 if it has no entry. -/
def rankOf (m : Nat) (s : State) : Nat :=
  match (rankedQueue s).findIdx? (fun e => e.member == m) with
  | none => 0
  | some i => i + 1

/-! ## Entries -/

/-- R20: a member's entry. -/
def entryOf (m : Nat) (s : State) : Option Entry := s.tar.queue.find? (fun e => e.member == m)

/-- R22: an entry is eligible unless its class is SUPERVISED and the watch is INACTIVE. -/
def eligible (s : State) (e : Entry) : Bool := e.cls != .standing .supervised || s.mrg.watch != .inactive

/-- A member's entry leaves the queue. -/
def removeEntry (m : Nat) (s : State) : State := s.setQueue (s.tar.queue.filter fun e => e.member != m)

/-- R24: every entry leaves the queue. -/
def emptyQueue (s : State) : State := s.setQueue []

/-- R20: the queue holds 12 entries. -/
def queueFull (s : State) : Bool := 12 ≤ s.tar.queue.length

/-- R25: the lowest-ranked entry. -/
def lowestRanked (s : State) : Option Entry := (rankedQueue s).getLast?

/-- R25: an EMERGENCY entry may displace: some entry is not of class EMERGENCY. -/
def mayDisplace (s : State) : Bool := s.tar.queue.any fun e => e.cls != .emergency

/-- R25: the lowest-ranked entry is removed. -/
def displaceLowest (s : State) : State :=
  match lowestRanked s with
  | none => s
  | some e => removeEntry e.member s

/-- R20: an entry joins, the last in order of joining. -/
def joinQueue (e : Entry) (s : State) : State := s.setQueue (s.tar.queue ++ [e])

/-! ## Selection (R6) -/

/-- R6: the highest-ranked eligible entry. -/
def firstEligible (s : State) : Option Entry := (rankedQueue s).find? (eligible s)

/-- R6: the turn record that an entry's selection makes. -/
def offerTo (e : Entry) (s : State) : OfferedTurn where
  holder := e.member
  cls := e.cls
  offeredAt := now s
  length := e.length
  offerDeadline := now s + 10 * s.tar.copy.offerWindow
  onAirTotal := 0

/-- R6: selection runs, when the turn is FREE and no hold condition stands. -/
def runSelection (s : State) : State :=
  if s.tar.turn == .free && !selectionHeld s then
    match firstEligible s with
    | none => s
    | some e => raise .grant ((removeEntry e.member s).setTurn (.offered (offerTo e s)))
  else s

end Sys2Proof.Machine
end

