-- ==== Sys2Proof/Machine/Turns.lean ====
section
/-! DEFINITION. How a turn becomes FREE (R13, R15, R16, R17, R132). -/

namespace Sys2Proof.Machine

/-- R17: the turn becomes FREE: its TURN record, TURN_END, and then COOLING or selection. -/
def becomeFree (record : JournalBody) (s : State) : State :=
  let s1 := (raise .turnEnd (writeJournal record s)).setTurn .free
  if s1.spc.downRequested && stationReady s1 then enterCooling s1 else runSelection s1

/-- R13: an OFFERED turn ends. -/
def endOffered (cause : EndCause) (t : OfferedTurn) (s : State) : State :=
  becomeFree (.turn t.holder t.cls t.offeredAt 0 0 cause) s

/-- R16, R17: a CLOSING turn becomes FREE. -/
def freeClosing (t : ClosingTurn) (s : State) : State :=
  becomeFree (.turn t.holder t.cls t.openedAt ((now s - t.openedAt) / 10) (t.onAirTotal / 10) t.endCause) s

/-- R14: an OPEN turn with its end cause fixed and its deadlines removed. -/
def closingOf (cause : EndCause) (t : OpenTurn) : ClosingTurn :=
  ⟨t.holder, t.cls, t.offeredAt, t.openedAt, t.onAirTotal, cause⟩

/-- R114: a closing identification that cannot be sent is MISSED. -/
def missClosing (s : State) : State := if idOwed s then missIdentification .closing s else s

/-- R16: a CLOSING turn becomes FREE. -/
def freeIfClosing (s : State) : State :=
  match s.tar.turn with
  | .closing t => freeClosing t s
  | _ => s

/-- R15, R132: a trip, a chain fault or LOCAL finds the chain at rest: the turn ends, what is owed is MISSED, and the
turn is FREE; a CLOSING turn keeps its end cause. -/
def releaseTurn (cause : EndCause) (s : State) : State :=
  match s.tar.turn with
  | .free => s
  | .offered t => endOffered cause t s
  | .opened t => freeIfClosing (missClosing (s.setTurn (.closing (closingOf cause t))))
  | .closing _ => freeIfClosing (missClosing s)

end Sys2Proof.Machine
end

