-- ==== Sys2Proof/Machine/Keying.lean ====
section
/-! DEFINITION. The keying chain: coming to rest, faults, immediate release, key-up, key-down and the identification
claims (R62 to R79, R113 to R118). -/

namespace Sys2Proof.Machine

/-! ## The ID pattern (R109, R116) -/

/-- R109: the units in which IDTONE is asserted. -/
def toneUnits : Element → Nat
  | .dit => 1 | .dah => 3 | .charGap => 0 | .wordGap => 0

/-- R109: the units of an element in all. -/
def elementUnits : Element → Nat
  | .dit => 2 | .dah => 4 | .charGap => 2 | .wordGap => 6

/-- R109: one unit in ms. -/
def unitTime (s : State) : Nat := 1200 / s.ids.copy.speed

/-- R108: the elements of the pattern; a DAMAGED pattern holds none. -/
def patternElements (s : State) : List Element :=
  match s.ids.pattern with
  | .valid l => l
  | .damaged => []

/-- R109: the pattern time in ms. -/
def patternTime (s : State) : Nat := ((patternElements s).map elementUnits).sum * unitTime s

/-- R116: IDTONE is asserted at the start of an element. -/
def toneAt (k : Nat) (s : State) : Bool :=
  match (patternElements s)[k]? with
  | none => false
  | some e => toneUnits e != 0

def State.setTone (s : State) (b : Bool) : State := s.setIds { s.ids with tone := b }

/-- R116: the next moment at which the pattern acts: the end of the asserted units, or of the element. -/
def elementMoment (s : State) : Option Nat :=
  match s.ids.record with
  | .sending _ _ (.running _ k since) =>
    match (patternElements s)[k]? with
    | none => some since
    | some e => some (since + unitTime s * (if s.ids.tone then toneUnits e else elementUnits e))
  | _ => none

/-! ## Coming to rest (R58, R70) -/

/-- R70: the last-transmission record, written as the chain comes to rest after a claim. -/
def writeLast (cause : KeyDownCause) (s : State) : State :=
  let duration :=
    match s.kch.onAirStart with
    | none => 0
    | some t => s.kch.onAirEnd.getD (now s) - t
  s.setKch { s.kch with
    last := some ⟨s.kch.claimant, chainMember s, s.kch.onAirStart, duration, cause⟩ }

/-- R58, R74: the chain comes to rest in IDLE or FAULTED; REFL blanking stops (R127) and the antenna-sense watch ends
(R129). -/
def comeToRest (rest : ChainState) (s : State) : State :=
  senseInput .ants (stopBlanking (s.setKch { s.kch with
    state := rest
    claimant := .none
    stageStart := none
    stageTimer := none
    keyDownCause := none
    onAirStart := none
    onAirEnd := none
    deadMan := none
    txLimit := none }))

/-- R118: the duration of a send that ends early. -/
def abandonedDuration (p : Progress) (s : State) : Nat :=
  match p with
  | .notBegun => 0
  | .running start _ _ => s.clock - start
  | .ended _ => patternTime s

/-- R118: a send is abandoned: MISSED with the turn CLOSING, and DUE again otherwise. -/
def abandonSend (s : State) : State :=
  match s.ids.record with
  | .sending since trigger progress =>
    if turnClosing s then
      setRecord .clear (writeJournal (.ident trigger .missed (abandonedDuration progress s)) (s.setTone false))
    else setRecord (.due since (some (afterSeconds s.ids.copy.grace s))) (s.setTone false)
  | _ => s

/-- R74: immediate release with cause TRIP or LOCAL; an IDLE or FAULTED chain is unchanged. -/
def immediateRelease (cause : KeyDownCause) (s : State) : State :=
  if chainAtRest s then s else abandonSend (comeToRest .idle (writeLast cause s))

/-- R72: a fault is detected. -/
def chainFault (kind : FaultKind) (s : State) : State :=
  let record : FaultRecord := ⟨kind, s.kch.state, s.kch.claimant, chainMember s, now s⟩
  let s1 := comeToRest .faulted (writeLast .fault s)
  let s2 := raise .keyFault (writeJournal (.fault record) (s1.setKch { s1.kch with fault := some record }))
  if s.kch.claimant == .ident then
    let s3 := abandonSend s2
    if turnClosing s3 then releaseTurn .chainFault s3 else s3
  else releaseTurn .chainFault s2

/-! ## Key-up (R62 to R65); `air` is what the entry to ON_AIR does for the claimant -/

/-- R58: a stage begins: its start is now and its timer is loaded, in ms. -/
def beginStage (state : ChainState) (limit : Nat) (s : State) : State :=
  s.setKch { s.kch with state := state, stageStart := some s.clock, stageTimer := some (s.clock + limit) }

/-- R64: the entry to TX_UP. -/
def enterTxUp (air : State → State) (s : State) : State :=
  let s1 := startBlanking (senseInput .ants (beginStage .txUp s.kch.copy.txConfirmLatest s))
  if s1.lines.txc then
    if s1.kch.copy.txConfirmEarliest = 0 then air s1 else chainFault .txEarly s1
  else s1

/-- R62, R63: the entry to AMP_UP. -/
def enterAmpUp (air : State → State) (s : State) : State :=
  let s1 := senseInput .ants (beginStage .ampUp s.kch.copy.ampReadyLatest s)
  if s1.lines.amprdy then
    if s1.kch.copy.ampReadyEarliest = 0 then enterTxUp air s1 else chainFault .ampEarly s1
  else s1

/-- R62: key-up begins for a claimant; an idle deadline that is present is removed (R10). -/
def keyUp (c : Claimant) (air : State → State) (s : State) : State :=
  let s1 := setIdleDeadline none (s.setKch { s.kch with claimant := c })
  if s1.spc.barefoot then enterTxUp air s1 else enterAmpUp air s1

/-- R65: the chain enters ON_AIR. -/
def enterOnAir (s : State) : State :=
  s.setKch { s.kch with state := .onAir, stageStart := none, stageTimer := none, onAirStart := some (now s) }

/-- R65, R116: ON_AIR under claimant IDENT begins the pattern. -/
def onAirIdent (s : State) : State :=
  let s1 := enterOnAir s
  match s1.ids.record with
  | .sending since trigger _ => (setRecord (.sending since trigger (.running s1.clock 0 s1.clock)) s1).setTone (toneAt 0 s1)
  | _ => s1

/-! ## Identification claims (R79, R113, R114) -/

/-- R79: a claim can be taken. -/
def claimable (s : State) : Bool := chainIdle s && !anyLatched s && !localActive s && stationReady s

/-- R79, R113, R114: a claim is taken: the record becomes SENDING and key-up begins under claimant IDENT. -/
def takeClaim (trigger : Trigger) (s : State) : State :=
  match s.ids.record with
  | .owed since _ => keyUp .ident onAirIdent (setRecord (.sending since trigger .notBegun) s)
  | .due since _ => keyUp .ident onAirIdent (setRecord (.sending since trigger .notBegun) s)
  | _ => s

/-- The ID record is DUE. -/
def idDue (s : State) : Bool :=
  match s.ids.record with
  | .due _ _ => true
  | _ => false

/-- R113: the claim for an interval identification, with the record DUE, the turn OPEN and the chain IDLE; a retune in
flight holds it back. -/
def claimInterval (s : State) : State :=
  if idDue s && turnOpen s && chainIdle s && !retuneInFlight s && claimable s then takeClaim .interval s else s

/-- R14, R114, R16: the step of a CLOSING turn whose chain is at rest: FREE with the record CLEAR; otherwise the closing
claim, held back by a retune in flight with the chain IDLE, or MISSED where it cannot be taken. -/
def closingStep (s : State) : State :=
  if turnClosing s && chainAtRest s then
    if idOwed s then
      if chainIdle s && retuneInFlight s then s
      else if claimable s then takeClaim .closing s
      else freeIfClosing (missClosing s)
    else freeIfClosing s
  else s

/-! ## Key-down (R67 to R69) -/

/-- R117: a send that was not cut short has ended. -/
def idSent (s : State) : State :=
  match s.ids.record with
  | .sending _ trigger _ => setRecord .clear (writeJournal (.ident trigger .sent (patternTime s)) s)
  | _ => s

/-- R77: the re-key holdoff is loaded. -/
def loadHoldoff (s : State) : State :=
  s.setKch { s.kch with holdoff := some (afterSeconds s.kch.copy.reKeyHoldoff s) }

/-- R69: key-down completes: the chain rests, the record is written, a TX_LIMIT loads the holdoff, and the blocks that
wait are told. -/
def completeKeyDown (s : State) : State :=
  let cause := s.kch.keyDownCause.getD .unkey
  let s1 := comeToRest .idle (writeLast cause s)
  let s2 := if cause == .txLimit then loadHoldoff s1 else s1
  let s3 := if s.kch.claimant == .ident then idSent s2 else s2
  if turnOpen s3 then claimInterval (startIdleDeadline s3) else closingStep s3

/-- R69: the entry to AMP_DOWN; an amp hold of 0 completes at once. -/
def enterAmpDown (s : State) : State :=
  let s1 := beginStage .ampDown s.kch.copy.ampHold s
  if s.kch.copy.ampHold = 0 then completeKeyDown s1 else s1

/-- R68: the TX_DOWN stage ends. -/
def endTxDown (s : State) : State := if s.spc.barefoot then completeKeyDown s else enterAmpDown s

/-- R68: the entry to TX_DOWN; PTT is released, so REFL blanking stops (R127). -/
def enterTxDown (s : State) : State :=
  let left := if s.kch.state == .onAir then some (now s) else none
  let s1 := beginStage .txDown s.kch.copy.txDropLimit (s.setKch { s.kch with onAirEnd := left })
  let s2 := stopBlanking s1
  if s2.lines.txc then s2 else endTxDown s2

/-- R67: key-down begins: the cause is fixed and the timers of the transmission stop. -/
def beginKeyDown (cause : KeyDownCause) (s : State) : State :=
  s.setKch { s.kch with keyDownCause := some cause, deadMan := none, txLimit := none }

/-- R67: a key-down request for a claimant. -/
def requestKeyDown (cause : KeyDownCause) (c : Claimant) (s : State) : State :=
  if s.kch.claimant == c then
    match s.kch.state with
    | .ampUp => enterAmpDown (beginKeyDown cause s)
    | .txUp => enterTxDown (beginKeyDown cause s)
    | .onAir => enterTxDown (beginKeyDown cause s)
    | _ => s
  else s

/-! ## Ending a turn (R13, R14) -/

/-- Section 1.4, last column: the causes for which TAR asks for a TURN_END key-down. -/
def asksKeyDown : EndCause → Bool
  | .released => true | .turnLimit => true | .brk => true | .preempted => true | .noWatch => true
  | .suspended => true | .stationDown => true | .linkLost => true | _ => false

/-- R14: the holder is keyed: claimant HOLDER in AMP_UP, TX_UP or ON_AIR. -/
def holderKeyed (s : State) : Bool :=
  s.kch.claimant == .holder && (s.kch.state == .ampUp || s.kch.state == .txUp || s.kch.state == .onAir)

/-- R14: an OPEN turn ends. The turn is CLOSING when the key-down it asks for begins (log entry 17). -/
def endOpen (cause : EndCause) (t : OpenTurn) (s : State) : State :=
  let s1 := s.setTurn (.closing (closingOf cause t))
  if asksKeyDown cause && holderKeyed s then requestKeyDown .turnEnd .holder s1 else closingStep s1

/-- R13, R14: an OFFERED or OPEN turn ends with a cause; any other is unchanged (R18). -/
def endTurn (cause : EndCause) (s : State) : State :=
  match s.tar.turn with
  | .offered t => endOffered cause t s
  | .opened t => endOpen cause t s
  | _ => s

/-! ## The holder on the air (R65, R101, R111) -/

/-- R111: a CLEAR ID record becomes OWED, and the interval timer is loaded. -/
def oweIdentification (s : State) : State :=
  match s.ids.record with
  | .clear => setRecord (.owed (now s) (afterSeconds s.ids.copy.interval s)) s
  | _ => s

/-- R42, R65, R76, R101: ON_AIR under claimant HOLDER; the count of the allowance resumes from its value, and a STALE
setting asks for key-down at once. -/
def onAirHolder (s : State) : State :=
  let s1 := (enterOnAir s).setUnitOwed false
  let s2 := oweIdentification (s1.setKch { s1.kch with
    txLimit := some (afterSeconds s1.kch.copy.transmissionLimit s1) })
  if s2.seu.confirmed.fresh then s2 else requestKeyDown .rigSilent .holder s2

/-- R75: the dead-man timer is loaded, in units of 100 ms. -/
def loadDeadMan (s : State) : State :=
  s.setKch { s.kch with deadMan := some (s.clock + 100 * s.kch.copy.deadManWindow) }

/-- R80: key-up begins under claimant HOLDER. -/
def keyUpHolder (s : State) : State := keyUp .holder onAirHolder (loadDeadMan s)

/-- What the entry to ON_AIR does for the claimant of the chain. -/
def onAir (s : State) : State := if s.kch.claimant == .ident then onAirIdent s else onAirHolder s

end Sys2Proof.Machine
end

