-- ==== Sys2Proof/Machine/Interlock.lean ====
section
/-! DEFINITION. What follows when an input becomes ACTIVE or QUIET: trips, reports and LOCAL (R130 to R138, R152). -/

namespace Sys2Proof.Machine

/-- R130: an input's option is TRIP; LOCAL is not latched. -/
def tripOption (i : Input) (s : State) : Bool :=
  match i with
  | .refl => !s.ilm.copy.reflReport
  | .ampf => !s.ilm.copy.ampfReport
  | .localKey => false
  | _ => true

/-- R131, R152: an input trips. A SUPOK trip that has already brought the station to OFF by step 4 (the turn became FREE with
the power-down-requested flag set, and the cool-down time is 0) finds it there at step 5: it enters OFF once and writes
no further POWER record (log entry 25, DESIGN CHOICE). -/
def trip (i : Input) (s : State) : State :=
  let s1 := s.setIlm { s.ilm with latched := s.ilm.latched.set i true }
  let s2 := raise .trip (writeJournal (.trip i s.kch.state (chainMember s)) s1)
  let s3 := releaseTurn .trip (immediateRelease .trip s2)
  if i == .supok && s3.spc.power.state != .off then enterOff none s3 else s3

/-- R135: an input reports. -/
def report (i : Input) (s : State) : State := raise .trip (writeJournal (.warning i) s)

/-- R136: LOCAL becomes ACTIVE. -/
def localBecomesActive (s : State) : State := releaseTurn .localControl (immediateRelease .localControl s)

/-- R113, R138: LOCAL becomes QUIET. -/
def localBecomesQuiet (s : State) : State := runSelection (claimInterval s)

/-- R125: what follows when an input becomes ACTIVE (true) or QUIET (false). -/
def inputBecame (i : Input) (active : Bool) (s : State) : State :=
  match i, active with
  | .localKey, true => localBecomesActive s
  | .localKey, false => localBecomesQuiet s
  | _, true => if tripOption i s then trip i s else report i s
  | _, false => s

/-- What became ACTIVE or QUIET in an event is acted on in its order, at most `fuel` times (log entry 7). -/
def drain : Nat → State → State
  | 0, s => s.setIlm { s.ilm with arisen := [] }
  | fuel + 1, s =>
    match s.ilm.arisen with
    | [] => s
    | (i, active) :: rest => drain fuel (inputBecame i active (s.setIlm { s.ilm with arisen := rest }))

/-- A bound on the steps of `drain`, far above what one event can bring about (six inputs, each turning at most once for
each of the few states it reads). Log entry 7. -/
def drainLimit : Nat := 64

/-- Everything that became ACTIVE or QUIET in the event has been acted on. -/
def settle (s : State) : State := drain drainLimit s

end Sys2Proof.Machine
end

