-- ==== Sys2Proof/Machine/Setting.lean ====
section
/-! DEFINITION. Privilege evaluation, the confirmed setting, retunes and the rig port (R39, R40, R85 to R104). -/

namespace Sys2Proof.Machine

/-! ## Privilege evaluation (R39, R40) -/

/-- R38: the segment contains a frequency. -/
def Segment.contains (g : Segment) (f : Nat) : Bool := within g.lower g.upper f

/-- R38: the segment permits a mode. -/
def Segment.permits (g : Segment) (m : Mode) : Bool := g.modes.getLsbD m.code

/-- R38: the segments of a member's profile; a DAMAGED profile has none. -/
def memberSegments (m : Nat) (s : State) : List Segment :=
  match enrolment m s with
  | none => []
  | some e =>
    match s.mrg.profiles[e.profile]? with
    | some (.valid l) => l
    | _ => []

/-- R87: the contents of an antenna entry that is PRESENT; a DAMAGED entry counts as absent. -/
def antennaData (a : BitVec 2) (s : State) : Option AntennaData :=
  match s.seu.antennas[a.toNat]? with
  | some (.present d) => some d
  | _ => none

/-- R87: the antenna covers a frequency. -/
def AntennaData.covers (d : AntennaData) (f : Nat) : Bool := d.ranges.any fun r => within r.lower r.upper f

/-- R39 step 4: the segment ceiling. -/
def segmentCeiling (l : List Segment) : Nat := (l.map (·.ceiling)).foldl max 0

/-- R39: the privilege check: the effective ceiling (R40), or the reason of the first step that fails. -/
def privilege (m : Nat) (x : Setting) (a : BitVec 2) (s : State) : Except Reason Nat :=
  let segments := memberSegments m s
  let containing := segments.filter (·.contains x.frequency)
  let permitting := containing.filter (·.permits x.mode)
  let ceiling := segmentCeiling permitting
  if isSuspended m s || segments.isEmpty then .error .frequency
  else if containing.isEmpty then .error .frequency
  else if permitting.isEmpty then .error .mode
  else if ceiling < x.power then .error .power
  else
    match antennaData a s with
    | none => .error .antenna
    | some d =>
      if d.rating < x.power then .error .antenna
      else if s.spc.barefoot && s.mrg.copy.barefootCeiling < x.power then .error .power
      else .ok (min (min ceiling d.rating) (if s.spc.barefoot then s.mrg.copy.barefootCeiling else d.rating))

/-- R39: the check passes. -/
def privileged (m : Nat) (x : Setting) (a : BitVec 2) (s : State) : Bool :=
  match privilege m x a s with
  | .ok _ => true
  | .error _ => false

/-! ## The end of a retune (R95) -/

/-- R86: the requested setting, its tag, of a retune in flight. -/
def requested (s : State) : Option (Requested × Option Byte) :=
  match s.seu.retune with
  | .steady => none
  | .switching r _ => some (r, none)
  | .awaiting r tag _ => some (r, some tag)

/-- R95 step 2, R97, R132: the owner of a result: the requester, if the turn in which it asked is still OPEN. Once that turn
has ended there is none, though the requester hold a new OPEN turn by then (log entry 23, DEDUCED). -/
def resultOwner (r : Requested) (s : State) : Option Nat :=
  if turnOpen s && holder s == some r.requester && s.tar.acceptances == r.turn then some r.requester else none

/-- R95 steps 1 to 3: a retune ends. -/
def endRetune (result : RetuneResult) (s : State) : State :=
  match requested s with
  | none => s
  | some (r, tag) =>
    raise .setting (s.setSeu { s.seu with
      retune := .steady
      lastResult := ⟨result, resultOwner r s, tag, some (now s)⟩
      tx := { s.seu.tx with waiting := none } })

/-- R95 step 4: the claims that were held back are made. -/
def claimHeldBack (s : State) : State := if turnOpen s then claimInterval s else closingStep s

/-! ## A retune (R91 to R93) -/

/-- R86: the next tag: the counter plus one, with 255 followed by 1. -/
def nextTag (t : Byte) : Byte := if t = 255 then 1 else t + 1

/-- R104: a SETTING frame is handed to the transmitter. -/
def handFrame (f : SettingFrame) (t : RigTransmitter) : RigTransmitter :=
  match t.sending with
  | none => { sending := some f, waiting := none }
  | some g => { sending := some g, waiting := some f }

/-- R93: the entry to AWAITING. -/
def enterAwaiting (r : Requested) (s : State) : State :=
  let tag := nextTag s.seu.tagCounter
  s.setSeu { s.seu with
    tagCounter := tag
    retune := .awaiting r tag (s.clock + s.seu.copy.readbackTimeout)
    tx := handFrame ⟨tag, r.setting⟩ s.seu.tx }

/-- R92: the entry to SWITCHING; the sense that confirms already goes on to AWAITING. -/
def enterSwitching (r : Requested) (s : State) : State :=
  let s1 := s.setSeu { s.seu with
    selected := r.antenna
    retune := .switching r (s.clock + s.seu.copy.settleLimit) }
  if senseConfirms s1 then enterAwaiting r s1 else s1

/-- R91, R96: an accepted `tun` overtakes a retune in flight and begins its own. -/
def beginRetune (r : Requested) (s : State) : State :=
  let s1 := endRetune .overtaken s
  if r.antenna != s1.seu.selected || !senseConfirms s1 then enterSwitching r s1 else enterAwaiting r s1

/-- R92: a sense line has changed. -/
def senseChanged (s : State) : State :=
  match s.seu.retune with
  | .switching r _ => if senseConfirms s then enterAwaiting r s else s
  | _ => s

/-! ## Readbacks (R94, R98 to R100) -/

/-- R94: a readback matches the requested setting. -/
def readbackMatches (r : Requested) (x : Setting) : Bool :=
  r.setting.frequency ≤ x.frequency + 10 && x.frequency ≤ r.setting.frequency + 10
    && x.mode == r.setting.mode && x.power ≤ r.setting.power

/-- R85, R100: a readback replaces the confirmed setting and reloads the rig silence timer. -/
def confirmSetting (x : Setting) (s : State) : State :=
  s.setSeu { s.seu with
    confirmed := ⟨some x, true⟩
    rigSilence := some (afterSeconds s.seu.copy.rigSilenceLimit s) }

/-- R99: a readback taken with the holder ON_AIR is checked against its privileges. -/
def checkOnAir (x : Setting) (s : State) : State :=
  if holderOnAir s then
    match holder s with
    | none => s
    | some m => if privileged m x s.seu.selected s then s else requestKeyDown .outOfPrivilege .holder s
  else s

/-- R98: an unsolicited readback is taken. -/
def unsolicited (x : Setting) (s : State) : State :=
  let s1 := checkOnAir x (confirmSetting x s)
  if s.seu.confirmed == ⟨some x, true⟩ then s1 else raise .setting s1

/-- R94, R103: a READBACK whose contents passed is taken. -/
def takeReadback (tag : Byte) (x : Setting) (s : State) : State :=
  match s.seu.retune with
  | .awaiting r awaited _ =>
    if tag = awaited then
      claimHeldBack (endRetune (if readbackMatches r x then .done else .failedMismatch)
        (checkOnAir x (confirmSetting x s)))
    else unsolicited x s
  | _ => unsolicited x s

/-- R94, R100: the confirmed setting becomes STALE, its values kept. -/
def staleSetting (s : State) : State :=
  s.setSeu { s.seu with confirmed := { s.seu.confirmed with fresh := false } }

/-- R200: the bytes 1 to 8 of a rig frame. -/
def rigBytes (tag : Byte) (frequency : Word) (mode : Byte) (power : Half) : List Byte :=
  bytes1 tag.toNat ++ bytes4 frequency.toNat ++ bytes1 mode.toNat ++ bytes2 power.toNat

/-- R104, R200: the eleven bytes of a SETTING frame on RTXD. -/
def settingFrameBytes (f : SettingFrame) : List Byte :=
  let b := rigBytes f.tag (BitVec.ofNat 32 f.setting.frequency) (BitVec.ofNat 8 f.setting.mode.code)
    (BitVec.ofNat 16 f.setting.power)
  [0x96] ++ b ++ bytes2 (checkCode b).toNat

/-- R102, R103: a complete READBACK is checked, and taken or discarded; the receiver hunts again. -/
def readbackArrives (tag : Byte) (frequency : Word) (mode : Byte) (power check : Half) (s : State) : State :=
  let s1 := s.setSeu { s.seu with rx := .hunting }
  if check = checkCode (rigBytes tag frequency mode power) then
    match modeOf mode with
    | none => s1
    | some m => if power.toNat ≤ 1500 then takeReadback tag ⟨frequency.toNat, m, power.toNat⟩ s1 else s1
  else s1

/-- R102: the rig receiver takes in one byte: hunting for 0x69, then ten bytes more. -/
def rigByte (s : State) (b : Byte) : State :=
  match s.seu.rx with
  | .hunting => if b = 0x69 then s.setSeu { s.seu with rx := .assembling [] } else s
  | .assembling got =>
    let l := got ++ [b]
    if l.length = 10 then readbackArrives (at8 l 0) (at32 l 1) (at8 l 5) (at16 l 6) (at16 l 8) s
    else s.setSeu { s.seu with rx := .assembling l }

/-- R102: the rig receiver takes in bytes, and a gap, framing error or break then discards what is being assembled. -/
def rigBreak (received : List Byte) (s : State) : State :=
  let s1 := received.foldl rigByte s
  s1.setSeu { s1.seu with rx := .hunting }

/-! ## The timers of the Setting Unit -/

/-- R92: the settle limit passes with the sense not confirming. -/
def settlePasses (s : State) : State := claimHeldBack (endRetune .antennaFault s)

/-- R94: the readback timeout passes. -/
def readbackTimesOut (s : State) : State := claimHeldBack (endRetune .failedTimeout (staleSetting s))

/-- R100: the rig silence timer expires. -/
def rigFallsSilent (s : State) : State :=
  let s1 := staleSetting (s.setSeu { s.seu with rigSilence := none })
  let s2 := if s.seu.confirmed.fresh then raise .setting s1 else s1
  if holderOnAir s2 then requestKeyDown .rigSilent .holder s2 else s2

/-- R104: the sending of a SETTING frame ends; a waiting one is sent next. -/
def settingSent (s : State) : State :=
  match s.seu.tx.sending with
  | none => s
  | some _ => s.setSeu { s.seu with tx := ⟨s.seu.tx.waiting, none⟩ }

/-! ## The choice of antenna (R89) -/

/-- R89: the antenna a `tun` uses, if the choice does not fail. -/
def chooseAntenna (named : Option (BitVec 2)) (frequency power : Nat) (s : State) : Option (BitVec 2) :=
  match named with
  | some a =>
    match antennaData a s with
    | none => none
    | some d => if d.covers frequency then some a else none
  | none =>
    [0#2, 1#2, 2#2, 3#2].find? fun a =>
      match antennaData a s with
      | none => false
      | some d => d.covers frequency && power ≤ d.rating

end Sys2Proof.Machine
end

