-- ==== Sys2Proof/Machine/Flags.lean ====
section
/-! DEFINITION. The status summary and the flag bytes of reply bodies (R163, R195, R196, R197). -/

namespace Sys2Proof.Machine

/-- R163: some cause is both pending and enabled. -/
def noticeField (s : State) : Bool := s.ntu.pending &&& s.ntu.enabled != 0

/-- R163, R195: the sixteen bits of the status summary, as a number. -/
def summaryNumber (s : State) : Nat :=
  bitOf 15 s.lp.resetIndication + bitOf 14 (s.cst.phase == .run) + 4096 * s.spc.power.state.code
    + 1024 * s.tar.turn.code + bitOf 9 (s.kch.state == .onAir) + bitOf 8 (!s.tar.queue.isEmpty)
    + bitOf 7 (anyLatched s) + bitOf 6 (s.kch.state == .faulted) + bitOf 5 (idDue s) + bitOf 4 (localActive s)
    + bitOf 3 (s.mrg.watch != .inactive) + bitOf 2 (noticeField s) + bitOf 1 (!s.journal.isEmpty)
    + bitOf 0 (retuneInFlight s)

/-- R163, R195: the status summary. -/
def statusSummary (s : State) : Half := BitVec.ofNat 16 (summaryNumber s)

/-- R197: the power flags of the status record. -/
def powerFlags (s : State) : Nat :=
  bitOf 0 s.spc.barefoot + bitOf 1 s.spc.downRequested + bitOf 2 s.spc.power.confirmed
    + bitOf 3 (match s.spc.power with
        | .off (some _) => true
        | _ => false)

/-- R199: the flags of a queue entry. -/
def entryFlags (s : State) (e : Entry) : Nat :=
  bitOf 0 (e.placement != .normal) + bitOf 1 (eligible s e) + bitOf 2 e.expiry.isSome + bitOf 3 e.length.isSome

/-- R196: the flags of a `qst` reply. -/
def standingFlags (m : Nat) (s : State) : Nat :=
  bitOf 0 (holder s == some m) + bitOf 1 (entryOf m s).isSome
    + bitOf 2 (match entryOf m s with
        | none => false
        | some e => eligible s e)
    + bitOf 3 (match entryOf m s with
        | none => false
        | some e => e.placement != .normal)
    + bitOf 4 (isSuspended m s) + bitOf 5 (!isLimited m s)

/-- R140: at least one latched input's filter state is QUIET. -/
def anyQuietLatched (s : State) : Bool :=
  [Input.refl, .ampf, .supok, .estop, .localKey, .ants].any fun i => s.ilm.latched.get i && s.ilm.filters.get i == .quiet

/-- R83, R196: the levels of an `fcl` answered HELD. -/
def confirmationLevels (s : State) : Nat := bitOf 0 s.lines.amprdy + bitOf 1 s.lines.txc

end Sys2Proof.Machine
end

