-- ==== Sys2Proof/Machine/Layouts.lean ====
section
/-! DEFINITION. The bodies of replies: R196, the status record of R197, the stored records of R198, and the queue entries
and journal records of R199. -/

namespace Sys2Proof.Machine

/-! ## Times that remain -/

/-- The units of 100 ms that remain to a moment in ms; between two units either may be reported (log entry 9). -/
def remainingUnits (moment : Option Nat) (s : State) : Nat :=
  match moment with
  | none => 0
  | some t =>
    let ms := t - s.clock
    if ms % 100 = 0 then ms / 100 else if Config.roundsUp ms then ms / 100 + 1 else ms / 100

/-- R77, R110, R192: the same for a timer that shows by a value above 0 that it runs (log entry 9). -/
def runningUnits (moment : Option Nat) (s : State) : Nat :=
  if moment.isSome then max 1 (remainingUnits moment s) else 0

/-- The units of 100 ms that remain to a deadline. -/
def remainingTo (deadline : Option Nat) (s : State) : Nat :=
  match deadline with
  | none => 0
  | some d => d - now s

/-! ## The settings -/

/-- R196: a confirmed setting; freshness 0 for one with no values (R195). -/
def confirmedBytes (c : Confirmed) : List Byte :=
  match c.values with
  | none => zeros 8
  | some x => bytes4 x.frequency ++ bytes1 x.mode.code ++ bytes2 x.power ++ bytes1 (if c.fresh then 1 else 2)

/-- R197: the requested setting; the requester is sent as 0xFF while it is absent. -/
def requestedBytes (s : State) : List Byte :=
  match requested s with
  | none => zeros 8 ++ bytes1 255 ++ bytes1 0
  | some (r, tag) =>
    bytes4 r.setting.frequency ++ bytes1 r.setting.mode.code ++ bytes2 r.setting.power ++ bytes1 r.antenna.toNat
      ++ bytes1 r.requester ++ [tag.getD 0]

/-- R197: the last result. -/
def lastResultBytes (l : LastResult) : List Byte :=
  bytes1 l.result.code ++ bytes1 (memberCode l.owner) ++ [l.tag.getD 0] ++ bytes4 (orZero l.time)

/-! ## Queue entries and journal records (R199) -/

/-- R199: a queue entry. -/
def entryBytes (s : State) (e : Entry) : List Byte :=
  bytes1 e.member ++ bytes1 e.cls.code ++ bytes1 (entryFlags s e) ++ bytes4 e.arrival ++ bytes4 (orZero e.expiry)
    ++ bytes2 (orZero e.length)

/-- The fields of a fault record, as R197 and R199 send them. -/
def faultBytes (f : FaultRecord) : List Byte :=
  bytes1 f.kind.code ++ bytes1 f.stage.code ++ bytes1 f.claimant.code ++ bytes1 (memberCode f.member) ++ bytes4 f.time

/-- R199: the fields of a journal record's kind. -/
def journalFields : JournalBody → List Byte
  | .turn m c openedAt duration onAir cause =>
    bytes1 m ++ bytes1 c.code ++ bytes4 openedAt ++ bytes4 duration ++ bytes4 onAir ++ bytes1 cause.code
  | .ident trigger outcome duration => bytes1 trigger.code ++ bytes1 outcome.code ++ bytes4 duration
  | .trip i chain m => bytes1 (inputCode i) ++ bytes1 chain.code ++ bytes1 (memberCode m)
  | .fault f => faultBytes f
  | .power p summary => bytes1 p.code ++ bytes2 (summaryCode summary)
  | .watch m began => bytes1 m ++ bytes1 (if began then 1 else 2)
  | .warning i => bytes1 (inputCode i)
  | .link => []

/-- R199: the 22 bytes of a journal record. -/
def journalBytes (r : JournalRecord) : List Byte :=
  padTo 22 (bytes1 r.body.code ++ bytes1 (bitOf 0 r.gap) ++ bytes4 r.time ++ journalFields r.body)

/-- R179: the empty record, and a count of 0. -/
def emptyJournalBody : List Byte := zeros 23

/-! ## The status record (R197) -/

/-- R197: the power record. -/
def powerBytes (s : State) : List Byte :=
  bytes1 s.spc.power.state.code ++ bytes1 (powerFlags s) ++ bytes1 s.spc.power.stageCode
    ++ bytes2 (remainingUnits s.spc.power.timer s) ++ bytes4 (orZero s.spc.since)

/-- R197: the self-check record, all zero while it is absent. -/
def selfCheckBytes (c : Option (SelfCheck × Nat)) : List Byte :=
  match c with
  | none => zeros 6
  | some (items, time) => bytes2 (summaryCode (some items)) ++ bytes4 time

/-- R197: the turn record; an absent holder is sent as 0xFF, other absent fields as zero (R192). -/
def turnBytes : Turn → List Byte
  | .free => bytes1 0 ++ bytes1 255 ++ zeros 28
  | .offered t =>
    bytes1 1 ++ bytes1 t.holder ++ bytes1 t.cls.code ++ bytes4 t.offeredAt ++ bytes4 t.offerDeadline ++ zeros 12
      ++ bytes2 (orZero t.length) ++ bytes4 t.onAirTotal ++ zeros 1
  | .opened t =>
    bytes1 2 ++ bytes1 t.holder ++ bytes1 t.cls.code ++ bytes4 t.offeredAt ++ zeros 4 ++ bytes4 t.openedAt
      ++ bytes4 t.turnDeadline ++ bytes4 (orZero t.idleDeadline) ++ zeros 2 ++ bytes4 t.onAirTotal ++ zeros 1
  | .closing t =>
    bytes1 3 ++ bytes1 t.holder ++ bytes1 t.cls.code ++ bytes4 t.offeredAt ++ zeros 4 ++ bytes4 t.openedAt ++ zeros 10
      ++ bytes4 t.onAirTotal ++ bytes1 t.endCause.code

/-- R197: the fault record; kind 0 while it is absent. -/
def faultRecordBytes (f : Option FaultRecord) : List Byte :=
  match f with
  | none => zeros 3 ++ bytes1 255 ++ zeros 4
  | some r => faultBytes r

/-- R197: the last-transmission record; claimant 0 while it is absent. -/
def lastBytes (l : Option LastTransmission) : List Byte :=
  match l with
  | none => bytes1 0 ++ bytes1 255 ++ zeros 9
  | some r => bytes1 r.claimant.code ++ bytes1 (memberCode r.member) ++ bytes4 (orZero r.start) ++ bytes4 r.duration
      ++ bytes1 r.cause.code

/-- R197: the ID record. -/
def idBytes (s : State) : List Byte :=
  match s.ids.record with
  | .clear => zeros 8
  | .owed since interval => bytes1 1 ++ bytes4 since ++ bytes2 (remainingUnits (some interval) s) ++ bytes1 0
  | .due since grace => bytes1 2 ++ bytes4 since ++ bytes2 (runningUnits grace s) ++ bytes1 0
  | .sending since trigger _ => bytes1 3 ++ bytes4 since ++ zeros 2 ++ bytes1 trigger.code

/-- R197: the control watch record. Section 11.2 gives no code to the state of the watch; it is sent as 0 for INACTIVE and 1
for ACTIVE, as the WATCH field of the summary shows it (log entry 27, DESIGN CHOICE). -/
def watchBytes : Watch → List Byte
  | .inactive => bytes1 0 ++ bytes1 255 ++ zeros 8
  | .active m began expiry => bytes1 1 ++ bytes1 m ++ bytes4 began ++ bytes4 expiry

/-- R197: the status record; `corrupt` is what its last byte shows (log entry 10). -/
def statusRecord (corrupt : Bool) (s : State) : List Byte :=
  bytes4 (now s) ++ bytes1 s.cst.phase.code ++ bytes1 s.cst.resetCause.code ++ powerBytes s
    ++ selfCheckBytes s.spc.selfCheck ++ turnBytes s.tar.turn ++ bytes1 s.tar.queue.length
    ++ bytes1 s.kch.state.code ++ bytes1 s.kch.claimant.code ++ bytes2 (runningUnits s.kch.holdoff s)
    ++ faultRecordBytes s.kch.fault ++ lastBytes s.kch.last
    ++ bytes1 (inputSet s.ilm.latched) ++ bytes1 (inputSet (liveSet s)) ++ idBytes s ++ watchBytes s.mrg.watch
    ++ bytes1 s.seu.retune.code ++ requestedBytes s ++ lastResultBytes s.seu.lastResult
    ++ confirmedBytes s.seu.confirmed ++ bytes1 s.seu.selected.toNat ++ bytes1 s.journal.length
    ++ bytes2 s.ntu.pending.toNat ++ bytes2 s.ntu.enabled.toNat ++ bytes1 (bitOf 0 s.lp.lost)
    ++ bytes1 (bitOf 0 corrupt)

/-! ## The other bodies (R196) -/

/-- R196: the body of a `req` reply: the member's position as it stands. -/
def positionBody (m : Nat) (s : State) : List Byte :=
  if holder s == some m then bytes1 0 ++ bytes1 1
  else
    bytes1 (rankOf m s) ++ bytes1 (match entryOf m s with
      | none => 0
      | some e => bitOf 1 (eligible s e))

/-- R32: the deadlines that a `qst` from the holder reports: offer, turn and idle. -/
def holderDeadlines (m : Nat) (s : State) : Option Nat × Option Nat × Option Nat :=
  if holder s == some m then
    match s.tar.turn with
    | .offered t => (some t.offerDeadline, none, none)
    | .opened t => (none, some t.turnDeadline, t.idleDeadline)
    | _ => (none, none, none)
  else (none, none, none)

/-- R32: the expiry that a `qst` reports. -/
def entryExpiry (m : Nat) (s : State) : Option Nat :=
  match entryOf m s with
  | none => none
  | some e => e.expiry

/-- R32, R196: the body of a `qst` reply. -/
def standingBody (m : Nat) (s : State) : List Byte :=
  let d := holderDeadlines m s
  let x := entryExpiry m s
  bytes1 (standingFlags m s)
    ++ bytes1 (bitOf 0 d.1.isSome + bitOf 1 d.2.1.isSome + bitOf 2 d.2.2.isSome + bitOf 3 x.isSome)
    ++ bytes1 s.tar.turn.code ++ bytes1 (rankOf m s) ++ bytes1 s.tar.queue.length
    ++ bytes2 (remainingTo d.1 s) ++ bytes2 (remainingTo d.2.1 s) ++ bytes2 (remainingTo d.2.2 s)
    ++ bytes2 (remainingTo x s) ++ bytes2 ((memberSlot m s).remaining / 10) ++ confirmedBytes s.seu.confirmed

/-- R33, R196: the body of a `qrd` reply. -/
def queueBody (s : State) : List Byte :=
  bytes1 s.tar.queue.length ++ (rankedQueue s).flatMap (entryBytes s)

/-- R91, R196: the body of a `tun` reply. -/
def tuneBody (s : State) : List Byte :=
  match requested s with
  | none => zeros 3
  | some (r, tag) => bytes1 r.antenna.toNat ++ bytes1 s.seu.retune.code ++ [tag.getD 0]

/-- R140, R196: the body of an `icl` reply. -/
def latchBody (s : State) : List Byte :=
  bytes1 (inputSet s.ilm.latched) ++
    [Input.refl, .ampf, .supok, .estop, .localKey, .ants].flatMap fun i =>
      bytes1 (if s.ilm.latched.get i then (s.ilm.filters.get i).code else 0)

/-- R54, R196: the body of an `mrd` reply: the `mwr` body, the suspended flag and the remaining allowance. -/
def memberBody (m : Nat) (s : State) : List Byte :=
  let slot := memberSlot m s
  bytes1 m
    ++ (match slot.entry with
      | .empty => memberBytes none
      | .enrolled e => memberBytes (some e)
      | .damaged => bytes1 2 ++ zeros 15)
    ++ bytes1 (bitOf 0 slot.suspended)
    ++ (match slot.entry with
      | .enrolled e => if e.allowance = 0 then bytes4 4294967295 else bytes4 slot.remaining
      | _ => bytes4 0)

/-- R56, R196: the body of a `pfr` reply. -/
def profileBody (i : Nat) (s : State) : List Byte :=
  match s.mrg.profiles[i]? with
  | some (.valid l) => bytes1 0 ++ bytes1 i ++ profileBytes l
  | _ => bytes1 1 ++ bytes1 i ++ profileBytes []

/-- R106, R196: the body of an `anr` reply. -/
def antennaBody (i : Nat) (s : State) : List Byte :=
  bytes1 i
    ++ (match s.seu.antennas[i]? with
      | some (.present a) => antennaBytes (some a)
      | some .damaged => bytes1 2 ++ zeros 35
      | _ => antennaBytes none)
    ++ bytes1 (bitOf 0 (s.seu.selected.toNat == i))

/-- R122, R196: the body of an `idr` reply. -/
def patternBody (s : State) : List Byte :=
  bytes1 s.ids.pattern.code ++ patternBytes (patternElements s) ++ bytes4 (patternTime s)

/-- R186, R196: the body of a `prr` reply. -/
def paramsBody (s : State) : List Byte :=
  if s.cst.paramsDamaged then bytes1 1 ++ zeros 43
  else bytes1 0 ++ paramsBytes s.cst.records.params.contents

end Sys2Proof.Machine
end

