-- ==== Sys2Proof/Machine/Answers.lean ====
section
/-! DEFINITION. What an owner answers to a request (R3, R162), and the operations that requests of several owners share:
the holder test (R12), acceptance (R8), the watch (R48, R51) and the start of a store write (R183). -/

namespace Sys2Proof.Machine

/-- The body of a reply: fixed bytes, or the member's position as it stands after the request's effects (R28). -/
inductive ReplyBody where
  | bytes (l : List Byte)
  | position (m : Nat)
deriving DecidableEq, Repr

/-- What an owner answers: the outcome, the body and the state after its effects. -/
structure Answer where
  outcome : ReplyOutcome
  body : ReplyBody
  state : State

/-- R162: an outcome with an empty body. -/
def answer (o : ReplyOutcome) (s : State) : Answer := ⟨o, .bytes [], s⟩

/-- An outcome with a body. -/
def answerWith (o : ReplyOutcome) (body : List Byte) (s : State) : Answer := ⟨o, .bytes body, s⟩

/-- R162: DENIED with its reason. -/
def deny (r : Reason) (s : State) : Answer := ⟨.denied r, .bytes (bytes1 r.code), s⟩

/-- The bytes of a body. -/
def bodyBytes (b : ReplyBody) (s : State) : List Byte :=
  match b with
  | .bytes l => l
  | .position m => positionBody m s

/-! ## Acceptance and the holder test -/

/-- R8: the turn that an acceptance opens. -/
def acceptedTurn (t : OfferedTurn) (s : State) : OpenTurn where
  holder := t.holder
  cls := t.cls
  offeredAt := t.offeredAt
  openedAt := now s
  turnDeadline := now s + 10 * (match t.length with
    | none => s.tar.copy.turnLimit
    | some n => min n s.tar.copy.turnLimit)
  idleDeadline := some (now s + 10 * s.tar.copy.idleLimit)
  onAirTotal := t.onAirTotal

/-- R8: an offer is accepted, and the turn that becomes OPEN is counted (log entry 23). -/
def acceptOffer (t : OfferedTurn) (s : State) : State :=
  s.setTar { s.tar with turn := .opened (acceptedTurn t s), acceptances := s.tar.acceptances + 1 }

/-- R12, R47: the holder test. `accepts` says whether the kind accepts an offer, `closed` how the holder of a CLOSING
turn is answered, and `owner` takes a request that passes. -/
def holderTest (accepts : Bool) (closed : ReplyOutcome) (m : Nat) (owner : State → Answer) (s : State) : Answer :=
  if isSuspended m s then answer .suspended s
  else if holder s == some m then
    match s.tar.turn with
    | .offered t => owner (if accepts then acceptOffer t s else s)
    | .closing _ => answer closed s
    | _ => owner s
  else answer .notHolder s

/-! ## The control watch -/

/-- R48: the expiry of a watch that begins or is renewed now; the watch period is in min. -/
def watchExpiryFrom (s : State) : Nat := now s + 600 * s.mrg.copy.watchPeriod

def State.setWatch (s : State) (w : Watch) : State := s.setMrg { s.mrg with watch := w }

/-- R48: a watch begins. -/
def beginWatch (m : Nat) (s : State) : State :=
  let s1 := s.setWatch (.active m (now s) (watchExpiryFrom s))
  runSelection (raise .watch (writeJournal (.watch m true) s1))

/-- R51 step 4: a SUPERVISED turn that is OFFERED or OPEN ends NO_WATCH. -/
def endSupervised (s : State) : State :=
  if turnRunning s && turnClass s == some (.standing .supervised) then endTurn .noWatch s else s

/-- R51: an ACTIVE watch ends. -/
def endWatch (s : State) : State :=
  match s.mrg.watch with
  | .inactive => s
  | .active m _ _ => endSupervised (raise .watch (writeJournal (.watch m false) (s.setWatch .inactive)))

/-! ## Store writes (R183) -/

/-- R183: a store write is in flight. -/
def storeBusy (s : State) : Bool := s.cst.writing.isSome

/-- R183: a store write starts. -/
def startWrite (w : StoreWrite) (s : State) : State :=
  s.setCst { s.cst with writing := some ⟨w, s.clock + Config.storeWriteLatest⟩ }

/-- R183: the last check of a write request, and its start. -/
def writeUnlessBusy (w : StoreWrite) (s : State) : Answer :=
  if storeBusy s then answer .busy s else answer .ok (startWrite w s)

/-- R183: a read is refused BUSY while a store write is in flight. -/
def readUnlessBusy (body : List Byte) (s : State) : Answer :=
  if storeBusy s then answer .busy s else answerWith .ok body s

end Sys2Proof.Machine
end

