-- ==== Sys2Proof/Machine/MemberRequests.lean ====
section
/-! DEFINITION. The requests of the Member Register: `mwr`, `mrd`, `pfw`, `pfr`, `sus`, `qrf`, `wch` (R45 to R56). -/

namespace Sys2Proof.Machine

/-- The member numbers. -/
def memberNumbers : List Nat := List.range 32

/-- R53 step 3: another ENROLLED entry carries the callsign. -/
def callsignTaken (m : Nat) (callsign : List Byte) (s : State) : Bool :=
  memberNumbers.any fun k => k != m &&
    match enrolment k s with
    | none => false
    | some e => e.callsign == callsign

/-- R53: `mwr`. -/
def answerMwr (member state : Byte) (callsign : List Byte) (standing profile : Byte) (allowance : Half)
    (emergency : Byte) (s : State) : Answer :=
  if 31 < member.toNat then answer .range s
  else if state = 0 then writeUnlessBusy (.member member.toNat none) s
  else if state = 1 then
    match enrolmentOf callsign standing profile allowance emergency with
    | none => answer .range s
    | some e =>
      if callsignTaken member.toNat e.callsign s then answer .range s
      else writeUnlessBusy (.member member.toNat (some e)) s
  else answer .range s

/-- R54: `mrd`. -/
def answerMrd (m : Nat) (s : State) : Answer :=
  if 31 < m then answer .range s else readUnlessBusy (memberBody m s) s

/-- R55: `pfw`. -/
def answerPfw (index count : Nat) (slots : List SegmentSlot) (s : State) : Answer :=
  if 7 < index || 6 < count then answer .range s
  else if !(slots.take count).all segmentInRange then answer .range s
  else writeUnlessBusy (.profile index ((slots.take count).map segmentOf)) s

/-- R56: `pfr`. -/
def answerPfr (index : Nat) (s : State) : Answer :=
  if 7 < index then answer .range s else readUnlessBusy (profileBody index s) s

/-! ## Suspension (R46) -/

/-- R46: the suspended flag takes a value. -/
def setSuspended (m : Nat) (b : Bool) (s : State) : State := setMember m { memberSlot m s with suspended := b } s

/-- R46 step 3: a holder's OFFERED or OPEN turn ends SUSPENDED. -/
def endHeld (m : Nat) (s : State) : State := if holder s == some m then endTurn .suspended s else s

/-- R46 step 4: a watcher's watch ends. -/
def endWatchOf (m : Nat) (s : State) : State :=
  match s.mrg.watch with
  | .active w _ _ => if w = m then endWatch s else s
  | .inactive => s

/-- R46: an accepted SUSPEND. -/
def suspend (m : Nat) (s : State) : State := endWatchOf m (endHeld m (removeEntry m (setSuspended m true s)))

/-- R46: the first checks of `sus` and `qrf` on the entry they name. -/
def entryRefusal (m : Nat) (s : State) : Option ReplyOutcome :=
  match (memberSlot m s).entry with
  | .empty => some .unknownMember
  | .damaged => some .damaged
  | .enrolled _ => none

/-- R46: `sus`; SUSPEND is 1 and REINSTATE is 2 (R194). -/
def answerSus (m : Nat) (setting : Byte) (s : State) : Answer :=
  if 31 < m || !(setting == 1 || setting == 2) then answer .range s
  else
    match entryRefusal m s with
    | some o => answer o s
    | none =>
      if setting = 1 then
        if isSuspended m s then answer .noChange s else answer .ok (suspend m s)
      else
        if isSuspended m s then answer .ok (setSuspended m false s) else answer .noChange s

/-! ## Allowances (R45) -/

/-- R37, R45: a full remaining allowance, in tenths of a second. -/
def fullAllowance (m : Nat) (s : State) : Nat :=
  match enrolment m s with
  | none => 0
  | some e => 10 * e.allowance

/-- R45: a member's remaining allowance is filled, if it is limited. -/
def refill (m : Nat) (s : State) : State :=
  if isLimited m s then setMember m { memberSlot m s with remaining := fullAllowance m s } s else s

/-- R45, R187: every limited member's remaining allowance is filled. -/
def refillAll (s : State) : State := memberNumbers.foldl (fun s m => refill m s) s

/-- R45: a refill would change the member's count. -/
def refillChanges (m : Nat) (s : State) : Bool := isLimited m s && (memberSlot m s).remaining != fullAllowance m s

/-- R45: `qrf`; 255 names all members. -/
def answerQrf (m : Nat) (s : State) : Answer :=
  if m = 255 then
    answer (if memberNumbers.any (fun k => refillChanges k s) then .ok else .noChange) (refillAll s)
  else if 31 < m then answer .range s
  else
    match entryRefusal m s with
    | some o => answer o s
    | none => if refillChanges m s then answer .ok (refill m s) else answer .noChange s

/-! ## The watch (R49, R50) -/

/-- R49: `wch on` from a CONTROL member that is not suspended. -/
def watchOn (m : Nat) (s : State) : Answer :=
  match s.mrg.watch with
  | .inactive => answer .ok (beginWatch m s)
  | .active w began _ =>
    if w = m then answer .ok (s.setWatch (.active w began (watchExpiryFrom s)))
    else answerWith .busy (bytes1 w) s

/-- R50: `wch off` from a CONTROL member that is not suspended. -/
def watchOff (m : Nat) (s : State) : Answer :=
  match s.mrg.watch with
  | .inactive => answer .notHolder s
  | .active w _ _ => if w = m then answer .ok (endWatch s) else answer .notHolder s

/-- R49, R50: `wch`; ON is 1 and OFF is 2 (R194). -/
def answerWch (m : Nat) (setting : Byte) (s : State) : Answer :=
  if !(setting == 1 || setting == 2) then answer .range s
  else if isSuspended m s then answer .suspended s
  else if standing m s != some .control then deny .cls s
  else if setting = 1 then watchOn m s
  else watchOff m s

end Sys2Proof.Machine
end

