-- ==== Sys2Proof/Machine/LinkRequests.lean ====
section
/-! DEFINITION. The requests of the link band: `sta`, `tst` (R168, R169), `nen`, `ncl`, `jrd` (R174, R175, R179), `prw`,
`prr`, `run`, `set`, `rst` (R185 to R190). -/

namespace Sys2Proof.Machine

/-! ## The Link Port -/

/-- R168: `sta`; `was` is the check-corruption flag before this request's taking cleared it (log entry 10). -/
def answerSta (was : Bool) (s : State) : Answer :=
  let s1 := s.setLp { s.lp with resetIndication := false }
  answerWith .ok (statusRecord (if was then Config.statusShowsClearedFlag else s.lp.corruptNext) s1) s1

/-- R169: `tst`; `was` is the flag before this request's taking cleared it. -/
def answerTst (was : Bool) (s : State) : Answer :=
  if was then answer .noChange s else answer .ok (s.setLp { s.lp with corruptNext := true })

/-! ## The Notice Unit -/

/-- R174 step 1: the recording hold ends, and a deferred STORE joins the pending set. -/
def endHold (n : NoticeUnit) : NoticeUnit :=
  if n.held then
    { n with
      held := false
      deferredStore := false
      pending := if n.deferredStore then n.pending ||| Cause.store.mask else n.pending }
  else n

/-- R174 steps 1 to 3. -/
def enableCauses (causes : Half) (n : NoticeUnit) : NoticeUnit :=
  let n1 := endHold n
  { n1 with
    enabled := causes
    waiting := n.waiting || (n1.pending &&& causes &&& ~~~(n.pending &&& n.enabled) != 0) }

/-- R174: `nen`. -/
def answerNen (causes : Half) (s : State) : Answer :=
  if !causesInRange causes then answer .range s
  else answer (if !s.ntu.held && s.ntu.enabled == causes then .noChange else .ok) (s.setNtu (enableCauses causes s.ntu))

/-- R175: `ncl`. -/
def answerNcl (causes : Half) (s : State) : Answer :=
  if !causesInRange causes then answer .range s
  else
    answer (if s.ntu.pending &&& causes == 0 then .noChange else .ok)
      (s.setNtu { s.ntu with pending := s.ntu.pending &&& ~~~causes })

/-! ## The Journal -/

/-- R179: `jrd`. -/
def answerJrd (s : State) : Answer :=
  match s.journal with
  | [] => answerWith .ok emptyJournalBody s
  | r :: rest => answerWith .ok (journalBytes r ++ bytes1 rest.length) (s.setJournal rest)

/-! ## The Configuration Store -/

/-- R185: `prw`. -/
def answerPrw (record : List Byte) (s : State) : Answer :=
  if !((paramsOf record).inRange && optionsInRange record) then answer .range s
  else if !(paramsOf record).windowsOrdered then answer .range s
  else writeUnlessBusy (.params (paramsOf record)) s

/-- R186: `prr`. -/
def answerPrr (s : State) : Answer := readUnlessBusy (paramsBody s) s

def State.setPhase (s : State) (p : Phase) : State := s.setCst { s.cst with phase := p }

/-- R164: the link supervision timer is loaded, in units of 100 ms. -/
def loadSupervision (s : State) : State :=
  s.setLp { s.lp with supervision := some (s.clock + 100 * s.lp.supervisionTime) }

/-- R187: an accepted `run`. Taken while the link is LOST (its frame arrived before the loss, behind a `set`), it loads the
supervision timer (R164, R187) and leaves the link LOST until a valid frame arrives (R165, R167); the spec leaves this case
open (log entry 30, DESIGN CHOICE). -/
def enterRun (s : State) : State := runSelection (loadSupervision (refillAll (s.setPhase .run)))

/-- R187: `run`. -/
def answerRun (s : State) : Answer :=
  if storeBusy s then answer .busy s
  else if s.cst.paramsDamaged || s.ids.pattern == .damaged then answer .damaged s
  else if (patternElements s).isEmpty then answer .range s
  else answer .ok (enterRun s)

/-- R188: an accepted `set`. -/
def enterSetup (s : State) : State :=
  let s1 := endWatch (emptyQueue s)
  (s1.setLp { s1.lp with supervision := none }).setPhase .setup

/-- R188: `set`. -/
def answerSet (s : State) : Answer :=
  if s.tar.turn == .free && chainIdle s && !idSending s then answer .ok (enterSetup s) else answer .busy s

/-- R190: `rst`; the SOFT reset follows the end of its reply. -/
def answerRst (s : State) : Answer :=
  if storeBusy s then answer .busy s else answer .ok (s.setCst { s.cst with softReset := true })

end Sys2Proof.Machine
end

