-- ==== Sys2Proof/Machine/StationRequests.lean ====
section
/-! DEFINITION. The requests of the station band: `key`, `unk`, `hld`, `fcl` (R80 to R83), `tun`, `anw`, `anr` (R90, R105,
R106), `idw`, `idr` (R121, R122), `icl` (R140), `spw`, `bft` (R146 to R150, R154). -/

namespace Sys2Proof.Machine

/-! ## The Keying Chain -/

/-- R80 steps 6 to 8: the confirmed setting, its privilege check and the antenna sense; `none` if all pass. -/
def settingRefusal (m : Nat) (s : State) : Option Reason :=
  match s.seu.confirmed.fresh, s.seu.confirmed.values with
  | true, some x =>
    match privilege m x s.seu.selected s with
    | .error r => some r
    | .ok _ => if senseConfirms s then none else some .antenna
  | _, _ => some .setting

/-- R80: `key`, after the holder test. -/
def keyStep (m : Nat) (s : State) : Answer :=
  if localActive s then answer .localControl s
  else if anyLatched s || s.kch.state == .faulted then answer .held s
  else if !stationReady s then deny .station s
  else if !chainIdle s || retuneInFlight s || idSending s then answer .busy s
  else if s.kch.holdoff.isSome then answer .tooSoon s
  else
    match settingRefusal m s with
    | some r => deny r s
    | none =>
      if allowanceZero m s then deny .quota s
      else if turnClass s == some (.standing .supervised) && s.mrg.watch == .inactive then deny .noWatch s
      else answer .ok (keyUpHolder s)

/-- R12, R80: `key`. -/
def answerKey (m : Nat) (s : State) : Answer := holderTest true .notHolder m (keyStep m) s

/-- R81: `unk`, after the holder test. -/
def unkeyStep (s : State) : Answer :=
  match s.kch.claimant, s.kch.state with
  | _, .idle => answer .noChange s
  | _, .faulted => answer .noChange s
  | .ident, _ => answer .busy s
  | _, .txDown => answer .noChange s
  | _, .ampDown => answer .noChange s
  | _, _ => answer .ok (requestKeyDown .unkey .holder s)

/-- R12, R81: `unk`. -/
def answerUnk (m : Nat) (s : State) : Answer := holderTest false .noChange m unkeyStep s

/-- R82: `hld`, after the holder test. -/
def holdStep (s : State) : Answer := answer .ok (if s.kch.deadMan.isSome then loadDeadMan s else s)

/-- R12, R82: `hld`. -/
def answerHld (m : Nat) (s : State) : Answer := holderTest true .noChange m holdStep s

/-- R83: an accepted `fcl`. -/
def clearFault (s : State) : State :=
  let s1 := s.setKch { s.kch with state := .idle, fault := none }
  if turnOpen s1 then claimInterval (startIdleDeadline s1) else runSelection s1

/-- R83: `fcl`. -/
def answerFcl (s : State) : Answer :=
  if s.kch.state != .faulted then answer .noChange s
  else if s.lines.amprdy || s.lines.txc then answerWith .held (bytes1 (confirmationLevels s)) s
  else answer .ok (clearFault s)

/-! ## The Setting Unit -/

/-- R90 steps 2 to 5, R91: `tun` with its fields in range. -/
def tuneStep (m : Nat) (x : Setting) (named : Option (BitVec 2)) (s : State) : Answer :=
  if !chainIdle s then answer .busy s
  else if s.spc.power.state == .off || s.spc.power.state == .cooling then deny .station s
  else
    match chooseAntenna named x.frequency x.power s with
    | none => deny .antenna s
    | some a =>
      match privilege m x a s with
      | .error r => deny r s
      | .ok _ =>
        let s1 := beginRetune ⟨x, a, m, s.tar.acceptances⟩ s
        answerWith .ok (tuneBody s1) s1

/-- R90: `tun`, after the holder test. -/
def tuneOwner (m : Nat) (frequency : Word) (mode : Byte) (power : Half) (antenna : Byte) (s : State) : Answer :=
  match modeOf mode, antennaChoiceOf antenna with
  | some md, some named =>
    if within 1 1500 power.toNat then tuneStep m ⟨frequency.toNat, md, power.toNat⟩ named s else answer .range s
  | _, _ => answer .range s

/-- R12, R90: `tun`. -/
def answerTun (m : Nat) (frequency : Word) (mode : Byte) (power : Half) (antenna : Byte) (s : State) : Answer :=
  holderTest true .notHolder m (tuneOwner m frequency mode power antenna) s

/-- R105: `anw`. -/
def answerAnw (index state count : Byte) (ranges : List RangeSlot) (rating : Half) (s : State) : Answer :=
  if 3 < index.toNat then answer .range s
  else
    match antennaOf state count ranges rating with
    | none => answer .range s
    | some a => writeUnlessBusy (.antenna index.toNat a) s

/-- R106: `anr`. -/
def answerAnr (index : Nat) (s : State) : Answer :=
  if 3 < index then answer .range s else readUnlessBusy (antennaBody index s) s

/-! ## The Identification Sender -/

/-- R121: `idw`. -/
def answerIdw (count : Byte) (slots : List Byte) (s : State) : Answer :=
  match patternOf count slots with
  | none => answer .range s
  | some l => writeUnlessBusy (.pattern l) s

/-- R122: `idr`. -/
def answerIdr (s : State) : Answer := readUnlessBusy (patternBody s) s

/-! ## The Interlock Monitor -/

/-- R140: every latched input whose filter state is QUIET is removed. -/
def clearQuiet (s : State) : State :=
  let keep (i : Input) := s.ilm.latched.get i && s.ilm.filters.get i != .quiet
  s.setIlm { s.ilm with
    latched := ⟨keep .refl, keep .ampf, keep .supok, keep .estop, keep .localKey, keep .ants⟩ }

/-- R140: an accepted `icl`; a latch set left empty clears a hold condition. -/
def clearTrips (s : State) : State :=
  let s1 := clearQuiet s
  if anyLatched s1 then s1 else runSelection (claimInterval s1)

/-- R140: `icl`. -/
def answerIcl (s : State) : Answer :=
  if !anyLatched s then answerWith .noChange (latchBody s) s
  else if !anyQuietLatched s then answerWith .held (latchBody s) s
  else answerWith .ok (latchBody (clearTrips s)) (clearTrips s)

/-! ## The Station Power Controller -/

/-- R149: the self-check is made. -/
def makeSelfCheck (s : State) : State :=
  let items := selfCheckItems s
  let s1 := recordCheckItems items s
  if items.passes then runSelection (claimInterval (changePower .ready (some items) s1)) else enterOff (some items) s1

/-- R147, R148: the supply is confirmed and WARM_UP is entered. -/
def confirmSupply (s : State) : State :=
  let s1 := senseInput .supok (s.setSpc { s.spc with power := .warmUp (afterSeconds s.spc.copy.warmUp s) })
  if s.spc.barefoot || s.spc.copy.warmUp = 0 then makeSelfCheck s1 else s1

/-- R147: the entry to WARMING. -/
def enterWarming (s : State) : State :=
  let s1 := changePower (.supplyWait (s.clock + Config.supplyConfirmTime)) none s
  if s.lines.supok then confirmSupply s1 else s1

/-- R145: the power-down-requested flag is cleared; where that clears the last hold condition, selection runs. -/
def clearDownRequest (s : State) : State :=
  if s.spc.downRequested then runSelection (s.setSpc { s.spc with downRequested := false }) else s

/-- R146: `spw up`, with LOCAL QUIET. -/
def powerUp (s : State) : Answer :=
  if s.ilm.latched.estop then answer .held s
  else
    match s.spc.power with
    | .off none => answer .ok (enterWarming s)
    | .off (some _) => answer .tooSoon s
    | .supplyWait _ => answer .noChange s
    | .warmUp _ => answer .noChange s
    | .ready => answer .noChange (clearDownRequest s)
    | .cooling _ _ => answer .tooSoon s

/-- R150: `spw down` in READY with the turn not FREE. -/
def requestDown (s : State) : Answer :=
  if s.spc.downRequested then answer .noChange s
  else answer .ok (endTurn .stationDown (s.setSpc { s.spc with downRequested := true }))

/-- R150: `spw down`, with LOCAL QUIET. -/
def powerDown (s : State) : Answer :=
  match s.spc.power with
  | .off _ => answer .noChange s
  | .cooling _ _ => answer .noChange s
  | .supplyWait _ => answer .ok (enterCooling s)
  | .warmUp _ => answer .ok (enterCooling s)
  | .ready => if s.tar.turn == .free then answer .ok (enterCooling s) else requestDown s

/-- R146, R150: `spw`; UP is 1 and DOWN is 2 (R194). -/
def answerSpw (setting : Byte) (s : State) : Answer :=
  if !(setting == 1 || setting == 2) then answer .range s
  else if localActive s then answer .localControl s
  else if setting = 1 then powerUp s
  else powerDown s

/-- R154: the barefoot flag takes a setting, an event at AMPF's filter (R155). -/
def setBarefoot (b : Bool) (s : State) : State := senseInput .ampf (s.setSpc { s.spc with barefoot := b })

/-- R154: `bft`; ON is 1 and OFF is 2 (R194). -/
def answerBft (setting : Byte) (s : State) : Answer :=
  if !(setting == 1 || setting == 2) then answer .range s
  else if localActive s then answer .localControl s
  else if !chainIdle s || s.spc.power.state == .warming then answer .busy s
  else if s.spc.barefoot == (setting == 1) then answer .noChange s
  else answer .ok (setBarefoot (setting == 1) s)

end Sys2Proof.Machine
end

