-- ==== Sys2Proof/Machine/TurnRequests.lean ====
section
/-! DEFINITION. The requests of the Turn Arbiter: `req`, `rel`, `brk`, `qst`, `qrd`, `cls` (R27 to R34). -/

namespace Sys2Proof.Machine

/-- R27 step 2: 0 for none, or a value within a range. -/
def zeroOr (lo hi n : Nat) : Bool := n == 0 || within lo hi n

/-- R28: the entry of an accepted `req`. -/
def newEntry (m : Nat) (cls : TurnClass) (expiry length : Nat) (s : State) : Entry where
  member := m
  cls := cls
  placement := .normal
  arrival := now s
  expiry := if expiry = 0 then none else some (now s + 10 * expiry)
  length := if length = 0 then none else some length

/-- R28: the request class of a new entry. -/
def requestClass (m : Nat) (emergency : Bool) (s : State) : TurnClass :=
  if emergency then .emergency else .standing ((standing m s).getD .member)

/-- R26: an EMERGENCY entry that joins ends an OFFERED or OPEN turn of another class. -/
def preempt (s : State) : State :=
  if turnRunning s && turnClass s != some .emergency then endTurn .preempted s else s

/-- R28: the effects of an accepted `req`. -/
def takeReq (m : Nat) (emergency : Bool) (expiry length : Nat) (s : State) : State :=
  let s1 := if queueFull s then displaceLowest s else s
  let s2 := joinQueue (newEntry m (requestClass m emergency s) expiry length s) s1
  runSelection (if emergency then preempt s2 else s2)

/-- R27 step 4: the member's entry permits emergency requests. -/
def emergencyPermitted (m : Nat) (s : State) : Bool :=
  match enrolment m s with
  | none => false
  | some e => e.emergency

/-- R27: `req`. -/
def answerReq (m : Nat) (emergency : Bool) (expiry length : Nat) (s : State) : Answer :=
  if isSuspended m s then answer .suspended s
  else if !(zeroOr 10 3600 expiry && zeroOr 60 3600 length) then answer .range s
  else if holder s == some m || (entryOf m s).isSome then ⟨.noChange, .position m, s⟩
  else if emergency && !emergencyPermitted m s then deny .cls s
  else if allowanceZero m s then deny .quota s
  else if queueFull s && !(emergency && mayDisplace s) then answer .full s
  else ⟨.ok, .position m, takeReq m emergency expiry length s⟩

/-- R29: `rel`. -/
def answerRel (m : Nat) (s : State) : Answer :=
  if isSuspended m s then answer .suspended s
  else if holder s == some m then
    match s.tar.turn with
    | .offered _ => answer .ok (endTurn .declined s)
    | .opened _ => answer .ok (endTurn .released s)
    | _ => answer .noChange s
  else if (entryOf m s).isSome then answer .ok (removeEntry m s)
  else answer .notHolder s

/-! ## `brk` (R30, R31) -/

/-- R31 step 2: the entry that joins for the breaker. -/
def breakEntry (m : Nat) (s : State) : Entry where
  member := m
  cls := .standing .control
  placement := .brk s.tar.placements
  arrival := now s
  expiry := none
  length := none

/-- R31 step 3: an entry of placement NORMAL takes placement BREAK, the latest. -/
def moveToBreak (m order : Nat) (e : Entry) : Entry :=
  if e.member = m ∧ e.placement = .normal then { e with placement := .brk order } else e

/-- R31 steps 2 and 3: the breaker's entry is placed. -/
def placeBreak (m : Nat) (s : State) : State :=
  let s1 := s.setTar { s.tar with placements := s.tar.placements + 1 }
  match entryOf m s with
  | none => joinQueue (breakEntry m s) s1
  | some e => if e.placement = .normal then s1.setQueue (s.tar.queue.map (moveToBreak m s.tar.placements)) else s

/-- R31: an accepted `brk`, with the member to place if the take flag is set. The entry is placed before the turn ends,
so that the selection of step 4 finds it (log entry 8). -/
def takeBrk (placed : Option Nat) (s : State) : State :=
  let s1 := match placed with
    | none => s
    | some m => placeBreak m s
  runSelection (endTurn .brk s1)

/-- R31: the outcome is NO_CHANGE with the turn FREE or CLOSING and nothing to place. -/
def brkOutcome (placed : Option Nat) (s : State) : ReplyOutcome :=
  if turnRunning s then .ok
  else
    match placed with
    | none => .noChange
    | some m =>
      match entryOf m s with
      | none => .ok
      | some e => if e.placement = .normal then .ok else .noChange

/-- R31: the answer to an accepted `brk`. -/
def acceptBrk (placed : Option Nat) (s : State) : Answer := answer (brkOutcome placed s) (takeBrk placed s)

/-- R30: `brk` from the station authority. -/
def answerBrkAuthority (take : Bool) (s : State) : Answer :=
  if take then answer .range s else acceptBrk none s

/-- R30: `brk` from a member. -/
def answerBrkMember (m : Nat) (take : Bool) (s : State) : Answer :=
  if isSuspended m s then answer .suspended s
  else if standing m s != some .control then deny .cls s
  else if holder s == some m then answer .busy s
  else if turnRunning s && turnClass s == some .emergency then deny .cls s
  else if take && allowanceZero m s then deny .quota s
  else if take && (entryOf m s).isNone && queueFull s then answer .full s
  else acceptBrk (if take then some m else none) s

/-! ## The reads and the ranking -/

/-- R32: `qst`. -/
def answerQst (m : Nat) (s : State) : Answer := answerWith .ok (standingBody m s) s

/-- R33: `qrd`. -/
def answerQrd (s : State) : Answer := answerWith .ok (queueBody s) s

/-- R34: `cls`. -/
def answerCls (order : Nat) (s : State) : Answer :=
  if 5 < order then answer .range s
  else if storeBusy s then answer .busy s
  else if s.cst.paramsDamaged then answer .damaged s
  else if s.cst.records.params.contents.classRanking = order then answer .noChange s
  else answer .ok (startWrite (.ranking { s.cst.records.params.contents with classRanking := order }) s)

end Sys2Proof.Machine
end

