-- ==== Sys2Proof/Machine/LinkPort.lean ====
section
/-! DEFINITION. The Link Port: the general checks, the taking of requests, replies and notices, and the receiver (R157 to
R166, R169, R173). -/

namespace Sys2Proof.Machine

/-! ## The owners -/

/-- R161: a request that has passed the general checks is handed to its owner. `was` is the check-corruption flag before
its taking cleared it (R169). The kinds that no check passes answer nothing here. -/
def ownerAnswer (r : Request) (member : Byte) (was : Bool) (s : State) : Answer :=
  match r with
  | .sta => answerSta was s
  | .mwr m state callsign standing profile allowance emergency =>
    answerMwr m state callsign standing profile allowance emergency s
  | .mrd m => answerMrd m.toNat s
  | .pfw index count slots => answerPfw index.toNat count.toNat slots s
  | .pfr index => answerPfr index.toNat s
  | .anw index state count ranges rating => answerAnw index state count ranges rating s
  | .anr index => answerAnr index.toNat s
  | .prw record => answerPrw record s
  | .prr => answerPrr s
  | .idw count slots => answerIdw count slots s
  | .idr => answerIdr s
  | .cls order => answerCls order.toNat s
  | .run => answerRun s
  | .set => answerSet s
  | .spw setting => answerSpw setting s
  | .bft setting => answerBft setting s
  | .sus m setting => answerSus m.toNat setting s
  | .qrf m => answerQrf m.toNat s
  | .qrd => answerQrd s
  | .jrd => answerJrd s
  | .nen causes => answerNen causes s
  | .ncl causes => answerNcl causes s
  | .icl => answerIcl s
  | .fcl => answerFcl s
  | .tst => answerTst was s
  | .rst => answerRst s
  | .brkAuthority take => answerBrkAuthority (flagSet take) s
  | .req emergency expiry length => answerReq member.toNat (flagSet emergency) expiry.toNat length.toNat s
  | .hld => answerHld member.toNat s
  | .rel => answerRel member.toNat s
  | .key => answerKey member.toNat s
  | .unk => answerUnk member.toNat s
  | .tun frequency mode power antenna => answerTun member.toNat frequency mode power antenna s
  | .qst => answerQst member.toNat s
  | .wch setting => answerWch member.toNat setting s
  | .brkMember take => answerBrkMember member.toNat (flagSet take) s
  | .unknownKind _ _ => answer .unknownKind s
  | .malformed _ _ => answer .malformed s

/-! ## The general checks (R161) -/

/-- R161 check 1: the kind is outside the catalogue. -/
def kindUnknown : Request → Bool
  | .unknownKind _ _ => true
  | _ => false

/-- R161 check 4: what a member kind's entry answers, if it is not ENROLLED. -/
def memberRefusal (r : Request) (member : Byte) (s : State) : Option ReplyOutcome :=
  if memberKind r then entryRefusal member.toNat s else none

/-- R161: the first general check that fails. -/
def generalRefusal (f : Frame) (s : State) : Option ReplyOutcome :=
  if kindUnknown f.request then some .unknownKind
  else if !sourceSuits f.request f.member then some .wrongSource
  else if !f.request.shaped then some .malformed
  else
    match memberRefusal f.request f.member s with
    | some o => some o
    | none => if phaseSuits f.request s.cst.phase then none else some .wrongPhase

/-- R10: a member's request that passes the general checks reloads the idle deadline of the turn it holds, if the
deadline is present. -/
def reloadIdle (f : Frame) (s : State) : State :=
  match s.tar.turn with
  | .opened t =>
    if memberKind f.request && t.holder == f.member.toNat && t.idleDeadline.isSome then startIdleDeadline s else s
  | _ => s

/-- R161: the general checks, and then the owner. -/
def answerFrame (f : Frame) (was : Bool) (s : State) : Answer :=
  match generalRefusal f s with
  | some o => answer o s
  | none => ownerAnswer f.request f.member was (reloadIdle f s)

/-! ## Replies (R160) -/

/-- R193: the bytes of a reply that its check code covers. -/
def replyBytes (kind tag : Byte) (o : ReplyOutcome) (summary : Half) (body : List Byte) : List Byte :=
  bytes1 (5 + body.length) ++ [kind, tag, o.code] ++ bytes2 summary.toNat ++ body

/-- R160, R169: the reply, its check code with the lowest bit inverted if the flag was set. The kind of a reply is the
request's plus 0x80; for a kind of 0x80 or above, which no row of the catalogue has, the spec gives no kind that fits a
byte, and the sum is taken modulo 256 (log entry 26, DESIGN CHOICE). -/
def replyOf (f : Frame) (o : ReplyOutcome) (body : List Byte) (was : Bool) (s : State) : Reply :=
  let kind := kindCode f.request + 0x80
  let check := checkCode (replyBytes kind f.tag o (statusSummary s) body)
  { kind := kind
    tag := f.tag
    outcome := o
    summary := statusSummary s
    body := body
    check := if was then check ^^^ 1#16 else check }

def State.setTransmitter (s : State) (t : LinkTransmitter) : State := s.setLp { s.lp with tx := t }

/-- R159 to R162, R169: a request is taken: the check-corruption flag clears, the checks and the owner answer, what
follows in the event follows, and the reply is fixed and its sending begins. -/
def takeFrame (f : Frame) (s : State) : State :=
  let was := s.lp.corruptNext
  let a := answerFrame f was (s.setLp { s.lp with corruptNext := false })
  let s1 := settle a.state
  s1.setTransmitter (.replying (replyOf f a.outcome (bodyBytes a.body s1) was s1))

/-- R159: the oldest request is taken; with none, the transmitter is IDLE. -/
def takeOldest (s : State) : State :=
  match s.lp.queue with
  | [] => s.setTransmitter .idle
  | f :: rest => takeFrame f (s.setLp { s.lp with queue := rest, tx := .idle })

/-! ## Notices (R159, R173) -/

/-- R173: a notice's sending begins with the pending set and the summary as they stand. -/
def sendNotice (s : State) : State :=
  let s1 := s.setNtu { s.ntu with waiting := false }
  s1.setTransmitter (.notifying ⟨s1.ntu.pending, statusSummary s1⟩)

/-- R159: with the transmitter IDLE, a waiting notice is sent. -/
def pumpNotice (s : State) : State := if s.lp.tx == .idle && s.ntu.waiting then sendNotice s else s

/-- R193: the bytes of a notice that its check code covers. -/
def noticeBytes (n : Notice) : List Byte := bytes1 4 ++ bytes2 n.pending.toNat ++ bytes2 n.summary.toNat

/-- R193: the frame that is on LTXD, whole: a reply or a notice. -/
def transmittedBytes (t : LinkTransmitter) : List Byte :=
  match t with
  | .idle => []
  | .replying r =>
    [0x3C] ++ bytes1 (5 + r.body.length) ++ [r.kind, r.tag, r.outcome.code] ++ bytes2 r.summary.toNat ++ r.body
      ++ bytes2 r.check.toNat
  | .notifying n => [0x5A] ++ noticeBytes n ++ bytes2 (checkCode (noticeBytes n)).toNat

/-! ## An event -/

/-- An event outside reset: its own effects, what follows from inputs that became ACTIVE or QUIET in it, and a notice
that it triggers. Where an event raises several enabled causes with the transmitter IDLE, R173 does not say at which of them
the sending begins; one notice begins at the end of the event and carries them all (log entry 29, DESIGN CHOICE). Nothing is
acted on while the part is held in reset (R189). -/
def event (f : State → State) (s : State) : State := if inReset s then s else pumpNotice (settle (f s))

/-! ## Arrival (R158, R164, R166) -/

/-- R157: a request frame is discarded. -/
def discardFrame (s : State) : State := raise .frame (s.setLp { s.lp with rx := .hunting })

/-- R166: a LOST link recovers; the timer is loaded in RUN, and reloaded if it runs (R164). -/
def recoverLink (s : State) : State :=
  let s1 := raise .link (s.setLp { s.lp with lost := false })
  runSelection (if s1.cst.phase == .run || s1.lp.supervision.isSome then loadSupervision s1 else s1)

/-- R164, R166: the arrival of a valid frame recovers a LOST link, or reloads a running supervision timer. -/
def validArrival (s : State) : State :=
  if s.lp.lost then recoverLink s else if s.lp.supervision.isSome then loadSupervision s else s

/-- R158, R159: a frame whose check code passes joins the receive queue, and is taken if the transmitter is IDLE; with
four frames waiting it is discarded unchecked. Where the arrival itself triggers a notice with the transmitter IDLE (it
recovers a LOST link, and LINK or a cause of the selection that follows is enabled), R159 allows either order of arrival and
trigger; the request is taken and the notice waits for the end of its reply (log entry 28, DESIGN CHOICE). -/
def frameArrives (f : Frame) (s : State) : State :=
  if 4 ≤ s.lp.queue.length then discardFrame s
  else
    let s1 := validArrival (s.setLp { s.lp with rx := .hunting })
    let s2 := s1.setLp { s1.lp with queue := s1.lp.queue ++ [f] }
    if s2.lp.tx == .idle then takeOldest s2 else s2

/-- R2, R157: the check code of the frame's bytes matches its last two. -/
def frameChecks (bytes : List Byte) : Bool :=
  checkCode (bytes.take (bytes.length - 2)) == at16 bytes (bytes.length - 2)

/-- R157, R158: a complete frame arrives. -/
def frameComplete (bytes : List Byte) (s : State) : State :=
  if 4 ≤ s.lp.queue.length then discardFrame s
  else if frameChecks bytes then frameArrives (frameOf bytes) s
  else discardFrame s

/-- R157: the receiver takes in one byte. -/
def linkByte (s : State) (b : Byte) : State :=
  match s.lp.rx with
  | .hunting => if b = 0xC3 then s.setLp { s.lp with rx := .assembling [] } else s
  | .assembling got =>
    let l := got ++ [b]
    if !lengthInRange (at8 l 0).toNat then discardFrame s
    else if l.length = (at8 l 0).toNat + 3 then frameComplete l s
    else s.setLp { s.lp with rx := .assembling l }

/-- R157: the receiver takes in bytes, and a gap, framing error or break then discards a frame being assembled. -/
def linkBreak (received : List Byte) (s : State) : State :=
  let s1 := received.foldl linkByte s
  match s1.lp.rx with
  | .hunting => s1
  | .assembling _ => discardFrame s1

/-- R157: a sync byte, and a length byte; one out of range discards the frame at once. -/
def lengthArrives (length : Byte) (s : State) : State :=
  linkByte (s.setLp { s.lp with rx := .assembling [] }) length

/-! ## The loss of the link (R165) -/

/-- R165: the link supervision timer expires. -/
def loseLink (s : State) : State :=
  let s1 := s.setLp { s.lp with lost := true, corruptNext := false, supervision := none }
  endWatch (emptyQueue (endTurn .linkLost (writeJournal .link s1)))

end Sys2Proof.Machine
end

