-- ==== Sys2Proof/Machine/Resets.lean ====
section
/-! DEFINITION. The completion of store writes (R183) and the four resets (R184, R189 to R191). -/

namespace Sys2Proof.Machine

/-! ## The completion of a store write -/

def State.setRecords (s : State) (r : Records) : State := s.setCst { s.cst with records := r }

/-- R37: the remaining allowance after a member's new contents. -/
def adjustedAllowance (old : Nat) (contents : Option Enrolment) : Nat :=
  match contents with
  | none => 0
  | some e => min old (10 * e.allowance)

/-- R37, R53: a member's entry takes its new contents. -/
def takeMember (m : Nat) (contents : Option Enrolment) (s : State) : State :=
  let slot := memberSlot m s
  match contents with
  | none => setMember m ⟨.empty, false, 0⟩ s
  | some e => setMember m ⟨.enrolled e, slot.suspended, adjustedAllowance slot.remaining contents⟩ s

/-- R185: every block retakes its copy. -/
def retakeCopies (p : Params) (s : State) : State where
  clock := s.clock
  choices := s.choices
  pending := s.pending
  lines := s.lines
  tar := { s.tar with copy := arbiterCopy p }
  mrg := { s.mrg with copy := registerCopy p }
  kch := { s.kch with copy := chainCopy p }
  seu := { s.seu with copy := settingCopy p }
  ids := { s.ids with copy := senderCopy p }
  ilm := { s.ilm with copy := monitorCopy p }
  spc := { s.spc with copy := powerCopy p }
  lp := { s.lp with supervisionTime := p.linkSupervision }
  ntu := s.ntu
  journal := s.journal
  cst := s.cst
  powerHeld := s.powerHeld
  clockGood := s.clockGood
  span := s.span

/-- R183 step 1: the stored record holds the new contents with a fresh check. -/
def storeContents (w : StoreWrite) (r : Records) : Records :=
  match w with
  | .member m c => { r with members := r.members.setIfInBounds m (storedFresh memberBytes c) }
  | .profile i l => { r with profiles := r.profiles.setIfInBounds i (storedFresh profileBytes l) }
  | .antenna i c => { r with antennas := r.antennas.setIfInBounds i (storedFresh antennaBytes c) }
  | .pattern l => { r with pattern := storedFresh patternBytes l }
  | .params p => { r with params := storedFresh paramsBytes p }
  | .ranking p => { r with params := storedFresh paramsBytes p }

/-- The antenna entry of new contents. -/
def antennaEntry (c : Option AntennaData) : Antenna :=
  match c with
  | none => .absent
  | some a => .present a

/-- R183 step 2: the owner takes the new contents (R34, R53, R55, R105, R121, R185). -/
def ownContents (w : StoreWrite) (s : State) : State :=
  match w with
  | .member m c => takeMember m c s
  | .profile i l => s.setMrg { s.mrg with profiles := s.mrg.profiles.setIfInBounds i (.valid l) }
  | .antenna i c => s.setSeu { s.seu with antennas := s.seu.antennas.setIfInBounds i (antennaEntry c) }
  | .pattern l => s.setIds { s.ids with pattern := .valid l }
  | .params p => (retakeCopies p s).setCst { s.cst with paramsDamaged := false }
  | .ranking p => s.setTar { s.tar with copy := { s.tar.copy with ranking := p.classRanking } }

/-- R183: the store write in flight completes. -/
def completeWrite (s : State) : State :=
  match s.cst.writing with
  | none => s
  | some w =>
    let s1 := raise .store (ownContents w.write (s.setRecords (storeContents w.write s.cst.records)))
    s1.setCst { s1.cst with writing := none }

/-! ## Resets -/

/-- One record of a table is spoilt. -/
def spoilAt {α : Type} {n : Nat} (bytes : α → List Byte) (v : Vector (Stored α) n) (i : Nat) : Vector (Stored α) n :=
  match v[i]? with
  | none => v
  | some r => v.setIfInBounds i (storedSpoilt bytes r)

/-- R184: the record being written fails its check. -/
def spoilRecord (w : StoreWrite) (r : Records) : Records :=
  match w with
  | .member m _ => { r with members := spoilAt memberBytes r.members m }
  | .profile i _ => { r with profiles := spoilAt profileBytes r.profiles i }
  | .antenna i _ => { r with antennas := spoilAt antennaBytes r.antennas i }
  | .pattern _ => { r with pattern := storedSpoilt patternBytes r.pattern }
  | .params _ => { r with params := storedSpoilt paramsBytes r.params }
  | .ranking _ => { r with params := storedSpoilt paramsBytes r.params }

/-- R184: a reset ends a store write in flight without completing it. -/
def cutWrite (s : State) : State :=
  match s.cst.writing with
  | none => s
  | some w => s.setCst { s.cst with records := spoilRecord w.write s.cst.records, writing := none }

/-- R1, R189: the kinds that set station time to 0 and empty the journal. -/
def startsAfresh : ResetKind → Bool
  | .powerOn => true
  | .pin => true
  | _ => false

/-- R35, R57, R84, R107, R123, R142, R156, R170, R181, R189: every block takes the state of a reset of a kind, with the
records loaded. -/
def resetBlocks (kind : ResetKind) (s : State) : State :=
  let r := s.cst.records
  let p := loadedParams r
  { clock := if startsAfresh kind then 0 else s.clock
    choices := s.choices
    pending := s.pending
    lines := s.lines
    tar := arbiterAfterReset p
    mrg := registerAfterReset r p
    kch := chainAfterReset p
    seu := settingAfterReset r p
    ids := senderAfterReset r p
    ilm := monitorAfterReset p
    spc := powerAfterReset p
    lp := linkAfterReset p
    ntu := noticesAfterReset kind s.ntu
    journal := if startsAfresh kind then [] else s.journal
    cst := storeAfterReset kind r
    powerHeld := s.powerHeld
    clockGood := s.clockGood
    span := none }

/-- R172, R184: one STORE for the records found DAMAGED, deferred while recording is held. -/
def reportDamage (s : State) : State :=
  if anyDamaged s.cst.records then
    if s.ntu.held then s.setNtu { s.ntu with deferredStore := true } else raise .store s
  else s

/-- R142, R184, R189: the event that ends a reset. -/
def resetEnds (kind : ResetKind) (s : State) : State :=
  pumpNotice (settle (senseAll (reportDamage (resetBlocks kind (cutWrite s)))))

/-- R189: of two kinds within one span, the first of POWER-ON, PIN, CLOCK. -/
def spanKind (a b : ResetKind) : ResetKind :=
  match a, b with
  | .powerOn, _ => .powerOn
  | _, .powerOn => .powerOn
  | .pin, _ => .pin
  | _, .pin => .pin
  | _, k => k

/-- R170, R189, R191: both transmitters fall idle, whatever they were sending. -/
def silence (s : State) : State :=
  (s.setTransmitter .idle).setSeu { s.seu with tx := { sending := none, waiting := none } }

/-- R189, R190, R191: a reset of a kind takes hold; a store write in flight ends, both transmitters fall idle, and an
awaited SOFT reset is replaced. -/
def takeHold (kind : ResetKind) (s : State) : State :=
  let s1 := silence (cutWrite s)
  let s2 := s1.setCst { s1.cst with softReset := false }
  s2.setHold s2.powerHeld s2.clockGood (some (match s2.span with
    | none => kind
    | some k => spanKind k kind))

/-- R189: the reset ends when none of its causes stands any longer. -/
def leaveHold (s : State) : State :=
  match s.span with
  | none => s
  | some kind => if inReset s then s else resetEnds kind s

/-- R189: power is applied. -/
def applyPower (s : State) : State :=
  let s1 := takeHold .powerOn s
  s1.setHold true s1.clockGood s1.span

/-- R189: RESETN goes low. -/
def pullReset (s : State) : State :=
  let s1 := takeHold .pin s
  s1.setLines { s1.lines with resetnLow := true }

/-- R191: the clock fails. -/
def failClock (s : State) : State :=
  let s1 := takeHold .clock s
  s1.setHold s1.powerHeld false s1.span

/-- R190: the sending of a reply ends: the SOFT reset it was waiting for, a waiting notice, or the oldest request. -/
def replyEnds (s : State) : State :=
  match s.lp.tx with
  | .replying _ =>
    if s.cst.softReset then resetEnds .soft s
    else if s.ntu.waiting then sendNotice s
    else takeOldest s
  | _ => s

/-- R159: the sending of a notice ends: the oldest request is taken before any further notice. -/
def noticeEnds (s : State) : State :=
  match s.lp.tx with
  | .notifying _ => takeOldest s
  | _ => s

end Sys2Proof.Machine
end

