-- ==== Sys2Proof/Machine/Time.lean ====
section
/-! DEFINITION. What happens as time passes: the timers and deadlines, what follows when each passes, and the step of
time on an empty queue (log entries 1 to 3). -/

namespace Sys2Proof.Machine

/-! ## When each timer or deadline passes, in ms; `none` while it is absent -/

/-- R7: the offer deadline. -/
def offerMoment (s : State) : Option Nat :=
  match s.tar.turn with
  | .offered t => some (100 * t.offerDeadline)
  | _ => none

/-- R9: the turn deadline. -/
def turnMoment (s : State) : Option Nat :=
  match s.tar.turn with
  | .opened t => some (100 * t.turnDeadline)
  | _ => none

/-- R10: the idle deadline. -/
def idleMoment (s : State) : Option Nat :=
  match s.tar.turn with
  | .opened t => t.idleDeadline.map (100 * ·)
  | _ => none

/-- R23: the expiry time of a member's entry. -/
def entryMoment (m : Nat) (s : State) : Option Nat := (entryExpiry m s).map (100 * ·)

/-- R43: the moment at which the count of R42 brings the holder's remaining allowance to 0; it has come once the last unit
is owed. -/
def quotaMoment (s : State) : Option Nat :=
  match holder s with
  | none => none
  | some m =>
    let left := (memberSlot m s).remaining
    if holderOnAir s && isLimited m s then
      some (100 * (if s.mrg.unitOwed && left ≤ 1 then now s else now s + left))
    else none

/-- R52: the expiry of the watch. -/
def watchMoment (s : State) : Option Nat :=
  match s.mrg.watch with
  | .active _ _ expiry => some (100 * expiry)
  | .inactive => none

/-- R58: the stage timer, in one stage. -/
def stageMoment (stage : ChainState) (s : State) : Option Nat := if s.kch.state == stage then s.kch.stageTimer else none

/-- R92: the settle timer. -/
def settleMoment (s : State) : Option Nat :=
  match s.seu.retune with
  | .switching _ t => some t
  | _ => none

/-- R93: the readback timer. -/
def readbackMoment (s : State) : Option Nat :=
  match s.seu.retune with
  | .awaiting _ _ t => some t
  | _ => none

/-- R110: the interval timer. -/
def intervalMoment (s : State) : Option Nat :=
  match s.ids.record with
  | .owed _ t => some t
  | _ => none

/-- R110: the grace timer. -/
def graceMoment (s : State) : Option Nat :=
  match s.ids.record with
  | .due _ t => t
  | _ => none

/-- R125: the filter timer of an input. -/
def filterMoment (i : Input) (s : State) : Option Nat :=
  match s.ilm.filters.get i with
  | .headingActive t => some t
  | .headingQuiet t => some t
  | _ => none

/-- R147: the supply-confirm timer. -/
def supplyMoment (s : State) : Option Nat :=
  match s.spc.power with
  | .supplyWait t => some t
  | _ => none

/-- R148: the warm-up timer. -/
def warmUpMoment (s : State) : Option Nat :=
  match s.spc.power with
  | .warmUp t => some t
  | _ => none

/-- R151: the cool-down timer. -/
def coolDownMoment (s : State) : Option Nat :=
  match s.spc.power with
  | .cooling t _ => some t
  | _ => none

/-- R151: the restart holdoff timer. -/
def holdoffMoment (s : State) : Option Nat :=
  match s.spc.power with
  | .off t => t
  | _ => none

/-! ## What follows -/

/-- R9: the turn deadline passes. -/
def turnDeadlinePasses (s : State) : State :=
  match s.tar.turn with
  | .opened t =>
    if s.tar.queue.any (eligible s) then endTurn .turnLimit s
    else s.setTurn (.opened { t with turnDeadline := t.turnDeadline + 10 * s.tar.copy.turnLimit })
  | _ => s

/-- R43: the count takes the holder's remaining allowance to 0. -/
def spendLast (s : State) : State :=
  match holder s with
  | none => s
  | some m => (setMember m { memberSlot m s with remaining := 0 } s).setUnitOwed false

/-- R43: the holder's allowance is exhausted. -/
def allowanceRunsOut (s : State) : State := endTurn .quota (requestKeyDown .quota .holder (spendLast s))

/-- R75: the dead-man timer expires. -/
def deadManExpires (s : State) : State :=
  endTurn .deadman (requestKeyDown .deadman .holder (s.setKch { s.kch with deadMan := none }))

/-- R76: the transmission-limit timer expires. -/
def txLimitExpires (s : State) : State :=
  requestKeyDown .txLimit .holder (s.setKch { s.kch with txLimit := none })

/-- R77: the re-key holdoff timer expires. -/
def holdoffExpires (s : State) : State := s.setKch { s.kch with holdoff := none }

/-- R112: the interval timer expires. -/
def intervalExpires (s : State) : State :=
  match s.ids.record with
  | .owed since _ =>
    claimInterval (raise .idDue (setRecord (.due since (some (afterSeconds s.ids.copy.grace s))) s))
  | _ => s

/-- R115: the grace timer expires; with the holder keyed in an OPEN turn it asks for key-down. -/
def graceExpires (s : State) : State :=
  match s.ids.record with
  | .due since _ =>
    let s1 := setRecord (.due since none) s
    if turnOpen s1 && holderKeyed s1 then requestKeyDown .idForced .holder s1 else s1
  | _ => s

/-- R116: the pattern has ended. -/
def patternEnds (s : State) : State :=
  match s.ids.record with
  | .sending since trigger (.running start _ _) =>
    requestKeyDown .patternEnd .ident (setRecord (.sending since trigger (.ended start)) (s.setTone false))
  | _ => s

/-- R116: the asserted units of an element end, or the element ends and the next begins at a moment. -/
def elementEnds (moment : Nat) (s : State) : State :=
  match s.ids.record with
  | .sending since trigger (.running start k _) =>
    if s.ids.tone then s.setTone false
    else if k + 1 < (patternElements s).length then
      (setRecord (.sending since trigger (.running start (k + 1) moment)) s).setTone (toneAt (k + 1) s)
    else patternEnds s
  | _ => s

/-- R147: the supply has not come up. -/
def supplyFails (s : State) : State := enterOff (some supplyFailure) (recordCheckItems supplyFailure s)

/-- R151: the restart holdoff timer stops. -/
def restartAllowed (s : State) : State := s.setSpc { s.spc with power := .off none }

/-! ## An expiry -/

/-- A timer or deadline passes, and what follows is an event. Where it is absent, or stands at a moment still to come (an
event taken before the expiry reloaded it), the expiry has lapsed and nothing happens (R19, R75, R167; log entries 2
and 18). -/
def expiry (moment : Option Nat) (f : State → State) (s : State) : State :=
  match moment with
  | none => s
  | some t => if t ≤ s.clock then event f s else s

/-! ## The step of time -/

/-- A command, if its moment has come. -/
def dueAt (moment : Option Nat) (c : Instr) (s : State) : List Instr :=
  match moment with
  | none => []
  | some t => if t ≤ s.clock then [c] else []

/-- Every timer and deadline whose moment has come, as commands. -/
def dueCommands (s : State) : List Instr :=
  dueAt s.lp.supervision .linkSupervisionExpiry s ++ dueAt (offerMoment s) .offerDeadline s
    ++ dueAt (turnMoment s) .turnDeadline s ++ dueAt (idleMoment s) .idleDeadline s
    ++ (List.range 32).flatMap (fun m => dueAt (entryMoment m s) (.entryExpiry (BitVec.ofNat 8 m)) s)
    ++ dueAt (quotaMoment s) .allowanceExhausted s ++ dueAt (watchMoment s) .watchExpiry s
    ++ dueAt (stageMoment .ampUp s) .ampReadyLatestBound s ++ dueAt (stageMoment .txUp s) .txConfirmLatestBound s
    ++ dueAt (stageMoment .txDown s) .txDropLimit s ++ dueAt (stageMoment .ampDown s) .ampHoldExpiry s
    ++ dueAt s.kch.deadMan .deadManExpiry s ++ dueAt s.kch.txLimit .transmissionLimitExpiry s
    ++ dueAt s.kch.holdoff .reKeyHoldoffExpiry s ++ dueAt (settleMoment s) .settleLimit s
    ++ dueAt (readbackMoment s) .readbackTimeout s ++ dueAt s.seu.rigSilence .rigSilenceExpiry s
    ++ dueAt (intervalMoment s) .intervalTimerExpiry s ++ dueAt (graceMoment s) .graceTimerExpiry s
    ++ dueAt (elementMoment s) .idElementEnd s
    ++ [Input.refl, .ampf, .supok, .estop, .localKey, .ants].flatMap (fun i =>
        dueAt (filterMoment i s) (.filterTimerExpiry i) s)
    ++ dueAt s.ilm.blanking .reflBlankingExpiry s ++ dueAt (supplyMoment s) .supplyConfirmExpiry s
    ++ dueAt (warmUpMoment s) .warmUpExpiry s ++ dueAt (coolDownMoment s) .coolDownExpiry s
    ++ dueAt (holdoffMoment s) .restartHoldoffExpiry s
    ++ dueAt (s.cst.writing.map (·.latest)) .storeWriteCompletion s

/-- What falls due together is taken in an order that the free choice gives (log entry 3): `k` counts the choices
consumed. -/
def chosenOrder : Nat → Nat → List Instr → List Instr × Nat
  | 0, k, l => (l, k)
  | n + 1, k, l =>
    match l with
    | [] => ([], k)
    | [c] => ([c], k)
    | c :: d :: rest =>
      let i := Config.choice k % (c :: d :: rest).length
      let r := chosenOrder n (k + 1) ((c :: d :: rest).eraseIdx i)
      ((c :: d :: rest).getD i c :: r.1, r.2)

/-- Log entry 1: on an empty queue 1 ms passes, and what falls due joins the queue; nothing passes while the part is held
in reset (R1, R189). -/
def tick (s : State) : State :=
  if inReset s then s
  else
    let s1 := passTo (s.clock + 1) s
    let due := dueCommands s1
    let order := chosenOrder due.length s1.choices due
    (s1.setPending order.1).setChoices order.2

end Sys2Proof.Machine
end

