-- ==== Sys2Proof/Machine/LineOps.lean ====
section
/-! DEFINITION. The changes of the input lines (R59, R63 to R68, R87, R92, R124, R147). -/

namespace Sys2Proof.Machine

/-- A line takes a level. What follows is an event only if the level changes, and only outside reset (R189). -/
def lineChange (x : Lines) (f : State → State) (s : State) : State :=
  if x = s.lines then s else event f (s.setLines x)

/-- The time since the stage start in ms (R62). -/
def stageElapsed (s : State) : Nat :=
  match s.kch.stageStart with
  | none => 0
  | some t => s.clock - t

/-- R63, R64, R66, R68: AMPRDY changes at KCH; it is not watched in barefoot mode (R59). -/
def amprdyChanged (active : Bool) (s : State) : State :=
  if s.spc.barefoot then s
  else
    match s.kch.state, active with
    | .ampUp, true =>
      if stageElapsed s < s.kch.copy.ampReadyEarliest then chainFault .ampEarly s else enterTxUp onAir s
    | .txUp, false => chainFault .ampDrop s
    | .onAir, false => chainFault .ampDrop s
    | .txDown, false => chainFault .ampDrop s
    | _, _ => s

/-- R64, R66, R68: TXC changes at KCH. -/
def txcChanged (active : Bool) (s : State) : State :=
  match s.kch.state, active with
  | .txUp, true => if stageElapsed s < s.kch.copy.txConfirmEarliest then chainFault .txEarly s else onAir s
  | .onAir, false => chainFault .txDrop s
  | .txDown, false => endTxDown s
  | _, _ => s

/-- R147, R128: SUPOK changes at SPC, in SUPPLY_WAIT alone, and at ILM. -/
def supokChanged (active : Bool) (s : State) : State :=
  match s.spc.power, active with
  | .supplyWait _, true => senseInput .supok (confirmSupply s)
  | _, _ => senseInput .supok s

/-- R92, R129: a sense line changes at SEU and at ILM. -/
def antennaLinesChanged (s : State) : State := senseInput .ants (senseChanged s)

/-- The levels after one of the lines of INTERLOCK_INPUT_CHANGE changes. -/
def setInterlock (line : InterlockLine) (active : Bool) (x : Lines) : Lines :=
  match line with
  | .refl => { x with refl := active }
  | .ampf => { x with ampf := active }
  | .estop => { x with estop := active }
  | .localKey => { x with localKey := active }

/-- The input that a line belongs to (section 6.1). -/
def lineInput : InterlockLine → Input
  | .refl => .refl | .ampf => .ampf | .estop => .estop | .localKey => .localKey

end Sys2Proof.Machine
end

