-- ==== Sys2Proof/Machine/Requests.lean ====
section
/-! DEFINITION. The meanings of the request rows. Each is the arrival of a valid frame that carries the request (log
entry 4): supervision and the link (R164, R166), the receive queue (R158), and with the transmitter IDLE its taking: the
general checks (R161), its owner, what follows in the event, and its reply (R160). What its owner does is at the rule
named. -/

namespace Sys2Proof.Machine

/-- The outcome of every command: a next state. -/
abbrev Result := Host.Outcome State Fault Refusal

/-- The member field of the station authority. -/
def authority : Byte := 255

/-- The arrival of a valid frame (R158, R160, R161), outside reset. -/
def arrive (tag member : Byte) (r : Request) (s : State) : State := event (frameArrives ⟨tag, member, r⟩) s

/-- REQ: a member asks for a turn (R27, R28). -/
def execReq (tag member emergency : Byte) (expiry length : Half) (s : State) : Result :=
  .next (arrive tag member (.req emergency expiry length) s)

/-- REL: a member releases, declines or withdraws (R29). -/
def execRel (tag member : Byte) (s : State) : Result :=
  .next (arrive tag member .rel s)

/-- BRK_MEMBER: a control operator breaks the turn (R30, R31). -/
def execBrkMember (tag member take : Byte) (s : State) : Result :=
  .next (arrive tag member (.brkMember take) s)

/-- BRK_AUTHORITY: the authority breaks the turn (R30, R31). -/
def execBrkAuthority (tag take : Byte) (s : State) : Result :=
  .next (arrive tag authority (.brkAuthority take) s)

/-- QST: a member queries its standing (R32). -/
def execQst (tag member : Byte) (s : State) : Result :=
  .next (arrive tag member .qst s)

/-- QRD: the authority reads the queue (R33). -/
def execQrd (tag : Byte) (s : State) : Result :=
  .next (arrive tag authority .qrd s)

/-- CLS: the authority sets the class ranking (R34). -/
def execCls (tag order : Byte) (s : State) : Result :=
  .next (arrive tag authority (.cls order) s)

/-- MWR: the authority writes a member entry (R53). -/
def execMwr (tag member state : Byte) (callsign : List Byte) (standing profile : Byte) (allowance : Half)
    (emergency : Byte) (s : State) : Result :=
  .next (arrive tag authority (.mwr member state callsign standing profile allowance emergency) s)

/-- MRD: the authority reads a member entry (R54). -/
def execMrd (tag member : Byte) (s : State) : Result :=
  .next (arrive tag authority (.mrd member) s)

/-- PFW: the authority writes a profile (R55). -/
def execPfw (tag index count : Byte) (slots : List SegmentSlot) (s : State) : Result :=
  .next (arrive tag authority (.pfw index count slots) s)

/-- PFR: the authority reads a profile (R56). -/
def execPfr (tag index : Byte) (s : State) : Result :=
  .next (arrive tag authority (.pfr index) s)

/-- SUS_SUSPEND: the authority suspends a member (R46). -/
def execSusSuspend (tag member : Byte) (s : State) : Result :=
  .next (arrive tag authority (.sus member 1) s)

/-- SUS_REINSTATE: the authority reinstates a member (R46). -/
def execSusReinstate (tag member : Byte) (s : State) : Result :=
  .next (arrive tag authority (.sus member 2) s)

/-- QRF: the authority refills allowances (R45). -/
def execQrf (tag member : Byte) (s : State) : Result :=
  .next (arrive tag authority (.qrf member) s)

/-- WCH_ON: a control operator keeps the watch (R49). -/
def execWchOn (tag member : Byte) (s : State) : Result :=
  .next (arrive tag member (.wch 1) s)

/-- WCH_OFF: the watcher leaves the watch (R50). -/
def execWchOff (tag member : Byte) (s : State) : Result :=
  .next (arrive tag member (.wch 2) s)

/-- KEY: the holder keys the transmitter (R80). -/
def execKey (tag member : Byte) (s : State) : Result :=
  .next (arrive tag member .key s)

/-- UNK: the holder unkeys the transmitter (R81). -/
def execUnk (tag member : Byte) (s : State) : Result :=
  .next (arrive tag member .unk s)

/-- HLD: the holder holds the turn (R82). -/
def execHld (tag member : Byte) (s : State) : Result :=
  .next (arrive tag member .hld s)

/-- FCL: the authority clears a chain fault (R83). -/
def execFcl (tag : Byte) (s : State) : Result :=
  .next (arrive tag authority .fcl s)

/-- TUN: the holder retunes the station (R90, R91). -/
def execTun (tag member : Byte) (frequency : Word) (mode : Byte) (power : Half) (antenna : Byte) (s : State) : Result :=
  .next (arrive tag member (.tun frequency mode power antenna) s)

/-- ANW: the authority writes an antenna entry (R105). -/
def execAnw (tag index state count : Byte) (ranges : List RangeSlot) (rating : Half) (s : State) : Result :=
  .next (arrive tag authority (.anw index state count ranges rating) s)

/-- ANR: the authority reads an antenna entry (R106). -/
def execAnr (tag index : Byte) (s : State) : Result :=
  .next (arrive tag authority (.anr index) s)

/-- IDW: the authority writes the ID pattern (R121). -/
def execIdw (tag count : Byte) (slots : List Byte) (s : State) : Result :=
  .next (arrive tag authority (.idw count slots) s)

/-- IDR: the authority reads the ID pattern (R122). -/
def execIdr (tag : Byte) (s : State) : Result :=
  .next (arrive tag authority .idr s)

/-- ICL: the authority clears interlock trips (R140). -/
def execIcl (tag : Byte) (s : State) : Result :=
  .next (arrive tag authority .icl s)

/-- SPW_UP: the authority raises the station (R146). -/
def execSpwUp (tag : Byte) (s : State) : Result :=
  .next (arrive tag authority (.spw 1) s)

/-- SPW_DOWN: the authority lowers the station (R150). -/
def execSpwDown (tag : Byte) (s : State) : Result :=
  .next (arrive tag authority (.spw 2) s)

/-- BFT_ON: barefoot mode on (R154). -/
def execBftOn (tag : Byte) (s : State) : Result :=
  .next (arrive tag authority (.bft 1) s)

/-- BFT_OFF: barefoot mode off (R154). -/
def execBftOff (tag : Byte) (s : State) : Result :=
  .next (arrive tag authority (.bft 2) s)

/-- STA: the authority reads the status record (R168). -/
def execSta (tag : Byte) (s : State) : Result :=
  .next (arrive tag authority .sta s)

/-- TST: the next reply is to be corrupted (R169). -/
def execTst (tag : Byte) (s : State) : Result :=
  .next (arrive tag authority .tst s)

/-- NEN: the authority enables notice causes (R174). -/
def execNen (tag : Byte) (causes : Half) (s : State) : Result :=
  .next (arrive tag authority (.nen causes) s)

/-- NCL: the authority clears pending causes (R175). -/
def execNcl (tag : Byte) (causes : Half) (s : State) : Result :=
  .next (arrive tag authority (.ncl causes) s)

/-- JRD: the authority reads and removes the oldest journal record (R179). -/
def execJrd (tag : Byte) (s : State) : Result :=
  .next (arrive tag authority .jrd s)

/-- PRW: the authority writes the parameter record (R185). -/
def execPrw (tag : Byte) (record : List Byte) (s : State) : Result :=
  .next (arrive tag authority (.prw record) s)

/-- PRR: the authority reads the parameter record (R186). -/
def execPrr (tag : Byte) (s : State) : Result :=
  .next (arrive tag authority .prr s)

/-- RUN: the authority enters RUN (R187). -/
def execRun (tag : Byte) (s : State) : Result :=
  .next (arrive tag authority .run s)

/-- SET: the authority returns to SETUP (R188). -/
def execSet (tag : Byte) (s : State) : Result :=
  .next (arrive tag authority .set s)

/-- RST: the authority asks for a SOFT reset (R190). -/
def execRst (tag : Byte) (s : State) : Result :=
  .next (arrive tag authority .rst s)

/-- UNKNOWN_KIND_REQUEST: a kind outside the catalogue (R161 check 1); a kind of the catalogue is that kind. -/
def execUnknownKindRequest (kind tag member : Byte) (body : List Byte) (s : State) : Result :=
  .next (arrive tag member (requestOf kind body) s)

end Sys2Proof.Machine
end

