-- ==== Sys2Proof/Machine/Events.lean ====
section
/-! DEFINITION. The meanings of the rows that are not requests: the link, the timers and deadlines, the lines, the rig
port, the store and the resets. A command whose event cannot occur in a state does nothing there (log entry 18). -/

namespace Sys2Proof.Machine

/-! ## The station link -/

/-- REQUEST_FRAME_ARRIVAL: a complete request frame arrives (R157, R158). -/
def execRequestFrameArrival (bytes : List Byte) (s : State) : Result := .next (event (frameComplete bytes) s)

/-- LINK_BYTE_GAP: more than 20 ms pass between two bytes (R157). -/
def execLinkByteGap (received : List Byte) (s : State) : Result := .next (event (linkBreak received) s)

/-- LINK_FRAMING_ERROR: a framing error or break on LRXD (R157). -/
def execLinkFramingError (received : List Byte) (s : State) : Result := .next (event (linkBreak received) s)

/-- REQUEST_LENGTH_OUT_OF_RANGE: a length byte below 3 or above 243 (R157). -/
def execRequestLengthOutOfRange (length : Byte) (s : State) : Result := .next (event (lengthArrives length) s)

/-- REPLY_SENT: the sending of a reply ends (R159, R190). -/
def execReplySent (s : State) : Result := .next (event replyEnds s)

/-- NOTICE_SENT: the sending of a notice ends (R159). -/
def execNoticeSent (s : State) : Result := .next (event noticeEnds s)

/-- LINK_SUPERVISION_EXPIRY: the link is lost (R165). -/
def execLinkSupervisionExpiry (s : State) : Result := .next (expiry s.lp.supervision loseLink s)

/-! ## Turns, the queue and members -/

/-- OFFER_DEADLINE: the turn ends NO_ANSWER (R7). -/
def execOfferDeadline (s : State) : Result := .next (expiry (offerMoment s) (endTurn .noAnswer) s)

/-- TURN_DEADLINE: the turn ends TURN_LIMIT or is renewed (R9). -/
def execTurnDeadline (s : State) : Result := .next (expiry (turnMoment s) turnDeadlinePasses s)

/-- IDLE_DEADLINE: the turn ends IDLE_LIMIT (R10). -/
def execIdleDeadline (s : State) : Result := .next (expiry (idleMoment s) (endTurn .idleLimit) s)

/-- ENTRY_EXPIRY: the entry leaves the queue (R23). -/
def execEntryExpiry (member : Byte) (s : State) : Result :=
  .next (expiry (entryMoment member.toNat s) (removeEntry member.toNat) s)

/-- ALLOWANCE_EXHAUSTED: the holder's allowance reaches 0 (R43). -/
def execAllowanceExhausted (s : State) : Result := .next (expiry (quotaMoment s) allowanceRunsOut s)

/-- WATCH_EXPIRY: the watch ends (R52). -/
def execWatchExpiry (s : State) : Result := .next (expiry (watchMoment s) endWatch s)

/-! ## The keying chain -/

/-- AMPRDY_CHANGE (R59, R63, R64, R66, R68). -/
def execAmprdyChange (active : Bool) (s : State) : Result :=
  .next (lineChange { s.lines with amprdy := active } (amprdyChanged active) s)

/-- TXC_CHANGE (R59, R64, R66, R68). -/
def execTxcChange (active : Bool) (s : State) : Result :=
  .next (lineChange { s.lines with txc := active } (txcChanged active) s)

/-- AMP_READY_LATEST_BOUND: fault AMP_LATE (R63). -/
def execAmpReadyLatestBound (s : State) : Result := .next (expiry (stageMoment .ampUp s) (chainFault .ampLate) s)

/-- TX_CONFIRM_LATEST_BOUND: fault TX_LATE (R64). -/
def execTxConfirmLatestBound (s : State) : Result := .next (expiry (stageMoment .txUp s) (chainFault .txLate) s)

/-- TX_DROP_LIMIT: fault TX_STUCK (R68). -/
def execTxDropLimit (s : State) : Result := .next (expiry (stageMoment .txDown s) (chainFault .txStuck) s)

/-- AMP_HOLD_EXPIRY: key-down completes (R69). -/
def execAmpHoldExpiry (s : State) : Result := .next (expiry (stageMoment .ampDown s) completeKeyDown s)

/-- DEAD_MAN_EXPIRY: key-down DEADMAN, and the turn ends (R75). -/
def execDeadManExpiry (s : State) : Result := .next (expiry s.kch.deadMan deadManExpires s)

/-- TRANSMISSION_LIMIT_EXPIRY: key-down TX_LIMIT (R76). -/
def execTransmissionLimitExpiry (s : State) : Result := .next (expiry s.kch.txLimit txLimitExpires s)

/-- RE_KEY_HOLDOFF_EXPIRY: the timer stops (R77). -/
def execReKeyHoldoffExpiry (s : State) : Result := .next (expiry s.kch.holdoff holdoffExpires s)

/-! ## The Setting Unit and the rig port -/

/-- ANTENNA_SENSE_CHANGE (R87, R92, R129). -/
def execAntennaSenseChange (valid : Bool) (code : BitVec 2) (s : State) : Result :=
  .next (lineChange { s.lines with antv := valid, code := code } antennaLinesChanged s)

/-- SETTLE_LIMIT: the retune ends ANTENNA_FAULT (R92). -/
def execSettleLimit (s : State) : Result := .next (expiry (settleMoment s) settlePasses s)

/-- READBACK_TIMEOUT: the retune ends FAILED_TIMEOUT (R94). -/
def execReadbackTimeout (s : State) : Result := .next (expiry (readbackMoment s) readbackTimesOut s)

/-- READBACK: a complete READBACK frame (R102, R103). -/
def execReadback (tag : Byte) (frequency : Word) (mode : Byte) (power check : Half) (s : State) : Result :=
  .next (event (readbackArrives tag frequency mode power check) s)

/-- RIG_SILENCE_EXPIRY: the setting becomes STALE (R100). -/
def execRigSilenceExpiry (s : State) : Result := .next (expiry s.seu.rigSilence rigFallsSilent s)

/-- RIG_BYTE_GAP: more than 20 ms pass between two bytes (R102). -/
def execRigByteGap (received : List Byte) (s : State) : Result := .next (event (rigBreak received) s)

/-- RIG_FRAMING_ERROR: a framing error or break on RRXD (R102). -/
def execRigFramingError (received : List Byte) (s : State) : Result := .next (event (rigBreak received) s)

/-- SETTING_FRAME_SENT: the sending of a SETTING frame ends (R104). -/
def execSettingFrameSent (s : State) : Result := .next (event settingSent s)

/-! ## The Identification Sender -/

/-- INTERVAL_TIMER_EXPIRY: the record becomes DUE (R112). -/
def execIntervalTimerExpiry (s : State) : Result := .next (expiry (intervalMoment s) intervalExpires s)

/-- GRACE_TIMER_EXPIRY: key-down ID_FORCED where it applies (R115). -/
def execGraceTimerExpiry (s : State) : Result := .next (expiry (graceMoment s) graceExpires s)

/-- ID_ELEMENT_END: the asserted units or the element end (R116). -/
def execIdElementEnd (s : State) : Result :=
  .next (expiry (elementMoment s) (elementEnds ((elementMoment s).getD 0)) s)

/-! ## The Interlock Monitor -/

/-- INTERLOCK_INPUT_CHANGE: REFL, AMPF, ESTOP or LOCAL changes (R124, R125). -/
def execInterlockInputChange (line : InterlockLine) (active : Bool) (s : State) : Result :=
  .next (lineChange (setInterlock line active s.lines) (senseInput (lineInput line)) s)

/-- FILTER_TIMER_EXPIRY: the input becomes ACTIVE or QUIET (R125). -/
def execFilterTimerExpiry (input : Input) (s : State) : Result :=
  .next (expiry (filterMoment input s) (filterExpires input) s)

/-- REFL_BLANKING_EXPIRY: blanking ends (R127). -/
def execReflBlankingExpiry (s : State) : Result := .next (expiry s.ilm.blanking stopBlanking s)

/-! ## Station power -/

/-- SUPOK_CHANGE (R128, R147). -/
def execSupokChange (active : Bool) (s : State) : Result :=
  .next (lineChange { s.lines with supok := active } (supokChanged active) s)

/-- SUPPLY_CONFIRM_EXPIRY: the bring-up fails (R147). -/
def execSupplyConfirmExpiry (s : State) : Result := .next (expiry (supplyMoment s) supplyFails s)

/-- WARM_UP_EXPIRY: the self-check is made (R148). -/
def execWarmUpExpiry (s : State) : Result := .next (expiry (warmUpMoment s) makeSelfCheck s)

/-- COOL_DOWN_EXPIRY: the station goes OFF (R151). -/
def execCoolDownExpiry (s : State) : Result := .next (expiry (coolDownMoment s) (enterOff none) s)

/-- RESTART_HOLDOFF_EXPIRY: the timer stops (R151). -/
def execRestartHoldoffExpiry (s : State) : Result := .next (expiry (holdoffMoment s) restartAllowed s)

/-! ## The store and the resets -/

/-- STORE_WRITE_COMPLETION: the write in flight completes (R183). -/
def execStoreWriteCompletion (s : State) : Result := .next (event completeWrite s)

/-- POWER_ON_RESET: power is applied (R189). -/
def execPowerOnReset (s : State) : Result := .next (applyPower s)

/-- PIN_RESET: RESETN goes low (R189). -/
def execPinReset (s : State) : Result := .next (pullReset s)

/-- PIN_RESET_END: RESETN returns high (R189). -/
def execPinResetEnd (s : State) : Result := .next (leaveHold (s.setLines { s.lines with resetnLow := false }))

/-- CLOCK_FAILURE: the clock-good state becomes FAILED (R191). -/
def execClockFailure (s : State) : Result := .next (failClock s)

/-- CLOCK_RECOVERY: the clock-good state becomes GOOD (R191). -/
def execClockRecovery (s : State) : Result := .next (leaveHold (s.setHold s.powerHeld true s.span))

/-- POWER_ON_RESET_END: the supply is steady; the reset ends with RESETN high and the clock good (R189). -/
def execPowerOnResetEnd (s : State) : Result := .next (leaveHold (s.setHold false s.clockGood s.span))

end Sys2Proof.Machine
end

