-- ==== Sys2Proof/Machine/Dispatch.lean ====
section
/-! DEFINITION. The commands and their meanings: one arm per constructor. -/

namespace Sys2Proof.Machine

def exec (i : Instr) (s : State) : Host.Outcome State Fault Refusal :=
  match i with
  | .req tag member emergency expiry length => Sys2Proof.Machine.execReq tag member emergency expiry length s
  | .rel tag member => Sys2Proof.Machine.execRel tag member s
  | .brkMember tag member take => Sys2Proof.Machine.execBrkMember tag member take s
  | .brkAuthority tag take => Sys2Proof.Machine.execBrkAuthority tag take s
  | .qst tag member => Sys2Proof.Machine.execQst tag member s
  | .qrd tag => Sys2Proof.Machine.execQrd tag s
  | .cls tag order => Sys2Proof.Machine.execCls tag order s
  | .mwr tag member state callsign standing profile allowance emergency => Sys2Proof.Machine.execMwr tag member state callsign standing profile allowance emergency s
  | .mrd tag member => Sys2Proof.Machine.execMrd tag member s
  | .pfw tag index count slots => Sys2Proof.Machine.execPfw tag index count slots s
  | .pfr tag index => Sys2Proof.Machine.execPfr tag index s
  | .susSuspend tag member => Sys2Proof.Machine.execSusSuspend tag member s
  | .susReinstate tag member => Sys2Proof.Machine.execSusReinstate tag member s
  | .qrf tag member => Sys2Proof.Machine.execQrf tag member s
  | .wchOn tag member => Sys2Proof.Machine.execWchOn tag member s
  | .wchOff tag member => Sys2Proof.Machine.execWchOff tag member s
  | .key tag member => Sys2Proof.Machine.execKey tag member s
  | .unk tag member => Sys2Proof.Machine.execUnk tag member s
  | .hld tag member => Sys2Proof.Machine.execHld tag member s
  | .fcl tag => Sys2Proof.Machine.execFcl tag s
  | .tun tag member frequency mode power antenna => Sys2Proof.Machine.execTun tag member frequency mode power antenna s
  | .anw tag index state count ranges rating => Sys2Proof.Machine.execAnw tag index state count ranges rating s
  | .anr tag index => Sys2Proof.Machine.execAnr tag index s
  | .idw tag count slots => Sys2Proof.Machine.execIdw tag count slots s
  | .idr tag => Sys2Proof.Machine.execIdr tag s
  | .icl tag => Sys2Proof.Machine.execIcl tag s
  | .spwUp tag => Sys2Proof.Machine.execSpwUp tag s
  | .spwDown tag => Sys2Proof.Machine.execSpwDown tag s
  | .bftOn tag => Sys2Proof.Machine.execBftOn tag s
  | .bftOff tag => Sys2Proof.Machine.execBftOff tag s
  | .sta tag => Sys2Proof.Machine.execSta tag s
  | .tst tag => Sys2Proof.Machine.execTst tag s
  | .nen tag causes => Sys2Proof.Machine.execNen tag causes s
  | .ncl tag causes => Sys2Proof.Machine.execNcl tag causes s
  | .jrd tag => Sys2Proof.Machine.execJrd tag s
  | .prw tag record => Sys2Proof.Machine.execPrw tag record s
  | .prr tag => Sys2Proof.Machine.execPrr tag s
  | .run tag => Sys2Proof.Machine.execRun tag s
  | .set tag => Sys2Proof.Machine.execSet tag s
  | .rst tag => Sys2Proof.Machine.execRst tag s
  | .unknownKindRequest kind tag member body => Sys2Proof.Machine.execUnknownKindRequest kind tag member body s
  | .requestFrameArrival bytes => Sys2Proof.Machine.execRequestFrameArrival bytes s
  | .linkByteGap received => Sys2Proof.Machine.execLinkByteGap received s
  | .linkFramingError received => Sys2Proof.Machine.execLinkFramingError received s
  | .replySent => Sys2Proof.Machine.execReplySent s
  | .noticeSent => Sys2Proof.Machine.execNoticeSent s
  | .linkSupervisionExpiry => Sys2Proof.Machine.execLinkSupervisionExpiry s
  | .offerDeadline => Sys2Proof.Machine.execOfferDeadline s
  | .turnDeadline => Sys2Proof.Machine.execTurnDeadline s
  | .idleDeadline => Sys2Proof.Machine.execIdleDeadline s
  | .entryExpiry member => Sys2Proof.Machine.execEntryExpiry member s
  | .allowanceExhausted => Sys2Proof.Machine.execAllowanceExhausted s
  | .watchExpiry => Sys2Proof.Machine.execWatchExpiry s
  | .amprdyChange active => Sys2Proof.Machine.execAmprdyChange active s
  | .txcChange active => Sys2Proof.Machine.execTxcChange active s
  | .ampReadyLatestBound => Sys2Proof.Machine.execAmpReadyLatestBound s
  | .txConfirmLatestBound => Sys2Proof.Machine.execTxConfirmLatestBound s
  | .txDropLimit => Sys2Proof.Machine.execTxDropLimit s
  | .ampHoldExpiry => Sys2Proof.Machine.execAmpHoldExpiry s
  | .deadManExpiry => Sys2Proof.Machine.execDeadManExpiry s
  | .transmissionLimitExpiry => Sys2Proof.Machine.execTransmissionLimitExpiry s
  | .reKeyHoldoffExpiry => Sys2Proof.Machine.execReKeyHoldoffExpiry s
  | .antennaSenseChange valid code => Sys2Proof.Machine.execAntennaSenseChange valid code s
  | .settleLimit => Sys2Proof.Machine.execSettleLimit s
  | .readbackTimeout => Sys2Proof.Machine.execReadbackTimeout s
  | .readback tag frequency mode power check => Sys2Proof.Machine.execReadback tag frequency mode power check s
  | .rigSilenceExpiry => Sys2Proof.Machine.execRigSilenceExpiry s
  | .rigByteGap received => Sys2Proof.Machine.execRigByteGap received s
  | .rigFramingError received => Sys2Proof.Machine.execRigFramingError received s
  | .settingFrameSent => Sys2Proof.Machine.execSettingFrameSent s
  | .intervalTimerExpiry => Sys2Proof.Machine.execIntervalTimerExpiry s
  | .graceTimerExpiry => Sys2Proof.Machine.execGraceTimerExpiry s
  | .idElementEnd => Sys2Proof.Machine.execIdElementEnd s
  | .interlockInputChange line active => Sys2Proof.Machine.execInterlockInputChange line active s
  | .filterTimerExpiry input => Sys2Proof.Machine.execFilterTimerExpiry input s
  | .reflBlankingExpiry => Sys2Proof.Machine.execReflBlankingExpiry s
  | .supokChange active => Sys2Proof.Machine.execSupokChange active s
  | .supplyConfirmExpiry => Sys2Proof.Machine.execSupplyConfirmExpiry s
  | .warmUpExpiry => Sys2Proof.Machine.execWarmUpExpiry s
  | .coolDownExpiry => Sys2Proof.Machine.execCoolDownExpiry s
  | .restartHoldoffExpiry => Sys2Proof.Machine.execRestartHoldoffExpiry s
  | .storeWriteCompletion => Sys2Proof.Machine.execStoreWriteCompletion s
  | .powerOnReset => Sys2Proof.Machine.execPowerOnReset s
  | .pinReset => Sys2Proof.Machine.execPinReset s
  | .pinResetEnd => Sys2Proof.Machine.execPinResetEnd s
  | .clockFailure => Sys2Proof.Machine.execClockFailure s
  | .clockRecovery => Sys2Proof.Machine.execClockRecovery s
  | .powerOnResetEnd => Sys2Proof.Machine.execPowerOnResetEnd s
  | .requestLengthOutOfRange length => Sys2Proof.Machine.execRequestLengthOutOfRange length s

end Sys2Proof.Machine
end

