-- ==== Sys2Proof/Machine/Pins.lean ====
section
/-! DEFINITION. The station lines: the outputs of the blocks, and the working senses of all lines at their pins (R59, R88,
R104, R109, R143, R144, R159, R189, R191). -/

namespace Sys2Proof.Machine

/-! ## The outputs in their working senses -/

/-- R143: the outputs; `true` is asserted. `ltxd` and `rtxd` hold the bytes of the frame that the serial line carries, and
none while it is idle. -/
structure Outputs where
  supply : Bool
  ampkey : Bool
  ptt : Bool
  idtone : Bool
  ant0 : Bool
  ant1 : Bool
  ltxd : List Byte
  rtxd : List Byte
deriving DecidableEq, Repr

/-- R59 and the table of section 3.1: the chain states in which PTT is asserted; it is released at the entry to TX_DOWN. -/
def pttOf : ChainState → Bool
  | .txUp => true | .onAir => true | _ => false

/-- R59: the chain states in which AMPKEY is asserted while barefoot mode is off. -/
def ampkeyOf : ChainState → Bool
  | .idle => false | .faulted => false | _ => true

/-- R104: the frame on RTXD. -/
def rigTransmittedBytes (t : RigTransmitter) : List Byte :=
  match t.sending with
  | none => []
  | some f => settingFrameBytes f

/-- R143, R189, R191: every output released, and both serial lines idle. -/
def outputsReleased : Outputs where
  supply := false
  ampkey := false
  ptt := false
  idtone := false
  ant0 := false
  ant1 := false
  ltxd := []
  rtxd := []

/-- Every output of the part; all are released while the part is held in reset (R189, R191). -/
def outputs (s : State) : Outputs :=
  if inReset s then outputsReleased
  else
    { supply := s.spc.power.state != .off
      ampkey := !s.spc.barefoot && ampkeyOf s.kch.state
      ptt := pttOf s.kch.state
      idtone := s.ids.tone
      ant0 := s.seu.selected.getLsbD 0
      ant1 := s.seu.selected.getLsbD 1
      ltxd := transmittedBytes s.lp.tx
      rtxd := rigTransmittedBytes s.seu.tx }

/-! ## The working senses at the pins (R143) -/

/-- A logic level. -/
inductive Level where
  | low | high
deriving DecidableEq, Repr

/-- R143: an open-drain output sinks current, which pulls its line low, or leaves it open. -/
inductive Drain where
  | sinks | leftOpen
deriving DecidableEq, Repr

/-- R143: IDTONE carries an 800 Hz square wave or is held low. -/
inductive TonePin where
  | squareWave | heldLow
deriving DecidableEq, Repr

/-- R143: a serial line rests at a level, or carries bytes; its idle level is the high one. -/
inductive SerialPin where
  | idle (level : Level)
  | carries (bytes : List Byte)
deriving DecidableEq, Repr

/-- R143: the output pins. -/
structure OutputPins where
  supply : Drain
  ampkey : Drain
  ptt : Drain
  idtone : TonePin
  ant0 : Drain
  ant1 : Drain
  ltxd : SerialPin
  rtxd : SerialPin
deriving DecidableEq, Repr

/-- R143: low is asserted. -/
def drainOf (asserted : Bool) : Drain := if asserted then .sinks else .leftOpen

/-- R143: serial, idle high. -/
def serialOf (frame : List Byte) : SerialPin := if frame.isEmpty then .idle .high else .carries frame

/-- R143: the output pins of working senses. -/
def outputPins (o : Outputs) : OutputPins where
  supply := drainOf o.supply
  ampkey := drainOf o.ampkey
  ptt := drainOf o.ptt
  idtone := if o.idtone then .squareWave else .heldLow
  ant0 := drainOf o.ant0
  ant1 := drainOf o.ant1
  ltxd := serialOf o.ltxd
  rtxd := serialOf o.rtxd

/-- R143: the input pins that have a working sense; `none` is an open input. -/
structure InputPins where
  supok : Option Level
  amprdy : Option Level
  txc : Option Level
  refl : Option Level
  ampf : Option Level
  antv : Option Level
  ants0 : Option Level
  ants1 : Option Level
  localKey : Option Level
  estop : Option Level
  resetn : Option Level
  lrxd : Option SerialPin
  rrxd : Option SerialPin
deriving DecidableEq, Repr

/-- R143: what the part reads on a serial input: idle, held at the low level, which is not the idle one, or bytes. -/
inductive SerialSense where
  | idle
  | heldLow
  | hears (bytes : List Byte)
deriving DecidableEq, Repr

/-- R143: the inputs as the part reads them. -/
structure Sensed where
  lines : Lines
  lrxd : SerialSense
  rrxd : SerialSense
deriving DecidableEq, Repr

/-- R143: the pull-ups make an open input read high. -/
def reads (pin : Option Level) : Level := pin.getD .high

/-- R143: a serial input is idle high, and an open one reads high. -/
def serialSensed (pin : Option SerialPin) : SerialSense :=
  match pin.getD (.idle .high) with
  | .idle .high => .idle
  | .idle .low => .heldLow
  | .carries bytes => if bytes.isEmpty then .idle else .hears bytes

/-- R143: the lines with a level: low is active, but for ESTOP, whose high level is active; low is the bit value 1 of the
code, LOCAL and reset. -/
def sensedLines (p : InputPins) : Lines where
  supok := reads p.supok == .low
  amprdy := reads p.amprdy == .low
  txc := reads p.txc == .low
  refl := reads p.refl == .low
  ampf := reads p.ampf == .low
  antv := reads p.antv == .low
  code := BitVec.ofNat 2 (bitOf 0 (reads p.ants0 == .low) + bitOf 1 (reads p.ants1 == .low))
  estop := reads p.estop == .high
  localKey := reads p.localKey == .low
  resetnLow := reads p.resetn == .low

/-- R143: the working senses of the input pins. -/
def sensed (p : InputPins) : Sensed where
  lines := sensedLines p
  lrxd := serialSensed p.lrxd
  rrxd := serialSensed p.rrxd

end Sys2Proof.Machine
end

