-- ==== Sys2Proof/Safety.lean ====
section
/-! DEFINITION. The terms that statements use: what every step keeps, when a request is taken at once, and when a timer or
deadline is due. -/

namespace Sys2Proof.Machine

/-! ## What every step keeps -/

/-- R177: the journal holds at most 48 records. -/
def journalBounded (s : State) : Prop := s.journal.length ≤ 48

/-- R158: the receive queue holds at most 4 frames. -/
def receiveBounded (s : State) : Prop := s.lp.queue.length ≤ 4

/-- R172: while recording is held the pending set is empty. -/
def heldIsEmpty (s : State) : Prop := s.ntu.held = true → s.ntu.pending = 0

/-- R171, R195: the pending set is drawn from the twelve causes. -/
def causesNamed (s : State) : Prop := causesInRange s.ntu.pending = true

/-- R130: LOCAL is never in the trip latch set. -/
def localUnlatched (s : State) : Prop := s.ilm.latched.localKey = false

/-- Log entry 7: nothing is left to act on between events. -/
def settled (s : State) : Prop := s.ilm.arisen = []

/-- The bounds and laws of the journal, the receive queue, the pending set and the trip latch set. -/
def recordsLawful (s : State) : Prop :=
  journalBounded s ∧ receiveBounded s ∧ heldIsEmpty s ∧ causesNamed s ∧ localUnlatched s

/-- R20: the request queue holds at most 12 entries, at most one per member. -/
def queueLawful (s : State) : Prop := s.tar.queue.length ≤ 12 ∧ (s.tar.queue.map (·.member)).Nodup

/-- R20: no entry is for a suspended or non-ENROLLED member. -/
def queuedMayWait (s : State) : Prop :=
  ∀ e ∈ s.tar.queue, (enrolment e.member s).isSome = true ∧ isSuspended e.member s = false

/-- R4: while the turn is not FREE its holder has no entry in the request queue. -/
def holderNotQueued (s : State) : Prop := ∀ m, holder s = some m → m ∉ s.tar.queue.map (·.member)

/-- R34, R185: in SETUP the turn is FREE and the queue empty. -/
def setupIsQuiet (s : State) : Prop := s.cst.phase = .setup → s.tar.queue = [] ∧ s.tar.turn = .free

/-- R183: no store write is in flight in RUN. -/
def writesInSetup (s : State) : Prop := s.cst.writing.isSome = true → s.cst.phase = .setup

/-- The laws of the turn and the queue. -/
def turnsLawful (s : State) : Prop :=
  queueLawful s ∧ queuedMayWait s ∧ holderNotQueued s ∧ setupIsQuiet s ∧ writesInSetup s

/-- R60: the claimant is IDENT exactly while the ID record is SENDING. -/
def identIsSending (s : State) : Prop := s.kch.claimant = .ident ↔ idSending s = true

/-- R58, R60: the claimant is NONE exactly while the chain is at rest, and an on-air start is then absent. -/
def restIsUnclaimed (s : State) : Prop :=
  (s.kch.claimant = .none ↔ chainAtRest s = true) ∧ (chainAtRest s = true → s.kch.onAirStart = none)

/-- R13, R110: while the turn is FREE or OFFERED the ID record is CLEAR and the chain is at rest; it is IDLE while the
turn is OFFERED. -/
def idleBeforeOpen (s : State) : Prop :=
  (turnOpen s = false → turnClosing s = false → s.ids.record = .clear ∧ chainAtRest s = true) ∧
  (∀ o, s.tar.turn = .offered o → s.kch.state = .idle)

/-- R65, R111: ON_AIR has an on-air start, and the holder's transmission that has one, in ON_AIR or in the key-down that
follows, owes an identification: the ID record is OWED or DUE. -/
def airIsOwed (s : State) : Prop :=
  (s.kch.state = .onAir → s.kch.onAirStart ≠ none) ∧
  (s.kch.claimant = .holder → s.kch.onAirStart ≠ none → idOwed s = true)

/-- R5, R150, R152: outside READY the turn is FREE. -/
def turnsNeedPower (s : State) : Prop := s.spc.power ≠ .ready → s.tar.turn = .free

/-- R51: the watch is ACTIVE while a SUPERVISED turn is OFFERED or OPEN. -/
def supervisedIsWatched (s : State) : Prop :=
  turnRunning s = true → turnClass s = some (.standing .supervised) → s.mrg.watch ≠ .inactive

/-- R37: the remaining allowance of a member is at most its stored allowance, in tenths of a second, and 0 for a member
that is not ENROLLED. -/
def allowanceBounded (s : State) : Prop :=
  ∀ m, (memberSlot m s).remaining ≤ (match enrolment m s with
    | some e => 10 * e.allowance
    | none => 0)

/-- The laws between the chain, the identification, the turn, the station power and the watch. -/
def chainLawful (s : State) : Prop :=
  identIsSending s ∧ restIsUnclaimed s ∧ idleBeforeOpen s ∧ airIsOwed s ∧ turnsNeedPower s ∧ supervisedIsWatched s

/-! ## A request that is taken at once -/

/-- R158, R159: a request that arrives is taken at once: the part is out of reset, its transmitter is IDLE, nothing waits
before it and the link is UP; and nothing is left over from an earlier event (log entry 7). -/
def takesAtOnce (s : State) : Prop :=
  inReset s = false ∧ s.lp.tx = .idle ∧ s.lp.queue = [] ∧ s.lp.lost = false ∧ s.ilm.arisen = []

/-- What the arrival and the taking of a frame do before any owner acts: the receiver hunts again (R157), a running
supervision timer is reloaded (R164) and the check-corruption flag is clear (R169). -/
def heard (s : State) : State :=
  { s with lp := { s.lp with
      rx := .hunting
      supervision := if s.lp.supervision.isSome then some (s.clock + 100 * s.lp.supervisionTime) else none
      corruptNext := false } }

/-- R10: the same for a request that speaks for a member, whose OPEN turn's idle deadline, if present, becomes now plus
the idle limit. -/
def heardFrom (m : Byte) (s : State) : State :=
  match s.tar.turn with
  | .opened t =>
    if t.holder = m.toNat ∧ t.idleDeadline.isSome then
      { heard s with tar := { s.tar with
          turn := .opened { t with idleDeadline := some (now s + 10 * s.tar.copy.idleLimit) } } }
    else heard s
  | _ => heard s

/-- R160, R169: the state `t` that a request left, with its reply's sending begun: the reply shows `t`'s summary, and its
check code is corrupted if the flag was set in the state `s` that the request met. -/
def replied (tag member : Byte) (r : Request) (o : ReplyOutcome) (body : List Byte) (s t : State) : State :=
  { t with lp := { t.lp with tx := .replying (replyOf ⟨tag, member, r⟩ o body s.lp.corruptNext t) } }

/-- A member's request meets no general check that refuses it (R161): the member is ENROLLED and the phase is RUN; and
the member is not suspended (R47). -/
def mayAsk (m : Byte) (s : State) : Prop :=
  (enrolment m.toNat s).isSome = true ∧ s.cst.phase = .run ∧ isSuspended m.toNat s = false

/-- The tag, the member field and the request of a request row (log entry 4); a request of UNKNOWN_KIND_REQUEST whose
kind is in the catalogue is that kind. -/
def carries (c : Instr) : Option (Byte × Byte × Request) :=
  match c with
  | .req tag m e x n => some (tag, m, .req e x n)
  | .rel tag m => some (tag, m, .rel)
  | .brkMember tag m take => some (tag, m, .brkMember take)
  | .brkAuthority tag take => some (tag, authority, .brkAuthority take)
  | .qst tag m => some (tag, m, .qst)
  | .qrd tag => some (tag, authority, .qrd)
  | .cls tag order => some (tag, authority, .cls order)
  | .mwr tag m state callsign standing profile allowance emergency =>
    some (tag, authority, .mwr m state callsign standing profile allowance emergency)
  | .mrd tag m => some (tag, authority, .mrd m)
  | .pfw tag index count slots => some (tag, authority, .pfw index count slots)
  | .pfr tag index => some (tag, authority, .pfr index)
  | .susSuspend tag m => some (tag, authority, .sus m 1)
  | .susReinstate tag m => some (tag, authority, .sus m 2)
  | .qrf tag m => some (tag, authority, .qrf m)
  | .wchOn tag m => some (tag, m, .wch 1)
  | .wchOff tag m => some (tag, m, .wch 2)
  | .key tag m => some (tag, m, .key)
  | .unk tag m => some (tag, m, .unk)
  | .hld tag m => some (tag, m, .hld)
  | .fcl tag => some (tag, authority, .fcl)
  | .tun tag m f mode p a => some (tag, m, .tun f mode p a)
  | .anw tag index state count ranges rating => some (tag, authority, .anw index state count ranges rating)
  | .anr tag index => some (tag, authority, .anr index)
  | .idw tag count slots => some (tag, authority, .idw count slots)
  | .idr tag => some (tag, authority, .idr)
  | .icl tag => some (tag, authority, .icl)
  | .spwUp tag => some (tag, authority, .spw 1)
  | .spwDown tag => some (tag, authority, .spw 2)
  | .bftOn tag => some (tag, authority, .bft 1)
  | .bftOff tag => some (tag, authority, .bft 2)
  | .sta tag => some (tag, authority, .sta)
  | .tst tag => some (tag, authority, .tst)
  | .nen tag causes => some (tag, authority, .nen causes)
  | .ncl tag causes => some (tag, authority, .ncl causes)
  | .jrd tag => some (tag, authority, .jrd)
  | .prw tag record => some (tag, authority, .prw record)
  | .prr tag => some (tag, authority, .prr)
  | .run tag => some (tag, authority, .run)
  | .set tag => some (tag, authority, .set)
  | .rst tag => some (tag, authority, .rst)
  | .unknownKindRequest kind tag m body => some (tag, m, requestOf kind body)
  | _ => none

/-! ## The filters of REFL and ANTS as the chain moves -/

/-- R125: a filter takes a fault condition; its filter time is above 0 and would end at `limit`. -/
def filterMoved (fault : Bool) (limit : Nat) : Filter → Filter
  | .quiet => if fault then .headingActive limit else .quiet
  | .headingActive k => if fault then .headingActive k else .quiet
  | .active => if fault then .active else .headingQuiet limit
  | .headingQuiet k => if fault then .active else .headingQuiet k

/-- R125: the filter of an input takes a fault condition as it stands now. -/
def inputMoved (i : Input) (fault : Bool) (s : State) : Monitor :=
  { s.ilm with filters :=
      s.ilm.filters.set i (filterMoved fault (s.clock + s.ilm.copy.filterTimes.get i) (s.ilm.filters.get i)) }

/-- R125: that turns no input in the same event: the filter time is above 0, or the input is neither ACTIVE nor at fault. -/
def movesQuietly (i : Input) (fault : Bool) (s : State) : Prop :=
  0 < s.ilm.copy.filterTimes.get i ∨ (inputActive i s = false ∧ fault = false)

/-- R127: REFL blanking, if it is running, ends, and REFL is filtered as its line stands. -/
def unblanked (s : State) : Monitor :=
  if s.ilm.blanking = none then s.ilm
  else { s.ilm with
    blanking := none
    filters := { s.ilm.filters with
      refl := filterMoved s.lines.refl (s.clock + s.ilm.copy.filterTimes.refl) s.ilm.filters.refl } }

/-- R127: REFL blanking begins, unless its time is 0. -/
def blanked (s : State) : Monitor :=
  if s.ilm.copy.reflBlanking = 0 then s.ilm
  else { s.ilm with
    blanking := some (s.clock + s.ilm.copy.reflBlanking)
    filters := { s.ilm.filters with
      refl := filterMoved false (s.clock + s.ilm.copy.filterTimes.refl) s.ilm.filters.refl } }

/-- R129: the antenna sense is watched as the chain leaves rest. -/
def antsWatched (s : State) : Monitor :=
  { s.ilm with filters := { s.ilm.filters with
    ants := filterMoved (!senseConfirms s) (s.clock + s.ilm.copy.filterTimes.ants) s.ilm.filters.ants } }

/-- R127, R129: the chain comes to rest: REFL blanking ends, and so does the watch of the antenna sense. -/
def restMonitor (s : State) : Monitor :=
  { unblanked s with filters := { (unblanked s).filters with
    ants := filterMoved false (s.clock + s.ilm.copy.filterTimes.ants) s.ilm.filters.ants } }

/-- The end of REFL blanking turns no input in the same event: no blanking is running, or REFL's filter time is above 0, or
it is not ACTIVE and its line is inactive. -/
def unblanksQuietly (s : State) : Prop :=
  s.ilm.blanking = none ∨ 0 < s.ilm.copy.filterTimes.refl ∨ (s.lines.refl = false ∧ inputActive .refl s = false)

/-- The same for the end of the antenna-sense watch as well. -/
def restsQuietly (s : State) : Prop :=
  unblanksQuietly s ∧ (0 < s.ilm.copy.filterTimes.ants ∨ inputActive .ants s = false)

/-- R157: the bytes after a sync byte are a part of a frame, short of its whole: none yet, or a length byte in range and fewer
bytes than it asks for. -/
def framePart (l : List Byte) : Prop :=
  l = [] ∨ ∃ (n : Byte) (rest : List Byte), l = n :: rest ∧ 3 ≤ n.toNat ∧ n.toNat ≤ 243 ∧ rest.length < n.toNat + 2

/-! ## Effects that several rules share -/

/-- R145, R151: the power-down-requested flag cleared. -/
def requestCleared (s : State) : State := { s with spc := { s.spc with downRequested := false } }

/-- R144: a change of the power state, with its POWER record and the cause POWER. -/
def powerChanged (p : Power) (summary : Option SelfCheck) (s : State) : State :=
  raise .power (writeJournal (.power p.state summary) { s with spc := { s.spc with
    power := p
    since := some (now s) } })

/-- R17 steps 1 to 3: a turn becomes FREE with its TURN record and the cause TURN_END. -/
def turnFreed (record : JournalBody) (s : State) : State :=
  (raise .turnEnd (writeJournal record s)).setTurn .free

/-- R114, R120: an identification that is owed is recorded MISSED. -/
def identMissed (trigger : Trigger) (s : State) : State :=
  let u := writeJournal (.ident trigger .missed 0) s
  { u with ids := { s.ids with record := .clear } }

/-- R120, R128, R151: the entry to OFF: the power-down-requested flag cleared, the restart holdoff loaded, SUPOK no longer
watched, and what is still owed MISSED. -/
def offEntered (summary : Option SelfCheck) (s : State) : State :=
  let u := powerChanged (.off (some (s.clock + 1000 * s.spc.copy.restartHoldoff))) summary (requestCleared s)
  let v := { u with ilm := inputMoved .supok false s }
  if idOwed s then identMissed (if turnClosing s then .closing else .interval) v else v

/-- R151: the entry to COOLING; a cool-down time of 0 goes on to OFF in the same event. -/
def coolingEntered (s : State) : State :=
  let u := powerChanged (.cooling (s.clock + 1000 * s.spc.copy.coolDown) s.spc.power.confirmed) none (requestCleared s)
  if s.spc.copy.coolDown = 0 then offEntered none u else u

/-- A cool-down that a turn's end brings turns no input in the same event: it takes time, or the entry to OFF that follows
finds SUPOK's filter time above 0 or SUPOK not ACTIVE. -/
def coolsQuietly (s : State) : Prop :=
  s.spc.downRequested = true → s.spc.copy.coolDown = 0 → movesQuietly .supok false s

/-- R17, R151: a turn becomes FREE, and COOLING follows with the power-down-requested flag set, and selection without it. -/
def freedTo (record : JournalBody) (s : State) : State :=
  if s.spc.downRequested = true ∧ s.spc.power = .ready then coolingEntered (turnFreed record s)
  else runSelection (turnFreed record s)

/-- R13: the TURN record of a turn that was never opened. -/
def offeredRecord (t : OfferedTurn) (cause : EndCause) : JournalBody := .turn t.holder t.cls t.offeredAt 0 0 cause

/-- R17 step 1: the TURN record of a turn that was opened and becomes FREE now. -/
def openedRecord (t : OpenTurn) (cause : EndCause) (s : State) : JournalBody :=
  .turn t.holder t.cls t.openedAt ((now s - t.openedAt) / 10) (t.onAirTotal / 10) cause

/-- R17 step 1: the TURN record of a CLOSING turn that becomes FREE now. -/
def closedRecord (t : ClosingTurn) (s : State) : JournalBody :=
  .turn t.holder t.cls t.openedAt ((now s - t.openedAt) / 10) (t.onAirTotal / 10) t.endCause

/-- R14: the fields of the CLOSING turn that an OPEN turn leaves. -/
def closingFrom (t : OpenTurn) (cause : EndCause) : ClosingTurn :=
  ⟨t.holder, t.cls, t.offeredAt, t.openedAt, t.onAirTotal, cause⟩

/-- R14: the CLOSING turn that an OPEN turn leaves. -/
def closedBy (t : OpenTurn) (cause : EndCause) : Turn := .closing (closingFrom t cause)

/-- R67, R68: key-down with a cause begins from ON_AIR, with TXC active: TX_DOWN is entered now, and PTT is released. -/
def keyedDown (cause : KeyDownCause) (s : State) : State :=
  { s with
    kch := { s.kch with
      state := .txDown
      stageStart := some s.clock
      stageTimer := some (s.clock + s.kch.copy.txDropLimit)
      keyDownCause := some cause
      onAirEnd := some (now s)
      deadMan := none
      txLimit := none }
    ilm := unblanked s }

/-- The chain is ON_AIR for the holder of the OPEN turn `t`, with TXC active, out of reset and with nothing left over from an
earlier event. -/
def onTheAir (t : OpenTurn) (s : State) : Prop :=
  inReset s = false ∧ s.ilm.arisen = [] ∧ s.tar.turn = .opened t ∧ s.kch.state = .onAir ∧ s.kch.claimant = .holder ∧
    s.lines.txc = true ∧ unblanksQuietly s

/-- R183: a write request that is accepted: its store write starts, and completes no later than 12 ms from now. -/
def writeStarted (w : StoreWrite) (s : State) : State :=
  { heard s with cst := { s.cst with writing := some ⟨w, s.clock + 12⟩ } }

/-- R58, R70, R74: what the chain record holds when the chain has come to rest in a state: claimant NONE, every timer but
the holdoff stopped, and the last-transmission record with a cause. -/
def restedIn (rest : ChainState) (cause : KeyDownCause) (s : State) : Chain :=
  { s.kch with
    state := rest
    claimant := .none
    stageStart := none
    stageTimer := none
    keyDownCause := none
    onAirStart := none
    onAirEnd := none
    deadMan := none
    txLimit := none
    last := some
      { claimant := s.kch.claimant
        member := if s.kch.claimant = .holder then holder s else none
        start := s.kch.onAirStart
        duration := (match s.kch.onAirStart with
          | none => 0
          | some a => s.kch.onAirEnd.getD (now s) - a)
        cause := cause } }

/-- R72: the fault record of a fault. -/
def faultOf (kind : FaultKind) (s : State) : FaultRecord :=
  ⟨kind, s.kch.state, s.kch.claimant, if s.kch.claimant = .holder then holder s else none, now s⟩

/-- R69, R77: what a completed key-down leaves in the chain record. -/
def restedChain (s : State) : Chain :=
  { restedIn .idle (s.kch.keyDownCause.getD .unkey) s with
    holdoff := if s.kch.keyDownCause = some .txLimit then some (s.clock + 1000 * s.kch.copy.reKeyHoldoff)
      else s.kch.holdoff }

/-! ## A transmission cut off -/

/-- R15, R114: what is owed is MISSED, and the turn becomes FREE. -/
def missedThenFreed (record : JournalBody) (s : State) : State :=
  freedTo record (if idOwed s then identMissed .closing s else s)

/-- R15, R132: a turn that finds the chain released: it becomes FREE, with what is owed MISSED; a CLOSING turn keeps its end
cause. -/
def turnReleased (cause : EndCause) (s : State) : State :=
  match s.tar.turn with
  | .free => s
  | .offered o => freedTo (offeredRecord o cause) s
  | .opened o => missedThenFreed (openedRecord o cause s) s
  | .closing c => missedThenFreed (closedRecord c s) s

/-- R118: the duration of a send that is abandoned. -/
def sentFor (p : Progress) (s : State) : Nat :=
  match p with
  | .notBegun => 0
  | .running start _ _ => s.clock - start
  | .ended _ => patternTime s

/-- R118: a send is abandoned: MISSED with the turn CLOSING, and otherwise DUE again with the grace timer loaded. -/
def sendAbandoned (s : State) : State :=
  match s.ids.record with
  | .sending since trigger progress =>
    if turnClosing s then
      let u := writeJournal (.ident trigger .missed (sentFor progress s)) s
      { u with ids := { s.ids with record := .clear, tone := false } }
    else { s with ids := { s.ids with record := .due since (some (s.clock + 1000 * s.ids.copy.grace)), tone := false } }
  | _ => s

/-- R74, R132: immediate release with a cause, and the turn released with its own. -/
def releasedBy (cause : KeyDownCause) (ends : EndCause) (s : State) : State :=
  turnReleased ends (if chainAtRest s then s
    else sendAbandoned { s with kch := restedIn .idle cause s, ilm := restMonitor s })

/-- R72, R118, R15: a fault, met with the lines as in `x`: the outputs are released and the chain rests in FAULTED, with the
FAULT record and KEY_FAULT; a send is abandoned; and the turn ends, but for an OPEN one under claimant IDENT. -/
def faulted (kind : FaultKind) (x : Lines) (s : State) : State :=
  let u := sendAbandoned (raise .keyFault (writeJournal (.fault (faultOf kind s))
    { s with
      lines := x
      kch := { restedIn .faulted .fault s with fault := some (faultOf kind s) }
      ilm := restMonitor s }))
  if s.kch.claimant = .ident ∧ turnOpen s = true then u else turnReleased .chainFault u

/-! ## Key-up -/

/-- R10: an OPEN turn without its idle deadline. -/
def idleRemoved : Turn → Turn
  | .opened t => .opened { t with idleDeadline := none }
  | t => t

/-- R65, R116: ON_AIR under claimant IDENT begins the pattern. -/
def identAired (s : State) : State :=
  { s with
    kch := { s.kch with state := .onAir, stageStart := none, stageTimer := none, onAirStart := some (now s) }
    ids := { s.ids with
      record := (match s.ids.record with
        | .sending since trigger _ => .sending since trigger (.running s.clock 0 s.clock)
        | x => x)
      tone := (match s.ids.record, s.ids.pattern with
        | .sending _ _ _, .valid (e :: _) => e == .dit || e == .dah
        | .sending _ _ _, _ => false
        | _, _ => s.ids.tone) } }

/-- R42, R65, R76, R101, R111: ON_AIR under claimant HOLDER: the transmission limit is loaded, a CLEAR ID record becomes OWED,
and a STALE setting is keyed down at once. -/
def holderAired (s : State) : State :=
  let u : State := { s with
    kch := { s.kch with
      state := .onAir
      stageStart := none
      stageTimer := none
      onAirStart := some (now s)
      txLimit := some (s.clock + 1000 * s.kch.copy.transmissionLimit) }
    mrg := { s.mrg with unitOwed := false }
    ids := { s.ids with
      record := if s.ids.record = .clear then .owed (now s) (s.clock + 1000 * s.ids.copy.interval) else s.ids.record } }
  if s.seu.confirmed.fresh then u else keyedDown .rigSilent u

/-- R65: ON_AIR under the chain's claimant. -/
def aired (s : State) : State := if s.kch.claimant = .ident then identAired s else holderAired s

/-- R64, R127, R129: the entry to TX_UP; TXC that is active already is on the air at once with an earliest bound of 0, and
TX_EARLY otherwise. -/
def txUpEntered (s : State) : State :=
  let u : State := { s with
    kch := { s.kch with
      state := .txUp
      stageStart := some s.clock
      stageTimer := some (s.clock + s.kch.copy.txConfirmLatest) }
    ilm := blanked { s with ilm := antsWatched s } }
  if s.lines.txc then if s.kch.copy.txConfirmEarliest = 0 then aired u else faulted .txEarly s.lines u
  else u

/-- R63, R129: the entry to AMP_UP; AMPRDY that is active already goes on at once with an earliest bound of 0, and is AMP_EARLY
otherwise. -/
def ampUpEntered (s : State) : State :=
  let u : State := { s with
    kch := { s.kch with
      state := .ampUp
      stageStart := some s.clock
      stageTimer := some (s.clock + s.kch.copy.ampReadyLatest) }
    ilm := antsWatched s }
  if s.lines.amprdy then if s.kch.copy.ampReadyEarliest = 0 then txUpEntered u else faulted .ampEarly s.lines u
  else u

/-- R10, R62: key-up begins for a claimant: in AMP_UP, and in barefoot mode in TX_UP; an idle deadline is removed. -/
def keyedUp (c : Claimant) (s : State) : State :=
  let u : State := { s with
    tar := { s.tar with turn := idleRemoved s.tar.turn }
    kch := { s.kch with claimant := c } }
  if s.spc.barefoot then txUpEntered u else ampUpEntered u

/-- What a confirmation that is active already brings in the event of a key-up turns no input: REFL's filter time is above 0
or its line is inactive, and the turn that a fault ends cools quietly. -/
def faultsQuietly (s : State) : Prop := (0 < s.ilm.copy.filterTimes.refl ∨ s.lines.refl = false) ∧ coolsQuietly s

/-- A key-up turns no input in the event that begins it: REFL and ANTS have filter times above 0 or are not ACTIVE, the sense
then confirming; and `faultsQuietly` where the first confirmation is active already. -/
def keysUpQuietly (s : State) : Prop :=
  (0 < s.ilm.copy.filterTimes.refl ∨ inputActive .refl s = false) ∧
    (0 < s.ilm.copy.filterTimes.ants ∨ (inputActive .ants s = false ∧ senseConfirms s = true)) ∧
    ((if s.spc.barefoot then s.lines.txc else s.lines.amprdy) = true → faultsQuietly s)

/-! ## The claims of an identification -/

/-- R110: the owed-since time of a record that is OWED or DUE. -/
def owedSince (s : State) : Nat :=
  match s.ids.record with
  | .owed since _ => since
  | .due since _ => since
  | _ => 0

/-- R79: a claim for the identification that is owed is taken: the chain is IDLE, no retune is in flight, no trip is latched,
LOCAL is QUIET and the station is READY. -/
abbrev claimIsTaken (s : State) : Prop :=
  idOwed s = true ∧ s.kch.state = .idle ∧ retuneInFlight s = false ∧ anyLatched s = false ∧ localActive s = false ∧
    s.spc.power = .ready

/-- R62, R79, R113, R114: a claim is taken: the record is SENDING and key-up begins under claimant IDENT. -/
def identClaimed (trigger : Trigger) (s : State) : State :=
  keyedUp .ident { s with ids := { s.ids with record := .sending (owedSince s) trigger .notBegun } }

/-! ## The end of a turn -/

/-- R14, R16, R114: a CLOSING turn with the chain at rest: FREE with nothing owed; otherwise the closing identification's
claim, which a retune in flight holds back, or the identification MISSED and the turn FREE. -/
def closingEnds (c : ClosingTurn) (s : State) : State :=
  if claimIsTaken s then identClaimed .closing s
  else if idOwed s = true ∧ s.kch.state = .idle ∧ retuneInFlight s = true then s
  else missedThenFreed (closedRecord c s) s

/-- R95, R113: the interval claim of an OPEN turn is made, if the identification is DUE and the claim is taken. -/
def intervalClaimMade (s : State) : State := if idDue s = true ∧ claimIsTaken s then identClaimed .interval s else s

/-- R10, R113: the chain comes back to IDLE in the OPEN turn `o`: its idle deadline is set, or an identification that is DUE
is claimed. -/
def idleAgain (o : OpenTurn) (s : State) : State :=
  intervalClaimMade { s with tar := { s.tar with
    turn := .opened { o with idleDeadline := some (now s + 10 * s.tar.copy.idleLimit) } } }

/-- R95 step 4, R113, R114: as a retune ends, the claim that it held back is made. -/
def heldClaimMade (s : State) : State :=
  match s.tar.turn with
  | .opened _ => intervalClaimMade s
  | .closing c => if chainAtRest s then closingEnds c s else s
  | _ => s

/-- R67, R68: a key-down that comes to rest in the event that begins it: from AMP_UP with an amp hold of 0, and from TX_UP
with an amp hold of 0 or in barefoot mode. -/
abbrev downAtOnce (s : State) : Prop :=
  (s.kch.state = .ampUp ∧ s.kch.copy.ampHold = 0) ∨
    (s.kch.state = .txUp ∧ (s.kch.copy.ampHold = 0 ∨ s.spc.barefoot = true))

/-- R67, R68: key-down with a cause begins for the holder: TX_DOWN from ON_AIR; AMP_DOWN from AMP_UP, and from TX_UP, whose
TX_DOWN ends at once with TXC inactive. -/
def keyDownBegun (cause : KeyDownCause) (s : State) : State :=
  if s.kch.state = .onAir then keyedDown cause s
  else
    { s with
      kch := { s.kch with
        state := .ampDown
        stageStart := some s.clock
        stageTimer := some (s.clock + s.kch.copy.ampHold)
        keyDownCause := some cause
        onAirEnd := if s.kch.state = .txUp then none else s.kch.onAirEnd
        deadMan := none
        txLimit := none }
      ilm := if s.kch.state = .txUp then unblanked s else s.ilm }

/-- R68, R69: the chain comes to rest in the event that begins the key-down. -/
def keyDownDone (cause : KeyDownCause) (s : State) : State :=
  { s with
    kch := restedIn .idle cause { s with kch := { s.kch with
      onAirEnd := if s.kch.state = .txUp then none else s.kch.onAirEnd } }
    ilm := restMonitor s }

/-- R14: the OPEN turn `o` ends with a cause that asks for a TURN_END key-down where the holder is keyed (the last column of
section 1.4), or whose moment finds the holder not keyed. -/
def openEnded (cause : EndCause) (o : OpenTurn) (s : State) : State :=
  let u : State := { s with tar := { s.tar with turn := closedBy o cause } }
  if holderKeyed s then
    if downAtOnce s then closingEnds (closingFrom o cause) (keyDownDone .turnEnd u) else keyDownBegun .turnEnd u
  else if chainAtRest s then closingEnds (closingFrom o cause) u
  else u

/-- R13, R14, R18: an OFFERED or OPEN turn ends with such a cause; a FREE or CLOSING one is unchanged. -/
def turnEnded (cause : EndCause) (s : State) : State :=
  match s.tar.turn with
  | .offered o => freedTo (offeredRecord o cause) s
  | .opened o => openEnded cause o s
  | _ => s

/-- A turn's end turns no input in the same event: a key-down it asks for goes down by the lines as they should stand, a
closing claim it brings keys up quietly, and a cool-down it brings cools quietly. -/
def endsQuietly (s : State) : Prop :=
  coolsQuietly s ∧
  (holderKeyed s = true → unblanksQuietly s ∧ (s.kch.state = .onAir → s.lines.txc = true) ∧
    (s.kch.state = .txUp → s.lines.txc = false) ∧
    (downAtOnce s → restsQuietly s ∧ (idOwed s = true → keysUpQuietly s))) ∧
  (claimIsTaken s → keysUpQuietly s)

/-! ## The watch, a break and an acceptance -/

/-- R51 steps 1 to 3: the watch of `w` is left, with its WATCH record and the cause WATCH. -/
def watchLeft (w : Nat) (s : State) : State :=
  raise .watch (writeJournal (.watch w false) { s with mrg := { s.mrg with watch := .inactive } })

/-- R51: the watch of `w` ends, and with it a SUPERVISED turn that is OFFERED or OPEN. -/
def watchEnds (w : Nat) (s : State) : State :=
  if turnRunning s = true ∧ turnClass s = some (.standing .supervised) then turnEnded .noWatch (watchLeft w s)
  else watchLeft w s

/-- R31 steps 2 and 3: a breaker's entry joins with placement BREAK, or its entry of placement NORMAL takes it; the count of
placements keeps their order. -/
def breakPlaced (m : Nat) (s : State) : State :=
  match entryOf m s with
  | none => { s with tar := { s.tar with
      placements := s.tar.placements + 1
      queue := s.tar.queue ++ [⟨m, .standing .control, .brk s.tar.placements, now s, none, none⟩] } }
  | some e =>
    if e.placement = .normal then { s with tar := { s.tar with
      placements := s.tar.placements + 1
      queue := s.tar.queue.map fun x =>
        if x.member = m ∧ x.placement = .normal then { x with placement := .brk s.tar.placements } else x } }
    else s

/-- R8: the OPEN turn that an acceptance now makes of an OFFERED one. -/
def openedFrom (t : OfferedTurn) (s : State) : OpenTurn where
  holder := t.holder
  cls := t.cls
  offeredAt := t.offeredAt
  openedAt := now s
  turnDeadline := now s + 10 * (match t.length with
    | none => s.tar.copy.turnLimit
    | some n => min n s.tar.copy.turnLimit)
  idleDeadline := some (now s + 10 * s.tar.copy.idleLimit)
  onAirTotal := t.onAirTotal

/-- R8, R10: the state in which the owner takes a `hld`, `key` or `tun` of the holder: with an OFFERED turn accepted, and
with an OPEN turn's idle deadline, if present, reloaded. -/
def turnTaken (m : Byte) (s : State) : State :=
  match s.tar.turn with
  | .offered t => { heard s with tar := { s.tar with
      turn := .opened (openedFrom t s)
      acceptances := s.tar.acceptances + 1 } }
  | _ => heardFrom m s

/-! ## The setting, power and reset -/

/-- R95 steps 1 to 3, R97, R132: a retune ends with a result, whose owner is the requester if the turn in which it asked is
still OPEN (log entry 23). -/
def retuneEnded (result : RetuneResult) (r : Requested) (tag : Option Byte) (s : State) : State :=
  raise .setting { s with seu := { s.seu with
    retune := .steady
    lastResult := ⟨result,
      if turnOpen s = true ∧ holder s = some r.requester ∧ s.tar.acceptances = r.turn then some r.requester else none,
      tag, some (now s)⟩
    tx := { s.seu.tx with waiting := none } } }

/-- R93: the entry to AWAITING. -/
def awaitingFor (r : Requested) (s : State) : State :=
  { s with seu := { s.seu with
    tagCounter := nextTag s.seu.tagCounter
    retune := .awaiting r (nextTag s.seu.tagCounter) (s.clock + s.seu.copy.readbackTimeout)
    tx := handFrame ⟨nextTag s.seu.tagCounter, r.setting⟩ s.seu.tx } }

/-- R149: the six items of the self-check, as the lines stand. -/
def checkItems (s : State) : SelfCheck :=
  let item (b : Bool) : ItemResult := if b then .pass else .fail
  { supok := item s.lines.supok
    ampf := if s.spc.barefoot then .notTested else item (!s.lines.ampf)
    refl := item (!s.lines.refl)
    txc := item (!s.lines.txc)
    amprdy := item (!s.lines.amprdy)
    antenna := item (senseConfirms s) }

/-- R149: no item is FAIL. -/
abbrev checkPasses (s : State) : Prop :=
  s.lines.supok = true ∧ (s.spc.barefoot = true ∨ s.lines.ampf = false) ∧ s.lines.refl = false ∧ s.lines.txc = false ∧
    s.lines.amprdy = false ∧ senseConfirms s = true

/-- R149: the self-check's record. -/
def checkRecorded (c : SelfCheck) (s : State) : State := { s with spc := { s.spc with selfCheck := some (c, now s) } }

/-- R148, R149: the warm-up has ended: the self-check passes and selection runs, or the station goes to OFF. -/
def selfChecked (s : State) : State :=
  let u := checkRecorded (checkItems s) s
  if checkPasses s then runSelection (powerChanged .ready (some (checkItems s)) u) else offEntered (some (checkItems s)) u

/-- R128, R147, R148: the supply is confirmed: WARM_UP, and the self-check at once in barefoot mode or with a warm-up time of
0. -/
def supplyConfirmed (s : State) : State :=
  let u : State := { s with
    spc := { s.spc with power := .warmUp (s.clock + 1000 * s.spc.copy.warmUp) }
    ilm := inputMoved .supok false s }
  if s.spc.barefoot = true ∨ s.spc.copy.warmUp = 0 then selfChecked u else u

/-- R142: the filter of an input just after a reset. -/
def filterAfterReset (fault : Bool) (clock time : Nat) : Filter :=
  if fault then .headingActive (clock + time) else .quiet

/-- R189: the part at the end of a reset of a kind, where every filter time is above 0: every block as its chapter gives
(`resetBlocks`), the STORE of a load that found a record DAMAGED recorded or deferred (R172), and the inputs filtered
afresh (R142). -/
def resetDone (kind : ResetKind) (s : State) : State :=
  let t := reportDamage (resetBlocks kind (cutWrite s))
  { t with ilm := { t.ilm with filters :=
      { refl := filterAfterReset s.lines.refl t.clock t.ilm.copy.filterTimes.refl
        ampf := filterAfterReset s.lines.ampf t.clock t.ilm.copy.filterTimes.ampf
        supok := .quiet
        estop := filterAfterReset s.lines.estop t.clock t.ilm.copy.filterTimes.estop
        localKey := filterAfterReset s.lines.localKey t.clock t.ilm.copy.filterTimes.localKey
        ants := .quiet } } }

/-- Every filter time of the record that a reset would load is above 0 (R124). -/
def filterTimesPositive (s : State) : Prop := ∀ i, 0 < (loadedParams (cutWrite s).cst.records).filterTimes.get i

/-! ## Expiries -/

/-- The moment, in ms, at which what a command of expiry stands for falls due; `none` for any other command and for a
timer or deadline that is not present. -/
def dueMoment (c : Instr) (s : State) : Option Nat :=
  match c with
  | .linkSupervisionExpiry => s.lp.supervision
  | .offerDeadline => offerMoment s
  | .turnDeadline => turnMoment s
  | .idleDeadline => idleMoment s
  | .entryExpiry m => entryMoment m.toNat s
  | .allowanceExhausted => quotaMoment s
  | .watchExpiry => watchMoment s
  | .ampReadyLatestBound => stageMoment .ampUp s
  | .txConfirmLatestBound => stageMoment .txUp s
  | .txDropLimit => stageMoment .txDown s
  | .ampHoldExpiry => stageMoment .ampDown s
  | .deadManExpiry => s.kch.deadMan
  | .transmissionLimitExpiry => s.kch.txLimit
  | .reKeyHoldoffExpiry => s.kch.holdoff
  | .settleLimit => settleMoment s
  | .readbackTimeout => readbackMoment s
  | .rigSilenceExpiry => s.seu.rigSilence
  | .intervalTimerExpiry => intervalMoment s
  | .graceTimerExpiry => graceMoment s
  | .idElementEnd => elementMoment s
  | .filterTimerExpiry i => filterMoment i s
  | .reflBlankingExpiry => s.ilm.blanking
  | .supplyConfirmExpiry => supplyMoment s
  | .warmUpExpiry => warmUpMoment s
  | .coolDownExpiry => coolDownMoment s
  | .restartHoldoffExpiry => holdoffMoment s
  | _ => none

/-- An expiry that acts in the present moment: the part is out of reset, the timer or deadline has come, and nothing is
left over from an earlier event. -/
def fallsDue (c : Instr) (s : State) : Prop :=
  inReset s = false ∧ s.ilm.arisen = [] ∧ ∃ t, dueMoment c s = some t ∧ t ≤ s.clock

end Sys2Proof.Machine
end

