-- ==== Sys2Proof/Certificates/Slice0/Obligations.lean ====
section
/-! DEFINITION. The statements for the provers. A next state is written as the state before with the fields the rules name
changed, so that the frame is part of each statement: whatever is not written there is unchanged. `pumpNotice` is the notice
that an event triggers, begun at the event's end with all the causes that the event raised (log entry 29). -/

open Sys2Proof Sys2Proof.Machine

/-! ## The queue of commands and time -/

/-- A step takes the command at the front of the queue. -/
def Obligations.StepTakesTheFrontCommand : Prop :=
  ∀ (c : Instr) (rest : List Instr) (s : State), s.pending = c :: rest → step s = exec c { s with pending := rest }

/-- Log entries 1 and 3: on an empty queue one millisecond passes, and exactly the commands whose timer or deadline has come
join the queue, each once, in some order; while the part is held in reset nothing passes. -/
def Obligations.EmptyQueueLetsTimePass : Prop :=
  ∀ s : State, s.pending = [] →
    (inReset s = true → step s = .next s) ∧
    (inReset s = false →
      let u : State := passTo (s.clock + 1) s
      ∃ (due : List Instr) (k : Nat), due.Nodup ∧
        (∀ c : Instr, c ∈ due ↔ (c.wf = true ∧ ∃ t, dueMoment c u = some t ∧ t ≤ u.clock) ∨
          (c = .storeWriteCompletion ∧ ∃ w, u.cst.writing = some w ∧ w.latest ≤ u.clock)) ∧
        s.choices ≤ k ∧ step s = .next { u with pending := due, choices := k })

/-- R1, R11, R42, R44: time that passes counts for the holder on the air, and for nobody else. The last unit of a limited
allowance is held back for the event of R43 (log entry 16). -/
def Obligations.TimeCountsTheHoldersAir : Prop :=
  ∀ (t : Nat) (s : State),
    (t ≤ s.clock → passTo t s = s) ∧
    (s.clock < t → holderOnAir s = false → passTo t s = { s with clock := t }) ∧
    (s.clock < t → holderOnAir s = true → ∀ o : OpenTurn, s.tar.turn = .opened o →
      let units : Nat := t / 100 - s.clock / 100
      let left : Nat := (memberSlot o.holder s).remaining
      let counted : State := { s with
        clock := t
        tar := { s.tar with turn := .opened { o with onAirTotal := o.onAirTotal + units } } }
      let spent (remaining : Nat) (owed : Bool) : State := { counted with mrg := { s.mrg with
        members := s.mrg.members.setIfInBounds o.holder { memberSlot o.holder s with remaining := remaining }
        unitOwed := owed } }
      (isLimited o.holder s = false ∨ units = 0 → passTo t s = counted) ∧
      (isLimited o.holder s = true → 0 < units →
        (units < left → passTo t s = spent (left - units) false) ∧
        (left ≤ units → passTo t s = spent (min left 1) true)))

/-- Log entries 2 and 18: the command of a timer or deadline that is not present, or whose moment is still to come, finds
nothing to do. -/
def Obligations.ExpiriesPassAtTheirMoment : Prop :=
  (∀ (c : Instr) (s : State) (t : Nat), dueMoment c s = some t → s.clock < t → exec c s = .next s) ∧
  (∀ (c : Instr) (s : State), (∃ u, dueMoment c u ≠ none) → dueMoment c s = none → exec c s = .next s)

/-! ## The state after reset, and what every step keeps -/

/-- R35, R57, R84, R107, R123, R142, R156, R170, R181, R182, R189: the part right after a POWER-ON reset in its factory
state, every field of it (log entry 5: that this is the state the model starts in; log entry 6: the levels of the lines;
log entries 3, 7, 16 and 23: the model's own fields). -/
def Obligations.ResetIsFactoryPowerOn : Prop :=
  let r : State := State.reset
  (r.clock = 0 ∧ r.choices = 0 ∧ r.pending = [] ∧ r.journal = [] ∧
    r.powerHeld = false ∧ r.clockGood = true ∧ r.span = none ∧
    r.lines = ⟨false, false, false, false, false, false, 0, false, false, false⟩) ∧
  r.tar = { turn := .free, queue := [], placements := 0, acceptances := 0, copy := ⟨0, 1200, 120, 15⟩ } ∧
  r.mrg =
    { members := Vector.replicate 32 ⟨.empty, false, 0⟩
      profiles := Vector.replicate 8 (.valid [])
      watch := .inactive
      unitOwed := false
      copy := { watchPeriod := 60, barefootCeiling := 100 } } ∧
  r.kch =
    { state := .idle
      claimant := .none
      stageStart := none
      stageTimer := none
      keyDownCause := none
      onAirStart := none
      onAirEnd := none
      deadMan := none
      txLimit := none
      holdoff := none
      fault := none
      last := none
      copy :=
        { deadManWindow := 30
          transmissionLimit := 180
          reKeyHoldoff := 10
          ampReadyEarliest := 5
          ampReadyLatest := 60
          txConfirmEarliest := 2
          txConfirmLatest := 40
          txDropLimit := 40
          ampHold := 20 } } ∧
  r.seu =
    { confirmed := ⟨none, false⟩
      retune := .steady
      lastResult := ⟨.none, none, none, none⟩
      tagCounter := 0
      antennas := Vector.replicate 4 .absent
      selected := 0
      rigSilence := none
      rx := .hunting
      tx := ⟨none, none⟩
      copy := { settleLimit := 200, readbackTimeout := 500, rigSilenceLimit := 5 } } ∧
  r.ids = { record := .clear, tone := false, pattern := .valid [], copy := { speed := 20, interval := 600, grace := 60 } } ∧
  r.ilm =
    { filters := ⟨.quiet, .quiet, .quiet, .quiet, .quiet, .quiet⟩
      latched := ⟨false, false, false, false, false, false⟩
      blanking := none
      arisen := []
      copy :=
        { filterTimes := ⟨5, 5, 5, 5, 5, 5⟩
          reflReport := false
          ampfReport := false
          reflBlanking := 30 } } ∧
  r.spc =
    { power := .off none
      downRequested := false
      since := none
      selfCheck := none
      barefoot := false
      copy := { warmUp := 180, coolDown := 120, restartHoldoff := 30 } } ∧
  r.lp =
    { rx := .hunting
      queue := []
      tx := .idle
      lost := false
      supervision := none
      corruptNext := false
      resetIndication := true
      supervisionTime := 50 } ∧
  r.ntu = { pending := 0, enabled := 0, held := true, deferredStore := false, waiting := false } ∧
  (∃ p : Params,
    r.cst =
      { records :=
          { members := Vector.replicate 32 ⟨none, recordCheck (memberBytes none)⟩
            profiles := Vector.replicate 8 ⟨[], recordCheck (profileBytes [])⟩
            antennas := Vector.replicate 4 ⟨none, recordCheck (antennaBytes none)⟩
            params := ⟨p, recordCheck (paramsBytes p)⟩
            pattern := ⟨[], recordCheck (patternBytes [])⟩ }
        paramsDamaged := false
        writing := none
        phase := .setup
        resetCause := .powerOn
        softReset := false } ∧
    r.tar.copy = arbiterCopy p ∧ r.mrg.copy = registerCopy p ∧ r.kch.copy = chainCopy p ∧ r.seu.copy = settingCopy p ∧
    r.ids.copy = senderCopy p ∧ r.ilm.copy = monitorCopy p ∧ r.spc.copy = powerCopy p ∧
    r.lp.supervisionTime = p.linkSupervision) ∧
  now r = 0 ∧ outputs r = ⟨false, false, false, false, false, false, [], []⟩

/-- The laws that every step keeps hold after reset. -/
def Obligations.LawsHoldAtReset : Prop :=
  recordsLawful State.reset ∧ turnsLawful State.reset ∧ chainLawful State.reset ∧ allowanceBounded State.reset ∧
    settled State.reset

/-- Every step keeps the laws: R4, R20, R34, R183 for the turn and the queue; R130, R158, R171, R172, R177 for the
records; R5, R13, R51, R58, R60, R110, R111 between the chain, the identification, the turn, the station power and the
watch; R37 for the allowances; and no event leaves an input's change unhandled (log entry 7). -/
def Obligations.EveryStepKeepsTheLaws : Prop :=
  ∀ s t : State, step s = .next t →
    (recordsLawful s → turnsLawful s → recordsLawful t ∧ turnsLawful t) ∧
    (chainLawful s → allowanceBounded s → chainLawful t ∧ allowanceBounded t) ∧ (settled s → settled t)

/-! ## Codes and records -/

/-- R2: a frame's bytes with their check code behind them have the check code 0; and the check code starts from all
ones. -/
def Obligations.FramesCheckThemselves : Prop :=
  checkCode [] = 0xFFFF ∧
  (∀ l : List Byte, checkCode (l ++ bytes2 (checkCode l).toNat) = 0) ∧
  checkCode [0x31, 0x32, 0x33, 0x34, 0x35, 0x36, 0x37, 0x38, 0x39] = 0x29B1

/-- R198: the 43 bytes of a parameter record whose fields are in range spell that record. -/
def Obligations.ParameterRecordIsReadBack : Prop :=
  ∀ p : Params, p.inRange = true → (paramsBytes p).length = 43 ∧ paramsOf (paramsBytes p) = p ∧
    optionsInRange (paramsBytes p) = true

/-! ## Causes, the journal, rank and selection -/

/-- R171, R172, R173: a cause that is raised joins the pending set, and triggers a notice if it is enabled; one already
pending, or raised while recording is held, changes nothing. -/
def Obligations.RaisedCausesJoin : Prop :=
  ∀ (c : Cause) (s : State),
    (s.ntu.held = true → raise c s = s) ∧
    (hasCause s.ntu.pending c = true → raise c s = s) ∧
    (s.ntu.held = false → hasCause s.ntu.pending c = false →
      raise c s = { s with ntu := { s.ntu with
        pending := s.ntu.pending ||| c.mask
        waiting := s.ntu.waiting || hasCause s.ntu.enabled c } } ∧
      ∀ d, hasCause (raise c s).ntu.pending d = (hasCause s.ntu.pending d || d == c))

/-- R177, R180: the ring of 48 journal records and the cause JOURNAL. -/
def Obligations.JournalIsARingOf48 : Prop :=
  ∀ (b : JournalBody) (s : State),
    let r : JournalRecord := { body := b, gap := false, time := now s }
    (s.journal.length < 48 → s.journal.length ≠ 23 → writeJournal b s = { s with journal := s.journal ++ [r] }) ∧
    (s.journal.length = 23 → writeJournal b s = raise .journal { s with journal := s.journal ++ [r] }) ∧
    (∀ (oldest second : JournalRecord) (rest : List JournalRecord), s.journal = oldest :: second :: rest →
      s.journal.length = 48 →
      writeJournal b s = { s with journal := { second with gap := true } :: rest ++ [r] })

/-- R21: the ranked queue holds the entries of the queue, EMERGENCY before BREAK before NORMAL, BREAK entries by order of
placement, NORMAL entries by the class ranking, and otherwise in order of joining. -/
def Obligations.EntriesAreRanked : Prop :=
  ∀ s : State,
    (rankedQueue s).Perm s.tar.queue ∧
    (rankedQueue s).Pairwise (fun a b =>
      keyBefore (rankKey s.tar.copy.ranking b) (rankKey s.tar.copy.ranking a) = false) ∧
    (∀ k : Nat × Nat, (rankedQueue s).filter (fun e => rankKey s.tar.copy.ranking e == k)
      = s.tar.queue.filter (fun e => rankKey s.tar.copy.ranking e == k)) ∧
    (∀ (o : Nat) (e : Entry), e.cls = .emergency → rankKey o e = (0, 0)) ∧
    (∀ (o : Nat) (e : Entry) (c : Standing) (n : Nat), e.cls = .standing c → e.placement = .brk n →
      rankKey o e = (1, n)) ∧
    (∀ (o : Nat) (e : Entry) (c : Standing), e.cls = .standing c → e.placement = .normal →
      rankKey o e = (2, classPlace o c))

/-- R6, R22: selection offers the turn to the first eligible entry in rank order, and changes nothing where none is
eligible, the turn is not FREE or a hold condition stands. -/
def Obligations.SelectionOffersTheFirstEligible : Prop :=
  ∀ s : State,
    (s.tar.turn ≠ .free → runSelection s = s) ∧
    (selectionHeld s = true → runSelection s = s) ∧
    (s.tar.turn = .free → selectionHeld s = false →
      ((∀ e ∈ s.tar.queue, e.cls = .standing .supervised ∧ s.mrg.watch = .inactive) → runSelection s = s) ∧
      (∀ (before after : List Entry) (e : Entry), rankedQueue s = before ++ e :: after →
        (∀ x ∈ before, eligible s x = false) → eligible s e = true →
        runSelection s = raise .grant { s with tar := { s.tar with
          turn := .offered
            { holder := e.member
              cls := e.cls
              offeredAt := now s
              length := e.length
              offerDeadline := now s + 10 * s.tar.copy.offerWindow
              onAirTotal := 0 }
          queue := s.tar.queue.filter fun x => x.member != e.member } }))

/-- R89: the choice of antenna; a `tun` that finds none is refused DENIED, reason ANTENNA. -/
def Obligations.AntennaIsChosen : Prop :=
  (∀ (frequency power : Nat) (s : State),
    (∀ a : BitVec 2,
      (∀ d : AntennaData, antennaData a s = some d → d.covers frequency = true →
        chooseAntenna (some a) frequency power s = some a) ∧
      (∀ d : AntennaData, antennaData a s = some d → d.covers frequency = false →
        chooseAntenna (some a) frequency power s = none) ∧
      (antennaData a s = none → chooseAntenna (some a) frequency power s = none)) ∧
    (∀ a : BitVec 2, chooseAntenna none frequency power s = some a ↔
      (∃ d : AntennaData, antennaData a s = some d ∧ d.covers frequency = true ∧ power ≤ d.rating) ∧
      ∀ b : BitVec 2, b.toNat < a.toNat →
        ¬ ∃ d : AntennaData, antennaData b s = some d ∧ d.covers frequency = true ∧ power ≤ d.rating)) ∧
  (∀ (tag m a : Byte) (o : OpenTurn) (f : Word) (mode : Byte) (md : Mode) (p : Half) (named : Option (BitVec 2))
    (s : State), takesAtOnce s → mayAsk m s → s.tar.turn = .opened o → o.holder = m.toNat →
    modeOf mode = some md → antennaChoiceOf a = some named → 1 ≤ p.toNat → p.toNat ≤ 1500 → s.kch.state = .idle →
    s.spc.power.state ≠ .off → s.spc.power.state ≠ .cooling → chooseAntenna named f.toNat p.toNat s = none →
    exec (.tun tag m f mode p a) s = .next
      (replied tag m (.tun f mode p a) (.denied .antenna) (bytes1 Reason.antenna.code) s (heardFrom m s)))

/-- R39, R40: the privilege check, with its effective ceiling or the reason of its first failing step. -/
def Obligations.PrivilegeIsChecked : Prop :=
  ∀ (m : Nat) (x : Setting) (a : BitVec 2) (s : State),
    let segments := memberSegments m s
    (enrolment m s = none → segments = []) ∧
    (∀ e : Enrolment, enrolment m s = some e → ∀ i : Fin 8, i.val = e.profile →
      (s.mrg.profiles[i] = .damaged → segments = []) ∧ (∀ l, s.mrg.profiles[i] = .valid l → segments = l)) ∧
    ((isSuspended m s = true ∨ segments = []) → privilege m x a s = .error .frequency) ∧
    (isSuspended m s = false → segments ≠ [] →
      ((∀ g ∈ segments, x.frequency < g.lower ∨ g.upper < x.frequency) → privilege m x a s = .error .frequency) ∧
      ((∃ g ∈ segments, g.lower ≤ x.frequency ∧ x.frequency ≤ g.upper) →
        ((∀ g ∈ segments, g.lower ≤ x.frequency → x.frequency ≤ g.upper → g.permits x.mode = false) →
          privilege m x a s = .error .mode) ∧
        (∀ g ∈ segments, g.lower ≤ x.frequency → x.frequency ≤ g.upper → g.permits x.mode = true →
          (∀ k ∈ segments, k.lower ≤ x.frequency → x.frequency ≤ k.upper → k.permits x.mode = true →
            k.ceiling ≤ g.ceiling) →
          (g.ceiling < x.power → privilege m x a s = .error .power) ∧
          (x.power ≤ g.ceiling →
            (antennaData a s = none → privilege m x a s = .error .antenna) ∧
            (∀ d : AntennaData, antennaData a s = some d →
              (d.rating < x.power → privilege m x a s = .error .antenna) ∧
              (x.power ≤ d.rating →
                (s.spc.barefoot = true → s.mrg.copy.barefootCeiling < x.power →
                  privilege m x a s = .error .power) ∧
                (s.spc.barefoot = true → x.power ≤ s.mrg.copy.barefootCeiling →
                  privilege m x a s = .ok (min (min g.ceiling d.rating) s.mrg.copy.barefootCeiling)) ∧
                (s.spc.barefoot = false → privilege m x a s = .ok (min g.ceiling d.rating))))))))

/-! ## Requests: the link -/

/-- R161: the general checks, in their order; a request that one of them refuses reaches no owner. A kind outside the
catalogue is answered UNKNOWN_KIND whatever its source and body; the kind of that reply is the model's choice where
0x80 more does not fit a byte (log entry 26). -/
def Obligations.GeneralChecksRefuse : Prop :=
  (∀ (c : Instr) (tag m : Byte) (r : Request) (s : State), carries c = some (tag, m, r) → takesAtOnce s →
    let refused (o : ReplyOutcome) : Prop := exec c s = .next (replied tag m r o [] s (heard s))
    (kindUnknown r = true → refused .unknownKind) ∧
    (kindUnknown r = false →
      (sourceSuits r m = false → refused .wrongSource) ∧
      (sourceSuits r m = true →
        (r.shaped = false → refused .malformed) ∧
        (r.shaped = true →
          (memberKind r = true → (memberSlot m.toNat s).entry = .empty → refused .unknownMember) ∧
          (memberKind r = true → (memberSlot m.toNat s).entry = .damaged → refused .damaged) ∧
          ((memberKind r = true → (enrolment m.toNat s).isSome = true) → phaseSuits r s.cst.phase = false →
            refused .wrongPhase))))) ∧
  (∀ (kind tag m : Byte) (body : List Byte) (s : State), catalogueKind kind = false → takesAtOnce s →
    exec (.unknownKindRequest kind tag m body) s =
      .next (replied tag m (.unknownKind kind body) .unknownKind [] s (heard s)))

/-- R3, R160, R169: every request that is taken gets one reply, with its tag, its kind plus 0x80, the summary of the
state it left, and a check code that is corrupted if the flag was set. That the sum of the kind and 0x80 is taken
modulo 256 is the model's choice (log entry 26). -/
def Obligations.EveryRequestIsReplied : Prop :=
  ∀ (c : Instr) (tag m : Byte) (r : Request) (s : State), carries c = some (tag, m, r) → takesAtOnce s →
    ∃ (t : State) (p : Reply), exec c s = .next t ∧ t.lp.tx = .replying p ∧ p.kind = kindCode r + 0x80 ∧ p.tag = tag ∧
      p.summary = statusSummary t ∧
      (s.lp.corruptNext = false → p.check = checkCode (replyBytes p.kind p.tag p.outcome p.summary p.body)) ∧
      (s.lp.corruptNext = true → p.check = checkCode (replyBytes p.kind p.tag p.outcome p.summary p.body) ^^^ 1)

/-- R158, R159, R164, R166: a valid frame that finds the transmitter sending waits in the receive queue, and reloads a
running supervision timer or recovers a LOST link; one that finds four frames waiting is discarded and raises FRAME. A
frame that recovers a LOST link is taken, with the transmitter IDLE, as it would be in the state of the recovered
link; that it goes before a notice that the recovery triggers is the model's choice (log entry 28). -/
def Obligations.RequestsThatWait : Prop :=
  (∀ (c : Instr) (tag m : Byte) (r : Request) (s : State), carries c = some (tag, m, r) → inReset s = false →
    s.ilm.arisen = [] →
    (s.lp.tx ≠ .idle → s.lp.queue.length < 4 → s.lp.lost = false →
      exec c s = .next { s with lp := { s.lp with
        rx := .hunting
        supervision := if s.lp.supervision.isSome then some (s.clock + 100 * s.lp.supervisionTime) else none
        queue := s.lp.queue ++ [⟨tag, m, r⟩] } }) ∧
    (4 ≤ s.lp.queue.length →
      exec c s = .next (pumpNotice (raise .frame { s with lp := { s.lp with rx := .hunting } })))) ∧
  (∀ (c : Instr) (tag m : Byte) (r : Request) (s : State), carries c = some (tag, m, r) → inReset s = false →
    s.ilm.arisen = [] → s.lp.lost = true → s.lp.queue.length < 4 →
    let u : State := runSelection (raise .link { s with lp := { s.lp with
      rx := .hunting
      lost := false
      supervision := if s.cst.phase = .run ∨ s.lp.supervision.isSome = true then
          some (s.clock + 100 * s.lp.supervisionTime)
        else none } })
    (s.lp.tx ≠ .idle → exec c s = .next { u with lp := { u.lp with queue := u.lp.queue ++ [⟨tag, m, r⟩] } }) ∧
    (s.lp.tx = .idle → exec c s = exec c u ∧ u.lp.tx = .idle ∧ u.lp.lost = false ∧ u.ilm.arisen = [] ∧
      inReset u = false ∧ u.lp.queue = s.lp.queue))

/-- R157, R158: a complete frame whose check code passes arrives as its request; one whose check code fails, or that
finds four frames waiting, is discarded and raises FRAME. A gap, and a framing error or break, discard a frame being
assembled and nothing while hunting; a length byte out of range discards its frame at once. That `linkByteGap` and
`linkFramingError` carry the bytes received before them is the model's choice (log entry 20): without a sync byte
among them the receiver stays hunting, and from the first sync byte on they are a frame being assembled. -/
def Obligations.FramesArriveOrAreDiscarded : Prop :=
  (∀ (bytes : List Byte) (s : State), inReset s = false → s.ilm.arisen = [] →
    (s.lp.queue.length < 4 → checkCode (bytes.take (bytes.length - 2)) = at16 bytes (bytes.length - 2) →
      exec (.requestFrameArrival bytes) s =
        .next (arrive (at8 bytes 2) (at8 bytes 3)
          (requestOf (at8 bytes 1) ((bytes.drop 4).take ((at8 bytes 0).toNat - 3))) s)) ∧
    ((4 ≤ s.lp.queue.length ∨ checkCode (bytes.take (bytes.length - 2)) ≠ at16 bytes (bytes.length - 2)) →
      exec (.requestFrameArrival bytes) s =
        .next (pumpNotice (raise .frame { s with lp := { s.lp with rx := .hunting } })))) ∧
  (∀ s : State, inReset s = false → s.ilm.arisen = [] →
    let discarded : State := pumpNotice (raise .frame { s with lp := { s.lp with rx := .hunting } })
    (∀ got : List Byte, s.lp.rx = .assembling got →
      exec (.linkByteGap []) s = .next discarded ∧ exec (.linkFramingError []) s = .next discarded) ∧
    (∀ got received : List Byte, s.lp.rx = .assembling got → framePart (got ++ received) →
      exec (.linkByteGap received) s = .next discarded ∧ exec (.linkFramingError received) s = .next discarded) ∧
    (s.lp.rx = .hunting → ∀ received : List Byte, (∀ b ∈ received, b ≠ 0xC3) →
      exec (.linkByteGap received) s = .next (pumpNotice s) ∧
      exec (.linkFramingError received) s = .next (pumpNotice s)) ∧
    (s.lp.rx = .hunting → ∀ before part : List Byte, (∀ b ∈ before, b ≠ 0xC3) → framePart part →
      exec (.linkByteGap (before ++ 0xC3 :: part)) s = .next discarded ∧
      exec (.linkFramingError (before ++ 0xC3 :: part)) s = .next discarded) ∧
    (∀ length : Byte, length.toNat < 3 ∨ 243 < length.toNat →
      exec (.requestLengthOutOfRange length) s = .next discarded))

/-- R159, R173: the sending of a reply ends: a waiting notice is sent, else the oldest request is taken, else the
transmitter is IDLE. The sending of a notice ends: the oldest request is taken before any further notice. (A reply's kind:
log entry 26.) -/
def Obligations.SendingEnds : Prop :=
  (∀ (p : Reply) (s : State), inReset s = false → s.ilm.arisen = [] → s.lp.tx = .replying p →
    s.cst.softReset = false →
    (s.ntu.waiting = true →
      exec .replySent s = .next { s with
        ntu := { s.ntu with waiting := false }
        lp := { s.lp with tx := .notifying ⟨s.ntu.pending, statusSummary s⟩ } }) ∧
    (s.ntu.waiting = false → s.lp.queue = [] →
      exec .replySent s = .next { s with lp := { s.lp with tx := .idle } }) ∧
    (∀ (f : Frame) (rest : List Frame), s.ntu.waiting = false → s.lp.queue = f :: rest →
      ∃ (t : State) (q : Reply), exec .replySent s = .next t ∧ t.lp.tx = .replying q ∧ q.tag = f.tag ∧
        q.kind = kindCode f.request + 0x80 ∧ t.lp.queue = rest)) ∧
  (∀ (n : Notice) (s : State), inReset s = false → s.ilm.arisen = [] → s.lp.tx = .notifying n →
    (s.lp.queue = [] → s.ntu.waiting = false →
      exec .noticeSent s = .next { s with lp := { s.lp with tx := .idle } }) ∧
    (s.lp.queue = [] → s.ntu.waiting = true →
      exec .noticeSent s = .next { s with
        ntu := { s.ntu with waiting := false }
        lp := { s.lp with tx := .notifying ⟨s.ntu.pending, statusSummary s⟩ } }) ∧
    (∀ (f : Frame) (rest : List Frame), s.lp.queue = f :: rest →
      ∃ (t : State) (q : Reply), exec .noticeSent s = .next t ∧ t.lp.tx = .replying q ∧ q.tag = f.tag ∧
        q.kind = kindCode f.request + 0x80 ∧ t.lp.queue = rest))

/-- R165, R13, R14, R51: the loss of the link: the LINK record, the end of an OFFERED or OPEN turn, the queue emptied, and
the end of the watch; the turn is not offered again. (Several causes of one event, one notice: log entry 29.) -/
def Obligations.LinkIsLost : Prop :=
  ∀ s : State, fallsDue .linkSupervisionExpiry s → endsQuietly s →
    let lost : State := writeJournal .link { s with lp := { s.lp with
      lost := true
      corruptNext := false
      supervision := none } }
    let ended : State := turnEnded .linkLost lost
    let emptied : State := { ended with tar := { ended.tar with queue := [] } }
    (s.tar.turn = .free → ended = lost) ∧
    (∀ c : ClosingTurn, s.tar.turn = .closing c → ended = lost) ∧
    (∀ o : OfferedTurn, s.tar.turn = .offered o → ended.tar.turn = .free) ∧
    (s.mrg.watch = .inactive → exec .linkSupervisionExpiry s = .next (pumpNotice emptied)) ∧
    (∀ w b x, s.mrg.watch = .active w b x →
      exec .linkSupervisionExpiry s = .next (pumpNotice (watchLeft w emptied)))

/-- R168, R169, R163: `sta` clears the reset indication and carries the status record; `tst` sets the check-corruption
flag. The record's rounding, a corruption flag that this `sta` clears, and the code of the watch state are the model's
(log entries 9, 10 and 27). -/
def Obligations.StaAndTst : Prop :=
  ∀ (tag : Byte) (s : State), takesAtOnce s →
    (let t : State := { heard s with lp := { (heard s).lp with resetIndication := false } }
    ∃ b : Bool, (s.lp.corruptNext = false → b = false) ∧
      exec (.sta tag) s = .next (replied tag authority .sta .ok (statusRecord b t) s t)) ∧
    (s.lp.corruptNext = false →
      exec (.tst tag) s = .next (replied tag authority .tst .ok [] s
        { heard s with lp := { (heard s).lp with corruptNext := true } })) ∧
    (s.lp.corruptNext = true → exec (.tst tag) s = .next (replied tag authority .tst .noChange [] s (heard s)))

/-! ## Requests: notices and the journal -/

/-- R174, R175: `nen` replaces the enable set, ends the recording hold with a deferred STORE, and triggers a notice for a
cause newly pending and enabled; `ncl` removes the causes it names; both refuse a mark that is no cause. -/
def Obligations.NenEnablesNclClears : Prop :=
  (∀ (tag : Byte) (causes : Half) (s : State), takesAtOnce s →
    (causes &&& 0xF000#16 ≠ 0#16 → exec (.nen tag causes) s = .next (replied tag authority (.nen causes) .range [] s (heard s))) ∧
    (causes &&& 0xF000#16 = 0#16 → s.ntu.held = false →
      exec (.nen tag causes) s = .next (replied tag authority (.nen causes)
        (if s.ntu.enabled = causes then .noChange else .ok) [] s
        { heard s with ntu := { s.ntu with
          enabled := causes
          waiting := s.ntu.waiting || (s.ntu.pending &&& causes &&& ~~~(s.ntu.pending &&& s.ntu.enabled) != 0) } })) ∧
    (causes &&& 0xF000#16 = 0#16 → s.ntu.held = true → s.ntu.pending = 0 →
      exec (.nen tag causes) s = .next (replied tag authority (.nen causes) .ok [] s
        { heard s with ntu :=
          { pending := if s.ntu.deferredStore then Cause.store.mask else 0
            enabled := causes
            held := false
            deferredStore := false
            waiting := s.ntu.waiting || (s.ntu.deferredStore && hasCause causes .store) } }))) ∧
  (∀ (tag : Byte) (causes : Half) (s : State), takesAtOnce s →
    (causes &&& 0xF000#16 ≠ 0#16 → exec (.ncl tag causes) s = .next (replied tag authority (.ncl causes) .range [] s (heard s))) ∧
    (causes &&& 0xF000#16 = 0#16 →
      exec (.ncl tag causes) s = .next (replied tag authority (.ncl causes)
        (if s.ntu.pending &&& causes = 0 then .noChange else .ok) [] s
        { heard s with ntu := { s.ntu with pending := s.ntu.pending &&& ~~~causes } })))

/-- R179: `jrd` reads and removes the oldest record. -/
def Obligations.JrdReadsTheOldest : Prop :=
  ∀ (tag : Byte) (s : State), takesAtOnce s →
    (s.journal = [] → exec (.jrd tag) s =
      .next (replied tag authority .jrd .ok (List.replicate 23 0) s (heard s))) ∧
    (∀ (r : JournalRecord) (rest : List JournalRecord), s.journal = r :: rest →
      exec (.jrd tag) s = .next (replied tag authority .jrd .ok (journalBytes r ++ bytes1 rest.length) s
        { heard s with journal := rest }))

/-! ## Requests: reads and writes -/

/-- R32, R33, R54, R56, R106, R122, R186: the reads change no state; `qst` answers any ENROLLED member, suspended or not; the
reads of stored records are refused BUSY while a store write is in flight. -/
def Obligations.ReadsChangeNothing : Prop :=
  (∀ (tag i : Byte) (s : State), takesAtOnce s →
    let read (c : Instr) (r : Request) (body : List Byte) : Prop :=
      (s.cst.writing = none → exec c s = .next (replied tag authority r .ok body s (heard s))) ∧
      (s.cst.writing ≠ none → exec c s = .next (replied tag authority r .busy [] s (heard s)))
    let outOfRange (c : Instr) (r : Request) : Prop :=
      exec c s = .next (replied tag authority r .range [] s (heard s))
    exec (.qrd tag) s = .next (replied tag authority .qrd .ok (queueBody s) s (heard s)) ∧
    (i.toNat ≤ 31 → read (.mrd tag i) (.mrd i) (memberBody i.toNat s)) ∧
    (31 < i.toNat → outOfRange (.mrd tag i) (.mrd i)) ∧
    (i.toNat ≤ 7 → read (.pfr tag i) (.pfr i) (profileBody i.toNat s)) ∧
    (7 < i.toNat → outOfRange (.pfr tag i) (.pfr i)) ∧
    (i.toNat ≤ 3 → read (.anr tag i) (.anr i) (antennaBody i.toNat s)) ∧
    (3 < i.toNat → outOfRange (.anr tag i) (.anr i)) ∧
    read (.idr tag) .idr (patternBody s) ∧
    read (.prr tag) .prr (paramsBody s)) ∧
  (∀ (tag m : Byte) (s : State), takesAtOnce s → (enrolment m.toNat s).isSome = true →
    exec (.qst tag m) s =
      .next (replied tag m .qst .ok (standingBody m.toNat (heardFrom m s)) s (heardFrom m s)))

/-- R34, R53, R55, R105, R121, R183, R185, R187, R190: an accepted `mwr`, `pfw`, `anw`, `idw`, `prw` or `cls` starts a store
write, whose latest completion is 12 ms on, and changes nothing else; while one is in flight they, `run` and `rst` are
refused BUSY. A field out of range is refused RANGE, and `cls` with the parameter record DAMAGED or the ranking stored
already is refused DAMAGED or NO_CHANGE. -/
def Obligations.WritesStartOneAtATime : Prop :=
  ((∀ (tag : Byte) (s : State), takesAtOnce s → s.cst.phase = .setup → s.cst.writing = none →
    (∀ (m : Byte) (callsign : List Byte) (standing profile : Byte) (allowance : Half) (emergency : Byte),
      m.toNat ≤ 31 → callsign.length = 10 →
      exec (.mwr tag m 0 callsign standing profile allowance emergency) s =
        .next (replied tag authority (.mwr m 0 callsign standing profile allowance emergency) .ok [] s
          (writeStarted (.member m.toNat none) s)) ∧
      (∀ c : Standing, standingOf standing = some c → 3 ≤ (callsignOf callsign).length →
        (∀ b ∈ callsignOf callsign, (65 ≤ b.toNat ∧ b.toNat ≤ 90) ∨ (48 ≤ b.toNat ∧ b.toNat ≤ 57) ∨ b = 47) →
        profile.toNat ≤ 7 → allowance.toNat ≤ 36000 →
        (∀ k e, k < 32 → k ≠ m.toNat → enrolment k s = some e → e.callsign ≠ callsignOf callsign) →
        exec (.mwr tag m 1 callsign standing profile allowance emergency) s =
          .next (replied tag authority (.mwr m 1 callsign standing profile allowance emergency) .ok [] s
            (writeStarted (.member m.toNat
              (some ⟨callsignOf callsign, c, profile.toNat, allowance.toNat, emergency != 0⟩)) s)))) ∧
    (∀ (index count : Byte) (slots : List SegmentSlot), index.toNat ≤ 7 → count.toNat ≤ 6 → slots.length = 6 →
      (∀ g ∈ slots.take count.toNat, g.lower.toNat < g.upper.toNat ∧ 1800000 ≤ g.lower.toNat ∧
        g.upper.toNat ≤ 54000000 ∧ g.modes &&& 0x0F ≠ 0 ∧ 1 ≤ g.ceiling.toNat ∧ g.ceiling.toNat ≤ 1500) →
      exec (.pfw tag index count slots) s =
        .next (replied tag authority (.pfw index count slots) .ok [] s
          (writeStarted (.profile index.toNat ((slots.take count.toNat).map segmentOf)) s)))) ∧
  (∀ (tag : Byte) (s : State), takesAtOnce s → s.cst.phase = .setup → s.cst.writing = none →
    (∀ (index count : Byte) (ranges : List RangeSlot) (rating : Half), index.toNat ≤ 3 → ranges.length = 4 →
      exec (.anw tag index 0 count ranges rating) s =
        .next (replied tag authority (.anw index 0 count ranges rating) .ok [] s
          (writeStarted (.antenna index.toNat none) s)) ∧
      (1 ≤ count.toNat → count.toNat ≤ 4 → 1 ≤ rating.toNat → rating.toNat ≤ 1500 →
        (∀ r ∈ ranges.take count.toNat, r.lower.toNat < r.upper.toNat ∧ 1800000 ≤ r.lower.toNat ∧
          r.upper.toNat ≤ 54000000) →
        exec (.anw tag index 1 count ranges rating) s =
          .next (replied tag authority (.anw index 1 count ranges rating) .ok [] s
            (writeStarted (.antenna index.toNat
              (some ⟨(ranges.take count.toNat).map rangeOf, rating.toNat⟩)) s)))) ∧
    (∀ (count : Byte) (slots : List Byte), 1 ≤ count.toNat → count.toNat ≤ 96 → slots.length = 96 →
      (∀ b ∈ slots.take count.toNat, 1 ≤ b.toNat ∧ b.toNat ≤ 4) →
      (∃ b ∈ slots.take count.toNat, b.toNat ≤ 2) →
      exec (.idw tag count slots) s =
        .next (replied tag authority (.idw count slots) .ok [] s
          (writeStarted (.pattern ((slots.take count.toNat).filterMap elementOf)) s))) ∧
    (∀ record : List Byte, record.length = 43 → (paramsOf record).inRange = true → byteAt record 34 < 4 →
      (paramsOf record).ampReadyEarliest < (paramsOf record).ampReadyLatest →
      (paramsOf record).txConfirmEarliest < (paramsOf record).txConfirmLatest →
      exec (.prw tag record) s =
        .next (replied tag authority (.prw record) .ok [] s (writeStarted (.params (paramsOf record)) s))) ∧
    (∀ order : Byte, order.toNat ≤ 5 → s.cst.paramsDamaged = false →
      s.cst.records.params.contents.classRanking ≠ order.toNat →
      exec (.cls tag order) s =
        .next (replied tag authority (.cls order) .ok [] s
          (writeStarted (.ranking { s.cst.records.params.contents with classRanking := order.toNat }) s))))) ∧
  (∀ (tag : Byte) (s : State), takesAtOnce s → s.cst.phase = .setup → s.cst.writing ≠ none →
    (∀ (m : Byte) (callsign : List Byte) (standing profile : Byte) (allowance : Half) (emergency : Byte),
      m.toNat ≤ 31 → callsign.length = 10 →
      exec (.mwr tag m 0 callsign standing profile allowance emergency) s =
        .next (replied tag authority (.mwr m 0 callsign standing profile allowance emergency) .busy [] s (heard s)) ∧
      (∀ c : Standing, standingOf standing = some c → 3 ≤ (callsignOf callsign).length →
        (∀ b ∈ callsignOf callsign, (65 ≤ b.toNat ∧ b.toNat ≤ 90) ∨ (48 ≤ b.toNat ∧ b.toNat ≤ 57) ∨ b = 47) →
        profile.toNat ≤ 7 → allowance.toNat ≤ 36000 →
        (∀ k e, k < 32 → k ≠ m.toNat → enrolment k s = some e → e.callsign ≠ callsignOf callsign) →
        exec (.mwr tag m 1 callsign standing profile allowance emergency) s =
          .next (replied tag authority (.mwr m 1 callsign standing profile allowance emergency) .busy [] s
            (heard s)))) ∧
    (∀ (index count : Byte) (slots : List SegmentSlot), index.toNat ≤ 7 → count.toNat ≤ 6 → slots.length = 6 →
      (∀ g ∈ slots.take count.toNat, g.lower.toNat < g.upper.toNat ∧ 1800000 ≤ g.lower.toNat ∧
        g.upper.toNat ≤ 54000000 ∧ g.modes &&& 0x0F ≠ 0 ∧ 1 ≤ g.ceiling.toNat ∧ g.ceiling.toNat ≤ 1500) →
      exec (.pfw tag index count slots) s =
        .next (replied tag authority (.pfw index count slots) .busy [] s (heard s))) ∧
    (∀ (index count : Byte) (ranges : List RangeSlot) (rating : Half), index.toNat ≤ 3 → ranges.length = 4 →
      exec (.anw tag index 0 count ranges rating) s =
        .next (replied tag authority (.anw index 0 count ranges rating) .busy [] s (heard s)) ∧
      (1 ≤ count.toNat → count.toNat ≤ 4 → 1 ≤ rating.toNat → rating.toNat ≤ 1500 →
        (∀ r ∈ ranges.take count.toNat, r.lower.toNat < r.upper.toNat ∧ 1800000 ≤ r.lower.toNat ∧
          r.upper.toNat ≤ 54000000) →
        exec (.anw tag index 1 count ranges rating) s =
          .next (replied tag authority (.anw index 1 count ranges rating) .busy [] s (heard s)))) ∧
    (∀ (count : Byte) (slots : List Byte) (l : List Element), slots.length = 96 → patternOf count slots = some l →
      exec (.idw tag count slots) s =
        .next (replied tag authority (.idw count slots) .busy [] s (heard s))) ∧
    (∀ record : List Byte, record.length = 43 → (paramsOf record).inRange = true → byteAt record 34 < 4 →
      (paramsOf record).windowsOrdered = true →
      exec (.prw tag record) s = .next (replied tag authority (.prw record) .busy [] s (heard s))) ∧
    (∀ order : Byte, order.toNat ≤ 5 →
      exec (.cls tag order) s = .next (replied tag authority (.cls order) .busy [] s (heard s))) ∧
    exec (.run tag) s = .next (replied tag authority .run .busy [] s (heard s)) ∧
    exec (.rst tag) s = .next (replied tag authority .rst .busy [] s (heard s))) ∧
  (∀ (tag : Byte) (s : State), takesAtOnce s → s.cst.phase = .setup →
    let refused (c : Instr) (r : Request) (a : ReplyOutcome) : Prop :=
      exec c s = .next (replied tag authority r a [] s (heard s))
    let badEdges (lower upper : Word) : Prop :=
      upper.toNat ≤ lower.toNat ∨ lower.toNat < 1800000 ∨ 54000000 < upper.toNat
    (∀ (m state : Byte) (callsign : List Byte) (standing profile : Byte) (allowance : Half) (emergency : Byte),
      callsign.length = 10 →
      (31 < m.toNat ∨ (state ≠ 0 ∧ state ≠ 1) ∨
        (state = 1 ∧ ((callsignOf callsign).length < 3 ∨
          (∃ b ∈ callsignOf callsign,
            ¬ ((65 ≤ b.toNat ∧ b.toNat ≤ 90) ∨ (48 ≤ b.toNat ∧ b.toNat ≤ 57) ∨ b = 47)) ∨
          standingOf standing = none ∨ 7 < profile.toNat ∨ 36000 < allowance.toNat ∨
          ∃ k e, k < 32 ∧ k ≠ m.toNat ∧ enrolment k s = some e ∧ e.callsign = callsignOf callsign))) →
      refused (.mwr tag m state callsign standing profile allowance emergency)
        (.mwr m state callsign standing profile allowance emergency) .range) ∧
    (∀ (index count : Byte) (slots : List SegmentSlot), slots.length = 6 →
      (7 < index.toNat ∨ 6 < count.toNat ∨
        ∃ g ∈ slots.take count.toNat, badEdges g.lower g.upper ∨ g.modes &&& 0x0F = 0 ∨ g.ceiling.toNat < 1 ∨
          1500 < g.ceiling.toNat) →
      refused (.pfw tag index count slots) (.pfw index count slots) .range) ∧
    (∀ (index state count : Byte) (ranges : List RangeSlot) (rating : Half), ranges.length = 4 →
      (3 < index.toNat ∨ (state ≠ 0 ∧ state ≠ 1) ∨
        (state = 1 ∧ (count.toNat < 1 ∨ 4 < count.toNat ∨ rating.toNat < 1 ∨ 1500 < rating.toNat ∨
          ∃ g ∈ ranges.take count.toNat, badEdges g.lower g.upper))) →
      refused (.anw tag index state count ranges rating) (.anw index state count ranges rating) .range) ∧
    (∀ (count : Byte) (slots : List Byte), slots.length = 96 →
      (count.toNat < 1 ∨ 96 < count.toNat ∨ (∃ b ∈ slots.take count.toNat, b.toNat < 1 ∨ 4 < b.toNat) ∨
        (∀ b ∈ slots.take count.toNat, 3 ≤ b.toNat)) →
      refused (.idw tag count slots) (.idw count slots) .range) ∧
    (∀ record : List Byte, record.length = 43 →
      ((paramsOf record).inRange = false ∨ 4 ≤ byteAt record 34 ∨
        (paramsOf record).ampReadyLatest ≤ (paramsOf record).ampReadyEarliest ∨
        (paramsOf record).txConfirmLatest ≤ (paramsOf record).txConfirmEarliest) →
      refused (.prw tag record) (.prw record) .range) ∧
    (∀ order : Byte,
      (5 < order.toNat → refused (.cls tag order) (.cls order) .range) ∧
      (order.toNat ≤ 5 → s.cst.writing = none →
        (s.cst.paramsDamaged = true → refused (.cls tag order) (.cls order) .damaged) ∧
        (s.cst.paramsDamaged = false → s.cst.records.params.contents.classRanking = order.toNat →
          refused (.cls tag order) (.cls order) .noChange))))

/-- R183, R37, R53, R55, R105, R121, R34, R185: the completion of a store write: the stored record with a fresh check, the
owner's new contents, STORE, and the flag clear. -/
def Obligations.StoreWriteCompletes : Prop :=
  ∀ (w : WriteInFlight) (s : State), inReset s = false → s.ilm.arisen = [] → s.cst.writing = some w →
    let done (u : State) (r : Records) (damaged : Bool) : Prop :=
      exec .storeWriteCompletion s = .next (pumpNotice (raise .store { u with cst := { s.cst with
        records := r
        writing := none
        paramsDamaged := damaged } }))
    (∀ m e, w.write = .member m (some e) →
      done { s with mrg := { s.mrg with
          members := s.mrg.members.setIfInBounds m
            { entry := .enrolled e
              suspended := (memberSlot m s).suspended
              remaining := min (memberSlot m s).remaining (10 * e.allowance) } } }
        { s.cst.records with
          members := s.cst.records.members.setIfInBounds m ⟨some e, recordCheck (memberBytes (some e))⟩ }
        s.cst.paramsDamaged) ∧
    (∀ m, w.write = .member m none →
      done { s with mrg := { s.mrg with members := s.mrg.members.setIfInBounds m ⟨.empty, false, 0⟩ } }
        { s.cst.records with members := s.cst.records.members.setIfInBounds m ⟨none, recordCheck (memberBytes none)⟩ }
        s.cst.paramsDamaged) ∧
    (∀ i l, w.write = .profile i l →
      done { s with mrg := { s.mrg with profiles := s.mrg.profiles.setIfInBounds i (.valid l) } }
        { s.cst.records with profiles := s.cst.records.profiles.setIfInBounds i ⟨l, recordCheck (profileBytes l)⟩ }
        s.cst.paramsDamaged) ∧
    (∀ i a, w.write = .antenna i (some a) →
      done { s with seu := { s.seu with antennas := s.seu.antennas.setIfInBounds i (.present a) } }
        { s.cst.records with
          antennas := s.cst.records.antennas.setIfInBounds i ⟨some a, recordCheck (antennaBytes (some a))⟩ }
        s.cst.paramsDamaged) ∧
    (∀ i, w.write = .antenna i none →
      done { s with seu := { s.seu with antennas := s.seu.antennas.setIfInBounds i .absent } }
        { s.cst.records with
          antennas := s.cst.records.antennas.setIfInBounds i ⟨none, recordCheck (antennaBytes none)⟩ }
        s.cst.paramsDamaged) ∧
    (∀ l, w.write = .pattern l →
      done { s with ids := { s.ids with pattern := .valid l } }
        { s.cst.records with pattern := ⟨l, recordCheck (patternBytes l)⟩ } s.cst.paramsDamaged) ∧
    (∀ p, w.write = .ranking p →
      done { s with tar := { s.tar with copy := { s.tar.copy with ranking := p.classRanking } } }
        { s.cst.records with params := ⟨p, recordCheck (paramsBytes p)⟩ } s.cst.paramsDamaged) ∧
    (∀ p, w.write = .params p →
      done { s with
          tar := { s.tar with copy := arbiterCopy p }
          mrg := { s.mrg with copy := registerCopy p }
          kch := { s.kch with copy := chainCopy p }
          seu := { s.seu with copy := settingCopy p }
          ids := { s.ids with copy := senderCopy p }
          ilm := { s.ilm with copy := monitorCopy p }
          spc := { s.spc with copy := powerCopy p }
          lp := { s.lp with supervisionTime := p.linkSupervision } }
        { s.cst.records with params := ⟨p, recordCheck (paramsBytes p)⟩ } false)

/-! ## Requests: turns and the queue -/

/-- R6, R13, R14, R25 to R28: an accepted `req` joins the queue, its reply giving its rank and eligibility; selection
follows with the turn FREE, and offers the turn at once where the queue was empty and nothing holds; an EMERGENCY
`req` ends an OFFERED or OPEN turn of another class, and displaces the lowest-ranked entry of a full queue. A `req` is
refused on the first of the six conditions of R27 that applies. -/
def Obligations.ReqJoinsOrIsOffered : Prop :=
  (∀ (tag m e : Byte) (x n : Half) (s : State), takesAtOnce s → mayAsk m s →
    holder s ≠ some m.toNat → entryOf m.toNat s = none → allowanceZero m.toNat s = false →
    (x = 0 ∨ (10 ≤ x.toNat ∧ x.toNat ≤ 3600)) → (n = 0 ∨ (60 ≤ n.toNat ∧ n.toNat ≤ 3600)) →
    (e ≠ 0 → emergencyPermitted m.toNat s = true) → s.tar.queue.length < 12 →
    (s.tar.turn = .free → selectionHeld s = true) →
    (e ≠ 0 → turnRunning s = true → turnClass s = some .emergency) →
    let entry : Entry :=
      { member := m.toNat
        cls := if e = 0 then .standing ((standing m.toNat s).getD .member) else .emergency
        placement := .normal
        arrival := now s
        expiry := if x = 0 then none else some (now s + 10 * x.toNat)
        length := if n = 0 then none else some n.toNat }
    let t : State := { heard s with tar := { s.tar with queue := s.tar.queue ++ [entry] } }
    exec (.req tag m e x n) s = .next (replied tag m (.req e x n) .ok
      (bytes1 (rankOf m.toNat t) ++ bytes1 (if eligible t entry then 2 else 0)) s t)) ∧
  (∀ (tag m e : Byte) (x n : Half) (s : State), takesAtOnce s → mayAsk m s → s.tar.turn = .free → s.tar.queue = [] →
    selectionHeld s = false → allowanceZero m.toNat s = false →
    (x = 0 ∨ (10 ≤ x.toNat ∧ x.toNat ≤ 3600)) → (n = 0 ∨ (60 ≤ n.toNat ∧ n.toNat ≤ 3600)) →
    (e ≠ 0 → emergencyPermitted m.toNat s = true) →
    (e = 0 → standing m.toNat s = some .supervised → s.mrg.watch ≠ .inactive) →
    exec (.req tag m e x n) s = .next (replied tag m (.req e x n) .ok [0, 1] s
      (raise .grant { heard s with tar := { s.tar with
          turn := .offered
            { holder := m.toNat
              cls := if e = 0 then .standing ((standing m.toNat s).getD .member) else .emergency
              offeredAt := now s
              length := if n = 0 then none else some n.toNat
              offerDeadline := now s + 10 * s.tar.copy.offerWindow
              onAirTotal := 0 } } }))) ∧
  (∀ (tag m e : Byte) (x n : Half) (s : State), takesAtOnce s → mayAsk m s →
    holder s ≠ some m.toNat → entryOf m.toNat s = none → allowanceZero m.toNat s = false →
    (x = 0 ∨ (10 ≤ x.toNat ∧ x.toNat ≤ 3600)) → (n = 0 ∨ (60 ≤ n.toNat ∧ n.toNat ≤ 3600)) →
    (e ≠ 0 → emergencyPermitted m.toNat s = true) →
    let entry : Entry :=
      { member := m.toNat
        cls := if e = 0 then .standing ((standing m.toNat s).getD .member) else .emergency
        placement := .normal
        arrival := now s
        expiry := if x = 0 then none else some (now s + 10 * x.toNat)
        length := if n = 0 then none else some n.toNat }
    let joined (q : List Entry) : State := { heard s with tar := { s.tar with queue := q ++ [entry] } }
    let accepted (t : State) : Prop :=
      exec (.req tag m e x n) s = .next (replied tag m (.req e x n) .ok (positionBody m.toNat t) s t)
    ∀ q : List Entry,
      (s.tar.queue.length < 12 ∧ q = s.tar.queue) ∨
        (12 ≤ s.tar.queue.length ∧ e ≠ 0 ∧ ∃ (before : List Entry) (y : Entry), rankedQueue s = before ++ [y] ∧
          y.cls ≠ .emergency ∧ q = s.tar.queue.filter fun z => z.member != y.member) →
      (s.tar.turn = .free → accepted (runSelection (joined q))) ∧
      (e ≠ 0 → turnRunning s = true → turnClass s ≠ some .emergency → endsQuietly s →
        accepted (turnEnded .preempted (joined q))) ∧
      (s.tar.turn ≠ .free → (e = 0 ∨ turnRunning s = false ∨ turnClass s = some .emergency) →
        accepted (joined q))) ∧
  (∀ (tag m e : Byte) (x n : Half) (s : State), takesAtOnce s → (enrolment m.toNat s).isSome = true →
    s.cst.phase = .run →
    let refused (a : ReplyOutcome) (body : List Byte) : Prop :=
      exec (.req tag m e x n) s = .next (replied tag m (.req e x n) a body s (heardFrom m s))
    let c1 := isSuspended m.toNat s = true
    let c2 := ¬ ((x = 0 ∨ (10 ≤ x.toNat ∧ x.toNat ≤ 3600)) ∧ (n = 0 ∨ (60 ≤ n.toNat ∧ n.toNat ≤ 3600)))
    let c3 := holder s = some m.toNat ∨ (entryOf m.toNat s).isSome = true
    let c4 := e ≠ 0 ∧ emergencyPermitted m.toNat s = false
    let c5 := allowanceZero m.toNat s = true
    (c1 → refused .suspended []) ∧
    (¬ c1 → c2 → refused .range []) ∧
    (¬ c1 → ¬ c2 → c3 → refused .noChange (positionBody m.toNat s)) ∧
    (¬ c1 → ¬ c2 → ¬ c3 → c4 → refused (.denied .cls) (bytes1 Reason.cls.code)) ∧
    (¬ c1 → ¬ c2 → ¬ c3 → ¬ c4 → c5 → refused (.denied .quota) (bytes1 Reason.quota.code)) ∧
    (¬ c1 → ¬ c2 → ¬ c3 → ¬ c4 → ¬ c5 → 12 ≤ s.tar.queue.length →
      (e = 0 ∨ ∀ y ∈ s.tar.queue, y.cls = .emergency) → refused .full []))

/-- R13, R14, R29: `rel` withdraws the entry of a member that is not the holder, declines an offer, releases an OPEN turn,
and is NO_CHANGE for the holder of a CLOSING turn. -/
def Obligations.RelByPlace : Prop :=
  ∀ (tag m : Byte) (s : State), takesAtOnce s → mayAsk m s →
    (holder s ≠ some m.toNat → (entryOf m.toNat s).isSome = true →
      exec (.rel tag m) s = .next (replied tag m .rel .ok [] s
        { heard s with tar := { s.tar with queue := s.tar.queue.filter fun e => e.member != m.toNat } })) ∧
    (holder s ≠ some m.toNat → entryOf m.toNat s = none →
      exec (.rel tag m) s = .next (replied tag m .rel .notHolder [] s (heard s))) ∧
    (∀ o : OfferedTurn, s.tar.turn = .offered o → o.holder = m.toNat → endsQuietly s →
      exec (.rel tag m) s = .next (replied tag m .rel .ok [] s (turnEnded .declined (heard s)))) ∧
    (∀ o : OpenTurn, s.tar.turn = .opened o → o.holder = m.toNat → endsQuietly s →
      exec (.rel tag m) s = .next (replied tag m .rel .ok [] s (turnEnded .released (heard s)))) ∧
    (∀ c : ClosingTurn, s.tar.turn = .closing c → c.holder = m.toNat →
      exec (.rel tag m) s = .next (replied tag m .rel .noChange [] s (heard s)))

/-- R13, R14, R18, R30, R31: `brk` ends an OFFERED or OPEN turn of another holder with cause BREAK; with take it places the
breaker's entry first (log entry 8), which selection finds as the turn becomes FREE, and which waits while the turn is
CLOSING; with a CLOSING or FREE turn and nothing to place it is NO_CHANGE. It is refused on the first of the seven
conditions of R30 that applies. -/
def Obligations.BrkEndsAndPlaces : Prop :=
  (∀ (tag : Byte) (s : State), takesAtOnce s → s.cst.phase = .run →
    let answered (take : Byte) (a : ReplyOutcome) (t : State) : Prop :=
      exec (.brkAuthority tag take) s = .next (replied tag authority (.brkAuthority take) a [] s t)
    (∀ take : Byte, take ≠ 0 → answered take .range (heard s)) ∧
    (turnRunning s = true → endsQuietly s → answered 0 .ok (turnEnded .brk (heard s))) ∧
    (∀ c : ClosingTurn, s.tar.turn = .closing c → answered 0 .noChange (heard s)) ∧
    (s.tar.turn = .free → answered 0 .noChange (runSelection (heard s)))) ∧
  (∀ (tag m : Byte) (s : State), takesAtOnce s → mayAsk m s → standing m.toNat s = some .control →
    holder s ≠ some m.toNat → (turnRunning s = true → turnClass s ≠ some .emergency) →
    let answered (take : Byte) (a : ReplyOutcome) (t : State) : Prop :=
      exec (.brkMember tag m take) s = .next (replied tag m (.brkMember take) a [] s t)
    (turnRunning s = true → endsQuietly s → answered 0 .ok (turnEnded .brk (heard s))) ∧
    (∀ c : ClosingTurn, s.tar.turn = .closing c → answered 0 .noChange (heard s)) ∧
    (s.tar.turn = .free → answered 0 .noChange (runSelection (heard s))) ∧
    (∀ take : Byte, take ≠ 0 → allowanceZero m.toNat s = false →
      (entryOf m.toNat s = none → s.tar.queue.length < 12) →
      let placed : State := breakPlaced m.toNat (heard s)
      (turnRunning s = true → endsQuietly s → answered take .ok (turnEnded .brk placed)) ∧
      (∀ c : ClosingTurn, s.tar.turn = .closing c → ∃ a, answered take a placed ∧
        ((∀ e k, entryOf m.toNat s = some e → e.placement ≠ .brk k) → a = .ok) ∧
        (∀ e k, entryOf m.toNat s = some e → e.placement = .brk k → a = .noChange)) ∧
      (s.tar.turn = .free → ∃ a, answered take a (runSelection placed) ∧
        ((∀ e k, entryOf m.toNat s = some e → e.placement ≠ .brk k) → a = .ok) ∧
        (∀ e k, entryOf m.toNat s = some e → e.placement = .brk k → a = .noChange)))) ∧
  (∀ (tag m take : Byte) (s : State), takesAtOnce s → (enrolment m.toNat s).isSome = true → s.cst.phase = .run →
    let refused (a : ReplyOutcome) (body : List Byte) : Prop :=
      exec (.brkMember tag m take) s = .next (replied tag m (.brkMember take) a body s (heardFrom m s))
    let c2 := isSuspended m.toNat s = true
    let c3 := standing m.toNat s ≠ some .control
    let c4 := holder s = some m.toNat
    let c5 := turnRunning s = true ∧ turnClass s = some .emergency
    let c6 := take ≠ 0 ∧ allowanceZero m.toNat s = true
    let c7 := take ≠ 0 ∧ entryOf m.toNat s = none ∧ 12 ≤ s.tar.queue.length
    (c2 → refused .suspended []) ∧
    (¬ c2 → c3 → refused (.denied .cls) (bytes1 Reason.cls.code)) ∧
    (¬ c2 → ¬ c3 → c4 → refused .busy []) ∧
    (¬ c2 → ¬ c3 → ¬ c4 → c5 → refused (.denied .cls) (bytes1 Reason.cls.code)) ∧
    (¬ c2 → ¬ c3 → ¬ c4 → ¬ c5 → c6 → refused (.denied .quota) (bytes1 Reason.quota.code)) ∧
    (¬ c2 → ¬ c3 → ¬ c4 → ¬ c5 → ¬ c6 → c7 → refused .full []))

/-- R7, R9, R10, R13, R14, R23: the offer deadline ends the turn, and so does the idle deadline, which finds the holder not
keyed (R10); the turn deadline renews the turn where no eligible entry waits, and ends it otherwise; an entry whose expiry
time passes leaves the queue, and nothing else happens. (Several causes of one event, one notice: log entry 29.) -/
def Obligations.TurnAndQueueDeadlinesPass : Prop :=
  (∀ s : State, endsQuietly s →
    (fallsDue .offerDeadline s → exec .offerDeadline s = .next (pumpNotice (turnEnded .noAnswer s))) ∧
    (fallsDue .idleDeadline s → holderKeyed s = false →
      exec .idleDeadline s = .next (pumpNotice (turnEnded .idleLimit s)))) ∧
  (∀ (o : OpenTurn) (s : State), s.tar.turn = .opened o → fallsDue .turnDeadline s →
    ((∀ e ∈ s.tar.queue, eligible s e = false) →
      exec .turnDeadline s = .next (pumpNotice { s with tar := { s.tar with
        turn := .opened { o with turnDeadline := o.turnDeadline + 10 * s.tar.copy.turnLimit } } })) ∧
    ((∃ e ∈ s.tar.queue, eligible s e = true) → endsQuietly s →
      exec .turnDeadline s = .next (pumpNotice (turnEnded .turnLimit s)))) ∧
  (∀ (m : Byte) (s : State), fallsDue (.entryExpiry m) s →
    exec (.entryExpiry m) s = .next (pumpNotice
      { s with tar := { s.tar with queue := s.tar.queue.filter fun e => e.member != m.toNat } }))

/-! ## Requests: members and the watch -/

/-- R13, R14, R18, R46, R51: an accepted SUSPEND removes the member's entry, ends its OFFERED or OPEN turn, and ends its
watch; REINSTATE clears the flag. A member above 31 is refused RANGE, and one that is not ENROLLED by its entry. -/
def Obligations.SusSuspendsAndReinstates : Prop :=
  (∀ (tag m : Byte) (s : State), takesAtOnce s → s.cst.phase = .run → (enrolment m.toNat s).isSome = true →
    let suspended : State := { heard s with
      mrg := { s.mrg with
        members := s.mrg.members.setIfInBounds m.toNat { memberSlot m.toNat s with suspended := true } }
      tar := { s.tar with queue := s.tar.queue.filter fun e => e.member != m.toNat } }
    let ended : State := if holder s = some m.toNat then turnEnded .suspended suspended else suspended
    let suspends (t : State) : Prop :=
      exec (.susSuspend tag m) s = .next (replied tag authority (.sus m 1) .ok [] s t)
    (isSuspended m.toNat s = false → endsQuietly s →
      ((∀ b x, s.mrg.watch ≠ .active m.toNat b x) → suspends ended) ∧
      (∀ b x, s.mrg.watch = .active m.toNat b x → suspends (watchEnds m.toNat ended))) ∧
    (isSuspended m.toNat s = true →
      exec (.susSuspend tag m) s = .next (replied tag authority (.sus m 1) .noChange [] s (heard s))) ∧
    (isSuspended m.toNat s = true →
      exec (.susReinstate tag m) s = .next (replied tag authority (.sus m 2) .ok [] s
        { heard s with mrg := { s.mrg with
          members := s.mrg.members.setIfInBounds m.toNat { memberSlot m.toNat s with suspended := false } } })) ∧
    (isSuspended m.toNat s = false →
      exec (.susReinstate tag m) s = .next (replied tag authority (.sus m 2) .noChange [] s (heard s)))) ∧
  (∀ (tag m : Byte) (s : State), takesAtOnce s → s.cst.phase = .run →
    let refused (a : ReplyOutcome) : Prop :=
      exec (.susSuspend tag m) s = .next (replied tag authority (.sus m 1) a [] s (heard s)) ∧
        exec (.susReinstate tag m) s = .next (replied tag authority (.sus m 2) a [] s (heard s))
    (31 < m.toNat → refused .range) ∧
    (m.toNat ≤ 31 → (memberSlot m.toNat s).entry = .empty → refused .unknownMember) ∧
    (m.toNat ≤ 31 → (memberSlot m.toNat s).entry = .damaged → refused .damaged))

/-- R45: `qrf` refills the allowance of one member, or of all. -/
def Obligations.QrfRefills : Prop :=
  ∀ (tag m : Byte) (s : State), takesAtOnce s → s.cst.phase = .run →
    let answered (o : ReplyOutcome) (t : State) : Prop :=
      exec (.qrf tag m) s = .next (replied tag authority (.qrf m) o [] s t)
    (31 < m.toNat → m ≠ 255 → answered .range (heard s)) ∧
    (m.toNat ≤ 31 → (memberSlot m.toNat s).entry = .empty → answered .unknownMember (heard s)) ∧
    (m.toNat ≤ 31 → (memberSlot m.toNat s).entry = .damaged → answered .damaged (heard s)) ∧
    (∀ e : Enrolment, m.toNat ≤ 31 → enrolment m.toNat s = some e →
      (e.allowance = 0 ∨ (memberSlot m.toNat s).remaining = 10 * e.allowance → answered .noChange (heard s)) ∧
      (e.allowance ≠ 0 → (memberSlot m.toNat s).remaining ≠ 10 * e.allowance →
        answered .ok { heard s with mrg := { s.mrg with
          members := s.mrg.members.setIfInBounds m.toNat
            { memberSlot m.toNat s with remaining := 10 * e.allowance } } })) ∧
    (m = 255 → ∃ t : State,
      t = { heard s with mrg := { s.mrg with members := t.mrg.members } } ∧
      (∀ k, memberSlot k t = (match enrolment k s with
        | some e => if e.allowance = 0 then memberSlot k s else { memberSlot k s with remaining := 10 * e.allowance }
        | none => memberSlot k s)) ∧
      ((∃ k, memberSlot k t ≠ memberSlot k s) → answered .ok t) ∧
      ((∀ k, memberSlot k t = memberSlot k s) → answered .noChange t))

/-- R13, R14, R48 to R52: `wch on` from a CONTROL member begins or renews the watch, or finds it another's; `wch off` of the
watcher and the passing of the expiry end it, and with it a SUPERVISED turn that is OFFERED or OPEN. `wch` of a member of
another standing class is DENIED, reason CLASS, and `wch off` of a member that does not keep the watch is NOT_HOLDER.
(Several causes of one event, one notice: log entry 29.) -/
def Obligations.WatchBeginsAndEnds : Prop :=
  (∀ (tag m : Byte) (s : State), takesAtOnce s → mayAsk m s → standing m.toNat s = some .control →
    (s.mrg.watch = .inactive →
      exec (.wchOn tag m) s = .next (replied tag m (.wch 1) .ok [] s
        (runSelection (raise .watch (writeJournal (.watch m.toNat true) { heardFrom m s with mrg := { s.mrg with
          watch := .active m.toNat (now s) (now s + 600 * s.mrg.copy.watchPeriod) } }))))) ∧
    (∀ b x, s.mrg.watch = .active m.toNat b x →
      exec (.wchOn tag m) s = .next (replied tag m (.wch 1) .ok [] s
        { heardFrom m s with mrg := { s.mrg with
          watch := .active m.toNat b (now s + 600 * s.mrg.copy.watchPeriod) } })) ∧
    (∀ w b x, s.mrg.watch = .active w b x → w ≠ m.toNat →
      exec (.wchOn tag m) s = .next (replied tag m (.wch 1) .busy (bytes1 w) s (heardFrom m s)))) ∧
  (∀ (tag m : Byte) (b x : Nat) (s : State), s.mrg.watch = .active m.toNat b x → endsQuietly s →
    (takesAtOnce s → mayAsk m s → standing m.toNat s = some .control →
      exec (.wchOff tag m) s = .next (replied tag m (.wch 2) .ok [] s (watchEnds m.toNat (heardFrom m s)))) ∧
    (fallsDue .watchExpiry s → exec .watchExpiry s = .next (pumpNotice (watchEnds m.toNat s)))) ∧
  (∀ (tag m : Byte) (s : State), takesAtOnce s → mayAsk m s →
    (standing m.toNat s ≠ some .control →
      exec (.wchOn tag m) s =
        .next (replied tag m (.wch 1) (.denied .cls) (bytes1 Reason.cls.code) s (heardFrom m s)) ∧
      exec (.wchOff tag m) s =
        .next (replied tag m (.wch 2) (.denied .cls) (bytes1 Reason.cls.code) s (heardFrom m s))) ∧
    (standing m.toNat s = some .control → (∀ b x, s.mrg.watch ≠ .active m.toNat b x) →
      exec (.wchOff tag m) s = .next (replied tag m (.wch 2) .notHolder [] s (heardFrom m s))))

/-! ## Requests: the chain -/

/-- R8, R62, R63, R64, R80: an accepted `key` of the holder of an OPEN turn, or of one that accepts its offer: the dead-man
timer is loaded and key-up begins, in AMP_UP with barefoot mode off and in TX_UP with it on. A confirmation that is active
already goes on at once with its earliest bound 0, and is AMP_EARLY or TX_EARLY otherwise. -/
def Obligations.KeyBeginsKeyUp : Prop :=
  ∀ (tag m : Byte) (x : Setting) (k : Nat) (s : State), takesAtOnce s → mayAsk m s →
    turnRunning s = true → holder s = some m.toNat → localActive s = false → anyLatched s = false →
    s.kch.state = .idle → s.spc.power = .ready → s.seu.retune = .steady → idSending s = false →
    s.kch.holdoff = none → s.seu.confirmed = ⟨some x, true⟩ → privilege m.toNat x s.seu.selected s = .ok k →
    s.lines.antv = true → s.lines.code = s.seu.selected → allowanceZero m.toNat s = false →
    (turnClass s = some (.standing .supervised) → s.mrg.watch ≠ .inactive) → keysUpQuietly s →
    exec (.key tag m) s = .next (replied tag m .key .ok [] s (keyedUp .holder { turnTaken m s with
      kch := { s.kch with deadMan := some (s.clock + 100 * s.kch.copy.deadManWindow) } }))

/-- R8, R80: a holder's `key` in an OPEN turn, or one that accepts its offer, is refused on the first of the ten conditions
that applies; the acceptance stands. -/
def Obligations.KeyIsRefusedInOrder : Prop :=
  ∀ (tag m : Byte) (s : State), takesAtOnce s → mayAsk m s → turnRunning s = true → holder s = some m.toNat →
    let refused (a : ReplyOutcome) (body : List Byte) : Prop :=
      exec (.key tag m) s = .next (replied tag m .key a body s (turnTaken m s))
    let denied (r : Reason) : Prop := refused (.denied r) (bytes1 r.code)
    let c1 := localActive s = true
    let c2 := anyLatched s = true ∨ s.kch.state = .faulted
    let c3 := s.spc.power ≠ .ready
    let c4 := s.kch.state ≠ .idle ∨ s.seu.retune ≠ .steady ∨ idSending s = true
    let c5 := s.kch.holdoff ≠ none
    (c1 → refused .localControl []) ∧
    (¬ c1 → c2 → refused .held []) ∧
    (¬ c1 → ¬ c2 → c3 → denied .station) ∧
    (¬ c1 → ¬ c2 → ¬ c3 → c4 → refused .busy []) ∧
    (¬ c1 → ¬ c2 → ¬ c3 → ¬ c4 → c5 → refused .tooSoon []) ∧
    (¬ c1 → ¬ c2 → ¬ c3 → ¬ c4 → ¬ c5 →
      (s.seu.confirmed.fresh = false → denied .setting) ∧
      (∀ x : Setting, s.seu.confirmed = ⟨some x, true⟩ →
        (∀ r, privilege m.toNat x s.seu.selected s = .error r → denied r) ∧
        (∀ k, privilege m.toNat x s.seu.selected s = .ok k →
          (senseConfirms s = false → denied .antenna) ∧
          (senseConfirms s = true →
            (allowanceZero m.toNat s = true → denied .quota) ∧
            (allowanceZero m.toNat s = false → turnClass s = some (.standing .supervised) → s.mrg.watch = .inactive →
              denied .noWatch)))))

/-- R10, R12, R67, R68, R69, R81, R113: `unk` from the holder of an OPEN turn keys down from ON_AIR (where TXC is
active), TX_UP (where it is inactive, so that TX_DOWN ends at once) and AMP_UP, and comes to rest at once from TX_UP
with an amp hold of 0 or in barefoot mode and from AMP_UP with an amp hold of 0; it is NO_CHANGE at rest and in
key-down, and BUSY under claimant IDENT. From the holder of an OFFERED turn, whose chain is IDLE, it is NO_CHANGE and
does not accept the offer. -/
def Obligations.UnkKeysDown : Prop :=
  (∀ (tag m : Byte) (o : OpenTurn) (s : State), takesAtOnce s → mayAsk m s → s.tar.turn = .opened o →
    o.holder = m.toNat →
    (holderKeyed s = true → unblanksQuietly s → (s.kch.state = .onAir → s.lines.txc = true) →
      (s.kch.state = .txUp → s.lines.txc = false) →
      (downAtOnce s → restsQuietly s ∧ (idOwed s = true → keysUpQuietly s)) →
      exec (.unk tag m) s = .next (replied tag m .unk .ok [] s
        (if downAtOnce s then idleAgain o (keyDownDone .unkey (heardFrom m s))
        else keyDownBegun .unkey (heardFrom m s)))) ∧
    (s.kch.state = .idle ∨ s.kch.state = .faulted ∨
        (s.kch.claimant = .holder ∧ (s.kch.state = .txDown ∨ s.kch.state = .ampDown)) →
      exec (.unk tag m) s = .next (replied tag m .unk .noChange [] s (heardFrom m s))) ∧
    (s.kch.claimant = .ident → s.kch.state ≠ .idle → s.kch.state ≠ .faulted →
      exec (.unk tag m) s = .next (replied tag m .unk .busy [] s (heardFrom m s)))) ∧
  (∀ (tag m : Byte) (o : OfferedTurn) (s : State), takesAtOnce s → mayAsk m s → s.tar.turn = .offered o →
    o.holder = m.toNat → s.kch.state = .idle →
    exec (.unk tag m) s = .next (replied tag m .unk .noChange [] s (heard s)))

/-- `hld` from the holder of an OPEN turn reloads a running dead-man timer, in every chain state; from the holder of an
OFFERED turn it accepts the offer (chapters 1 and 3). `acceptances` is the model's own count of acceptances (log entry 23,
DEDUCED), not the spec's. -/
def Obligations.HldHoldsTheTurn : Prop :=
  (∀ (tag m : Byte) (o : OpenTurn) (s : State), takesAtOnce s → mayAsk m s → s.tar.turn = .opened o →
    o.holder = m.toNat →
    (s.kch.deadMan = none → exec (.hld tag m) s = .next (replied tag m .hld .ok [] s (heardFrom m s))) ∧
    (s.kch.deadMan ≠ none → exec (.hld tag m) s = .next (replied tag m .hld .ok [] s
      { heardFrom m s with kch := { s.kch with deadMan := some (s.clock + 100 * s.kch.copy.deadManWindow) } }))) ∧
  (∀ (tag m : Byte) (o : OfferedTurn) (s : State), takesAtOnce s → mayAsk m s → s.tar.turn = .offered o →
    o.holder = m.toNat → s.kch.deadMan = none →
    exec (.hld tag m) s = .next (replied tag m .hld .ok [] s
      { heard s with tar := { s.tar with
        turn := .opened (openedFrom o s)
        acceptances := s.tar.acceptances + 1 } }))

/-- R12: the holder test: `hld`, `key`, `unk` and `tun` from a member that is not the holder, or with the turn FREE, are
answered NOT_HOLDER; from the holder of a CLOSING turn `hld` and `unk` are answered NO_CHANGE, `key` and `tun`
NOT_HOLDER. R47: these, `rel` and `wch` from a suspended member are answered SUSPENDED. -/
def Obligations.HolderTestAnswers : Prop :=
  (∀ (tag m : Byte) (f : Word) (mode : Byte) (p : Half) (a : Byte) (s : State), takesAtOnce s → mayAsk m s →
    (holder s ≠ some m.toNat →
      exec (.hld tag m) s = .next (replied tag m .hld .notHolder [] s (heard s)) ∧
      exec (.key tag m) s = .next (replied tag m .key .notHolder [] s (heard s)) ∧
      exec (.unk tag m) s = .next (replied tag m .unk .notHolder [] s (heard s)) ∧
      exec (.tun tag m f mode p a) s = .next (replied tag m (.tun f mode p a) .notHolder [] s (heard s))) ∧
    (∀ c : ClosingTurn, s.tar.turn = .closing c → c.holder = m.toNat →
      exec (.hld tag m) s = .next (replied tag m .hld .noChange [] s (heard s)) ∧
      exec (.key tag m) s = .next (replied tag m .key .notHolder [] s (heard s)) ∧
      exec (.unk tag m) s = .next (replied tag m .unk .noChange [] s (heard s)) ∧
      exec (.tun tag m f mode p a) s = .next (replied tag m (.tun f mode p a) .notHolder [] s (heard s)))) ∧
  (∀ (tag m : Byte) (f : Word) (mode : Byte) (p : Half) (a : Byte) (s : State), takesAtOnce s →
    (enrolment m.toNat s).isSome = true → s.cst.phase = .run → isSuspended m.toNat s = true →
    let suspended (c : Instr) (r : Request) : Prop :=
      exec c s = .next (replied tag m r .suspended [] s (heardFrom m s))
    suspended (.hld tag m) .hld ∧ suspended (.key tag m) .key ∧ suspended (.unk tag m) .unk ∧
      suspended (.tun tag m f mode p a) (.tun f mode p a) ∧ suspended (.rel tag m) .rel ∧
      suspended (.wchOn tag m) (.wch 1) ∧ suspended (.wchOff tag m) (.wch 2))

/-- R83, R113: `fcl`; an OPEN turn has its idle deadline set, or an identification that is DUE is claimed at once where the
claim is taken, and selection follows a FREE one. -/
def Obligations.FclClearsAFault : Prop :=
  ∀ (tag : Byte) (s : State), takesAtOnce s →
    (s.kch.state ≠ .faulted → exec (.fcl tag) s = .next (replied tag authority .fcl .noChange [] s (heard s))) ∧
    (s.kch.state = .faulted →
      (s.lines.amprdy = true ∨ s.lines.txc = true →
        exec (.fcl tag) s = .next (replied tag authority .fcl .held
          (bytes1 ((if s.lines.amprdy then 1 else 0) + (if s.lines.txc then 2 else 0))) s (heard s))) ∧
      (s.lines.amprdy = false → s.lines.txc = false →
        let cleared : State := { heard s with kch := { s.kch with state := .idle, fault := none } }
        (∀ o : OpenTurn, s.tar.turn = .opened o → (claimIsTaken cleared → keysUpQuietly s) →
          exec (.fcl tag) s = .next (replied tag authority .fcl .ok [] s (idleAgain o cleared))) ∧
        (s.tar.turn = .free →
          exec (.fcl tag) s = .next (replied tag authority .fcl .ok [] s (runSelection cleared)))))

/-! ## Requests: the setting, the interlocks, power, the phases -/

/-- R8, R91, R92, R93, R96: an accepted `tun` of the holder of an OPEN turn, or of one that accepts its offer,
overtakes a retune in flight, and awaits its readback at once where the antenna in use stays and its sense confirms,
or where the new selection is confirmed already; otherwise it waits for the sense. R89, R90: it is refused in order on
its fields, the chain, the power state, the choice of antenna and the privilege check, and an offer that it accepts
stands accepted. (Which turn is the requester's: log entry 23.) -/
def Obligations.TunBeginsARetune : Prop :=
  (∀ (tag m a : Byte) (f : Word) (mode : Byte) (md : Mode) (p : Half) (named : Option (BitVec 2))
    (ant : BitVec 2) (k : Nat) (s u : State), takesAtOnce s → mayAsk m s → turnRunning s = true →
    holder s = some m.toNat → modeOf mode = some md → antennaChoiceOf a = some named → 1 ≤ p.toNat → p.toNat ≤ 1500 →
    s.kch.state = .idle → s.spc.power.state ≠ .off → s.spc.power.state ≠ .cooling →
    chooseAntenna named f.toNat p.toNat s = some ant → privilege m.toNat ⟨f.toNat, md, p.toNat⟩ ant s = .ok k →
    ((s.seu.retune = .steady ∧ u = turnTaken m s) ∨
      (∃ r0 tag0, requested s = some (r0, tag0) ∧ u = retuneEnded .overtaken r0 tag0 (turnTaken m s))) →
    let r : Requested := ⟨⟨f.toNat, md, p.toNat⟩, ant, m.toNat, u.tar.acceptances⟩
    let answered (t : State) : Prop :=
      exec (.tun tag m f mode p a) s = .next (replied tag m (.tun f mode p a) .ok (tuneBody t) s t)
    (ant = s.seu.selected → senseConfirms s = true → answered (awaitingFor r u)) ∧
    (ant ≠ s.seu.selected → s.lines.antv = true → s.lines.code = ant →
      answered (awaitingFor r { u with seu := { u.seu with selected := ant } })) ∧
    ((s.lines.antv = false ∨ s.lines.code ≠ ant) →
      answered { u with seu := { u.seu with
        selected := ant
        retune := .switching r (s.clock + s.seu.copy.settleLimit) } })) ∧
  (∀ (tag m a : Byte) (f : Word) (mode : Byte) (p : Half) (s : State), takesAtOnce s → mayAsk m s →
    turnRunning s = true → holder s = some m.toNat →
    let refused (x : ReplyOutcome) (body : List Byte) : Prop :=
      exec (.tun tag m f mode p a) s = .next (replied tag m (.tun f mode p a) x body s (turnTaken m s))
    (modeOf mode = none ∨ antennaChoiceOf a = none ∨ p.toNat < 1 ∨ 1500 < p.toNat → refused .range []) ∧
    (∀ md named, modeOf mode = some md → antennaChoiceOf a = some named → 1 ≤ p.toNat → p.toNat ≤ 1500 →
      (s.kch.state ≠ .idle → refused .busy []) ∧
      (s.kch.state = .idle → s.spc.power.state = .off ∨ s.spc.power.state = .cooling →
        refused (.denied .station) (bytes1 Reason.station.code)) ∧
      (s.kch.state = .idle → s.spc.power.state ≠ .off → s.spc.power.state ≠ .cooling →
        (chooseAntenna named f.toNat p.toNat s = none → refused (.denied .antenna) (bytes1 Reason.antenna.code)) ∧
        (∀ ant r, chooseAntenna named f.toNat p.toNat s = some ant →
          privilege m.toNat ⟨f.toNat, md, p.toNat⟩ ant s = .error r → refused (.denied r) (bytes1 r.code)))))

/-- R140: `icl` removes the latched inputs whose filters are QUIET, and selection follows a set left empty. -/
def Obligations.IclRemovesQuietTrips : Prop :=
  ∀ (tag : Byte) (s : State), takesAtOnce s →
    let keep (i : Input) : Bool := s.ilm.latched.get i && s.ilm.filters.get i != .quiet
    let cleared : State := { heard s with ilm := { s.ilm with
      latched := ⟨keep .refl, keep .ampf, keep .supok, keep .estop, keep .localKey, keep .ants⟩ } }
    ((∀ i, s.ilm.latched.get i = false) →
      exec (.icl tag) s = .next (replied tag authority .icl .noChange (latchBody s) s (heard s))) ∧
    ((∃ i, s.ilm.latched.get i = true) →
      ((∀ i, s.ilm.latched.get i = true → s.ilm.filters.get i ≠ .quiet) →
        exec (.icl tag) s = .next (replied tag authority .icl .held (latchBody s) s (heard s))) ∧
      ((∃ i, s.ilm.latched.get i = true ∧ s.ilm.filters.get i = .quiet) →
        ((∃ i, s.ilm.latched.get i = true ∧ s.ilm.filters.get i ≠ .quiet) →
          exec (.icl tag) s = .next (replied tag authority .icl .ok (latchBody cleared) s cleared)) ∧
        ((∀ i, s.ilm.latched.get i = true → s.ilm.filters.get i = .quiet) → idDue s = false →
          exec (.icl tag) s = .next (replied tag authority .icl .ok (latchBody cleared) s (runSelection cleared)))))

/-- R13, R14, R17, R18, R145 to R151, R154, R155: `spw up` and `spw down` in the states of the power record: `spw up` with
SUPOK active goes on to WARM_UP, and with barefoot mode on or a warm-up time of 0 to the self-check; a cool-down time of 0
goes on from COOLING to OFF. `bft` is an event at AMPF's filter. With LOCAL ACTIVE both are LOCAL_CONTROL. -/
def Obligations.SpwAndBftSetThePower : Prop :=
  (∀ (tag : Byte) (s : State), takesAtOnce s → localActive s = false →
    let up (o : ReplyOutcome) (t : State) : Prop := exec (.spwUp tag) s = .next (replied tag authority (.spw 1) o [] s t)
    let down (o : ReplyOutcome) (t : State) : Prop :=
      exec (.spwDown tag) s = .next (replied tag authority (.spw 2) o [] s t)
    let asked : State := { heard s with spc := { s.spc with downRequested := true } }
    (s.ilm.latched.estop = true → up .held (heard s)) ∧
    (s.ilm.latched.estop = false →
      (s.spc.power = .off none →
        (s.lines.supok = false → up .ok (powerChanged (.supplyWait (s.clock + 2000)) none (heard s))) ∧
        (s.lines.supok = true → turnsNeedPower s → movesQuietly .supok false s →
          up .ok (supplyConfirmed (powerChanged (.supplyWait (s.clock + 2000)) none (heard s))))) ∧
      (∀ t, s.spc.power = .off (some t) → up .tooSoon (heard s)) ∧
      (s.spc.power.state = .warming → up .noChange (heard s)) ∧
      (s.spc.power.state = .cooling → up .tooSoon (heard s)) ∧
      (s.spc.power = .ready →
        (s.spc.downRequested = false → up .noChange (heard s)) ∧
        (s.spc.downRequested = true → up .noChange (runSelection (requestCleared (heard s)))))) ∧
    ((s.spc.power.state = .off ∨ s.spc.power.state = .cooling) → down .noChange (heard s)) ∧
    ((s.spc.copy.coolDown = 0 → movesQuietly .supok false s) →
      (s.spc.power.state = .warming → down .ok (coolingEntered (heard s))) ∧
      (s.spc.power = .ready → s.tar.turn = .free → down .ok (coolingEntered (heard s)))) ∧
    (s.spc.power = .ready → turnRunning s = true → s.spc.downRequested = false → endsQuietly asked →
      down .ok (turnEnded .stationDown asked)) ∧
    (∀ c : ClosingTurn, s.spc.power = .ready → s.tar.turn = .closing c → s.spc.downRequested = false →
      down .ok asked) ∧
    (s.spc.power = .ready → s.tar.turn ≠ .free → s.spc.downRequested = true → down .noChange (heard s))) ∧
  (∀ (tag : Byte) (s : State), takesAtOnce s → localActive s = true →
    exec (.spwUp tag) s = .next (replied tag authority (.spw 1) .localControl [] s (heard s)) ∧
    exec (.spwDown tag) s = .next (replied tag authority (.spw 2) .localControl [] s (heard s))) ∧
  (∀ (tag : Byte) (s : State), takesAtOnce s →
    let on (o : ReplyOutcome) (t : State) : Prop := exec (.bftOn tag) s = .next (replied tag authority (.bft 1) o [] s t)
    let off (o : ReplyOutcome) (t : State) : Prop :=
      exec (.bftOff tag) s = .next (replied tag authority (.bft 2) o [] s t)
    let moved (barefoot : Bool) : State := { heard s with
      spc := { s.spc with barefoot := barefoot }
      ilm := inputMoved .ampf (s.lines.ampf && !barefoot) s }
    (localActive s = true → on .localControl (heard s) ∧ off .localControl (heard s)) ∧
    (localActive s = false → (s.kch.state ≠ .idle ∨ s.spc.power.state = .warming) →
      on .busy (heard s) ∧ off .busy (heard s)) ∧
    (localActive s = false → s.kch.state = .idle → s.spc.power.state ≠ .warming →
      (s.spc.barefoot = true → on .noChange (heard s) ∧ (movesQuietly .ampf s.lines.ampf s → off .ok (moved false))) ∧
      (s.spc.barefoot = false → (movesQuietly .ampf false s → on .ok (moved true)) ∧ off .noChange (heard s))))

/-- R187, R188: `run` enters RUN with every limited allowance filled and supervision running; `set` goes back to SETUP
with the queue empty, supervision stopped and the watch ended. -/
def Obligations.RunAndSetChangeThePhase : Prop :=
  ∀ (tag : Byte) (s : State), takesAtOnce s →
    let ran (o : ReplyOutcome) (t : State) : Prop := exec (.run tag) s = .next (replied tag authority .run o [] s t)
    let set (o : ReplyOutcome) (t : State) : Prop := exec (.set tag) s = .next (replied tag authority .set o [] s t)
    (s.cst.phase = .setup → s.cst.writing = none →
      (s.cst.paramsDamaged = true ∨ s.ids.pattern = .damaged → ran .damaged (heard s)) ∧
      (s.cst.paramsDamaged = false → s.ids.pattern = .valid [] → ran .range (heard s)) ∧
      (∀ e l, s.cst.paramsDamaged = false → s.ids.pattern = .valid (e :: l) → s.tar.queue = [] → ∃ t : State,
        t = { heard s with
          cst := { s.cst with phase := .run }
          lp := { (heard s).lp with supervision := some (s.clock + 100 * s.lp.supervisionTime) }
          mrg := { s.mrg with members := t.mrg.members } } ∧
        (∀ k, memberSlot k t = (match enrolment k s with
          | some e => if e.allowance = 0 then memberSlot k s else { memberSlot k s with remaining := 10 * e.allowance }
          | none => memberSlot k s)) ∧
        ran .ok t)) ∧
    (s.cst.phase = .run →
      (s.tar.turn ≠ .free ∨ s.kch.state ≠ .idle ∨ idSending s = true → set .busy (heard s)) ∧
      (s.tar.turn = .free → s.kch.state = .idle → idSending s = false →
        let quiet (t : State) : State := { t with
          lp := { (heard s).lp with supervision := none }
          cst := { s.cst with phase := .setup } }
        (s.mrg.watch = .inactive → set .ok (quiet { heard s with tar := { s.tar with queue := [] } })) ∧
        (∀ w b x, s.mrg.watch = .active w b x →
          set .ok (quiet (raise .watch (writeJournal (.watch w false) { heard s with
            tar := { s.tar with queue := [] }
            mrg := { s.mrg with watch := .inactive } }))))))

/-- R190: `rst` is answered, and the SOFT reset follows the end of its reply; any filter time of 0 is left out. -/
def Obligations.RstResetsAfterItsReply : Prop :=
  ∀ s : State,
    (∀ tag : Byte, takesAtOnce s → s.cst.writing = none →
      exec (.rst tag) s = .next (replied tag authority .rst .ok [] s
        { heard s with cst := { s.cst with softReset := true } })) ∧
    (∀ p : Reply, inReset s = false → s.ilm.arisen = [] → s.lp.tx = .replying p → s.cst.softReset = true →
      filterTimesPositive s → exec .replySent s = .next (pumpNotice (resetDone .soft s)))

/-! ## The transmission -/

/-- R10, R43, R67, R68, R69, R75, R76, R77, R100, R113, R115, R127, R151: the allowance, the dead-man timer, the
transmission limit, the grace timer and the rig's silence each begin key-down with their cause, and the first two end
the turn; the grace timer does so in AMP_UP and TX_UP too, where the key-down may come to rest at once, and the
dead-man timer would (R75: its window is longer than key-up takes). The other expiries only stop their timers, end
REFL's blanking, or make the setting STALE. (`unitOwed`: log entry 16.) (Several causes of one event, one notice: log
entry 29.) -/
def Obligations.TimersEndATransmissionOrRunOut : Prop :=
  (∀ (o : OpenTurn) (s : State), onTheAir o s →
    (fallsDue .allowanceExhausted s → exec .allowanceExhausted s = .next (pumpNotice
      (let t := keyedDown .quota s
      { t with
        tar := { s.tar with turn := closedBy o .quota }
        mrg := { s.mrg with
          members := s.mrg.members.setIfInBounds o.holder { memberSlot o.holder s with remaining := 0 }
          unitOwed := false } }))) ∧
    (fallsDue .deadManExpiry s → exec .deadManExpiry s = .next (pumpNotice
      (let t := keyedDown .deadman s
      { t with tar := { s.tar with turn := closedBy o .deadman } }))) ∧
    (fallsDue .transmissionLimitExpiry s →
      exec .transmissionLimitExpiry s = .next (pumpNotice (keyedDown .txLimit s))) ∧
    (∀ since moment, s.ids.record = .due since (some moment) → fallsDue .graceTimerExpiry s →
      exec .graceTimerExpiry s = .next (pumpNotice
        (let t := keyedDown .idForced s
        { t with ids := { s.ids with record := .due since none } }))) ∧
    (s.seu.confirmed.fresh = true → fallsDue .rigSilenceExpiry s →
      exec .rigSilenceExpiry s = .next (pumpNotice (keyedDown .rigSilent (raise .setting { s with seu := { s.seu with
        rigSilence := none
        confirmed := { s.seu.confirmed with fresh := false } } }))))) ∧
  (∀ (o : OpenTurn) (s : State), s.tar.turn = .opened o → s.kch.claimant = .holder →
    (s.kch.state = .ampUp ∨ (s.kch.state = .txUp ∧ s.lines.txc = false)) → unblanksQuietly s →
    (downAtOnce s → restsQuietly s ∧ keysUpQuietly s) →
    (∀ since moment, s.ids.record = .due since (some moment) → fallsDue .graceTimerExpiry s →
      exec .graceTimerExpiry s = .next (pumpNotice
        (let u : State := { s with ids := { s.ids with record := .due since none } }
        if downAtOnce s then idleAgain o (keyDownDone .idForced u) else keyDownBegun .idForced u))) ∧
    (fallsDue .deadManExpiry s →
      let u : State := if downAtOnce s then idleAgain o (keyDownDone .deadman s) else keyDownBegun .deadman s
      endsQuietly u → exec .deadManExpiry s = .next (pumpNotice (turnEnded .deadman u)))) ∧
  (∀ s : State,
    (fallsDue .reKeyHoldoffExpiry s →
      exec .reKeyHoldoffExpiry s = .next (pumpNotice { s with kch := { s.kch with holdoff := none } })) ∧
    (fallsDue .restartHoldoffExpiry s →
      exec .restartHoldoffExpiry s = .next (pumpNotice { s with spc := { s.spc with power := .off none } })) ∧
    (fallsDue .reflBlankingExpiry s → unblanksQuietly s →
      exec .reflBlankingExpiry s = .next (pumpNotice { s with ilm := unblanked s })) ∧
    (∀ since moment, s.ids.record = .due since (some moment) → fallsDue .graceTimerExpiry s → holderKeyed s = false →
      exec .graceTimerExpiry s = .next (pumpNotice { s with ids := { s.ids with record := .due since none } })) ∧
    (fallsDue .rigSilenceExpiry s → holderOnAir s = false →
      (s.seu.confirmed.fresh = true → exec .rigSilenceExpiry s = .next (pumpNotice
        (raise .setting { s with seu := { s.seu with
          rigSilence := none
          confirmed := { s.seu.confirmed with fresh := false } } }))) ∧
      (s.seu.confirmed.fresh = false → exec .rigSilenceExpiry s = .next (pumpNotice
        { s with seu := { s.seu with rigSilence := none } }))))

/-- R10, R16, R42, R63, R64, R65, R68, R69, R101, R111, R113: key-up goes from AMP_UP to TX_UP with AMPRDY and to
ON_AIR with TXC, each within its window, whose latest bound has not passed; TXC that is active already at the entry to
TX_UP is on the air at once with an earliest bound of 0, and TX_EARLY otherwise; a STALE setting is keyed down at
once. Key-down goes to AMP_DOWN as TXC drops, and comes to rest after the amp hold, or as TXC drops in barefoot mode
or with an amp hold of 0: an OPEN turn has its idle deadline set or an identification that is DUE is claimed, and a
CLOSING turn becomes FREE or its closing identification is decided. (`unitOwed`: log entry 16.) (Several causes of one
event, one notice: log entry 29.) -/
def Obligations.ChainAdvances : Prop :=
  ∀ (a : Nat) (s : State), inReset s = false → s.ilm.arisen = [] →
    (s.kch.state = .ampUp → s.kch.stageStart = some a → s.kch.copy.ampReadyEarliest ≤ s.clock - a →
      (∃ limit, s.kch.stageTimer = some limit ∧ s.clock ≤ limit) → s.spc.barefoot = false →
      s.lines.amprdy = false → (0 < s.ilm.copy.filterTimes.refl ∨ inputActive .refl s = false) →
      (0 < s.ilm.copy.filterTimes.ants ∨ (inputActive .ants s = false ∧ senseConfirms s = true)) →
      (s.lines.txc = true → chainLawful s ∧ faultsQuietly s) →
      exec (.amprdyChange true) s = .next (pumpNotice
        (txUpEntered { s with lines := { s.lines with amprdy := true } }))) ∧
    (s.kch.state = .txUp → s.kch.claimant = .holder → s.kch.stageStart = some a →
      s.kch.copy.txConfirmEarliest ≤ s.clock - a → (∃ limit, s.kch.stageTimer = some limit ∧ s.clock ≤ limit) →
      s.lines.txc = false →
      let aired : State := { s with
        lines := { s.lines with txc := true }
        kch := { s.kch with
          state := .onAir
          stageStart := none
          stageTimer := none
          onAirStart := some (now s)
          txLimit := some (s.clock + 1000 * s.kch.copy.transmissionLimit) }
        mrg := { s.mrg with unitOwed := false }
        ids := { s.ids with
          record := if s.ids.record = .clear then .owed (now s) (s.clock + 1000 * s.ids.copy.interval)
            else s.ids.record } }
      (s.seu.confirmed.fresh = true → exec (.txcChange true) s = .next (pumpNotice aired)) ∧
      (s.seu.confirmed.fresh = false → unblanksQuietly s →
        exec (.txcChange true) s = .next (pumpNotice (keyedDown .rigSilent aired)))) ∧
    (s.kch.state = .txDown → s.lines.txc = true → s.spc.barefoot = false → 0 < s.kch.copy.ampHold →
      exec (.txcChange false) s = .next (pumpNotice { s with
        lines := { s.lines with txc := false }
        kch := { s.kch with
          state := .ampDown
          stageStart := some s.clock
          stageTimer := some (s.clock + s.kch.copy.ampHold) } })) ∧
    (s.kch.claimant = .holder → restsQuietly s →
      let rested (x : Lines) : State := { s with lines := x, kch := restedChain s, ilm := restMonitor s }
      let comesToRest (c : Instr) (x : Lines) : Prop :=
        (claimIsTaken (rested x) → keysUpQuietly (rested x)) →
        (∀ o : OpenTurn, s.tar.turn = .opened o → exec c s = .next (pumpNotice (idleAgain o (rested x)))) ∧
        (∀ o : ClosingTurn, s.tar.turn = .closing o → coolsQuietly s →
          exec c s = .next (pumpNotice (closingEnds o (rested x))))
      (s.kch.state = .ampDown → fallsDue .ampHoldExpiry s → comesToRest .ampHoldExpiry s.lines) ∧
      (s.kch.state = .txDown → s.lines.txc = true → (s.spc.barefoot = true ∨ s.kch.copy.ampHold = 0) →
        comesToRest (.txcChange false) { s.lines with txc := false }))

/-- R15, R16, R63, R64, R66, R68, R71, R72, R114, R118: the seven faults, under either claimant and in an OPEN or
CLOSING turn (`chainLawful`, and R111 for the identification that the holder's transmission owes): PTT and AMPKEY are
released, the chain rests in FAULTED, and the FAULT record and KEY_FAULT follow. The holder's turn then ends, its owed
identification MISSED; an identification that was being sent is abandoned, DUE again in an OPEN turn, and MISSED in a
CLOSING one, which becomes FREE. (Several causes of one event, one notice: log entry 29.) -/
def Obligations.FaultsReleaseTheChain : Prop :=
  (∀ kind x s, (outputs (faulted kind x s)).ptt = false ∧ (outputs (faulted kind x s)).ampkey = false) ∧
  (∀ (a : Nat) (s : State), inReset s = false → s.ilm.arisen = [] → chainLawful s → restsQuietly s →
    (s.kch.claimant = .holder → (s.kch.state = .onAir ∨ s.kch.state = .txDown) → idOwed s = true) →
    coolsQuietly s →
    let faults (c : Instr) (kind : FaultKind) (x : Lines) : Prop := exec c s = .next (pumpNotice (faulted kind x s))
    (s.kch.state = .ampUp → s.kch.stageStart = some a → s.clock - a < s.kch.copy.ampReadyEarliest →
      s.lines.amprdy = false → s.spc.barefoot = false →
      faults (.amprdyChange true) .ampEarly { s.lines with amprdy := true }) ∧
    (s.kch.state = .ampUp → fallsDue .ampReadyLatestBound s → faults .ampReadyLatestBound .ampLate s.lines) ∧
    (s.kch.state = .txUp → s.kch.stageStart = some a → s.clock - a < s.kch.copy.txConfirmEarliest →
      s.lines.txc = false → faults (.txcChange true) .txEarly { s.lines with txc := true }) ∧
    (s.kch.state = .txUp → fallsDue .txConfirmLatestBound s → faults .txConfirmLatestBound .txLate s.lines) ∧
    ((s.kch.state = .txUp ∨ s.kch.state = .onAir ∨ s.kch.state = .txDown) → s.lines.amprdy = true →
      s.spc.barefoot = false → faults (.amprdyChange false) .ampDrop { s.lines with amprdy := false }) ∧
    (s.kch.state = .onAir → s.lines.txc = true → faults (.txcChange false) .txDrop { s.lines with txc := false }) ∧
    (s.kch.state = .txDown → fallsDue .txDropLimit s → faults .txDropLimit .txStuck s.lines))

/-! ## The identification -/

/-- R62, R63, R64, R79, R112, R113: the interval timer makes the record DUE and raises ID_DUE; with the turn OPEN and
the claim taken the record is SENDING and key-up begins at once, in AMP_UP or, in barefoot mode, in TX_UP (and goes
on, or is a fault, where a confirmation is active already); otherwise the record waits. (Several causes of one event,
one notice: log entry 29.) -/
def Obligations.IdentificationFallsDue : Prop :=
  ∀ (since moment : Nat) (s : State), s.ids.record = .owed since moment → fallsDue .intervalTimerExpiry s →
    let due : State := raise .idDue { s with ids := { s.ids with
      record := .due since (some (s.clock + 1000 * s.ids.copy.grace)) } }
    ((turnOpen s = false ∨ ¬ claimIsTaken s) → exec .intervalTimerExpiry s = .next (pumpNotice due)) ∧
    (turnOpen s = true → claimIsTaken s → keysUpQuietly s →
      exec .intervalTimerExpiry s = .next (pumpNotice (identClaimed .interval due)))

/-- R10, R16, R64, R65, R69, R109, R116, R117: the pattern begins on the air (TXC within its window, whose latest
bound has not passed), IDTONE follows its elements, and key-down PATTERN_END follows its last; as the key-down of an
identification completes (after the amp hold, or as TXC drops in barefoot mode or with an amp hold of 0), the IDENT
record is SENT and the record CLEAR, a CLOSING turn becomes FREE and an OPEN one has its idle deadline set. (Several
causes of one event, one notice: log entry 29.) -/
def Obligations.IdentificationIsSent : Prop :=
  (∀ (since start k began t : Nat) (trigger : Trigger) (e : Element) (l : List Element) (s : State),
    inReset s = false → s.ilm.arisen = [] → s.kch.claimant = .ident → s.ids.pattern = .valid l →
    (∀ a, s.ids.record = .sending since trigger .notBegun → s.kch.state = .txUp → s.kch.stageStart = some a →
      s.kch.copy.txConfirmEarliest ≤ s.clock - a → (∃ limit, s.kch.stageTimer = some limit ∧ s.clock ≤ limit) →
      s.lines.txc = false → l[0]? = some e →
      exec (.txcChange true) s = .next (pumpNotice { s with
        lines := { s.lines with txc := true }
        kch := { s.kch with
          state := .onAir
          stageStart := none
          stageTimer := none
          onAirStart := some (now s) }
        ids := { s.ids with
          record := .sending since trigger (.running s.clock 0 s.clock)
          tone := e == .dit || e == .dah } })) ∧
    (s.ids.record = .sending since trigger (.running start k began) → dueMoment .idElementEnd s = some t →
      t ≤ s.clock →
      (s.ids.tone = true →
        exec .idElementEnd s = .next (pumpNotice { s with ids := { s.ids with tone := false } })) ∧
      (s.ids.tone = false → l[k + 1]? = some e →
        exec .idElementEnd s = .next (pumpNotice { s with ids := { s.ids with
          record := .sending since trigger (.running start (k + 1) t)
          tone := e == .dit || e == .dah } })) ∧
      (s.ids.tone = false → l.length ≤ k + 1 → s.kch.state = .onAir → s.lines.txc = true → unblanksQuietly s →
        exec .idElementEnd s = .next (pumpNotice
          (let u := keyedDown .patternEnd s
          { u with ids := { s.ids with record := .sending since trigger (.ended start) } }))))) ∧
  (∀ (since start : Nat) (trigger : Trigger) (s : State), s.ids.record = .sending since trigger (.ended start) →
    s.kch.claimant = .ident → restsQuietly s →
    let sent (x : Lines) : State := writeJournal (.ident trigger .sent (patternTime s))
      { s with lines := x, kch := restedChain s, ilm := restMonitor s }
    let cleared (x : Lines) : State := { sent x with ids := { s.ids with record := .clear } }
    let completes (e : Instr) (x : Lines) : Prop :=
      (∀ c : ClosingTurn, s.tar.turn = .closing c → coolsQuietly s →
        exec e s = .next (pumpNotice (freedTo (closedRecord c s) (cleared x)))) ∧
      (∀ o : OpenTurn, s.tar.turn = .opened o →
        exec e s = .next (pumpNotice { cleared x with tar := { s.tar with
          turn := .opened { o with idleDeadline := some (now s + 10 * s.tar.copy.idleLimit) } } }))
    (fallsDue .ampHoldExpiry s → completes .ampHoldExpiry s.lines) ∧
    (inReset s = false → s.ilm.arisen = [] → s.kch.state = .txDown → s.lines.txc = true →
      (s.spc.barefoot = true ∨ s.kch.copy.ampHold = 0) →
      completes (.txcChange false) { s.lines with txc := false }))

/-! ## The setting -/

/-- R92, R94, R95, R113, R114: the sense that confirms a SWITCHING selection goes on to AWAITING; the settle limit and
the readback timeout end the retune, and the claim that it held back is made. R124, R125, R129: with the chain running
a sense change moves the ANTS filter by whether the sense then confirms, and with it at rest toward QUIET. The owner
of a result is the requester, if the turn in which it asked is still OPEN (R97, R132; log entry 23). (Several causes
of one event, one notice: log entry 29.) -/
def Obligations.RetunesWaitAndEnd : Prop :=
  ∀ (r : Requested) (s : State),
    (∀ (v : Bool) (code : BitVec 2), inReset s = false → s.ilm.arisen = [] →
      (s.lines.antv ≠ v ∨ s.lines.code ≠ code) →
      let t : State := { s with lines := { s.lines with antv := v, code := code } }
      let lost : Bool := !chainAtRest s && !senseConfirms t
      let moved : State := { t with ilm := inputMoved .ants lost s }
      movesQuietly .ants lost s →
      (∀ limit, s.seu.retune = .switching r limit → v = true → code = s.seu.selected →
        exec (.antennaSenseChange v code) s = .next (pumpNotice (awaitingFor r moved))) ∧
      ((∀ r0 limit, s.seu.retune ≠ .switching r0 limit) ∨ v = false ∨ code ≠ s.seu.selected →
        exec (.antennaSenseChange v code) s = .next (pumpNotice moved))) ∧
    (let ends (c : Instr) (u : State) : Prop :=
      (claimIsTaken u → keysUpQuietly s) → coolsQuietly s → exec c s = .next (pumpNotice (heldClaimMade u))
    (∀ limit, s.seu.retune = .switching r limit → fallsDue .settleLimit s →
      ends .settleLimit (retuneEnded .antennaFault r none s)) ∧
    (∀ tag limit, s.seu.retune = .awaiting r tag limit → fallsDue .readbackTimeout s →
      ends .readbackTimeout (retuneEnded .failedTimeout r (some tag)
        { s with seu := { s.seu with confirmed := { s.seu.confirmed with fresh := false } } })))

/-- R85, R94, R95, R98, R99, R100, R103, R113, R114: a READBACK is discarded, ends the retune that awaits it and lets
the claim that the retune held back be made, or is taken unsolicited; taken with the holder on the air, it keys the
holder down where it leaves the holder's privileges, whether or not the setting changed. The owner of a result is the
requester, if the turn in which it asked is still OPEN (R95, R97; log entry 23). (Several causes of one event, one
notice: log entry 29.) -/
def Obligations.ReadbacksAreTaken : Prop :=
  ∀ (tag mode : Byte) (f : Word) (p check : Half) (s : State), inReset s = false → s.ilm.arisen = [] →
    let run (t : State) : Prop := exec (.readback tag f mode p check) s = .next (pumpNotice t)
    let sound : Prop := check = checkCode (rigBytes tag f mode p) ∧ p.toNat ≤ 1500
    let discarded : State := { s with seu := { s.seu with rx := .hunting } }
    (check ≠ checkCode (rigBytes tag f mode p) ∨ modeOf mode = none ∨ 1500 < p.toNat → run discarded) ∧
    (∀ md : Mode, sound → modeOf mode = some md →
      let x : Setting := ⟨f.toNat, md, p.toNat⟩
      let taken : State := { s with seu := { s.seu with
        rx := .hunting
        confirmed := ⟨some x, true⟩
        rigSilence := some (s.clock + 1000 * s.seu.copy.rigSilenceLimit) } }
      (∀ r limit, s.seu.retune = .awaiting r tag limit → holderOnAir s = false →
        let matched : Prop := r.setting.frequency ≤ x.frequency + 10 ∧ x.frequency ≤ r.setting.frequency + 10 ∧
          x.mode = r.setting.mode ∧ x.power ≤ r.setting.power
        let ends (u : State) : Prop :=
          (claimIsTaken u → keysUpQuietly s) → coolsQuietly s → run (heldClaimMade u)
        (matched → ends (retuneEnded .done r (some tag) taken)) ∧
        (¬ matched → ends (retuneEnded .failedMismatch r (some tag) taken))) ∧
      ((∀ r limit, s.seu.retune ≠ .awaiting r tag limit) → holderOnAir s = false →
        (s.seu.confirmed = ⟨some x, true⟩ → run taken) ∧
        (s.seu.confirmed ≠ ⟨some x, true⟩ → run (raise .setting taken))) ∧
      (∀ o : OpenTurn, onTheAir o s → (∀ r limit, s.seu.retune ≠ .awaiting r tag limit) →
        let told (t : State) : State := if s.seu.confirmed = ⟨some x, true⟩ then t else raise .setting t
        (∀ reason, privilege o.holder x s.seu.selected s = .error reason →
          run (told (keyedDown .outOfPrivilege taken))) ∧
        (∀ ceiling, privilege o.holder x s.seu.selected s = .ok ceiling → run (told taken))))

/-- R102, R104: the rig port: a gap, and a framing error or break, leave the receiver hunting; the end of a SETTING frame
begins the one that waits. That `rigByteGap` and `rigFramingError` carry the bytes received before them is the model's
choice (log entry 20), and so is that `settingFrameSent` finds nothing to do with nothing being sent (log entry 18). -/
def Obligations.RigPortReceivesAndSends : Prop :=
  ∀ s : State, inReset s = false → s.ilm.arisen = [] →
    (∀ received : List Byte,
        (s.seu.rx = .hunting ∧ (∀ b ∈ received, b ≠ 0x69)) ∨
        (s.seu.rx = .hunting ∧ ∃ before part, received = before ++ 0x69 :: part ∧ (∀ b ∈ before, b ≠ 0x69) ∧
          part.length < 10) ∨
        (∃ got, s.seu.rx = .assembling got ∧ got.length + received.length < 10) →
      exec (.rigByteGap received) s = .next (pumpNotice { s with seu := { s.seu with rx := .hunting } }) ∧
      exec (.rigFramingError received) s = .next (pumpNotice { s with seu := { s.seu with rx := .hunting } })) ∧
    (∀ g : SettingFrame, s.seu.tx.sending = some g →
      exec .settingFrameSent s = .next (pumpNotice { s with seu := { s.seu with
        tx := { sending := s.seu.tx.waiting, waiting := none } } })) ∧
    (s.seu.tx.sending = none → exec .settingFrameSent s = .next (pumpNotice s))

/-! ## The interlocks -/

/-- R15, R74, R118, R124, R125, R132, R135, R136, R138: a line's change moves its input's filter; an expiry toward QUIET makes
it QUIET, and one toward ACTIVE with the option REPORT writes the WARNING record and raises TRIP. LOCAL becoming ACTIVE
releases a transmission at once and ends the turn with cause LOCAL, what is owed MISSED.
(Several causes of one event, one notice: log entry 29.) -/
def Obligations.FiltersFollowTheLines : Prop :=
  ∀ s : State, inReset s = false → s.ilm.arisen = [] →
    (∀ (line : InterlockLine) (active : Bool), setInterlock line active s.lines ≠ s.lines →
      0 < s.ilm.copy.filterTimes.get (lineInput line) →
      let t : State := { s with lines := setInterlock line active s.lines }
      let i : Input := lineInput line
      let limit : Nat := s.clock + s.ilm.copy.filterTimes.get i
      let becomes (f : Filter) : Prop := exec (.interlockInputChange line active) s =
        .next (pumpNotice { t with ilm := { s.ilm with filters := s.ilm.filters.set i f } })
      becomes (filterMoved (faultCondition i t) limit (s.ilm.filters.get i))) ∧
    (∀ (i : Input) (k : Nat), fallsDue (.filterTimerExpiry i) s →
      let turned (f : Filter) : State := { s with ilm := { s.ilm with filters := s.ilm.filters.set i f } }
      (s.ilm.filters.get i = .headingQuiet k →
        (i ≠ .localKey → exec (.filterTimerExpiry i) s = .next (pumpNotice (turned .quiet))) ∧
        (i = .localKey → idDue s = false →
          exec (.filterTimerExpiry i) s = .next (pumpNotice (runSelection (turned .quiet))))) ∧
      (s.ilm.filters.get i = .headingActive k →
        ((i = .refl ∧ s.ilm.copy.reflReport = true) ∨ (i = .ampf ∧ s.ilm.copy.ampfReport = true) →
          exec (.filterTimerExpiry i) s = .next (pumpNotice
            (raise .trip (writeJournal (.warning i) (turned .active))))) ∧
        (i = .localKey → (chainAtRest s = true ∨ restsQuietly s) → coolsQuietly s →
          exec (.filterTimerExpiry i) s =
            .next (pumpNotice (releasedBy .localControl .localControl (turned .active))))))

/-- R15, R74, R118, R130, R131, R132, R152: an input that trips: it is latched, the TRIP record and TRIP follow, a
transmission is released at once (a send is abandoned), what is owed is MISSED and the turn ends; SUPOK then brings
the station to OFF, unless the turn's end has (that it enters OFF once is the model's choice, log entry 25). (Several
causes of one event, one notice: log entry 29.) -/
def Obligations.TripsBringTheStationDown : Prop :=
  ∀ (i : Input) (k : Nat) (s : State), fallsDue (.filterTimerExpiry i) s → s.ilm.filters.get i = .headingActive k →
    i ≠ .localKey → (i = .refl → s.ilm.copy.reflReport = false) → (i = .ampf → s.ilm.copy.ampfReport = false) →
    (chainAtRest s = true ∨ ((s.ilm.blanking = none ∨ 0 < s.ilm.copy.filterTimes.refl) ∧
      (0 < s.ilm.copy.filterTimes.ants ∨ (i ≠ .ants ∧ inputActive .ants s = false)))) →
    let tripped : State :=
      raise .trip (writeJournal (.trip i s.kch.state (if s.kch.claimant = .holder then holder s else none)) { s with
        ilm := { s.ilm with
          filters := s.ilm.filters.set i .active
          latched := s.ilm.latched.set i true } })
    let released : State := releasedBy .trip .trip tripped
    coolsQuietly tripped →
    released.tar.turn = .free ∧
    (i ≠ .supok → exec (.filterTimerExpiry i) s = .next (pumpNotice released)) ∧
    (i = .supok → 0 < s.ilm.copy.filterTimes.supok →
      exec (.filterTimerExpiry i) s = .next (pumpNotice
        (if released.spc.power.state = .off then released else offEntered none released)))

/-! ## Station power -/

/-- R120, R125, R128, R147, R148, R149, R151: the supply is confirmed or fails, the self-check passes or fails, at
once with barefoot mode on or a warm-up time of 0, and cooling ends in OFF. A SUPOK change moves SUPOK's filter by
whether the supply is confirmed and gone. (Outside READY the turn is FREE: R5, R150, R152.) (Several causes of one
event, one notice: log entry 29.) -/
def Obligations.PowerAdvances : Prop :=
  ∀ s : State, inReset s = false → s.ilm.arisen = [] →
    let failed : SelfCheck := ⟨.fail, .notTested, .notTested, .notTested, .notTested, .notTested⟩
    (s.lines.supok = false → movesQuietly .supok false s →
      let t : State := { s with lines := { s.lines with supok := true } }
      (∀ k, s.spc.power = .supplyWait k → turnsNeedPower s →
        exec (.supokChange true) s = .next (pumpNotice (supplyConfirmed t))) ∧
      ((∀ k, s.spc.power ≠ .supplyWait k) →
        exec (.supokChange true) s = .next (pumpNotice { t with ilm := inputMoved .supok false s }))) ∧
    (s.lines.supok = true → movesQuietly .supok s.spc.power.confirmed s →
      exec (.supokChange false) s = .next (pumpNotice { s with
        lines := { s.lines with supok := false }
        ilm := inputMoved .supok s.spc.power.confirmed s })) ∧
    (movesQuietly .supok false s →
      (∀ k, s.spc.power = .supplyWait k → fallsDue .supplyConfirmExpiry s →
        exec .supplyConfirmExpiry s = .next (pumpNotice (offEntered (some failed) (checkRecorded failed s)))) ∧
      (∀ k, s.spc.power = .warmUp k → turnsNeedPower s → fallsDue .warmUpExpiry s →
        exec .warmUpExpiry s = .next (pumpNotice (selfChecked s))) ∧
      (∀ k b, s.spc.power = .cooling k b → fallsDue .coolDownExpiry s →
        exec .coolDownExpiry s = .next (pumpNotice (offEntered none s))))

/-! ## The resets and the outputs -/

/-- R59, R88, R104, R109, R143, R144, R159, R189, R191, R193, R200: the outputs: all released and both serial lines
idle in reset, and otherwise PTT in TX_UP and ON_AIR, AMPKEY outside IDLE and FAULTED with barefoot mode off, the
supply outside OFF, the antenna lines the selection, IDTONE the pattern's tone, LTXD and RTXD the frames being sent.
At the pins low is asserted and active, but for IDTONE's square wave and for ESTOP, which is active high; an open
input reads high. A serial input that is open or high is idle, one that carries bytes gives them, and one held low is
not idle (log entry 22). -/
def Obligations.OutputsFollowTheBlocks : Prop :=
  (∀ s : State,
    (inReset s = true → outputs s = ⟨false, false, false, false, false, false, [], []⟩ ∧
      outputPins (outputs s) = ⟨.leftOpen, .leftOpen, .leftOpen, .heldLow, .leftOpen, .leftOpen, .idle .high, .idle .high⟩) ∧
    (inReset s = false →
      ((outputs s).ptt = true ↔ s.kch.state = .txUp ∨ s.kch.state = .onAir) ∧
      ((outputs s).ampkey = true ↔ s.spc.barefoot = false ∧ s.kch.state ≠ .idle ∧ s.kch.state ≠ .faulted) ∧
      ((outputs s).supply = true ↔ s.spc.power.state ≠ .off) ∧
      ((outputs s).ant0 = true ↔ s.seu.selected = 1 ∨ s.seu.selected = 3) ∧
      ((outputs s).ant1 = true ↔ s.seu.selected = 2 ∨ s.seu.selected = 3) ∧
      (outputs s).idtone = s.ids.tone ∧
      (s.lp.tx = .idle → (outputs s).ltxd = []) ∧
      (∀ p : Reply, s.lp.tx = .replying p → (outputs s).ltxd =
        0x3C :: replyBytes p.kind p.tag p.outcome p.summary p.body ++ bytes2 p.check.toNat) ∧
      (∀ n : Notice, s.lp.tx = .notifying n → (outputs s).ltxd =
        0x5A :: noticeBytes n ++ bytes2 (checkCode (noticeBytes n)).toNat) ∧
      (s.seu.tx.sending = none → (outputs s).rtxd = []) ∧
      (∀ g : SettingFrame, s.seu.tx.sending = some g → (outputs s).rtxd = settingFrameBytes g))) ∧
  (∀ o : Outputs,
    let sinks (d : Drain) (b : Bool) : Prop := (d = .sinks ↔ b = true) ∧ (d = .leftOpen ↔ b = false)
    let carries (p : SerialPin) (l : List Byte) : Prop :=
      (l = [] → p = .idle .high) ∧ (l ≠ [] → p = .carries l)
    sinks (outputPins o).supply o.supply ∧ sinks (outputPins o).ampkey o.ampkey ∧ sinks (outputPins o).ptt o.ptt ∧
      sinks (outputPins o).ant0 o.ant0 ∧ sinks (outputPins o).ant1 o.ant1 ∧
      ((outputPins o).idtone = .squareWave ↔ o.idtone = true) ∧ ((outputPins o).idtone = .heldLow ↔ o.idtone = false) ∧
      carries (outputPins o).ltxd o.ltxd ∧ carries (outputPins o).rtxd o.rtxd) ∧
  (∀ p : InputPins,
    let x : Lines := (sensed p).lines
    let hears (pin : Option SerialPin) (y : SerialSense) : Prop :=
      (pin = none ∨ pin = some (.idle .high) → y = .idle) ∧ (pin = some (.idle .low) → y = .heldLow) ∧
        (∀ l : List Byte, pin = some (.carries l) → y = if l = [] then .idle else .hears l)
    (x.supok = true ↔ p.supok = some .low) ∧ (x.amprdy = true ↔ p.amprdy = some .low) ∧
    (x.txc = true ↔ p.txc = some .low) ∧ (x.refl = true ↔ p.refl = some .low) ∧ (x.ampf = true ↔ p.ampf = some .low) ∧
    (x.antv = true ↔ p.antv = some .low) ∧ (x.localKey = true ↔ p.localKey = some .low) ∧
    (x.resetnLow = true ↔ p.resetn = some .low) ∧ (x.estop = false ↔ p.estop = some .low) ∧
    (x.code.getLsbD 0 = true ↔ p.ants0 = some .low) ∧ (x.code.getLsbD 1 = true ↔ p.ants1 = some .low) ∧
    hears p.lrxd (sensed p).lrxd ∧ hears p.rrxd (sensed p).rrxd)

/-- R170, R184, R189, R191: the three resets that hold the part: what they leave while they hold, the outputs all
released and both serial lines idle, the record of a write cut short, and no other, left not matching its check; while
held, no request is heard. That the blocks keep their other contents until the reset ends is the model's choice (log
entry 15). -/
def Obligations.ResetsTakeHold : Prop :=
  ∀ s : State,
    let u : State := cutWrite s
    let held (c : Instr) (t : State) : Prop :=
      let v : State := { t with
        cst := { u.cst with softReset := false }
        lp := { s.lp with tx := .idle }
        seu := { s.seu with tx := ⟨none, none⟩ } }
      exec c s = .next v ∧ outputs v = ⟨false, false, false, false, false, false, [], []⟩
    held .powerOnReset { u with powerHeld := true, span := some .powerOn } ∧
    held .pinReset { u with
      lines := { s.lines with resetnLow := true }
      span := some (if s.span = some .powerOn then .powerOn else .pin) } ∧
    held .clockFailure { u with
      clockGood := false
      span := some (if s.span = some .powerOn then .powerOn else if s.span = some .pin then .pin else .clock) } ∧
    (s.cst.writing = none → u = s) ∧
    (∀ w, s.cst.writing = some w →
      let cut (r : Records) : Prop := u = { s with cst := { s.cst with records := r, writing := none } }
      (∀ m x, w.write = .member m x → ∃ v : Vector (Stored (Option Enrolment)) 32,
        cut { s.cst.records with members := v } ∧
        (∀ k (h : k < 32), k ≠ m → v[k] = s.cst.records.members[k]) ∧
        (∀ h : m < 32, storedSound memberBytes v[m] = false)) ∧
      (∀ i l, w.write = .profile i l → ∃ v : Vector (Stored (List Segment)) 8,
        cut { s.cst.records with profiles := v } ∧
        (∀ k (h : k < 8), k ≠ i → v[k] = s.cst.records.profiles[k]) ∧
        (∀ h : i < 8, storedSound profileBytes v[i] = false)) ∧
      (∀ i x, w.write = .antenna i x → ∃ v : Vector (Stored (Option AntennaData)) 4,
        cut { s.cst.records with antennas := v } ∧
        (∀ k (h : k < 4), k ≠ i → v[k] = s.cst.records.antennas[k]) ∧
        (∀ h : i < 4, storedSound antennaBytes v[i] = false)) ∧
      (∀ l, w.write = .pattern l → ∃ v, cut { s.cst.records with pattern := v } ∧
        storedSound patternBytes v = false) ∧
      (∀ p, w.write = .params p ∨ w.write = .ranking p → ∃ v, cut { s.cst.records with params := v } ∧
        storedSound paramsBytes v = false)) ∧
    (∀ c, (carries c).isSome = true → inReset s = true → exec c s = .next s)

/-- R184, R189, R191: a reset ends when the last of its causes ends; a cause that ends before another leaves the part held
(log entry 15). -/
def Obligations.ResetsEnd : Prop :=
  ∀ (kind : ResetKind) (s : State), s.span = some kind → filterTimesPositive s →
    let ends (c : Instr) (t : State) : Prop :=
      (inReset t = true → exec c s = .next t) ∧
      (inReset t = false → exec c s = .next (pumpNotice (resetDone kind t)))
    ends .powerOnResetEnd { s with powerHeld := false } ∧
    ends .pinResetEnd { s with lines := { s.lines with resetnLow := false } } ∧
    ends .clockRecovery { s with clockGood := true }

/-- R35, R57, R84, R107, R123, R142, R156, R170, R181, R184, R185, R189: every block after a reset of each kind.
(`unitOwed`, `arisen` and `acceptances` are the model's own: log entries 16, 7 and 23.) -/
def Obligations.EveryBlockIsReset : Prop :=
  ∀ (kind : ResetKind) (s : State),
    let r : Records := s.cst.records
    let t : State := resetBlocks kind s
    ∃ p : Params,
      (storedSound paramsBytes r.params = true → p = r.params.contents) ∧
      (storedSound paramsBytes r.params = false → p = Params.default) ∧
      (t.clock = if kind = .powerOn ∨ kind = .pin then 0 else s.clock) ∧
      (t.journal = if kind = .powerOn ∨ kind = .pin then [] else s.journal) ∧
      t.lines = s.lines ∧ t.pending = s.pending ∧ t.span = none ∧
      t.tar.turn = .free ∧ t.tar.queue = [] ∧ t.tar.placements = 0 ∧ t.tar.acceptances = 0 ∧ t.tar.copy = arbiterCopy p ∧
      (∀ m (h : m < 32), memberSlot m t = ⟨loadMember r.members[m], false, 0⟩) ∧
      (∀ i (h : i < 8), t.mrg.profiles[i] = loadProfile r.profiles[i]) ∧
      t.mrg.watch = .inactive ∧ t.mrg.unitOwed = false ∧ t.mrg.copy = registerCopy p ∧
      t.kch.state = .idle ∧ t.kch.claimant = .none ∧ t.kch.stageStart = none ∧ t.kch.stageTimer = none ∧
      t.kch.keyDownCause = none ∧ t.kch.onAirStart = none ∧ t.kch.onAirEnd = none ∧ t.kch.deadMan = none ∧
      t.kch.txLimit = none ∧ t.kch.holdoff = none ∧ t.kch.fault = none ∧ t.kch.last = none ∧
      t.kch.copy = chainCopy p ∧
      t.seu.confirmed = ⟨none, false⟩ ∧ t.seu.retune = .steady ∧ t.seu.lastResult = ⟨.none, none, none, none⟩ ∧
      t.seu.tagCounter = 0 ∧ (∀ i (h : i < 4), t.seu.antennas[i] = loadAntenna r.antennas[i]) ∧ t.seu.selected = 0 ∧
      t.seu.rigSilence = none ∧ t.seu.rx = .hunting ∧ t.seu.tx = ⟨none, none⟩ ∧ t.seu.copy = settingCopy p ∧
      t.ids.record = .clear ∧ t.ids.tone = false ∧ t.ids.pattern = loadPattern r.pattern ∧ t.ids.copy = senderCopy p ∧
      (∀ i, t.ilm.filters.get i = .quiet ∧ t.ilm.latched.get i = false) ∧ t.ilm.blanking = none ∧ t.ilm.arisen = [] ∧
      t.ilm.copy = monitorCopy p ∧
      t.spc.power = .off none ∧ t.spc.downRequested = false ∧ t.spc.since = none ∧ t.spc.selfCheck = none ∧
      t.spc.barefoot = false ∧ t.spc.copy = powerCopy p ∧
      t.lp.rx = .hunting ∧ t.lp.queue = [] ∧ t.lp.tx = .idle ∧ t.lp.lost = false ∧ t.lp.supervision = none ∧
      t.lp.corruptNext = false ∧ t.lp.resetIndication = true ∧ t.lp.supervisionTime = p.linkSupervision ∧
      t.ntu.pending = 0 ∧ t.ntu.waiting = false ∧ t.ntu.deferredStore = false ∧
      (kind = .soft → t.ntu.enabled = s.ntu.enabled ∧ t.ntu.held = s.ntu.held) ∧
      (kind ≠ .soft → t.ntu.enabled = 0 ∧ t.ntu.held = true) ∧
      t.cst.records = r ∧ (t.cst.paramsDamaged = true ↔ storedSound paramsBytes r.params = false) ∧
      t.cst.writing = none ∧ t.cst.phase = .setup ∧ t.cst.resetCause = kind ∧ t.cst.softReset = false ∧
      t.powerHeld = s.powerHeld ∧ t.clockGood = s.clockGood ∧ t.choices = s.choices
end

