-- ==== Sys2Proof/Laws/State.lean ====
section
/-! SUPPORT. One lemma for each field and each update of the state: what every named update writes and what it leaves. -/

namespace Sys2Proof.Machine

/-! ## `setLines` -/

@[simp] theorem setLines_clock (s : State) (x : Lines) : (s.setLines x).clock = s.clock := rfl
@[simp] theorem setLines_choices (s : State) (x : Lines) : (s.setLines x).choices = s.choices := rfl
@[simp] theorem setLines_pending (s : State) (x : Lines) : (s.setLines x).pending = s.pending := rfl
@[simp] theorem setLines_lines (s : State) (x : Lines) : (s.setLines x).lines = x := rfl
@[simp] theorem setLines_tar (s : State) (x : Lines) : (s.setLines x).tar = s.tar := rfl
@[simp] theorem setLines_mrg (s : State) (x : Lines) : (s.setLines x).mrg = s.mrg := rfl
@[simp] theorem setLines_kch (s : State) (x : Lines) : (s.setLines x).kch = s.kch := rfl
@[simp] theorem setLines_seu (s : State) (x : Lines) : (s.setLines x).seu = s.seu := rfl
@[simp] theorem setLines_ids (s : State) (x : Lines) : (s.setLines x).ids = s.ids := rfl
@[simp] theorem setLines_ilm (s : State) (x : Lines) : (s.setLines x).ilm = s.ilm := rfl
@[simp] theorem setLines_spc (s : State) (x : Lines) : (s.setLines x).spc = s.spc := rfl
@[simp] theorem setLines_lp (s : State) (x : Lines) : (s.setLines x).lp = s.lp := rfl
@[simp] theorem setLines_ntu (s : State) (x : Lines) : (s.setLines x).ntu = s.ntu := rfl
@[simp] theorem setLines_journal (s : State) (x : Lines) : (s.setLines x).journal = s.journal := rfl
@[simp] theorem setLines_cst (s : State) (x : Lines) : (s.setLines x).cst = s.cst := rfl
@[simp] theorem setLines_powerHeld (s : State) (x : Lines) : (s.setLines x).powerHeld = s.powerHeld := rfl
@[simp] theorem setLines_clockGood (s : State) (x : Lines) : (s.setLines x).clockGood = s.clockGood := rfl
@[simp] theorem setLines_span (s : State) (x : Lines) : (s.setLines x).span = s.span := rfl

/-! ## `setTar` -/

@[simp] theorem setTar_clock (s : State) (x : Arbiter) : (s.setTar x).clock = s.clock := rfl
@[simp] theorem setTar_choices (s : State) (x : Arbiter) : (s.setTar x).choices = s.choices := rfl
@[simp] theorem setTar_pending (s : State) (x : Arbiter) : (s.setTar x).pending = s.pending := rfl
@[simp] theorem setTar_lines (s : State) (x : Arbiter) : (s.setTar x).lines = s.lines := rfl
@[simp] theorem setTar_tar (s : State) (x : Arbiter) : (s.setTar x).tar = x := rfl
@[simp] theorem setTar_mrg (s : State) (x : Arbiter) : (s.setTar x).mrg = s.mrg := rfl
@[simp] theorem setTar_kch (s : State) (x : Arbiter) : (s.setTar x).kch = s.kch := rfl
@[simp] theorem setTar_seu (s : State) (x : Arbiter) : (s.setTar x).seu = s.seu := rfl
@[simp] theorem setTar_ids (s : State) (x : Arbiter) : (s.setTar x).ids = s.ids := rfl
@[simp] theorem setTar_ilm (s : State) (x : Arbiter) : (s.setTar x).ilm = s.ilm := rfl
@[simp] theorem setTar_spc (s : State) (x : Arbiter) : (s.setTar x).spc = s.spc := rfl
@[simp] theorem setTar_lp (s : State) (x : Arbiter) : (s.setTar x).lp = s.lp := rfl
@[simp] theorem setTar_ntu (s : State) (x : Arbiter) : (s.setTar x).ntu = s.ntu := rfl
@[simp] theorem setTar_journal (s : State) (x : Arbiter) : (s.setTar x).journal = s.journal := rfl
@[simp] theorem setTar_cst (s : State) (x : Arbiter) : (s.setTar x).cst = s.cst := rfl
@[simp] theorem setTar_powerHeld (s : State) (x : Arbiter) : (s.setTar x).powerHeld = s.powerHeld := rfl
@[simp] theorem setTar_clockGood (s : State) (x : Arbiter) : (s.setTar x).clockGood = s.clockGood := rfl
@[simp] theorem setTar_span (s : State) (x : Arbiter) : (s.setTar x).span = s.span := rfl

/-! ## `setMrg` -/

@[simp] theorem setMrg_clock (s : State) (x : Register) : (s.setMrg x).clock = s.clock := rfl
@[simp] theorem setMrg_choices (s : State) (x : Register) : (s.setMrg x).choices = s.choices := rfl
@[simp] theorem setMrg_pending (s : State) (x : Register) : (s.setMrg x).pending = s.pending := rfl
@[simp] theorem setMrg_lines (s : State) (x : Register) : (s.setMrg x).lines = s.lines := rfl
@[simp] theorem setMrg_tar (s : State) (x : Register) : (s.setMrg x).tar = s.tar := rfl
@[simp] theorem setMrg_mrg (s : State) (x : Register) : (s.setMrg x).mrg = x := rfl
@[simp] theorem setMrg_kch (s : State) (x : Register) : (s.setMrg x).kch = s.kch := rfl
@[simp] theorem setMrg_seu (s : State) (x : Register) : (s.setMrg x).seu = s.seu := rfl
@[simp] theorem setMrg_ids (s : State) (x : Register) : (s.setMrg x).ids = s.ids := rfl
@[simp] theorem setMrg_ilm (s : State) (x : Register) : (s.setMrg x).ilm = s.ilm := rfl
@[simp] theorem setMrg_spc (s : State) (x : Register) : (s.setMrg x).spc = s.spc := rfl
@[simp] theorem setMrg_lp (s : State) (x : Register) : (s.setMrg x).lp = s.lp := rfl
@[simp] theorem setMrg_ntu (s : State) (x : Register) : (s.setMrg x).ntu = s.ntu := rfl
@[simp] theorem setMrg_journal (s : State) (x : Register) : (s.setMrg x).journal = s.journal := rfl
@[simp] theorem setMrg_cst (s : State) (x : Register) : (s.setMrg x).cst = s.cst := rfl
@[simp] theorem setMrg_powerHeld (s : State) (x : Register) : (s.setMrg x).powerHeld = s.powerHeld := rfl
@[simp] theorem setMrg_clockGood (s : State) (x : Register) : (s.setMrg x).clockGood = s.clockGood := rfl
@[simp] theorem setMrg_span (s : State) (x : Register) : (s.setMrg x).span = s.span := rfl

/-! ## `setKch` -/

@[simp] theorem setKch_clock (s : State) (x : Chain) : (s.setKch x).clock = s.clock := rfl
@[simp] theorem setKch_choices (s : State) (x : Chain) : (s.setKch x).choices = s.choices := rfl
@[simp] theorem setKch_pending (s : State) (x : Chain) : (s.setKch x).pending = s.pending := rfl
@[simp] theorem setKch_lines (s : State) (x : Chain) : (s.setKch x).lines = s.lines := rfl
@[simp] theorem setKch_tar (s : State) (x : Chain) : (s.setKch x).tar = s.tar := rfl
@[simp] theorem setKch_mrg (s : State) (x : Chain) : (s.setKch x).mrg = s.mrg := rfl
@[simp] theorem setKch_kch (s : State) (x : Chain) : (s.setKch x).kch = x := rfl
@[simp] theorem setKch_seu (s : State) (x : Chain) : (s.setKch x).seu = s.seu := rfl
@[simp] theorem setKch_ids (s : State) (x : Chain) : (s.setKch x).ids = s.ids := rfl
@[simp] theorem setKch_ilm (s : State) (x : Chain) : (s.setKch x).ilm = s.ilm := rfl
@[simp] theorem setKch_spc (s : State) (x : Chain) : (s.setKch x).spc = s.spc := rfl
@[simp] theorem setKch_lp (s : State) (x : Chain) : (s.setKch x).lp = s.lp := rfl
@[simp] theorem setKch_ntu (s : State) (x : Chain) : (s.setKch x).ntu = s.ntu := rfl
@[simp] theorem setKch_journal (s : State) (x : Chain) : (s.setKch x).journal = s.journal := rfl
@[simp] theorem setKch_cst (s : State) (x : Chain) : (s.setKch x).cst = s.cst := rfl
@[simp] theorem setKch_powerHeld (s : State) (x : Chain) : (s.setKch x).powerHeld = s.powerHeld := rfl
@[simp] theorem setKch_clockGood (s : State) (x : Chain) : (s.setKch x).clockGood = s.clockGood := rfl
@[simp] theorem setKch_span (s : State) (x : Chain) : (s.setKch x).span = s.span := rfl

/-! ## `setSeu` -/

@[simp] theorem setSeu_clock (s : State) (x : SettingUnit) : (s.setSeu x).clock = s.clock := rfl
@[simp] theorem setSeu_choices (s : State) (x : SettingUnit) : (s.setSeu x).choices = s.choices := rfl
@[simp] theorem setSeu_pending (s : State) (x : SettingUnit) : (s.setSeu x).pending = s.pending := rfl
@[simp] theorem setSeu_lines (s : State) (x : SettingUnit) : (s.setSeu x).lines = s.lines := rfl
@[simp] theorem setSeu_tar (s : State) (x : SettingUnit) : (s.setSeu x).tar = s.tar := rfl
@[simp] theorem setSeu_mrg (s : State) (x : SettingUnit) : (s.setSeu x).mrg = s.mrg := rfl
@[simp] theorem setSeu_kch (s : State) (x : SettingUnit) : (s.setSeu x).kch = s.kch := rfl
@[simp] theorem setSeu_seu (s : State) (x : SettingUnit) : (s.setSeu x).seu = x := rfl
@[simp] theorem setSeu_ids (s : State) (x : SettingUnit) : (s.setSeu x).ids = s.ids := rfl
@[simp] theorem setSeu_ilm (s : State) (x : SettingUnit) : (s.setSeu x).ilm = s.ilm := rfl
@[simp] theorem setSeu_spc (s : State) (x : SettingUnit) : (s.setSeu x).spc = s.spc := rfl
@[simp] theorem setSeu_lp (s : State) (x : SettingUnit) : (s.setSeu x).lp = s.lp := rfl
@[simp] theorem setSeu_ntu (s : State) (x : SettingUnit) : (s.setSeu x).ntu = s.ntu := rfl
@[simp] theorem setSeu_journal (s : State) (x : SettingUnit) : (s.setSeu x).journal = s.journal := rfl
@[simp] theorem setSeu_cst (s : State) (x : SettingUnit) : (s.setSeu x).cst = s.cst := rfl
@[simp] theorem setSeu_powerHeld (s : State) (x : SettingUnit) : (s.setSeu x).powerHeld = s.powerHeld := rfl
@[simp] theorem setSeu_clockGood (s : State) (x : SettingUnit) : (s.setSeu x).clockGood = s.clockGood := rfl
@[simp] theorem setSeu_span (s : State) (x : SettingUnit) : (s.setSeu x).span = s.span := rfl

/-! ## `setIds` -/

@[simp] theorem setIds_clock (s : State) (x : Sender) : (s.setIds x).clock = s.clock := rfl
@[simp] theorem setIds_choices (s : State) (x : Sender) : (s.setIds x).choices = s.choices := rfl
@[simp] theorem setIds_pending (s : State) (x : Sender) : (s.setIds x).pending = s.pending := rfl
@[simp] theorem setIds_lines (s : State) (x : Sender) : (s.setIds x).lines = s.lines := rfl
@[simp] theorem setIds_tar (s : State) (x : Sender) : (s.setIds x).tar = s.tar := rfl
@[simp] theorem setIds_mrg (s : State) (x : Sender) : (s.setIds x).mrg = s.mrg := rfl
@[simp] theorem setIds_kch (s : State) (x : Sender) : (s.setIds x).kch = s.kch := rfl
@[simp] theorem setIds_seu (s : State) (x : Sender) : (s.setIds x).seu = s.seu := rfl
@[simp] theorem setIds_ids (s : State) (x : Sender) : (s.setIds x).ids = x := rfl
@[simp] theorem setIds_ilm (s : State) (x : Sender) : (s.setIds x).ilm = s.ilm := rfl
@[simp] theorem setIds_spc (s : State) (x : Sender) : (s.setIds x).spc = s.spc := rfl
@[simp] theorem setIds_lp (s : State) (x : Sender) : (s.setIds x).lp = s.lp := rfl
@[simp] theorem setIds_ntu (s : State) (x : Sender) : (s.setIds x).ntu = s.ntu := rfl
@[simp] theorem setIds_journal (s : State) (x : Sender) : (s.setIds x).journal = s.journal := rfl
@[simp] theorem setIds_cst (s : State) (x : Sender) : (s.setIds x).cst = s.cst := rfl
@[simp] theorem setIds_powerHeld (s : State) (x : Sender) : (s.setIds x).powerHeld = s.powerHeld := rfl
@[simp] theorem setIds_clockGood (s : State) (x : Sender) : (s.setIds x).clockGood = s.clockGood := rfl
@[simp] theorem setIds_span (s : State) (x : Sender) : (s.setIds x).span = s.span := rfl

/-! ## `setIlm` -/

@[simp] theorem setIlm_clock (s : State) (x : Monitor) : (s.setIlm x).clock = s.clock := rfl
@[simp] theorem setIlm_choices (s : State) (x : Monitor) : (s.setIlm x).choices = s.choices := rfl
@[simp] theorem setIlm_pending (s : State) (x : Monitor) : (s.setIlm x).pending = s.pending := rfl
@[simp] theorem setIlm_lines (s : State) (x : Monitor) : (s.setIlm x).lines = s.lines := rfl
@[simp] theorem setIlm_tar (s : State) (x : Monitor) : (s.setIlm x).tar = s.tar := rfl
@[simp] theorem setIlm_mrg (s : State) (x : Monitor) : (s.setIlm x).mrg = s.mrg := rfl
@[simp] theorem setIlm_kch (s : State) (x : Monitor) : (s.setIlm x).kch = s.kch := rfl
@[simp] theorem setIlm_seu (s : State) (x : Monitor) : (s.setIlm x).seu = s.seu := rfl
@[simp] theorem setIlm_ids (s : State) (x : Monitor) : (s.setIlm x).ids = s.ids := rfl
@[simp] theorem setIlm_ilm (s : State) (x : Monitor) : (s.setIlm x).ilm = x := rfl
@[simp] theorem setIlm_spc (s : State) (x : Monitor) : (s.setIlm x).spc = s.spc := rfl
@[simp] theorem setIlm_lp (s : State) (x : Monitor) : (s.setIlm x).lp = s.lp := rfl
@[simp] theorem setIlm_ntu (s : State) (x : Monitor) : (s.setIlm x).ntu = s.ntu := rfl
@[simp] theorem setIlm_journal (s : State) (x : Monitor) : (s.setIlm x).journal = s.journal := rfl
@[simp] theorem setIlm_cst (s : State) (x : Monitor) : (s.setIlm x).cst = s.cst := rfl
@[simp] theorem setIlm_powerHeld (s : State) (x : Monitor) : (s.setIlm x).powerHeld = s.powerHeld := rfl
@[simp] theorem setIlm_clockGood (s : State) (x : Monitor) : (s.setIlm x).clockGood = s.clockGood := rfl
@[simp] theorem setIlm_span (s : State) (x : Monitor) : (s.setIlm x).span = s.span := rfl

/-! ## `setSpc` -/

@[simp] theorem setSpc_clock (s : State) (x : PowerControl) : (s.setSpc x).clock = s.clock := rfl
@[simp] theorem setSpc_choices (s : State) (x : PowerControl) : (s.setSpc x).choices = s.choices := rfl
@[simp] theorem setSpc_pending (s : State) (x : PowerControl) : (s.setSpc x).pending = s.pending := rfl
@[simp] theorem setSpc_lines (s : State) (x : PowerControl) : (s.setSpc x).lines = s.lines := rfl
@[simp] theorem setSpc_tar (s : State) (x : PowerControl) : (s.setSpc x).tar = s.tar := rfl
@[simp] theorem setSpc_mrg (s : State) (x : PowerControl) : (s.setSpc x).mrg = s.mrg := rfl
@[simp] theorem setSpc_kch (s : State) (x : PowerControl) : (s.setSpc x).kch = s.kch := rfl
@[simp] theorem setSpc_seu (s : State) (x : PowerControl) : (s.setSpc x).seu = s.seu := rfl
@[simp] theorem setSpc_ids (s : State) (x : PowerControl) : (s.setSpc x).ids = s.ids := rfl
@[simp] theorem setSpc_ilm (s : State) (x : PowerControl) : (s.setSpc x).ilm = s.ilm := rfl
@[simp] theorem setSpc_spc (s : State) (x : PowerControl) : (s.setSpc x).spc = x := rfl
@[simp] theorem setSpc_lp (s : State) (x : PowerControl) : (s.setSpc x).lp = s.lp := rfl
@[simp] theorem setSpc_ntu (s : State) (x : PowerControl) : (s.setSpc x).ntu = s.ntu := rfl
@[simp] theorem setSpc_journal (s : State) (x : PowerControl) : (s.setSpc x).journal = s.journal := rfl
@[simp] theorem setSpc_cst (s : State) (x : PowerControl) : (s.setSpc x).cst = s.cst := rfl
@[simp] theorem setSpc_powerHeld (s : State) (x : PowerControl) : (s.setSpc x).powerHeld = s.powerHeld := rfl
@[simp] theorem setSpc_clockGood (s : State) (x : PowerControl) : (s.setSpc x).clockGood = s.clockGood := rfl
@[simp] theorem setSpc_span (s : State) (x : PowerControl) : (s.setSpc x).span = s.span := rfl

/-! ## `setLp` -/

@[simp] theorem setLp_clock (s : State) (x : Link) : (s.setLp x).clock = s.clock := rfl
@[simp] theorem setLp_choices (s : State) (x : Link) : (s.setLp x).choices = s.choices := rfl
@[simp] theorem setLp_pending (s : State) (x : Link) : (s.setLp x).pending = s.pending := rfl
@[simp] theorem setLp_lines (s : State) (x : Link) : (s.setLp x).lines = s.lines := rfl
@[simp] theorem setLp_tar (s : State) (x : Link) : (s.setLp x).tar = s.tar := rfl
@[simp] theorem setLp_mrg (s : State) (x : Link) : (s.setLp x).mrg = s.mrg := rfl
@[simp] theorem setLp_kch (s : State) (x : Link) : (s.setLp x).kch = s.kch := rfl
@[simp] theorem setLp_seu (s : State) (x : Link) : (s.setLp x).seu = s.seu := rfl
@[simp] theorem setLp_ids (s : State) (x : Link) : (s.setLp x).ids = s.ids := rfl
@[simp] theorem setLp_ilm (s : State) (x : Link) : (s.setLp x).ilm = s.ilm := rfl
@[simp] theorem setLp_spc (s : State) (x : Link) : (s.setLp x).spc = s.spc := rfl
@[simp] theorem setLp_lp (s : State) (x : Link) : (s.setLp x).lp = x := rfl
@[simp] theorem setLp_ntu (s : State) (x : Link) : (s.setLp x).ntu = s.ntu := rfl
@[simp] theorem setLp_journal (s : State) (x : Link) : (s.setLp x).journal = s.journal := rfl
@[simp] theorem setLp_cst (s : State) (x : Link) : (s.setLp x).cst = s.cst := rfl
@[simp] theorem setLp_powerHeld (s : State) (x : Link) : (s.setLp x).powerHeld = s.powerHeld := rfl
@[simp] theorem setLp_clockGood (s : State) (x : Link) : (s.setLp x).clockGood = s.clockGood := rfl
@[simp] theorem setLp_span (s : State) (x : Link) : (s.setLp x).span = s.span := rfl

/-! ## `setNtu` -/

@[simp] theorem setNtu_clock (s : State) (x : NoticeUnit) : (s.setNtu x).clock = s.clock := rfl
@[simp] theorem setNtu_choices (s : State) (x : NoticeUnit) : (s.setNtu x).choices = s.choices := rfl
@[simp] theorem setNtu_pending (s : State) (x : NoticeUnit) : (s.setNtu x).pending = s.pending := rfl
@[simp] theorem setNtu_lines (s : State) (x : NoticeUnit) : (s.setNtu x).lines = s.lines := rfl
@[simp] theorem setNtu_tar (s : State) (x : NoticeUnit) : (s.setNtu x).tar = s.tar := rfl
@[simp] theorem setNtu_mrg (s : State) (x : NoticeUnit) : (s.setNtu x).mrg = s.mrg := rfl
@[simp] theorem setNtu_kch (s : State) (x : NoticeUnit) : (s.setNtu x).kch = s.kch := rfl
@[simp] theorem setNtu_seu (s : State) (x : NoticeUnit) : (s.setNtu x).seu = s.seu := rfl
@[simp] theorem setNtu_ids (s : State) (x : NoticeUnit) : (s.setNtu x).ids = s.ids := rfl
@[simp] theorem setNtu_ilm (s : State) (x : NoticeUnit) : (s.setNtu x).ilm = s.ilm := rfl
@[simp] theorem setNtu_spc (s : State) (x : NoticeUnit) : (s.setNtu x).spc = s.spc := rfl
@[simp] theorem setNtu_lp (s : State) (x : NoticeUnit) : (s.setNtu x).lp = s.lp := rfl
@[simp] theorem setNtu_ntu (s : State) (x : NoticeUnit) : (s.setNtu x).ntu = x := rfl
@[simp] theorem setNtu_journal (s : State) (x : NoticeUnit) : (s.setNtu x).journal = s.journal := rfl
@[simp] theorem setNtu_cst (s : State) (x : NoticeUnit) : (s.setNtu x).cst = s.cst := rfl
@[simp] theorem setNtu_powerHeld (s : State) (x : NoticeUnit) : (s.setNtu x).powerHeld = s.powerHeld := rfl
@[simp] theorem setNtu_clockGood (s : State) (x : NoticeUnit) : (s.setNtu x).clockGood = s.clockGood := rfl
@[simp] theorem setNtu_span (s : State) (x : NoticeUnit) : (s.setNtu x).span = s.span := rfl

/-! ## `setJournal` -/

@[simp] theorem setJournal_clock (s : State) (x : List JournalRecord) : (s.setJournal x).clock = s.clock := rfl
@[simp] theorem setJournal_choices (s : State) (x : List JournalRecord) : (s.setJournal x).choices = s.choices := rfl
@[simp] theorem setJournal_pending (s : State) (x : List JournalRecord) : (s.setJournal x).pending = s.pending := rfl
@[simp] theorem setJournal_lines (s : State) (x : List JournalRecord) : (s.setJournal x).lines = s.lines := rfl
@[simp] theorem setJournal_tar (s : State) (x : List JournalRecord) : (s.setJournal x).tar = s.tar := rfl
@[simp] theorem setJournal_mrg (s : State) (x : List JournalRecord) : (s.setJournal x).mrg = s.mrg := rfl
@[simp] theorem setJournal_kch (s : State) (x : List JournalRecord) : (s.setJournal x).kch = s.kch := rfl
@[simp] theorem setJournal_seu (s : State) (x : List JournalRecord) : (s.setJournal x).seu = s.seu := rfl
@[simp] theorem setJournal_ids (s : State) (x : List JournalRecord) : (s.setJournal x).ids = s.ids := rfl
@[simp] theorem setJournal_ilm (s : State) (x : List JournalRecord) : (s.setJournal x).ilm = s.ilm := rfl
@[simp] theorem setJournal_spc (s : State) (x : List JournalRecord) : (s.setJournal x).spc = s.spc := rfl
@[simp] theorem setJournal_lp (s : State) (x : List JournalRecord) : (s.setJournal x).lp = s.lp := rfl
@[simp] theorem setJournal_ntu (s : State) (x : List JournalRecord) : (s.setJournal x).ntu = s.ntu := rfl
@[simp] theorem setJournal_journal (s : State) (x : List JournalRecord) : (s.setJournal x).journal = x := rfl
@[simp] theorem setJournal_cst (s : State) (x : List JournalRecord) : (s.setJournal x).cst = s.cst := rfl
@[simp] theorem setJournal_powerHeld (s : State) (x : List JournalRecord) : (s.setJournal x).powerHeld = s.powerHeld := rfl
@[simp] theorem setJournal_clockGood (s : State) (x : List JournalRecord) : (s.setJournal x).clockGood = s.clockGood := rfl
@[simp] theorem setJournal_span (s : State) (x : List JournalRecord) : (s.setJournal x).span = s.span := rfl

/-! ## `setCst` -/

@[simp] theorem setCst_clock (s : State) (x : Store) : (s.setCst x).clock = s.clock := rfl
@[simp] theorem setCst_choices (s : State) (x : Store) : (s.setCst x).choices = s.choices := rfl
@[simp] theorem setCst_pending (s : State) (x : Store) : (s.setCst x).pending = s.pending := rfl
@[simp] theorem setCst_lines (s : State) (x : Store) : (s.setCst x).lines = s.lines := rfl
@[simp] theorem setCst_tar (s : State) (x : Store) : (s.setCst x).tar = s.tar := rfl
@[simp] theorem setCst_mrg (s : State) (x : Store) : (s.setCst x).mrg = s.mrg := rfl
@[simp] theorem setCst_kch (s : State) (x : Store) : (s.setCst x).kch = s.kch := rfl
@[simp] theorem setCst_seu (s : State) (x : Store) : (s.setCst x).seu = s.seu := rfl
@[simp] theorem setCst_ids (s : State) (x : Store) : (s.setCst x).ids = s.ids := rfl
@[simp] theorem setCst_ilm (s : State) (x : Store) : (s.setCst x).ilm = s.ilm := rfl
@[simp] theorem setCst_spc (s : State) (x : Store) : (s.setCst x).spc = s.spc := rfl
@[simp] theorem setCst_lp (s : State) (x : Store) : (s.setCst x).lp = s.lp := rfl
@[simp] theorem setCst_ntu (s : State) (x : Store) : (s.setCst x).ntu = s.ntu := rfl
@[simp] theorem setCst_journal (s : State) (x : Store) : (s.setCst x).journal = s.journal := rfl
@[simp] theorem setCst_cst (s : State) (x : Store) : (s.setCst x).cst = x := rfl
@[simp] theorem setCst_powerHeld (s : State) (x : Store) : (s.setCst x).powerHeld = s.powerHeld := rfl
@[simp] theorem setCst_clockGood (s : State) (x : Store) : (s.setCst x).clockGood = s.clockGood := rfl
@[simp] theorem setCst_span (s : State) (x : Store) : (s.setCst x).span = s.span := rfl

/-! ## `setClock` -/

@[simp] theorem setClock_clock (s : State) (x : Nat) : (s.setClock x).clock = x := rfl
@[simp] theorem setClock_choices (s : State) (x : Nat) : (s.setClock x).choices = s.choices := rfl
@[simp] theorem setClock_pending (s : State) (x : Nat) : (s.setClock x).pending = s.pending := rfl
@[simp] theorem setClock_lines (s : State) (x : Nat) : (s.setClock x).lines = s.lines := rfl
@[simp] theorem setClock_tar (s : State) (x : Nat) : (s.setClock x).tar = s.tar := rfl
@[simp] theorem setClock_mrg (s : State) (x : Nat) : (s.setClock x).mrg = s.mrg := rfl
@[simp] theorem setClock_kch (s : State) (x : Nat) : (s.setClock x).kch = s.kch := rfl
@[simp] theorem setClock_seu (s : State) (x : Nat) : (s.setClock x).seu = s.seu := rfl
@[simp] theorem setClock_ids (s : State) (x : Nat) : (s.setClock x).ids = s.ids := rfl
@[simp] theorem setClock_ilm (s : State) (x : Nat) : (s.setClock x).ilm = s.ilm := rfl
@[simp] theorem setClock_spc (s : State) (x : Nat) : (s.setClock x).spc = s.spc := rfl
@[simp] theorem setClock_lp (s : State) (x : Nat) : (s.setClock x).lp = s.lp := rfl
@[simp] theorem setClock_ntu (s : State) (x : Nat) : (s.setClock x).ntu = s.ntu := rfl
@[simp] theorem setClock_journal (s : State) (x : Nat) : (s.setClock x).journal = s.journal := rfl
@[simp] theorem setClock_cst (s : State) (x : Nat) : (s.setClock x).cst = s.cst := rfl
@[simp] theorem setClock_powerHeld (s : State) (x : Nat) : (s.setClock x).powerHeld = s.powerHeld := rfl
@[simp] theorem setClock_clockGood (s : State) (x : Nat) : (s.setClock x).clockGood = s.clockGood := rfl
@[simp] theorem setClock_span (s : State) (x : Nat) : (s.setClock x).span = s.span := rfl

/-! ## `setPending` -/

@[simp] theorem setPending_clock (s : State) (x : List Instr) : (s.setPending x).clock = s.clock := rfl
@[simp] theorem setPending_choices (s : State) (x : List Instr) : (s.setPending x).choices = s.choices := rfl
@[simp] theorem setPending_pending (s : State) (x : List Instr) : (s.setPending x).pending = x := rfl
@[simp] theorem setPending_lines (s : State) (x : List Instr) : (s.setPending x).lines = s.lines := rfl
@[simp] theorem setPending_tar (s : State) (x : List Instr) : (s.setPending x).tar = s.tar := rfl
@[simp] theorem setPending_mrg (s : State) (x : List Instr) : (s.setPending x).mrg = s.mrg := rfl
@[simp] theorem setPending_kch (s : State) (x : List Instr) : (s.setPending x).kch = s.kch := rfl
@[simp] theorem setPending_seu (s : State) (x : List Instr) : (s.setPending x).seu = s.seu := rfl
@[simp] theorem setPending_ids (s : State) (x : List Instr) : (s.setPending x).ids = s.ids := rfl
@[simp] theorem setPending_ilm (s : State) (x : List Instr) : (s.setPending x).ilm = s.ilm := rfl
@[simp] theorem setPending_spc (s : State) (x : List Instr) : (s.setPending x).spc = s.spc := rfl
@[simp] theorem setPending_lp (s : State) (x : List Instr) : (s.setPending x).lp = s.lp := rfl
@[simp] theorem setPending_ntu (s : State) (x : List Instr) : (s.setPending x).ntu = s.ntu := rfl
@[simp] theorem setPending_journal (s : State) (x : List Instr) : (s.setPending x).journal = s.journal := rfl
@[simp] theorem setPending_cst (s : State) (x : List Instr) : (s.setPending x).cst = s.cst := rfl
@[simp] theorem setPending_powerHeld (s : State) (x : List Instr) : (s.setPending x).powerHeld = s.powerHeld := rfl
@[simp] theorem setPending_clockGood (s : State) (x : List Instr) : (s.setPending x).clockGood = s.clockGood := rfl
@[simp] theorem setPending_span (s : State) (x : List Instr) : (s.setPending x).span = s.span := rfl

/-! ## `setChoices` -/

@[simp] theorem setChoices_clock (s : State) (x : Nat) : (s.setChoices x).clock = s.clock := rfl
@[simp] theorem setChoices_choices (s : State) (x : Nat) : (s.setChoices x).choices = x := rfl
@[simp] theorem setChoices_pending (s : State) (x : Nat) : (s.setChoices x).pending = s.pending := rfl
@[simp] theorem setChoices_lines (s : State) (x : Nat) : (s.setChoices x).lines = s.lines := rfl
@[simp] theorem setChoices_tar (s : State) (x : Nat) : (s.setChoices x).tar = s.tar := rfl
@[simp] theorem setChoices_mrg (s : State) (x : Nat) : (s.setChoices x).mrg = s.mrg := rfl
@[simp] theorem setChoices_kch (s : State) (x : Nat) : (s.setChoices x).kch = s.kch := rfl
@[simp] theorem setChoices_seu (s : State) (x : Nat) : (s.setChoices x).seu = s.seu := rfl
@[simp] theorem setChoices_ids (s : State) (x : Nat) : (s.setChoices x).ids = s.ids := rfl
@[simp] theorem setChoices_ilm (s : State) (x : Nat) : (s.setChoices x).ilm = s.ilm := rfl
@[simp] theorem setChoices_spc (s : State) (x : Nat) : (s.setChoices x).spc = s.spc := rfl
@[simp] theorem setChoices_lp (s : State) (x : Nat) : (s.setChoices x).lp = s.lp := rfl
@[simp] theorem setChoices_ntu (s : State) (x : Nat) : (s.setChoices x).ntu = s.ntu := rfl
@[simp] theorem setChoices_journal (s : State) (x : Nat) : (s.setChoices x).journal = s.journal := rfl
@[simp] theorem setChoices_cst (s : State) (x : Nat) : (s.setChoices x).cst = s.cst := rfl
@[simp] theorem setChoices_powerHeld (s : State) (x : Nat) : (s.setChoices x).powerHeld = s.powerHeld := rfl
@[simp] theorem setChoices_clockGood (s : State) (x : Nat) : (s.setChoices x).clockGood = s.clockGood := rfl
@[simp] theorem setChoices_span (s : State) (x : Nat) : (s.setChoices x).span = s.span := rfl

/-! ## `setHold` -/

@[simp] theorem setHold_clock (s : State) (p c : Bool) (k : Option ResetKind) : (s.setHold p c k).clock = s.clock := rfl
@[simp] theorem setHold_choices (s : State) (p c : Bool) (k : Option ResetKind) : (s.setHold p c k).choices = s.choices := rfl
@[simp] theorem setHold_pending (s : State) (p c : Bool) (k : Option ResetKind) : (s.setHold p c k).pending = s.pending := rfl
@[simp] theorem setHold_lines (s : State) (p c : Bool) (k : Option ResetKind) : (s.setHold p c k).lines = s.lines := rfl
@[simp] theorem setHold_tar (s : State) (p c : Bool) (k : Option ResetKind) : (s.setHold p c k).tar = s.tar := rfl
@[simp] theorem setHold_mrg (s : State) (p c : Bool) (k : Option ResetKind) : (s.setHold p c k).mrg = s.mrg := rfl
@[simp] theorem setHold_kch (s : State) (p c : Bool) (k : Option ResetKind) : (s.setHold p c k).kch = s.kch := rfl
@[simp] theorem setHold_seu (s : State) (p c : Bool) (k : Option ResetKind) : (s.setHold p c k).seu = s.seu := rfl
@[simp] theorem setHold_ids (s : State) (p c : Bool) (k : Option ResetKind) : (s.setHold p c k).ids = s.ids := rfl
@[simp] theorem setHold_ilm (s : State) (p c : Bool) (k : Option ResetKind) : (s.setHold p c k).ilm = s.ilm := rfl
@[simp] theorem setHold_spc (s : State) (p c : Bool) (k : Option ResetKind) : (s.setHold p c k).spc = s.spc := rfl
@[simp] theorem setHold_lp (s : State) (p c : Bool) (k : Option ResetKind) : (s.setHold p c k).lp = s.lp := rfl
@[simp] theorem setHold_ntu (s : State) (p c : Bool) (k : Option ResetKind) : (s.setHold p c k).ntu = s.ntu := rfl
@[simp] theorem setHold_journal (s : State) (p c : Bool) (k : Option ResetKind) : (s.setHold p c k).journal = s.journal := rfl
@[simp] theorem setHold_cst (s : State) (p c : Bool) (k : Option ResetKind) : (s.setHold p c k).cst = s.cst := rfl
@[simp] theorem setHold_powerHeld (s : State) (p c : Bool) (k : Option ResetKind) : (s.setHold p c k).powerHeld = p := rfl
@[simp] theorem setHold_clockGood (s : State) (p c : Bool) (k : Option ResetKind) : (s.setHold p c k).clockGood = c := rfl
@[simp] theorem setHold_span (s : State) (p c : Bool) (k : Option ResetKind) : (s.setHold p c k).span = k := rfl

/-! ## `setTurn` -/

@[simp] theorem setTurn_clock (s : State) (x : Turn) : (s.setTurn x).clock = s.clock := rfl
@[simp] theorem setTurn_choices (s : State) (x : Turn) : (s.setTurn x).choices = s.choices := rfl
@[simp] theorem setTurn_pending (s : State) (x : Turn) : (s.setTurn x).pending = s.pending := rfl
@[simp] theorem setTurn_lines (s : State) (x : Turn) : (s.setTurn x).lines = s.lines := rfl
@[simp] theorem setTurn_tar (s : State) (x : Turn) :
    (s.setTurn x).tar = { s.tar with turn := x } := rfl
@[simp] theorem setTurn_mrg (s : State) (x : Turn) : (s.setTurn x).mrg = s.mrg := rfl
@[simp] theorem setTurn_kch (s : State) (x : Turn) : (s.setTurn x).kch = s.kch := rfl
@[simp] theorem setTurn_seu (s : State) (x : Turn) : (s.setTurn x).seu = s.seu := rfl
@[simp] theorem setTurn_ids (s : State) (x : Turn) : (s.setTurn x).ids = s.ids := rfl
@[simp] theorem setTurn_ilm (s : State) (x : Turn) : (s.setTurn x).ilm = s.ilm := rfl
@[simp] theorem setTurn_spc (s : State) (x : Turn) : (s.setTurn x).spc = s.spc := rfl
@[simp] theorem setTurn_lp (s : State) (x : Turn) : (s.setTurn x).lp = s.lp := rfl
@[simp] theorem setTurn_ntu (s : State) (x : Turn) : (s.setTurn x).ntu = s.ntu := rfl
@[simp] theorem setTurn_journal (s : State) (x : Turn) : (s.setTurn x).journal = s.journal := rfl
@[simp] theorem setTurn_cst (s : State) (x : Turn) : (s.setTurn x).cst = s.cst := rfl
@[simp] theorem setTurn_powerHeld (s : State) (x : Turn) : (s.setTurn x).powerHeld = s.powerHeld := rfl
@[simp] theorem setTurn_clockGood (s : State) (x : Turn) : (s.setTurn x).clockGood = s.clockGood := rfl
@[simp] theorem setTurn_span (s : State) (x : Turn) : (s.setTurn x).span = s.span := rfl

/-! ## `setQueue` -/

@[simp] theorem setQueue_clock (s : State) (x : List Entry) : (s.setQueue x).clock = s.clock := rfl
@[simp] theorem setQueue_choices (s : State) (x : List Entry) : (s.setQueue x).choices = s.choices := rfl
@[simp] theorem setQueue_pending (s : State) (x : List Entry) : (s.setQueue x).pending = s.pending := rfl
@[simp] theorem setQueue_lines (s : State) (x : List Entry) : (s.setQueue x).lines = s.lines := rfl
@[simp] theorem setQueue_tar (s : State) (x : List Entry) :
    (s.setQueue x).tar = { s.tar with queue := x } := rfl
@[simp] theorem setQueue_mrg (s : State) (x : List Entry) : (s.setQueue x).mrg = s.mrg := rfl
@[simp] theorem setQueue_kch (s : State) (x : List Entry) : (s.setQueue x).kch = s.kch := rfl
@[simp] theorem setQueue_seu (s : State) (x : List Entry) : (s.setQueue x).seu = s.seu := rfl
@[simp] theorem setQueue_ids (s : State) (x : List Entry) : (s.setQueue x).ids = s.ids := rfl
@[simp] theorem setQueue_ilm (s : State) (x : List Entry) : (s.setQueue x).ilm = s.ilm := rfl
@[simp] theorem setQueue_spc (s : State) (x : List Entry) : (s.setQueue x).spc = s.spc := rfl
@[simp] theorem setQueue_lp (s : State) (x : List Entry) : (s.setQueue x).lp = s.lp := rfl
@[simp] theorem setQueue_ntu (s : State) (x : List Entry) : (s.setQueue x).ntu = s.ntu := rfl
@[simp] theorem setQueue_journal (s : State) (x : List Entry) : (s.setQueue x).journal = s.journal := rfl
@[simp] theorem setQueue_cst (s : State) (x : List Entry) : (s.setQueue x).cst = s.cst := rfl
@[simp] theorem setQueue_powerHeld (s : State) (x : List Entry) : (s.setQueue x).powerHeld = s.powerHeld := rfl
@[simp] theorem setQueue_clockGood (s : State) (x : List Entry) : (s.setQueue x).clockGood = s.clockGood := rfl
@[simp] theorem setQueue_span (s : State) (x : List Entry) : (s.setQueue x).span = s.span := rfl

/-! ## `setWatch` -/

@[simp] theorem setWatch_clock (s : State) (x : Watch) : (s.setWatch x).clock = s.clock := rfl
@[simp] theorem setWatch_choices (s : State) (x : Watch) : (s.setWatch x).choices = s.choices := rfl
@[simp] theorem setWatch_pending (s : State) (x : Watch) : (s.setWatch x).pending = s.pending := rfl
@[simp] theorem setWatch_lines (s : State) (x : Watch) : (s.setWatch x).lines = s.lines := rfl
@[simp] theorem setWatch_tar (s : State) (x : Watch) : (s.setWatch x).tar = s.tar := rfl
@[simp] theorem setWatch_mrg (s : State) (x : Watch) :
    (s.setWatch x).mrg = { s.mrg with watch := x } := rfl
@[simp] theorem setWatch_kch (s : State) (x : Watch) : (s.setWatch x).kch = s.kch := rfl
@[simp] theorem setWatch_seu (s : State) (x : Watch) : (s.setWatch x).seu = s.seu := rfl
@[simp] theorem setWatch_ids (s : State) (x : Watch) : (s.setWatch x).ids = s.ids := rfl
@[simp] theorem setWatch_ilm (s : State) (x : Watch) : (s.setWatch x).ilm = s.ilm := rfl
@[simp] theorem setWatch_spc (s : State) (x : Watch) : (s.setWatch x).spc = s.spc := rfl
@[simp] theorem setWatch_lp (s : State) (x : Watch) : (s.setWatch x).lp = s.lp := rfl
@[simp] theorem setWatch_ntu (s : State) (x : Watch) : (s.setWatch x).ntu = s.ntu := rfl
@[simp] theorem setWatch_journal (s : State) (x : Watch) : (s.setWatch x).journal = s.journal := rfl
@[simp] theorem setWatch_cst (s : State) (x : Watch) : (s.setWatch x).cst = s.cst := rfl
@[simp] theorem setWatch_powerHeld (s : State) (x : Watch) : (s.setWatch x).powerHeld = s.powerHeld := rfl
@[simp] theorem setWatch_clockGood (s : State) (x : Watch) : (s.setWatch x).clockGood = s.clockGood := rfl
@[simp] theorem setWatch_span (s : State) (x : Watch) : (s.setWatch x).span = s.span := rfl

/-! ## `setUnitOwed` -/

@[simp] theorem setUnitOwed_clock (s : State) (x : Bool) : (s.setUnitOwed x).clock = s.clock := rfl
@[simp] theorem setUnitOwed_choices (s : State) (x : Bool) : (s.setUnitOwed x).choices = s.choices := rfl
@[simp] theorem setUnitOwed_pending (s : State) (x : Bool) : (s.setUnitOwed x).pending = s.pending := rfl
@[simp] theorem setUnitOwed_lines (s : State) (x : Bool) : (s.setUnitOwed x).lines = s.lines := rfl
@[simp] theorem setUnitOwed_tar (s : State) (x : Bool) : (s.setUnitOwed x).tar = s.tar := rfl
@[simp] theorem setUnitOwed_mrg (s : State) (x : Bool) :
    (s.setUnitOwed x).mrg = { s.mrg with unitOwed := x } := rfl
@[simp] theorem setUnitOwed_kch (s : State) (x : Bool) : (s.setUnitOwed x).kch = s.kch := rfl
@[simp] theorem setUnitOwed_seu (s : State) (x : Bool) : (s.setUnitOwed x).seu = s.seu := rfl
@[simp] theorem setUnitOwed_ids (s : State) (x : Bool) : (s.setUnitOwed x).ids = s.ids := rfl
@[simp] theorem setUnitOwed_ilm (s : State) (x : Bool) : (s.setUnitOwed x).ilm = s.ilm := rfl
@[simp] theorem setUnitOwed_spc (s : State) (x : Bool) : (s.setUnitOwed x).spc = s.spc := rfl
@[simp] theorem setUnitOwed_lp (s : State) (x : Bool) : (s.setUnitOwed x).lp = s.lp := rfl
@[simp] theorem setUnitOwed_ntu (s : State) (x : Bool) : (s.setUnitOwed x).ntu = s.ntu := rfl
@[simp] theorem setUnitOwed_journal (s : State) (x : Bool) : (s.setUnitOwed x).journal = s.journal := rfl
@[simp] theorem setUnitOwed_cst (s : State) (x : Bool) : (s.setUnitOwed x).cst = s.cst := rfl
@[simp] theorem setUnitOwed_powerHeld (s : State) (x : Bool) : (s.setUnitOwed x).powerHeld = s.powerHeld := rfl
@[simp] theorem setUnitOwed_clockGood (s : State) (x : Bool) : (s.setUnitOwed x).clockGood = s.clockGood := rfl
@[simp] theorem setUnitOwed_span (s : State) (x : Bool) : (s.setUnitOwed x).span = s.span := rfl

/-! ## `setTone` -/

@[simp] theorem setTone_clock (s : State) (x : Bool) : (s.setTone x).clock = s.clock := rfl
@[simp] theorem setTone_choices (s : State) (x : Bool) : (s.setTone x).choices = s.choices := rfl
@[simp] theorem setTone_pending (s : State) (x : Bool) : (s.setTone x).pending = s.pending := rfl
@[simp] theorem setTone_lines (s : State) (x : Bool) : (s.setTone x).lines = s.lines := rfl
@[simp] theorem setTone_tar (s : State) (x : Bool) : (s.setTone x).tar = s.tar := rfl
@[simp] theorem setTone_mrg (s : State) (x : Bool) : (s.setTone x).mrg = s.mrg := rfl
@[simp] theorem setTone_kch (s : State) (x : Bool) : (s.setTone x).kch = s.kch := rfl
@[simp] theorem setTone_seu (s : State) (x : Bool) : (s.setTone x).seu = s.seu := rfl
@[simp] theorem setTone_ids (s : State) (x : Bool) :
    (s.setTone x).ids = { s.ids with tone := x } := rfl
@[simp] theorem setTone_ilm (s : State) (x : Bool) : (s.setTone x).ilm = s.ilm := rfl
@[simp] theorem setTone_spc (s : State) (x : Bool) : (s.setTone x).spc = s.spc := rfl
@[simp] theorem setTone_lp (s : State) (x : Bool) : (s.setTone x).lp = s.lp := rfl
@[simp] theorem setTone_ntu (s : State) (x : Bool) : (s.setTone x).ntu = s.ntu := rfl
@[simp] theorem setTone_journal (s : State) (x : Bool) : (s.setTone x).journal = s.journal := rfl
@[simp] theorem setTone_cst (s : State) (x : Bool) : (s.setTone x).cst = s.cst := rfl
@[simp] theorem setTone_powerHeld (s : State) (x : Bool) : (s.setTone x).powerHeld = s.powerHeld := rfl
@[simp] theorem setTone_clockGood (s : State) (x : Bool) : (s.setTone x).clockGood = s.clockGood := rfl
@[simp] theorem setTone_span (s : State) (x : Bool) : (s.setTone x).span = s.span := rfl

/-! ## `setRecord` -/

@[simp] theorem setRecord_clock (r : IdRecord) (s : State) : (setRecord r s).clock = s.clock := rfl
@[simp] theorem setRecord_choices (r : IdRecord) (s : State) : (setRecord r s).choices = s.choices := rfl
@[simp] theorem setRecord_pending (r : IdRecord) (s : State) : (setRecord r s).pending = s.pending := rfl
@[simp] theorem setRecord_lines (r : IdRecord) (s : State) : (setRecord r s).lines = s.lines := rfl
@[simp] theorem setRecord_tar (r : IdRecord) (s : State) : (setRecord r s).tar = s.tar := rfl
@[simp] theorem setRecord_mrg (r : IdRecord) (s : State) : (setRecord r s).mrg = s.mrg := rfl
@[simp] theorem setRecord_kch (r : IdRecord) (s : State) : (setRecord r s).kch = s.kch := rfl
@[simp] theorem setRecord_seu (r : IdRecord) (s : State) : (setRecord r s).seu = s.seu := rfl
@[simp] theorem setRecord_ids (r : IdRecord) (s : State) :
    (setRecord r s).ids = { s.ids with record := r } := rfl
@[simp] theorem setRecord_ilm (r : IdRecord) (s : State) : (setRecord r s).ilm = s.ilm := rfl
@[simp] theorem setRecord_spc (r : IdRecord) (s : State) : (setRecord r s).spc = s.spc := rfl
@[simp] theorem setRecord_lp (r : IdRecord) (s : State) : (setRecord r s).lp = s.lp := rfl
@[simp] theorem setRecord_ntu (r : IdRecord) (s : State) : (setRecord r s).ntu = s.ntu := rfl
@[simp] theorem setRecord_journal (r : IdRecord) (s : State) : (setRecord r s).journal = s.journal := rfl
@[simp] theorem setRecord_cst (r : IdRecord) (s : State) : (setRecord r s).cst = s.cst := rfl
@[simp] theorem setRecord_powerHeld (r : IdRecord) (s : State) : (setRecord r s).powerHeld = s.powerHeld := rfl
@[simp] theorem setRecord_clockGood (r : IdRecord) (s : State) : (setRecord r s).clockGood = s.clockGood := rfl
@[simp] theorem setRecord_span (r : IdRecord) (s : State) : (setRecord r s).span = s.span := rfl

/-! ## `setPhase` -/

@[simp] theorem setPhase_clock (s : State) (x : Phase) : (s.setPhase x).clock = s.clock := rfl
@[simp] theorem setPhase_choices (s : State) (x : Phase) : (s.setPhase x).choices = s.choices := rfl
@[simp] theorem setPhase_pending (s : State) (x : Phase) : (s.setPhase x).pending = s.pending := rfl
@[simp] theorem setPhase_lines (s : State) (x : Phase) : (s.setPhase x).lines = s.lines := rfl
@[simp] theorem setPhase_tar (s : State) (x : Phase) : (s.setPhase x).tar = s.tar := rfl
@[simp] theorem setPhase_mrg (s : State) (x : Phase) : (s.setPhase x).mrg = s.mrg := rfl
@[simp] theorem setPhase_kch (s : State) (x : Phase) : (s.setPhase x).kch = s.kch := rfl
@[simp] theorem setPhase_seu (s : State) (x : Phase) : (s.setPhase x).seu = s.seu := rfl
@[simp] theorem setPhase_ids (s : State) (x : Phase) : (s.setPhase x).ids = s.ids := rfl
@[simp] theorem setPhase_ilm (s : State) (x : Phase) : (s.setPhase x).ilm = s.ilm := rfl
@[simp] theorem setPhase_spc (s : State) (x : Phase) : (s.setPhase x).spc = s.spc := rfl
@[simp] theorem setPhase_lp (s : State) (x : Phase) : (s.setPhase x).lp = s.lp := rfl
@[simp] theorem setPhase_ntu (s : State) (x : Phase) : (s.setPhase x).ntu = s.ntu := rfl
@[simp] theorem setPhase_journal (s : State) (x : Phase) : (s.setPhase x).journal = s.journal := rfl
@[simp] theorem setPhase_cst (s : State) (x : Phase) :
    (s.setPhase x).cst = { s.cst with phase := x } := rfl
@[simp] theorem setPhase_powerHeld (s : State) (x : Phase) : (s.setPhase x).powerHeld = s.powerHeld := rfl
@[simp] theorem setPhase_clockGood (s : State) (x : Phase) : (s.setPhase x).clockGood = s.clockGood := rfl
@[simp] theorem setPhase_span (s : State) (x : Phase) : (s.setPhase x).span = s.span := rfl

/-! ## `setRecords` -/

@[simp] theorem setRecords_clock (s : State) (x : Records) : (s.setRecords x).clock = s.clock := rfl
@[simp] theorem setRecords_choices (s : State) (x : Records) : (s.setRecords x).choices = s.choices := rfl
@[simp] theorem setRecords_pending (s : State) (x : Records) : (s.setRecords x).pending = s.pending := rfl
@[simp] theorem setRecords_lines (s : State) (x : Records) : (s.setRecords x).lines = s.lines := rfl
@[simp] theorem setRecords_tar (s : State) (x : Records) : (s.setRecords x).tar = s.tar := rfl
@[simp] theorem setRecords_mrg (s : State) (x : Records) : (s.setRecords x).mrg = s.mrg := rfl
@[simp] theorem setRecords_kch (s : State) (x : Records) : (s.setRecords x).kch = s.kch := rfl
@[simp] theorem setRecords_seu (s : State) (x : Records) : (s.setRecords x).seu = s.seu := rfl
@[simp] theorem setRecords_ids (s : State) (x : Records) : (s.setRecords x).ids = s.ids := rfl
@[simp] theorem setRecords_ilm (s : State) (x : Records) : (s.setRecords x).ilm = s.ilm := rfl
@[simp] theorem setRecords_spc (s : State) (x : Records) : (s.setRecords x).spc = s.spc := rfl
@[simp] theorem setRecords_lp (s : State) (x : Records) : (s.setRecords x).lp = s.lp := rfl
@[simp] theorem setRecords_ntu (s : State) (x : Records) : (s.setRecords x).ntu = s.ntu := rfl
@[simp] theorem setRecords_journal (s : State) (x : Records) : (s.setRecords x).journal = s.journal := rfl
@[simp] theorem setRecords_cst (s : State) (x : Records) :
    (s.setRecords x).cst = { s.cst with records := x } := rfl
@[simp] theorem setRecords_powerHeld (s : State) (x : Records) : (s.setRecords x).powerHeld = s.powerHeld := rfl
@[simp] theorem setRecords_clockGood (s : State) (x : Records) : (s.setRecords x).clockGood = s.clockGood := rfl
@[simp] theorem setRecords_span (s : State) (x : Records) : (s.setRecords x).span = s.span := rfl

/-! ## `setTransmitter` -/

@[simp] theorem setTransmitter_clock (s : State) (x : LinkTransmitter) : (s.setTransmitter x).clock = s.clock := rfl
@[simp] theorem setTransmitter_choices (s : State) (x : LinkTransmitter) : (s.setTransmitter x).choices = s.choices := rfl
@[simp] theorem setTransmitter_pending (s : State) (x : LinkTransmitter) : (s.setTransmitter x).pending = s.pending := rfl
@[simp] theorem setTransmitter_lines (s : State) (x : LinkTransmitter) : (s.setTransmitter x).lines = s.lines := rfl
@[simp] theorem setTransmitter_tar (s : State) (x : LinkTransmitter) : (s.setTransmitter x).tar = s.tar := rfl
@[simp] theorem setTransmitter_mrg (s : State) (x : LinkTransmitter) : (s.setTransmitter x).mrg = s.mrg := rfl
@[simp] theorem setTransmitter_kch (s : State) (x : LinkTransmitter) : (s.setTransmitter x).kch = s.kch := rfl
@[simp] theorem setTransmitter_seu (s : State) (x : LinkTransmitter) : (s.setTransmitter x).seu = s.seu := rfl
@[simp] theorem setTransmitter_ids (s : State) (x : LinkTransmitter) : (s.setTransmitter x).ids = s.ids := rfl
@[simp] theorem setTransmitter_ilm (s : State) (x : LinkTransmitter) : (s.setTransmitter x).ilm = s.ilm := rfl
@[simp] theorem setTransmitter_spc (s : State) (x : LinkTransmitter) : (s.setTransmitter x).spc = s.spc := rfl
@[simp] theorem setTransmitter_lp (s : State) (x : LinkTransmitter) :
    (s.setTransmitter x).lp = { s.lp with tx := x } := rfl
@[simp] theorem setTransmitter_ntu (s : State) (x : LinkTransmitter) : (s.setTransmitter x).ntu = s.ntu := rfl
@[simp] theorem setTransmitter_journal (s : State) (x : LinkTransmitter) : (s.setTransmitter x).journal = s.journal := rfl
@[simp] theorem setTransmitter_cst (s : State) (x : LinkTransmitter) : (s.setTransmitter x).cst = s.cst := rfl
@[simp] theorem setTransmitter_powerHeld (s : State) (x : LinkTransmitter) : (s.setTransmitter x).powerHeld = s.powerHeld := rfl
@[simp] theorem setTransmitter_clockGood (s : State) (x : LinkTransmitter) : (s.setTransmitter x).clockGood = s.clockGood := rfl
@[simp] theorem setTransmitter_span (s : State) (x : LinkTransmitter) : (s.setTransmitter x).span = s.span := rfl

/-! ## `setFilter` -/

@[simp] theorem setFilter_clock (i : Input) (f : Filter) (s : State) : (setFilter i f s).clock = s.clock := rfl
@[simp] theorem setFilter_choices (i : Input) (f : Filter) (s : State) : (setFilter i f s).choices = s.choices := rfl
@[simp] theorem setFilter_pending (i : Input) (f : Filter) (s : State) : (setFilter i f s).pending = s.pending := rfl
@[simp] theorem setFilter_lines (i : Input) (f : Filter) (s : State) : (setFilter i f s).lines = s.lines := rfl
@[simp] theorem setFilter_tar (i : Input) (f : Filter) (s : State) : (setFilter i f s).tar = s.tar := rfl
@[simp] theorem setFilter_mrg (i : Input) (f : Filter) (s : State) : (setFilter i f s).mrg = s.mrg := rfl
@[simp] theorem setFilter_kch (i : Input) (f : Filter) (s : State) : (setFilter i f s).kch = s.kch := rfl
@[simp] theorem setFilter_seu (i : Input) (f : Filter) (s : State) : (setFilter i f s).seu = s.seu := rfl
@[simp] theorem setFilter_ids (i : Input) (f : Filter) (s : State) : (setFilter i f s).ids = s.ids := rfl
@[simp] theorem setFilter_ilm (i : Input) (f : Filter) (s : State) :
    (setFilter i f s).ilm = { s.ilm with filters := s.ilm.filters.set i f } := rfl
@[simp] theorem setFilter_spc (i : Input) (f : Filter) (s : State) : (setFilter i f s).spc = s.spc := rfl
@[simp] theorem setFilter_lp (i : Input) (f : Filter) (s : State) : (setFilter i f s).lp = s.lp := rfl
@[simp] theorem setFilter_ntu (i : Input) (f : Filter) (s : State) : (setFilter i f s).ntu = s.ntu := rfl
@[simp] theorem setFilter_journal (i : Input) (f : Filter) (s : State) : (setFilter i f s).journal = s.journal := rfl
@[simp] theorem setFilter_cst (i : Input) (f : Filter) (s : State) : (setFilter i f s).cst = s.cst := rfl
@[simp] theorem setFilter_powerHeld (i : Input) (f : Filter) (s : State) : (setFilter i f s).powerHeld = s.powerHeld := rfl
@[simp] theorem setFilter_clockGood (i : Input) (f : Filter) (s : State) : (setFilter i f s).clockGood = s.clockGood := rfl
@[simp] theorem setFilter_span (i : Input) (f : Filter) (s : State) : (setFilter i f s).span = s.span := rfl

/-! ## `setMember` -/

@[simp] theorem setMember_clock (m : Nat) (x : MemberSlot) (s : State) : (setMember m x s).clock = s.clock := rfl
@[simp] theorem setMember_choices (m : Nat) (x : MemberSlot) (s : State) : (setMember m x s).choices = s.choices := rfl
@[simp] theorem setMember_pending (m : Nat) (x : MemberSlot) (s : State) : (setMember m x s).pending = s.pending := rfl
@[simp] theorem setMember_lines (m : Nat) (x : MemberSlot) (s : State) : (setMember m x s).lines = s.lines := rfl
@[simp] theorem setMember_tar (m : Nat) (x : MemberSlot) (s : State) : (setMember m x s).tar = s.tar := rfl
@[simp] theorem setMember_mrg (m : Nat) (x : MemberSlot) (s : State) :
    (setMember m x s).mrg = { s.mrg with members := s.mrg.members.setIfInBounds m x } := rfl
@[simp] theorem setMember_kch (m : Nat) (x : MemberSlot) (s : State) : (setMember m x s).kch = s.kch := rfl
@[simp] theorem setMember_seu (m : Nat) (x : MemberSlot) (s : State) : (setMember m x s).seu = s.seu := rfl
@[simp] theorem setMember_ids (m : Nat) (x : MemberSlot) (s : State) : (setMember m x s).ids = s.ids := rfl
@[simp] theorem setMember_ilm (m : Nat) (x : MemberSlot) (s : State) : (setMember m x s).ilm = s.ilm := rfl
@[simp] theorem setMember_spc (m : Nat) (x : MemberSlot) (s : State) : (setMember m x s).spc = s.spc := rfl
@[simp] theorem setMember_lp (m : Nat) (x : MemberSlot) (s : State) : (setMember m x s).lp = s.lp := rfl
@[simp] theorem setMember_ntu (m : Nat) (x : MemberSlot) (s : State) : (setMember m x s).ntu = s.ntu := rfl
@[simp] theorem setMember_journal (m : Nat) (x : MemberSlot) (s : State) : (setMember m x s).journal = s.journal := rfl
@[simp] theorem setMember_cst (m : Nat) (x : MemberSlot) (s : State) : (setMember m x s).cst = s.cst := rfl
@[simp] theorem setMember_powerHeld (m : Nat) (x : MemberSlot) (s : State) : (setMember m x s).powerHeld = s.powerHeld := rfl
@[simp] theorem setMember_clockGood (m : Nat) (x : MemberSlot) (s : State) : (setMember m x s).clockGood = s.clockGood := rfl
@[simp] theorem setMember_span (m : Nat) (x : MemberSlot) (s : State) : (setMember m x s).span = s.span := rfl

/-! ## `become` -/

@[simp] theorem become_clock (i : Input) (b : Bool) (s : State) : (become i b s).clock = s.clock := rfl
@[simp] theorem become_choices (i : Input) (b : Bool) (s : State) : (become i b s).choices = s.choices := rfl
@[simp] theorem become_pending (i : Input) (b : Bool) (s : State) : (become i b s).pending = s.pending := rfl
@[simp] theorem become_lines (i : Input) (b : Bool) (s : State) : (become i b s).lines = s.lines := rfl
@[simp] theorem become_tar (i : Input) (b : Bool) (s : State) : (become i b s).tar = s.tar := rfl
@[simp] theorem become_mrg (i : Input) (b : Bool) (s : State) : (become i b s).mrg = s.mrg := rfl
@[simp] theorem become_kch (i : Input) (b : Bool) (s : State) : (become i b s).kch = s.kch := rfl
@[simp] theorem become_seu (i : Input) (b : Bool) (s : State) : (become i b s).seu = s.seu := rfl
@[simp] theorem become_ids (i : Input) (b : Bool) (s : State) : (become i b s).ids = s.ids := rfl
@[simp] theorem become_spc (i : Input) (b : Bool) (s : State) : (become i b s).spc = s.spc := rfl
@[simp] theorem become_lp (i : Input) (b : Bool) (s : State) : (become i b s).lp = s.lp := rfl
@[simp] theorem become_ntu (i : Input) (b : Bool) (s : State) : (become i b s).ntu = s.ntu := rfl
@[simp] theorem become_journal (i : Input) (b : Bool) (s : State) : (become i b s).journal = s.journal := rfl
@[simp] theorem become_cst (i : Input) (b : Bool) (s : State) : (become i b s).cst = s.cst := rfl
@[simp] theorem become_powerHeld (i : Input) (b : Bool) (s : State) : (become i b s).powerHeld = s.powerHeld := rfl
@[simp] theorem become_clockGood (i : Input) (b : Bool) (s : State) : (become i b s).clockGood = s.clockGood := rfl
@[simp] theorem become_span (i : Input) (b : Bool) (s : State) : (become i b s).span = s.span := rfl

/-! ## `removeEntry` -/

@[simp] theorem removeEntry_clock (m : Nat) (s : State) : (removeEntry m s).clock = s.clock := rfl
@[simp] theorem removeEntry_choices (m : Nat) (s : State) : (removeEntry m s).choices = s.choices := rfl
@[simp] theorem removeEntry_pending (m : Nat) (s : State) : (removeEntry m s).pending = s.pending := rfl
@[simp] theorem removeEntry_lines (m : Nat) (s : State) : (removeEntry m s).lines = s.lines := rfl
@[simp] theorem removeEntry_tar (m : Nat) (s : State) :
    (removeEntry m s).tar = { s.tar with queue := s.tar.queue.filter fun e => e.member != m } := rfl
@[simp] theorem removeEntry_mrg (m : Nat) (s : State) : (removeEntry m s).mrg = s.mrg := rfl
@[simp] theorem removeEntry_kch (m : Nat) (s : State) : (removeEntry m s).kch = s.kch := rfl
@[simp] theorem removeEntry_seu (m : Nat) (s : State) : (removeEntry m s).seu = s.seu := rfl
@[simp] theorem removeEntry_ids (m : Nat) (s : State) : (removeEntry m s).ids = s.ids := rfl
@[simp] theorem removeEntry_ilm (m : Nat) (s : State) : (removeEntry m s).ilm = s.ilm := rfl
@[simp] theorem removeEntry_spc (m : Nat) (s : State) : (removeEntry m s).spc = s.spc := rfl
@[simp] theorem removeEntry_lp (m : Nat) (s : State) : (removeEntry m s).lp = s.lp := rfl
@[simp] theorem removeEntry_ntu (m : Nat) (s : State) : (removeEntry m s).ntu = s.ntu := rfl
@[simp] theorem removeEntry_journal (m : Nat) (s : State) : (removeEntry m s).journal = s.journal := rfl
@[simp] theorem removeEntry_cst (m : Nat) (s : State) : (removeEntry m s).cst = s.cst := rfl
@[simp] theorem removeEntry_powerHeld (m : Nat) (s : State) : (removeEntry m s).powerHeld = s.powerHeld := rfl
@[simp] theorem removeEntry_clockGood (m : Nat) (s : State) : (removeEntry m s).clockGood = s.clockGood := rfl
@[simp] theorem removeEntry_span (m : Nat) (s : State) : (removeEntry m s).span = s.span := rfl

/-! ## `emptyQueue` -/

@[simp] theorem emptyQueue_clock (s : State) : (emptyQueue s).clock = s.clock := rfl
@[simp] theorem emptyQueue_choices (s : State) : (emptyQueue s).choices = s.choices := rfl
@[simp] theorem emptyQueue_pending (s : State) : (emptyQueue s).pending = s.pending := rfl
@[simp] theorem emptyQueue_lines (s : State) : (emptyQueue s).lines = s.lines := rfl
@[simp] theorem emptyQueue_tar (s : State) :
    (emptyQueue s).tar = { s.tar with queue := [] } := rfl
@[simp] theorem emptyQueue_mrg (s : State) : (emptyQueue s).mrg = s.mrg := rfl
@[simp] theorem emptyQueue_kch (s : State) : (emptyQueue s).kch = s.kch := rfl
@[simp] theorem emptyQueue_seu (s : State) : (emptyQueue s).seu = s.seu := rfl
@[simp] theorem emptyQueue_ids (s : State) : (emptyQueue s).ids = s.ids := rfl
@[simp] theorem emptyQueue_ilm (s : State) : (emptyQueue s).ilm = s.ilm := rfl
@[simp] theorem emptyQueue_spc (s : State) : (emptyQueue s).spc = s.spc := rfl
@[simp] theorem emptyQueue_lp (s : State) : (emptyQueue s).lp = s.lp := rfl
@[simp] theorem emptyQueue_ntu (s : State) : (emptyQueue s).ntu = s.ntu := rfl
@[simp] theorem emptyQueue_journal (s : State) : (emptyQueue s).journal = s.journal := rfl
@[simp] theorem emptyQueue_cst (s : State) : (emptyQueue s).cst = s.cst := rfl
@[simp] theorem emptyQueue_powerHeld (s : State) : (emptyQueue s).powerHeld = s.powerHeld := rfl
@[simp] theorem emptyQueue_clockGood (s : State) : (emptyQueue s).clockGood = s.clockGood := rfl
@[simp] theorem emptyQueue_span (s : State) : (emptyQueue s).span = s.span := rfl

/-! ## `joinQueue` -/

@[simp] theorem joinQueue_clock (e : Entry) (s : State) : (joinQueue e s).clock = s.clock := rfl
@[simp] theorem joinQueue_choices (e : Entry) (s : State) : (joinQueue e s).choices = s.choices := rfl
@[simp] theorem joinQueue_pending (e : Entry) (s : State) : (joinQueue e s).pending = s.pending := rfl
@[simp] theorem joinQueue_lines (e : Entry) (s : State) : (joinQueue e s).lines = s.lines := rfl
@[simp] theorem joinQueue_tar (e : Entry) (s : State) :
    (joinQueue e s).tar = { s.tar with queue := s.tar.queue ++ [e] } := rfl
@[simp] theorem joinQueue_mrg (e : Entry) (s : State) : (joinQueue e s).mrg = s.mrg := rfl
@[simp] theorem joinQueue_kch (e : Entry) (s : State) : (joinQueue e s).kch = s.kch := rfl
@[simp] theorem joinQueue_seu (e : Entry) (s : State) : (joinQueue e s).seu = s.seu := rfl
@[simp] theorem joinQueue_ids (e : Entry) (s : State) : (joinQueue e s).ids = s.ids := rfl
@[simp] theorem joinQueue_ilm (e : Entry) (s : State) : (joinQueue e s).ilm = s.ilm := rfl
@[simp] theorem joinQueue_spc (e : Entry) (s : State) : (joinQueue e s).spc = s.spc := rfl
@[simp] theorem joinQueue_lp (e : Entry) (s : State) : (joinQueue e s).lp = s.lp := rfl
@[simp] theorem joinQueue_ntu (e : Entry) (s : State) : (joinQueue e s).ntu = s.ntu := rfl
@[simp] theorem joinQueue_journal (e : Entry) (s : State) : (joinQueue e s).journal = s.journal := rfl
@[simp] theorem joinQueue_cst (e : Entry) (s : State) : (joinQueue e s).cst = s.cst := rfl
@[simp] theorem joinQueue_powerHeld (e : Entry) (s : State) : (joinQueue e s).powerHeld = s.powerHeld := rfl
@[simp] theorem joinQueue_clockGood (e : Entry) (s : State) : (joinQueue e s).clockGood = s.clockGood := rfl
@[simp] theorem joinQueue_span (e : Entry) (s : State) : (joinQueue e s).span = s.span := rfl

/-! ## `beginStage` -/

@[simp] theorem beginStage_clock (c : ChainState) (n : Nat) (s : State) : (beginStage c n s).clock = s.clock := rfl
@[simp] theorem beginStage_choices (c : ChainState) (n : Nat) (s : State) : (beginStage c n s).choices = s.choices := rfl
@[simp] theorem beginStage_pending (c : ChainState) (n : Nat) (s : State) : (beginStage c n s).pending = s.pending := rfl
@[simp] theorem beginStage_lines (c : ChainState) (n : Nat) (s : State) : (beginStage c n s).lines = s.lines := rfl
@[simp] theorem beginStage_tar (c : ChainState) (n : Nat) (s : State) : (beginStage c n s).tar = s.tar := rfl
@[simp] theorem beginStage_mrg (c : ChainState) (n : Nat) (s : State) : (beginStage c n s).mrg = s.mrg := rfl
@[simp] theorem beginStage_seu (c : ChainState) (n : Nat) (s : State) : (beginStage c n s).seu = s.seu := rfl
@[simp] theorem beginStage_ids (c : ChainState) (n : Nat) (s : State) : (beginStage c n s).ids = s.ids := rfl
@[simp] theorem beginStage_ilm (c : ChainState) (n : Nat) (s : State) : (beginStage c n s).ilm = s.ilm := rfl
@[simp] theorem beginStage_spc (c : ChainState) (n : Nat) (s : State) : (beginStage c n s).spc = s.spc := rfl
@[simp] theorem beginStage_lp (c : ChainState) (n : Nat) (s : State) : (beginStage c n s).lp = s.lp := rfl
@[simp] theorem beginStage_ntu (c : ChainState) (n : Nat) (s : State) : (beginStage c n s).ntu = s.ntu := rfl
@[simp] theorem beginStage_journal (c : ChainState) (n : Nat) (s : State) : (beginStage c n s).journal = s.journal := rfl
@[simp] theorem beginStage_cst (c : ChainState) (n : Nat) (s : State) : (beginStage c n s).cst = s.cst := rfl
@[simp] theorem beginStage_powerHeld (c : ChainState) (n : Nat) (s : State) : (beginStage c n s).powerHeld = s.powerHeld := rfl
@[simp] theorem beginStage_clockGood (c : ChainState) (n : Nat) (s : State) : (beginStage c n s).clockGood = s.clockGood := rfl
@[simp] theorem beginStage_span (c : ChainState) (n : Nat) (s : State) : (beginStage c n s).span = s.span := rfl

/-! ## `beginKeyDown` -/

@[simp] theorem beginKeyDown_clock (c : KeyDownCause) (s : State) : (beginKeyDown c s).clock = s.clock := rfl
@[simp] theorem beginKeyDown_choices (c : KeyDownCause) (s : State) : (beginKeyDown c s).choices = s.choices := rfl
@[simp] theorem beginKeyDown_pending (c : KeyDownCause) (s : State) : (beginKeyDown c s).pending = s.pending := rfl
@[simp] theorem beginKeyDown_lines (c : KeyDownCause) (s : State) : (beginKeyDown c s).lines = s.lines := rfl
@[simp] theorem beginKeyDown_tar (c : KeyDownCause) (s : State) : (beginKeyDown c s).tar = s.tar := rfl
@[simp] theorem beginKeyDown_mrg (c : KeyDownCause) (s : State) : (beginKeyDown c s).mrg = s.mrg := rfl
@[simp] theorem beginKeyDown_seu (c : KeyDownCause) (s : State) : (beginKeyDown c s).seu = s.seu := rfl
@[simp] theorem beginKeyDown_ids (c : KeyDownCause) (s : State) : (beginKeyDown c s).ids = s.ids := rfl
@[simp] theorem beginKeyDown_ilm (c : KeyDownCause) (s : State) : (beginKeyDown c s).ilm = s.ilm := rfl
@[simp] theorem beginKeyDown_spc (c : KeyDownCause) (s : State) : (beginKeyDown c s).spc = s.spc := rfl
@[simp] theorem beginKeyDown_lp (c : KeyDownCause) (s : State) : (beginKeyDown c s).lp = s.lp := rfl
@[simp] theorem beginKeyDown_ntu (c : KeyDownCause) (s : State) : (beginKeyDown c s).ntu = s.ntu := rfl
@[simp] theorem beginKeyDown_journal (c : KeyDownCause) (s : State) : (beginKeyDown c s).journal = s.journal := rfl
@[simp] theorem beginKeyDown_cst (c : KeyDownCause) (s : State) : (beginKeyDown c s).cst = s.cst := rfl
@[simp] theorem beginKeyDown_powerHeld (c : KeyDownCause) (s : State) : (beginKeyDown c s).powerHeld = s.powerHeld := rfl
@[simp] theorem beginKeyDown_clockGood (c : KeyDownCause) (s : State) : (beginKeyDown c s).clockGood = s.clockGood := rfl
@[simp] theorem beginKeyDown_span (c : KeyDownCause) (s : State) : (beginKeyDown c s).span = s.span := rfl

/-! ## `enterOnAir` -/

@[simp] theorem enterOnAir_clock (s : State) : (enterOnAir s).clock = s.clock := rfl
@[simp] theorem enterOnAir_choices (s : State) : (enterOnAir s).choices = s.choices := rfl
@[simp] theorem enterOnAir_pending (s : State) : (enterOnAir s).pending = s.pending := rfl
@[simp] theorem enterOnAir_lines (s : State) : (enterOnAir s).lines = s.lines := rfl
@[simp] theorem enterOnAir_tar (s : State) : (enterOnAir s).tar = s.tar := rfl
@[simp] theorem enterOnAir_mrg (s : State) : (enterOnAir s).mrg = s.mrg := rfl
@[simp] theorem enterOnAir_seu (s : State) : (enterOnAir s).seu = s.seu := rfl
@[simp] theorem enterOnAir_ids (s : State) : (enterOnAir s).ids = s.ids := rfl
@[simp] theorem enterOnAir_ilm (s : State) : (enterOnAir s).ilm = s.ilm := rfl
@[simp] theorem enterOnAir_spc (s : State) : (enterOnAir s).spc = s.spc := rfl
@[simp] theorem enterOnAir_lp (s : State) : (enterOnAir s).lp = s.lp := rfl
@[simp] theorem enterOnAir_ntu (s : State) : (enterOnAir s).ntu = s.ntu := rfl
@[simp] theorem enterOnAir_journal (s : State) : (enterOnAir s).journal = s.journal := rfl
@[simp] theorem enterOnAir_cst (s : State) : (enterOnAir s).cst = s.cst := rfl
@[simp] theorem enterOnAir_powerHeld (s : State) : (enterOnAir s).powerHeld = s.powerHeld := rfl
@[simp] theorem enterOnAir_clockGood (s : State) : (enterOnAir s).clockGood = s.clockGood := rfl
@[simp] theorem enterOnAir_span (s : State) : (enterOnAir s).span = s.span := rfl

/-! ## `writeLast` -/

@[simp] theorem writeLast_clock (c : KeyDownCause) (s : State) : (writeLast c s).clock = s.clock := rfl
@[simp] theorem writeLast_choices (c : KeyDownCause) (s : State) : (writeLast c s).choices = s.choices := rfl
@[simp] theorem writeLast_pending (c : KeyDownCause) (s : State) : (writeLast c s).pending = s.pending := rfl
@[simp] theorem writeLast_lines (c : KeyDownCause) (s : State) : (writeLast c s).lines = s.lines := rfl
@[simp] theorem writeLast_tar (c : KeyDownCause) (s : State) : (writeLast c s).tar = s.tar := rfl
@[simp] theorem writeLast_mrg (c : KeyDownCause) (s : State) : (writeLast c s).mrg = s.mrg := rfl
@[simp] theorem writeLast_seu (c : KeyDownCause) (s : State) : (writeLast c s).seu = s.seu := rfl
@[simp] theorem writeLast_ids (c : KeyDownCause) (s : State) : (writeLast c s).ids = s.ids := rfl
@[simp] theorem writeLast_ilm (c : KeyDownCause) (s : State) : (writeLast c s).ilm = s.ilm := rfl
@[simp] theorem writeLast_spc (c : KeyDownCause) (s : State) : (writeLast c s).spc = s.spc := rfl
@[simp] theorem writeLast_lp (c : KeyDownCause) (s : State) : (writeLast c s).lp = s.lp := rfl
@[simp] theorem writeLast_ntu (c : KeyDownCause) (s : State) : (writeLast c s).ntu = s.ntu := rfl
@[simp] theorem writeLast_journal (c : KeyDownCause) (s : State) : (writeLast c s).journal = s.journal := rfl
@[simp] theorem writeLast_cst (c : KeyDownCause) (s : State) : (writeLast c s).cst = s.cst := rfl
@[simp] theorem writeLast_powerHeld (c : KeyDownCause) (s : State) : (writeLast c s).powerHeld = s.powerHeld := rfl
@[simp] theorem writeLast_clockGood (c : KeyDownCause) (s : State) : (writeLast c s).clockGood = s.clockGood := rfl
@[simp] theorem writeLast_span (c : KeyDownCause) (s : State) : (writeLast c s).span = s.span := rfl

/-! ## `loadDeadMan` -/

@[simp] theorem loadDeadMan_clock (s : State) : (loadDeadMan s).clock = s.clock := rfl
@[simp] theorem loadDeadMan_choices (s : State) : (loadDeadMan s).choices = s.choices := rfl
@[simp] theorem loadDeadMan_pending (s : State) : (loadDeadMan s).pending = s.pending := rfl
@[simp] theorem loadDeadMan_lines (s : State) : (loadDeadMan s).lines = s.lines := rfl
@[simp] theorem loadDeadMan_tar (s : State) : (loadDeadMan s).tar = s.tar := rfl
@[simp] theorem loadDeadMan_mrg (s : State) : (loadDeadMan s).mrg = s.mrg := rfl
@[simp] theorem loadDeadMan_seu (s : State) : (loadDeadMan s).seu = s.seu := rfl
@[simp] theorem loadDeadMan_ids (s : State) : (loadDeadMan s).ids = s.ids := rfl
@[simp] theorem loadDeadMan_ilm (s : State) : (loadDeadMan s).ilm = s.ilm := rfl
@[simp] theorem loadDeadMan_spc (s : State) : (loadDeadMan s).spc = s.spc := rfl
@[simp] theorem loadDeadMan_lp (s : State) : (loadDeadMan s).lp = s.lp := rfl
@[simp] theorem loadDeadMan_ntu (s : State) : (loadDeadMan s).ntu = s.ntu := rfl
@[simp] theorem loadDeadMan_journal (s : State) : (loadDeadMan s).journal = s.journal := rfl
@[simp] theorem loadDeadMan_cst (s : State) : (loadDeadMan s).cst = s.cst := rfl
@[simp] theorem loadDeadMan_powerHeld (s : State) : (loadDeadMan s).powerHeld = s.powerHeld := rfl
@[simp] theorem loadDeadMan_clockGood (s : State) : (loadDeadMan s).clockGood = s.clockGood := rfl
@[simp] theorem loadDeadMan_span (s : State) : (loadDeadMan s).span = s.span := rfl

/-! ## `loadHoldoff` -/

@[simp] theorem loadHoldoff_clock (s : State) : (loadHoldoff s).clock = s.clock := rfl
@[simp] theorem loadHoldoff_choices (s : State) : (loadHoldoff s).choices = s.choices := rfl
@[simp] theorem loadHoldoff_pending (s : State) : (loadHoldoff s).pending = s.pending := rfl
@[simp] theorem loadHoldoff_lines (s : State) : (loadHoldoff s).lines = s.lines := rfl
@[simp] theorem loadHoldoff_tar (s : State) : (loadHoldoff s).tar = s.tar := rfl
@[simp] theorem loadHoldoff_mrg (s : State) : (loadHoldoff s).mrg = s.mrg := rfl
@[simp] theorem loadHoldoff_seu (s : State) : (loadHoldoff s).seu = s.seu := rfl
@[simp] theorem loadHoldoff_ids (s : State) : (loadHoldoff s).ids = s.ids := rfl
@[simp] theorem loadHoldoff_ilm (s : State) : (loadHoldoff s).ilm = s.ilm := rfl
@[simp] theorem loadHoldoff_spc (s : State) : (loadHoldoff s).spc = s.spc := rfl
@[simp] theorem loadHoldoff_lp (s : State) : (loadHoldoff s).lp = s.lp := rfl
@[simp] theorem loadHoldoff_ntu (s : State) : (loadHoldoff s).ntu = s.ntu := rfl
@[simp] theorem loadHoldoff_journal (s : State) : (loadHoldoff s).journal = s.journal := rfl
@[simp] theorem loadHoldoff_cst (s : State) : (loadHoldoff s).cst = s.cst := rfl
@[simp] theorem loadHoldoff_powerHeld (s : State) : (loadHoldoff s).powerHeld = s.powerHeld := rfl
@[simp] theorem loadHoldoff_clockGood (s : State) : (loadHoldoff s).clockGood = s.clockGood := rfl
@[simp] theorem loadHoldoff_span (s : State) : (loadHoldoff s).span = s.span := rfl

/-! ## `loadSupervision` -/

@[simp] theorem loadSupervision_clock (s : State) : (loadSupervision s).clock = s.clock := rfl
@[simp] theorem loadSupervision_choices (s : State) : (loadSupervision s).choices = s.choices := rfl
@[simp] theorem loadSupervision_pending (s : State) : (loadSupervision s).pending = s.pending := rfl
@[simp] theorem loadSupervision_lines (s : State) : (loadSupervision s).lines = s.lines := rfl
@[simp] theorem loadSupervision_tar (s : State) : (loadSupervision s).tar = s.tar := rfl
@[simp] theorem loadSupervision_mrg (s : State) : (loadSupervision s).mrg = s.mrg := rfl
@[simp] theorem loadSupervision_kch (s : State) : (loadSupervision s).kch = s.kch := rfl
@[simp] theorem loadSupervision_seu (s : State) : (loadSupervision s).seu = s.seu := rfl
@[simp] theorem loadSupervision_ids (s : State) : (loadSupervision s).ids = s.ids := rfl
@[simp] theorem loadSupervision_ilm (s : State) : (loadSupervision s).ilm = s.ilm := rfl
@[simp] theorem loadSupervision_spc (s : State) : (loadSupervision s).spc = s.spc := rfl
@[simp] theorem loadSupervision_ntu (s : State) : (loadSupervision s).ntu = s.ntu := rfl
@[simp] theorem loadSupervision_journal (s : State) : (loadSupervision s).journal = s.journal := rfl
@[simp] theorem loadSupervision_cst (s : State) : (loadSupervision s).cst = s.cst := rfl
@[simp] theorem loadSupervision_powerHeld (s : State) : (loadSupervision s).powerHeld = s.powerHeld := rfl
@[simp] theorem loadSupervision_clockGood (s : State) : (loadSupervision s).clockGood = s.clockGood := rfl
@[simp] theorem loadSupervision_span (s : State) : (loadSupervision s).span = s.span := rfl

/-! ## `recordCheckItems` -/

@[simp] theorem recordCheckItems_clock (c : SelfCheck) (s : State) : (recordCheckItems c s).clock = s.clock := rfl
@[simp] theorem recordCheckItems_choices (c : SelfCheck) (s : State) : (recordCheckItems c s).choices = s.choices := rfl
@[simp] theorem recordCheckItems_pending (c : SelfCheck) (s : State) : (recordCheckItems c s).pending = s.pending := rfl
@[simp] theorem recordCheckItems_lines (c : SelfCheck) (s : State) : (recordCheckItems c s).lines = s.lines := rfl
@[simp] theorem recordCheckItems_tar (c : SelfCheck) (s : State) : (recordCheckItems c s).tar = s.tar := rfl
@[simp] theorem recordCheckItems_mrg (c : SelfCheck) (s : State) : (recordCheckItems c s).mrg = s.mrg := rfl
@[simp] theorem recordCheckItems_kch (c : SelfCheck) (s : State) : (recordCheckItems c s).kch = s.kch := rfl
@[simp] theorem recordCheckItems_seu (c : SelfCheck) (s : State) : (recordCheckItems c s).seu = s.seu := rfl
@[simp] theorem recordCheckItems_ids (c : SelfCheck) (s : State) : (recordCheckItems c s).ids = s.ids := rfl
@[simp] theorem recordCheckItems_ilm (c : SelfCheck) (s : State) : (recordCheckItems c s).ilm = s.ilm := rfl
@[simp] theorem recordCheckItems_lp (c : SelfCheck) (s : State) : (recordCheckItems c s).lp = s.lp := rfl
@[simp] theorem recordCheckItems_ntu (c : SelfCheck) (s : State) : (recordCheckItems c s).ntu = s.ntu := rfl
@[simp] theorem recordCheckItems_journal (c : SelfCheck) (s : State) : (recordCheckItems c s).journal = s.journal := rfl
@[simp] theorem recordCheckItems_cst (c : SelfCheck) (s : State) : (recordCheckItems c s).cst = s.cst := rfl
@[simp] theorem recordCheckItems_powerHeld (c : SelfCheck) (s : State) : (recordCheckItems c s).powerHeld = s.powerHeld := rfl
@[simp] theorem recordCheckItems_clockGood (c : SelfCheck) (s : State) : (recordCheckItems c s).clockGood = s.clockGood := rfl
@[simp] theorem recordCheckItems_span (c : SelfCheck) (s : State) : (recordCheckItems c s).span = s.span := rfl

/-! ## `startWrite` -/

@[simp] theorem startWrite_clock (w : StoreWrite) (s : State) : (startWrite w s).clock = s.clock := rfl
@[simp] theorem startWrite_choices (w : StoreWrite) (s : State) : (startWrite w s).choices = s.choices := rfl
@[simp] theorem startWrite_pending (w : StoreWrite) (s : State) : (startWrite w s).pending = s.pending := rfl
@[simp] theorem startWrite_lines (w : StoreWrite) (s : State) : (startWrite w s).lines = s.lines := rfl
@[simp] theorem startWrite_tar (w : StoreWrite) (s : State) : (startWrite w s).tar = s.tar := rfl
@[simp] theorem startWrite_mrg (w : StoreWrite) (s : State) : (startWrite w s).mrg = s.mrg := rfl
@[simp] theorem startWrite_kch (w : StoreWrite) (s : State) : (startWrite w s).kch = s.kch := rfl
@[simp] theorem startWrite_seu (w : StoreWrite) (s : State) : (startWrite w s).seu = s.seu := rfl
@[simp] theorem startWrite_ids (w : StoreWrite) (s : State) : (startWrite w s).ids = s.ids := rfl
@[simp] theorem startWrite_ilm (w : StoreWrite) (s : State) : (startWrite w s).ilm = s.ilm := rfl
@[simp] theorem startWrite_spc (w : StoreWrite) (s : State) : (startWrite w s).spc = s.spc := rfl
@[simp] theorem startWrite_lp (w : StoreWrite) (s : State) : (startWrite w s).lp = s.lp := rfl
@[simp] theorem startWrite_ntu (w : StoreWrite) (s : State) : (startWrite w s).ntu = s.ntu := rfl
@[simp] theorem startWrite_journal (w : StoreWrite) (s : State) : (startWrite w s).journal = s.journal := rfl
@[simp] theorem startWrite_powerHeld (w : StoreWrite) (s : State) : (startWrite w s).powerHeld = s.powerHeld := rfl
@[simp] theorem startWrite_clockGood (w : StoreWrite) (s : State) : (startWrite w s).clockGood = s.clockGood := rfl
@[simp] theorem startWrite_span (w : StoreWrite) (s : State) : (startWrite w s).span = s.span := rfl

/-! ## `staleSetting` -/

@[simp] theorem staleSetting_clock (s : State) : (staleSetting s).clock = s.clock := rfl
@[simp] theorem staleSetting_choices (s : State) : (staleSetting s).choices = s.choices := rfl
@[simp] theorem staleSetting_pending (s : State) : (staleSetting s).pending = s.pending := rfl
@[simp] theorem staleSetting_lines (s : State) : (staleSetting s).lines = s.lines := rfl
@[simp] theorem staleSetting_tar (s : State) : (staleSetting s).tar = s.tar := rfl
@[simp] theorem staleSetting_mrg (s : State) : (staleSetting s).mrg = s.mrg := rfl
@[simp] theorem staleSetting_kch (s : State) : (staleSetting s).kch = s.kch := rfl
@[simp] theorem staleSetting_ids (s : State) : (staleSetting s).ids = s.ids := rfl
@[simp] theorem staleSetting_ilm (s : State) : (staleSetting s).ilm = s.ilm := rfl
@[simp] theorem staleSetting_spc (s : State) : (staleSetting s).spc = s.spc := rfl
@[simp] theorem staleSetting_lp (s : State) : (staleSetting s).lp = s.lp := rfl
@[simp] theorem staleSetting_ntu (s : State) : (staleSetting s).ntu = s.ntu := rfl
@[simp] theorem staleSetting_journal (s : State) : (staleSetting s).journal = s.journal := rfl
@[simp] theorem staleSetting_cst (s : State) : (staleSetting s).cst = s.cst := rfl
@[simp] theorem staleSetting_powerHeld (s : State) : (staleSetting s).powerHeld = s.powerHeld := rfl
@[simp] theorem staleSetting_clockGood (s : State) : (staleSetting s).clockGood = s.clockGood := rfl
@[simp] theorem staleSetting_span (s : State) : (staleSetting s).span = s.span := rfl

/-! ## `confirmSetting` -/

@[simp] theorem confirmSetting_clock (x : Setting) (s : State) : (confirmSetting x s).clock = s.clock := rfl
@[simp] theorem confirmSetting_choices (x : Setting) (s : State) : (confirmSetting x s).choices = s.choices := rfl
@[simp] theorem confirmSetting_pending (x : Setting) (s : State) : (confirmSetting x s).pending = s.pending := rfl
@[simp] theorem confirmSetting_lines (x : Setting) (s : State) : (confirmSetting x s).lines = s.lines := rfl
@[simp] theorem confirmSetting_tar (x : Setting) (s : State) : (confirmSetting x s).tar = s.tar := rfl
@[simp] theorem confirmSetting_mrg (x : Setting) (s : State) : (confirmSetting x s).mrg = s.mrg := rfl
@[simp] theorem confirmSetting_kch (x : Setting) (s : State) : (confirmSetting x s).kch = s.kch := rfl
@[simp] theorem confirmSetting_ids (x : Setting) (s : State) : (confirmSetting x s).ids = s.ids := rfl
@[simp] theorem confirmSetting_ilm (x : Setting) (s : State) : (confirmSetting x s).ilm = s.ilm := rfl
@[simp] theorem confirmSetting_spc (x : Setting) (s : State) : (confirmSetting x s).spc = s.spc := rfl
@[simp] theorem confirmSetting_lp (x : Setting) (s : State) : (confirmSetting x s).lp = s.lp := rfl
@[simp] theorem confirmSetting_ntu (x : Setting) (s : State) : (confirmSetting x s).ntu = s.ntu := rfl
@[simp] theorem confirmSetting_journal (x : Setting) (s : State) : (confirmSetting x s).journal = s.journal := rfl
@[simp] theorem confirmSetting_cst (x : Setting) (s : State) : (confirmSetting x s).cst = s.cst := rfl
@[simp] theorem confirmSetting_powerHeld (x : Setting) (s : State) : (confirmSetting x s).powerHeld = s.powerHeld := rfl
@[simp] theorem confirmSetting_clockGood (x : Setting) (s : State) : (confirmSetting x s).clockGood = s.clockGood := rfl
@[simp] theorem confirmSetting_span (x : Setting) (s : State) : (confirmSetting x s).span = s.span := rfl

/-! ## `enterAwaiting` -/

@[simp] theorem enterAwaiting_clock (r : Requested) (s : State) : (enterAwaiting r s).clock = s.clock := rfl
@[simp] theorem enterAwaiting_choices (r : Requested) (s : State) : (enterAwaiting r s).choices = s.choices := rfl
@[simp] theorem enterAwaiting_pending (r : Requested) (s : State) : (enterAwaiting r s).pending = s.pending := rfl
@[simp] theorem enterAwaiting_lines (r : Requested) (s : State) : (enterAwaiting r s).lines = s.lines := rfl
@[simp] theorem enterAwaiting_tar (r : Requested) (s : State) : (enterAwaiting r s).tar = s.tar := rfl
@[simp] theorem enterAwaiting_mrg (r : Requested) (s : State) : (enterAwaiting r s).mrg = s.mrg := rfl
@[simp] theorem enterAwaiting_kch (r : Requested) (s : State) : (enterAwaiting r s).kch = s.kch := rfl
@[simp] theorem enterAwaiting_ids (r : Requested) (s : State) : (enterAwaiting r s).ids = s.ids := rfl
@[simp] theorem enterAwaiting_ilm (r : Requested) (s : State) : (enterAwaiting r s).ilm = s.ilm := rfl
@[simp] theorem enterAwaiting_spc (r : Requested) (s : State) : (enterAwaiting r s).spc = s.spc := rfl
@[simp] theorem enterAwaiting_lp (r : Requested) (s : State) : (enterAwaiting r s).lp = s.lp := rfl
@[simp] theorem enterAwaiting_ntu (r : Requested) (s : State) : (enterAwaiting r s).ntu = s.ntu := rfl
@[simp] theorem enterAwaiting_journal (r : Requested) (s : State) : (enterAwaiting r s).journal = s.journal := rfl
@[simp] theorem enterAwaiting_cst (r : Requested) (s : State) : (enterAwaiting r s).cst = s.cst := rfl
@[simp] theorem enterAwaiting_powerHeld (r : Requested) (s : State) : (enterAwaiting r s).powerHeld = s.powerHeld := rfl
@[simp] theorem enterAwaiting_clockGood (r : Requested) (s : State) : (enterAwaiting r s).clockGood = s.clockGood := rfl
@[simp] theorem enterAwaiting_span (r : Requested) (s : State) : (enterAwaiting r s).span = s.span := rfl

/-! ## `acceptOffer` -/

@[simp] theorem acceptOffer_clock (t : OfferedTurn) (s : State) : (acceptOffer t s).clock = s.clock := rfl
@[simp] theorem acceptOffer_choices (t : OfferedTurn) (s : State) : (acceptOffer t s).choices = s.choices := rfl
@[simp] theorem acceptOffer_pending (t : OfferedTurn) (s : State) : (acceptOffer t s).pending = s.pending := rfl
@[simp] theorem acceptOffer_lines (t : OfferedTurn) (s : State) : (acceptOffer t s).lines = s.lines := rfl
@[simp] theorem acceptOffer_mrg (t : OfferedTurn) (s : State) : (acceptOffer t s).mrg = s.mrg := rfl
@[simp] theorem acceptOffer_kch (t : OfferedTurn) (s : State) : (acceptOffer t s).kch = s.kch := rfl
@[simp] theorem acceptOffer_seu (t : OfferedTurn) (s : State) : (acceptOffer t s).seu = s.seu := rfl
@[simp] theorem acceptOffer_ids (t : OfferedTurn) (s : State) : (acceptOffer t s).ids = s.ids := rfl
@[simp] theorem acceptOffer_ilm (t : OfferedTurn) (s : State) : (acceptOffer t s).ilm = s.ilm := rfl
@[simp] theorem acceptOffer_spc (t : OfferedTurn) (s : State) : (acceptOffer t s).spc = s.spc := rfl
@[simp] theorem acceptOffer_lp (t : OfferedTurn) (s : State) : (acceptOffer t s).lp = s.lp := rfl
@[simp] theorem acceptOffer_ntu (t : OfferedTurn) (s : State) : (acceptOffer t s).ntu = s.ntu := rfl
@[simp] theorem acceptOffer_journal (t : OfferedTurn) (s : State) : (acceptOffer t s).journal = s.journal := rfl
@[simp] theorem acceptOffer_cst (t : OfferedTurn) (s : State) : (acceptOffer t s).cst = s.cst := rfl
@[simp] theorem acceptOffer_powerHeld (t : OfferedTurn) (s : State) : (acceptOffer t s).powerHeld = s.powerHeld := rfl
@[simp] theorem acceptOffer_clockGood (t : OfferedTurn) (s : State) : (acceptOffer t s).clockGood = s.clockGood := rfl
@[simp] theorem acceptOffer_span (t : OfferedTurn) (s : State) : (acceptOffer t s).span = s.span := rfl

/-! ## `setSuspended` -/

@[simp] theorem setSuspended_clock (m : Nat) (b : Bool) (s : State) : (setSuspended m b s).clock = s.clock := rfl
@[simp] theorem setSuspended_choices (m : Nat) (b : Bool) (s : State) : (setSuspended m b s).choices = s.choices := rfl
@[simp] theorem setSuspended_pending (m : Nat) (b : Bool) (s : State) : (setSuspended m b s).pending = s.pending := rfl
@[simp] theorem setSuspended_lines (m : Nat) (b : Bool) (s : State) : (setSuspended m b s).lines = s.lines := rfl
@[simp] theorem setSuspended_tar (m : Nat) (b : Bool) (s : State) : (setSuspended m b s).tar = s.tar := rfl
@[simp] theorem setSuspended_kch (m : Nat) (b : Bool) (s : State) : (setSuspended m b s).kch = s.kch := rfl
@[simp] theorem setSuspended_seu (m : Nat) (b : Bool) (s : State) : (setSuspended m b s).seu = s.seu := rfl
@[simp] theorem setSuspended_ids (m : Nat) (b : Bool) (s : State) : (setSuspended m b s).ids = s.ids := rfl
@[simp] theorem setSuspended_ilm (m : Nat) (b : Bool) (s : State) : (setSuspended m b s).ilm = s.ilm := rfl
@[simp] theorem setSuspended_spc (m : Nat) (b : Bool) (s : State) : (setSuspended m b s).spc = s.spc := rfl
@[simp] theorem setSuspended_lp (m : Nat) (b : Bool) (s : State) : (setSuspended m b s).lp = s.lp := rfl
@[simp] theorem setSuspended_ntu (m : Nat) (b : Bool) (s : State) : (setSuspended m b s).ntu = s.ntu := rfl
@[simp] theorem setSuspended_journal (m : Nat) (b : Bool) (s : State) : (setSuspended m b s).journal = s.journal := rfl
@[simp] theorem setSuspended_cst (m : Nat) (b : Bool) (s : State) : (setSuspended m b s).cst = s.cst := rfl
@[simp] theorem setSuspended_powerHeld (m : Nat) (b : Bool) (s : State) : (setSuspended m b s).powerHeld = s.powerHeld := rfl
@[simp] theorem setSuspended_clockGood (m : Nat) (b : Bool) (s : State) : (setSuspended m b s).clockGood = s.clockGood := rfl
@[simp] theorem setSuspended_span (m : Nat) (b : Bool) (s : State) : (setSuspended m b s).span = s.span := rfl

/-! ## `clearQuiet` -/

@[simp] theorem clearQuiet_clock (s : State) : (clearQuiet s).clock = s.clock := rfl
@[simp] theorem clearQuiet_choices (s : State) : (clearQuiet s).choices = s.choices := rfl
@[simp] theorem clearQuiet_pending (s : State) : (clearQuiet s).pending = s.pending := rfl
@[simp] theorem clearQuiet_lines (s : State) : (clearQuiet s).lines = s.lines := rfl
@[simp] theorem clearQuiet_tar (s : State) : (clearQuiet s).tar = s.tar := rfl
@[simp] theorem clearQuiet_mrg (s : State) : (clearQuiet s).mrg = s.mrg := rfl
@[simp] theorem clearQuiet_kch (s : State) : (clearQuiet s).kch = s.kch := rfl
@[simp] theorem clearQuiet_seu (s : State) : (clearQuiet s).seu = s.seu := rfl
@[simp] theorem clearQuiet_ids (s : State) : (clearQuiet s).ids = s.ids := rfl
@[simp] theorem clearQuiet_spc (s : State) : (clearQuiet s).spc = s.spc := rfl
@[simp] theorem clearQuiet_lp (s : State) : (clearQuiet s).lp = s.lp := rfl
@[simp] theorem clearQuiet_ntu (s : State) : (clearQuiet s).ntu = s.ntu := rfl
@[simp] theorem clearQuiet_journal (s : State) : (clearQuiet s).journal = s.journal := rfl
@[simp] theorem clearQuiet_cst (s : State) : (clearQuiet s).cst = s.cst := rfl
@[simp] theorem clearQuiet_powerHeld (s : State) : (clearQuiet s).powerHeld = s.powerHeld := rfl
@[simp] theorem clearQuiet_clockGood (s : State) : (clearQuiet s).clockGood = s.clockGood := rfl
@[simp] theorem clearQuiet_span (s : State) : (clearQuiet s).span = s.span := rfl

/-! ## Updates that test the state first -/

@[simp] theorem raise_clock (c : Cause) (s : State) : (raise c s).clock = s.clock := by
  unfold raise; split <;> rfl
@[simp] theorem raise_choices (c : Cause) (s : State) : (raise c s).choices = s.choices := by
  unfold raise; split <;> rfl
@[simp] theorem raise_pending (c : Cause) (s : State) : (raise c s).pending = s.pending := by
  unfold raise; split <;> rfl
@[simp] theorem raise_lines (c : Cause) (s : State) : (raise c s).lines = s.lines := by
  unfold raise; split <;> rfl
@[simp] theorem raise_tar (c : Cause) (s : State) : (raise c s).tar = s.tar := by
  unfold raise; split <;> rfl
@[simp] theorem raise_mrg (c : Cause) (s : State) : (raise c s).mrg = s.mrg := by
  unfold raise; split <;> rfl
@[simp] theorem raise_kch (c : Cause) (s : State) : (raise c s).kch = s.kch := by
  unfold raise; split <;> rfl
@[simp] theorem raise_seu (c : Cause) (s : State) : (raise c s).seu = s.seu := by
  unfold raise; split <;> rfl
@[simp] theorem raise_ids (c : Cause) (s : State) : (raise c s).ids = s.ids := by
  unfold raise; split <;> rfl
@[simp] theorem raise_ilm (c : Cause) (s : State) : (raise c s).ilm = s.ilm := by
  unfold raise; split <;> rfl
@[simp] theorem raise_spc (c : Cause) (s : State) : (raise c s).spc = s.spc := by
  unfold raise; split <;> rfl
@[simp] theorem raise_lp (c : Cause) (s : State) : (raise c s).lp = s.lp := by
  unfold raise; split <;> rfl
@[simp] theorem raise_journal (c : Cause) (s : State) : (raise c s).journal = s.journal := by
  unfold raise; split <;> rfl
@[simp] theorem raise_cst (c : Cause) (s : State) : (raise c s).cst = s.cst := by
  unfold raise; split <;> rfl
@[simp] theorem raise_powerHeld (c : Cause) (s : State) : (raise c s).powerHeld = s.powerHeld := by
  unfold raise; split <;> rfl
@[simp] theorem raise_clockGood (c : Cause) (s : State) : (raise c s).clockGood = s.clockGood := by
  unfold raise; split <;> rfl
@[simp] theorem raise_span (c : Cause) (s : State) : (raise c s).span = s.span := by
  unfold raise; split <;> rfl

@[simp] theorem writeJournal_clock (b : JournalBody) (s : State) : (writeJournal b s).clock = s.clock := by
  unfold writeJournal; dsimp only; split <;> simp
@[simp] theorem writeJournal_choices (b : JournalBody) (s : State) : (writeJournal b s).choices = s.choices := by
  unfold writeJournal; dsimp only; split <;> simp
@[simp] theorem writeJournal_pending (b : JournalBody) (s : State) : (writeJournal b s).pending = s.pending := by
  unfold writeJournal; dsimp only; split <;> simp
@[simp] theorem writeJournal_lines (b : JournalBody) (s : State) : (writeJournal b s).lines = s.lines := by
  unfold writeJournal; dsimp only; split <;> simp
@[simp] theorem writeJournal_tar (b : JournalBody) (s : State) : (writeJournal b s).tar = s.tar := by
  unfold writeJournal; dsimp only; split <;> simp
@[simp] theorem writeJournal_mrg (b : JournalBody) (s : State) : (writeJournal b s).mrg = s.mrg := by
  unfold writeJournal; dsimp only; split <;> simp
@[simp] theorem writeJournal_kch (b : JournalBody) (s : State) : (writeJournal b s).kch = s.kch := by
  unfold writeJournal; dsimp only; split <;> simp
@[simp] theorem writeJournal_seu (b : JournalBody) (s : State) : (writeJournal b s).seu = s.seu := by
  unfold writeJournal; dsimp only; split <;> simp
@[simp] theorem writeJournal_ids (b : JournalBody) (s : State) : (writeJournal b s).ids = s.ids := by
  unfold writeJournal; dsimp only; split <;> simp
@[simp] theorem writeJournal_ilm (b : JournalBody) (s : State) : (writeJournal b s).ilm = s.ilm := by
  unfold writeJournal; dsimp only; split <;> simp
@[simp] theorem writeJournal_spc (b : JournalBody) (s : State) : (writeJournal b s).spc = s.spc := by
  unfold writeJournal; dsimp only; split <;> simp
@[simp] theorem writeJournal_lp (b : JournalBody) (s : State) : (writeJournal b s).lp = s.lp := by
  unfold writeJournal; dsimp only; split <;> simp
@[simp] theorem writeJournal_cst (b : JournalBody) (s : State) : (writeJournal b s).cst = s.cst := by
  unfold writeJournal; dsimp only; split <;> simp
@[simp] theorem writeJournal_powerHeld (b : JournalBody) (s : State) : (writeJournal b s).powerHeld = s.powerHeld := by
  unfold writeJournal; dsimp only; split <;> simp
@[simp] theorem writeJournal_clockGood (b : JournalBody) (s : State) : (writeJournal b s).clockGood = s.clockGood := by
  unfold writeJournal; dsimp only; split <;> simp
@[simp] theorem writeJournal_span (b : JournalBody) (s : State) : (writeJournal b s).span = s.span := by
  unfold writeJournal; dsimp only; split <;> simp

@[simp] theorem setIdleDeadline_clock (d : Option Nat) (s : State) : (setIdleDeadline d s).clock = s.clock := by
  unfold setIdleDeadline; split <;> rfl
@[simp] theorem setIdleDeadline_choices (d : Option Nat) (s : State) : (setIdleDeadline d s).choices = s.choices := by
  unfold setIdleDeadline; split <;> rfl
@[simp] theorem setIdleDeadline_pending (d : Option Nat) (s : State) : (setIdleDeadline d s).pending = s.pending := by
  unfold setIdleDeadline; split <;> rfl
@[simp] theorem setIdleDeadline_lines (d : Option Nat) (s : State) : (setIdleDeadline d s).lines = s.lines := by
  unfold setIdleDeadline; split <;> rfl
@[simp] theorem setIdleDeadline_mrg (d : Option Nat) (s : State) : (setIdleDeadline d s).mrg = s.mrg := by
  unfold setIdleDeadline; split <;> rfl
@[simp] theorem setIdleDeadline_kch (d : Option Nat) (s : State) : (setIdleDeadline d s).kch = s.kch := by
  unfold setIdleDeadline; split <;> rfl
@[simp] theorem setIdleDeadline_seu (d : Option Nat) (s : State) : (setIdleDeadline d s).seu = s.seu := by
  unfold setIdleDeadline; split <;> rfl
@[simp] theorem setIdleDeadline_ids (d : Option Nat) (s : State) : (setIdleDeadline d s).ids = s.ids := by
  unfold setIdleDeadline; split <;> rfl
@[simp] theorem setIdleDeadline_ilm (d : Option Nat) (s : State) : (setIdleDeadline d s).ilm = s.ilm := by
  unfold setIdleDeadline; split <;> rfl
@[simp] theorem setIdleDeadline_spc (d : Option Nat) (s : State) : (setIdleDeadline d s).spc = s.spc := by
  unfold setIdleDeadline; split <;> rfl
@[simp] theorem setIdleDeadline_lp (d : Option Nat) (s : State) : (setIdleDeadline d s).lp = s.lp := by
  unfold setIdleDeadline; split <;> rfl
@[simp] theorem setIdleDeadline_ntu (d : Option Nat) (s : State) : (setIdleDeadline d s).ntu = s.ntu := by
  unfold setIdleDeadline; split <;> rfl
@[simp] theorem setIdleDeadline_journal (d : Option Nat) (s : State) : (setIdleDeadline d s).journal = s.journal := by
  unfold setIdleDeadline; split <;> rfl
@[simp] theorem setIdleDeadline_cst (d : Option Nat) (s : State) : (setIdleDeadline d s).cst = s.cst := by
  unfold setIdleDeadline; split <;> rfl
@[simp] theorem setIdleDeadline_powerHeld (d : Option Nat) (s : State) : (setIdleDeadline d s).powerHeld = s.powerHeld := by
  unfold setIdleDeadline; split <;> rfl
@[simp] theorem setIdleDeadline_clockGood (d : Option Nat) (s : State) : (setIdleDeadline d s).clockGood = s.clockGood := by
  unfold setIdleDeadline; split <;> rfl
@[simp] theorem setIdleDeadline_span (d : Option Nat) (s : State) : (setIdleDeadline d s).span = s.span := by
  unfold setIdleDeadline; split <;> rfl

@[simp] theorem startIdleDeadline_clock (s : State) : (startIdleDeadline s).clock = s.clock := by
  simp [startIdleDeadline]
@[simp] theorem startIdleDeadline_choices (s : State) : (startIdleDeadline s).choices = s.choices := by
  simp [startIdleDeadline]
@[simp] theorem startIdleDeadline_pending (s : State) : (startIdleDeadline s).pending = s.pending := by
  simp [startIdleDeadline]
@[simp] theorem startIdleDeadline_lines (s : State) : (startIdleDeadline s).lines = s.lines := by
  simp [startIdleDeadline]
@[simp] theorem startIdleDeadline_mrg (s : State) : (startIdleDeadline s).mrg = s.mrg := by
  simp [startIdleDeadline]
@[simp] theorem startIdleDeadline_kch (s : State) : (startIdleDeadline s).kch = s.kch := by
  simp [startIdleDeadline]
@[simp] theorem startIdleDeadline_seu (s : State) : (startIdleDeadline s).seu = s.seu := by
  simp [startIdleDeadline]
@[simp] theorem startIdleDeadline_ids (s : State) : (startIdleDeadline s).ids = s.ids := by
  simp [startIdleDeadline]
@[simp] theorem startIdleDeadline_ilm (s : State) : (startIdleDeadline s).ilm = s.ilm := by
  simp [startIdleDeadline]
@[simp] theorem startIdleDeadline_spc (s : State) : (startIdleDeadline s).spc = s.spc := by
  simp [startIdleDeadline]
@[simp] theorem startIdleDeadline_lp (s : State) : (startIdleDeadline s).lp = s.lp := by
  simp [startIdleDeadline]
@[simp] theorem startIdleDeadline_ntu (s : State) : (startIdleDeadline s).ntu = s.ntu := by
  simp [startIdleDeadline]
@[simp] theorem startIdleDeadline_journal (s : State) : (startIdleDeadline s).journal = s.journal := by
  simp [startIdleDeadline]
@[simp] theorem startIdleDeadline_cst (s : State) : (startIdleDeadline s).cst = s.cst := by
  simp [startIdleDeadline]
@[simp] theorem startIdleDeadline_powerHeld (s : State) : (startIdleDeadline s).powerHeld = s.powerHeld := by
  simp [startIdleDeadline]
@[simp] theorem startIdleDeadline_clockGood (s : State) : (startIdleDeadline s).clockGood = s.clockGood := by
  simp [startIdleDeadline]
@[simp] theorem startIdleDeadline_span (s : State) : (startIdleDeadline s).span = s.span := by
  simp [startIdleDeadline]

@[simp] theorem startFilter_clock (i : Input) (b : Bool) (s : State) : (startFilter i b s).clock = s.clock := by
  unfold startFilter; dsimp only; split <;> rfl
@[simp] theorem startFilter_choices (i : Input) (b : Bool) (s : State) : (startFilter i b s).choices = s.choices := by
  unfold startFilter; dsimp only; split <;> rfl
@[simp] theorem startFilter_pending (i : Input) (b : Bool) (s : State) : (startFilter i b s).pending = s.pending := by
  unfold startFilter; dsimp only; split <;> rfl
@[simp] theorem startFilter_lines (i : Input) (b : Bool) (s : State) : (startFilter i b s).lines = s.lines := by
  unfold startFilter; dsimp only; split <;> rfl
@[simp] theorem startFilter_tar (i : Input) (b : Bool) (s : State) : (startFilter i b s).tar = s.tar := by
  unfold startFilter; dsimp only; split <;> rfl
@[simp] theorem startFilter_mrg (i : Input) (b : Bool) (s : State) : (startFilter i b s).mrg = s.mrg := by
  unfold startFilter; dsimp only; split <;> rfl
@[simp] theorem startFilter_kch (i : Input) (b : Bool) (s : State) : (startFilter i b s).kch = s.kch := by
  unfold startFilter; dsimp only; split <;> rfl
@[simp] theorem startFilter_seu (i : Input) (b : Bool) (s : State) : (startFilter i b s).seu = s.seu := by
  unfold startFilter; dsimp only; split <;> rfl
@[simp] theorem startFilter_ids (i : Input) (b : Bool) (s : State) : (startFilter i b s).ids = s.ids := by
  unfold startFilter; dsimp only; split <;> rfl
@[simp] theorem startFilter_spc (i : Input) (b : Bool) (s : State) : (startFilter i b s).spc = s.spc := by
  unfold startFilter; dsimp only; split <;> rfl
@[simp] theorem startFilter_lp (i : Input) (b : Bool) (s : State) : (startFilter i b s).lp = s.lp := by
  unfold startFilter; dsimp only; split <;> rfl
@[simp] theorem startFilter_ntu (i : Input) (b : Bool) (s : State) : (startFilter i b s).ntu = s.ntu := by
  unfold startFilter; dsimp only; split <;> rfl
@[simp] theorem startFilter_journal (i : Input) (b : Bool) (s : State) : (startFilter i b s).journal = s.journal := by
  unfold startFilter; dsimp only; split <;> rfl
@[simp] theorem startFilter_cst (i : Input) (b : Bool) (s : State) : (startFilter i b s).cst = s.cst := by
  unfold startFilter; dsimp only; split <;> rfl
@[simp] theorem startFilter_powerHeld (i : Input) (b : Bool) (s : State) : (startFilter i b s).powerHeld = s.powerHeld := by
  unfold startFilter; dsimp only; split <;> rfl
@[simp] theorem startFilter_clockGood (i : Input) (b : Bool) (s : State) : (startFilter i b s).clockGood = s.clockGood := by
  unfold startFilter; dsimp only; split <;> rfl
@[simp] theorem startFilter_span (i : Input) (b : Bool) (s : State) : (startFilter i b s).span = s.span := by
  unfold startFilter; dsimp only; split <;> rfl

@[simp] theorem senseInput_clock (i : Input) (s : State) : (senseInput i s).clock = s.clock := by
  unfold senseInput; split <;> split <;> simp
@[simp] theorem senseInput_choices (i : Input) (s : State) : (senseInput i s).choices = s.choices := by
  unfold senseInput; split <;> split <;> simp
@[simp] theorem senseInput_pending (i : Input) (s : State) : (senseInput i s).pending = s.pending := by
  unfold senseInput; split <;> split <;> simp
@[simp] theorem senseInput_lines (i : Input) (s : State) : (senseInput i s).lines = s.lines := by
  unfold senseInput; split <;> split <;> simp
@[simp] theorem senseInput_tar (i : Input) (s : State) : (senseInput i s).tar = s.tar := by
  unfold senseInput; split <;> split <;> simp
@[simp] theorem senseInput_mrg (i : Input) (s : State) : (senseInput i s).mrg = s.mrg := by
  unfold senseInput; split <;> split <;> simp
@[simp] theorem senseInput_kch (i : Input) (s : State) : (senseInput i s).kch = s.kch := by
  unfold senseInput; split <;> split <;> simp
@[simp] theorem senseInput_seu (i : Input) (s : State) : (senseInput i s).seu = s.seu := by
  unfold senseInput; split <;> split <;> simp
@[simp] theorem senseInput_ids (i : Input) (s : State) : (senseInput i s).ids = s.ids := by
  unfold senseInput; split <;> split <;> simp
@[simp] theorem senseInput_spc (i : Input) (s : State) : (senseInput i s).spc = s.spc := by
  unfold senseInput; split <;> split <;> simp
@[simp] theorem senseInput_lp (i : Input) (s : State) : (senseInput i s).lp = s.lp := by
  unfold senseInput; split <;> split <;> simp
@[simp] theorem senseInput_ntu (i : Input) (s : State) : (senseInput i s).ntu = s.ntu := by
  unfold senseInput; split <;> split <;> simp
@[simp] theorem senseInput_journal (i : Input) (s : State) : (senseInput i s).journal = s.journal := by
  unfold senseInput; split <;> split <;> simp
@[simp] theorem senseInput_cst (i : Input) (s : State) : (senseInput i s).cst = s.cst := by
  unfold senseInput; split <;> split <;> simp
@[simp] theorem senseInput_powerHeld (i : Input) (s : State) : (senseInput i s).powerHeld = s.powerHeld := by
  unfold senseInput; split <;> split <;> simp
@[simp] theorem senseInput_clockGood (i : Input) (s : State) : (senseInput i s).clockGood = s.clockGood := by
  unfold senseInput; split <;> split <;> simp
@[simp] theorem senseInput_span (i : Input) (s : State) : (senseInput i s).span = s.span := by
  unfold senseInput; split <;> split <;> simp

@[simp] theorem senseAll_clock (s : State) : (senseAll s).clock = s.clock := by
  simp [senseAll]
@[simp] theorem senseAll_choices (s : State) : (senseAll s).choices = s.choices := by
  simp [senseAll]
@[simp] theorem senseAll_pending (s : State) : (senseAll s).pending = s.pending := by
  simp [senseAll]
@[simp] theorem senseAll_lines (s : State) : (senseAll s).lines = s.lines := by
  simp [senseAll]
@[simp] theorem senseAll_tar (s : State) : (senseAll s).tar = s.tar := by
  simp [senseAll]
@[simp] theorem senseAll_mrg (s : State) : (senseAll s).mrg = s.mrg := by
  simp [senseAll]
@[simp] theorem senseAll_kch (s : State) : (senseAll s).kch = s.kch := by
  simp [senseAll]
@[simp] theorem senseAll_seu (s : State) : (senseAll s).seu = s.seu := by
  simp [senseAll]
@[simp] theorem senseAll_ids (s : State) : (senseAll s).ids = s.ids := by
  simp [senseAll]
@[simp] theorem senseAll_spc (s : State) : (senseAll s).spc = s.spc := by
  simp [senseAll]
@[simp] theorem senseAll_lp (s : State) : (senseAll s).lp = s.lp := by
  simp [senseAll]
@[simp] theorem senseAll_ntu (s : State) : (senseAll s).ntu = s.ntu := by
  simp [senseAll]
@[simp] theorem senseAll_journal (s : State) : (senseAll s).journal = s.journal := by
  simp [senseAll]
@[simp] theorem senseAll_cst (s : State) : (senseAll s).cst = s.cst := by
  simp [senseAll]
@[simp] theorem senseAll_powerHeld (s : State) : (senseAll s).powerHeld = s.powerHeld := by
  simp [senseAll]
@[simp] theorem senseAll_clockGood (s : State) : (senseAll s).clockGood = s.clockGood := by
  simp [senseAll]
@[simp] theorem senseAll_span (s : State) : (senseAll s).span = s.span := by
  simp [senseAll]

@[simp] theorem filterExpires_clock (i : Input) (s : State) : (filterExpires i s).clock = s.clock := by
  unfold filterExpires; split <;> simp
@[simp] theorem filterExpires_choices (i : Input) (s : State) : (filterExpires i s).choices = s.choices := by
  unfold filterExpires; split <;> simp
@[simp] theorem filterExpires_pending (i : Input) (s : State) : (filterExpires i s).pending = s.pending := by
  unfold filterExpires; split <;> simp
@[simp] theorem filterExpires_lines (i : Input) (s : State) : (filterExpires i s).lines = s.lines := by
  unfold filterExpires; split <;> simp
@[simp] theorem filterExpires_tar (i : Input) (s : State) : (filterExpires i s).tar = s.tar := by
  unfold filterExpires; split <;> simp
@[simp] theorem filterExpires_mrg (i : Input) (s : State) : (filterExpires i s).mrg = s.mrg := by
  unfold filterExpires; split <;> simp
@[simp] theorem filterExpires_kch (i : Input) (s : State) : (filterExpires i s).kch = s.kch := by
  unfold filterExpires; split <;> simp
@[simp] theorem filterExpires_seu (i : Input) (s : State) : (filterExpires i s).seu = s.seu := by
  unfold filterExpires; split <;> simp
@[simp] theorem filterExpires_ids (i : Input) (s : State) : (filterExpires i s).ids = s.ids := by
  unfold filterExpires; split <;> simp
@[simp] theorem filterExpires_spc (i : Input) (s : State) : (filterExpires i s).spc = s.spc := by
  unfold filterExpires; split <;> simp
@[simp] theorem filterExpires_lp (i : Input) (s : State) : (filterExpires i s).lp = s.lp := by
  unfold filterExpires; split <;> simp
@[simp] theorem filterExpires_ntu (i : Input) (s : State) : (filterExpires i s).ntu = s.ntu := by
  unfold filterExpires; split <;> simp
@[simp] theorem filterExpires_journal (i : Input) (s : State) : (filterExpires i s).journal = s.journal := by
  unfold filterExpires; split <;> simp
@[simp] theorem filterExpires_cst (i : Input) (s : State) : (filterExpires i s).cst = s.cst := by
  unfold filterExpires; split <;> simp
@[simp] theorem filterExpires_powerHeld (i : Input) (s : State) : (filterExpires i s).powerHeld = s.powerHeld := by
  unfold filterExpires; split <;> simp
@[simp] theorem filterExpires_clockGood (i : Input) (s : State) : (filterExpires i s).clockGood = s.clockGood := by
  unfold filterExpires; split <;> simp
@[simp] theorem filterExpires_span (i : Input) (s : State) : (filterExpires i s).span = s.span := by
  unfold filterExpires; split <;> simp

@[simp] theorem startBlanking_clock (s : State) : (startBlanking s).clock = s.clock := by
  unfold startBlanking; split <;> simp
@[simp] theorem startBlanking_choices (s : State) : (startBlanking s).choices = s.choices := by
  unfold startBlanking; split <;> simp
@[simp] theorem startBlanking_pending (s : State) : (startBlanking s).pending = s.pending := by
  unfold startBlanking; split <;> simp
@[simp] theorem startBlanking_lines (s : State) : (startBlanking s).lines = s.lines := by
  unfold startBlanking; split <;> simp
@[simp] theorem startBlanking_tar (s : State) : (startBlanking s).tar = s.tar := by
  unfold startBlanking; split <;> simp
@[simp] theorem startBlanking_mrg (s : State) : (startBlanking s).mrg = s.mrg := by
  unfold startBlanking; split <;> simp
@[simp] theorem startBlanking_kch (s : State) : (startBlanking s).kch = s.kch := by
  unfold startBlanking; split <;> simp
@[simp] theorem startBlanking_seu (s : State) : (startBlanking s).seu = s.seu := by
  unfold startBlanking; split <;> simp
@[simp] theorem startBlanking_ids (s : State) : (startBlanking s).ids = s.ids := by
  unfold startBlanking; split <;> simp
@[simp] theorem startBlanking_spc (s : State) : (startBlanking s).spc = s.spc := by
  unfold startBlanking; split <;> simp
@[simp] theorem startBlanking_lp (s : State) : (startBlanking s).lp = s.lp := by
  unfold startBlanking; split <;> simp
@[simp] theorem startBlanking_ntu (s : State) : (startBlanking s).ntu = s.ntu := by
  unfold startBlanking; split <;> simp
@[simp] theorem startBlanking_journal (s : State) : (startBlanking s).journal = s.journal := by
  unfold startBlanking; split <;> simp
@[simp] theorem startBlanking_cst (s : State) : (startBlanking s).cst = s.cst := by
  unfold startBlanking; split <;> simp
@[simp] theorem startBlanking_powerHeld (s : State) : (startBlanking s).powerHeld = s.powerHeld := by
  unfold startBlanking; split <;> simp
@[simp] theorem startBlanking_clockGood (s : State) : (startBlanking s).clockGood = s.clockGood := by
  unfold startBlanking; split <;> simp
@[simp] theorem startBlanking_span (s : State) : (startBlanking s).span = s.span := by
  unfold startBlanking; split <;> simp

@[simp] theorem stopBlanking_clock (s : State) : (stopBlanking s).clock = s.clock := by
  unfold stopBlanking; split <;> simp
@[simp] theorem stopBlanking_choices (s : State) : (stopBlanking s).choices = s.choices := by
  unfold stopBlanking; split <;> simp
@[simp] theorem stopBlanking_pending (s : State) : (stopBlanking s).pending = s.pending := by
  unfold stopBlanking; split <;> simp
@[simp] theorem stopBlanking_lines (s : State) : (stopBlanking s).lines = s.lines := by
  unfold stopBlanking; split <;> simp
@[simp] theorem stopBlanking_tar (s : State) : (stopBlanking s).tar = s.tar := by
  unfold stopBlanking; split <;> simp
@[simp] theorem stopBlanking_mrg (s : State) : (stopBlanking s).mrg = s.mrg := by
  unfold stopBlanking; split <;> simp
@[simp] theorem stopBlanking_kch (s : State) : (stopBlanking s).kch = s.kch := by
  unfold stopBlanking; split <;> simp
@[simp] theorem stopBlanking_seu (s : State) : (stopBlanking s).seu = s.seu := by
  unfold stopBlanking; split <;> simp
@[simp] theorem stopBlanking_ids (s : State) : (stopBlanking s).ids = s.ids := by
  unfold stopBlanking; split <;> simp
@[simp] theorem stopBlanking_spc (s : State) : (stopBlanking s).spc = s.spc := by
  unfold stopBlanking; split <;> simp
@[simp] theorem stopBlanking_lp (s : State) : (stopBlanking s).lp = s.lp := by
  unfold stopBlanking; split <;> simp
@[simp] theorem stopBlanking_ntu (s : State) : (stopBlanking s).ntu = s.ntu := by
  unfold stopBlanking; split <;> simp
@[simp] theorem stopBlanking_journal (s : State) : (stopBlanking s).journal = s.journal := by
  unfold stopBlanking; split <;> simp
@[simp] theorem stopBlanking_cst (s : State) : (stopBlanking s).cst = s.cst := by
  unfold stopBlanking; split <;> simp
@[simp] theorem stopBlanking_powerHeld (s : State) : (stopBlanking s).powerHeld = s.powerHeld := by
  unfold stopBlanking; split <;> simp
@[simp] theorem stopBlanking_clockGood (s : State) : (stopBlanking s).clockGood = s.clockGood := by
  unfold stopBlanking; split <;> simp
@[simp] theorem stopBlanking_span (s : State) : (stopBlanking s).span = s.span := by
  unfold stopBlanking; split <;> simp

@[simp] theorem changePower_clock (p : Power) (c : Option SelfCheck) (s : State) : (changePower p c s).clock = s.clock := by
  simp [changePower]
@[simp] theorem changePower_choices (p : Power) (c : Option SelfCheck) (s : State) : (changePower p c s).choices = s.choices := by
  simp [changePower]
@[simp] theorem changePower_pending (p : Power) (c : Option SelfCheck) (s : State) : (changePower p c s).pending = s.pending := by
  simp [changePower]
@[simp] theorem changePower_lines (p : Power) (c : Option SelfCheck) (s : State) : (changePower p c s).lines = s.lines := by
  simp [changePower]
@[simp] theorem changePower_tar (p : Power) (c : Option SelfCheck) (s : State) : (changePower p c s).tar = s.tar := by
  simp [changePower]
@[simp] theorem changePower_mrg (p : Power) (c : Option SelfCheck) (s : State) : (changePower p c s).mrg = s.mrg := by
  simp [changePower]
@[simp] theorem changePower_kch (p : Power) (c : Option SelfCheck) (s : State) : (changePower p c s).kch = s.kch := by
  simp [changePower]
@[simp] theorem changePower_seu (p : Power) (c : Option SelfCheck) (s : State) : (changePower p c s).seu = s.seu := by
  simp [changePower]
@[simp] theorem changePower_ids (p : Power) (c : Option SelfCheck) (s : State) : (changePower p c s).ids = s.ids := by
  simp [changePower]
@[simp] theorem changePower_ilm (p : Power) (c : Option SelfCheck) (s : State) : (changePower p c s).ilm = s.ilm := by
  simp [changePower]
@[simp] theorem changePower_lp (p : Power) (c : Option SelfCheck) (s : State) : (changePower p c s).lp = s.lp := by
  simp [changePower]
@[simp] theorem changePower_cst (p : Power) (c : Option SelfCheck) (s : State) : (changePower p c s).cst = s.cst := by
  simp [changePower]
@[simp] theorem changePower_powerHeld (p : Power) (c : Option SelfCheck) (s : State) : (changePower p c s).powerHeld = s.powerHeld := by
  simp [changePower]
@[simp] theorem changePower_clockGood (p : Power) (c : Option SelfCheck) (s : State) : (changePower p c s).clockGood = s.clockGood := by
  simp [changePower]
@[simp] theorem changePower_span (p : Power) (c : Option SelfCheck) (s : State) : (changePower p c s).span = s.span := by
  simp [changePower]

@[simp] theorem missIdentification_clock (t : Trigger) (s : State) : (missIdentification t s).clock = s.clock := by
  simp [missIdentification]
@[simp] theorem missIdentification_choices (t : Trigger) (s : State) : (missIdentification t s).choices = s.choices := by
  simp [missIdentification]
@[simp] theorem missIdentification_pending (t : Trigger) (s : State) : (missIdentification t s).pending = s.pending := by
  simp [missIdentification]
@[simp] theorem missIdentification_lines (t : Trigger) (s : State) : (missIdentification t s).lines = s.lines := by
  simp [missIdentification]
@[simp] theorem missIdentification_tar (t : Trigger) (s : State) : (missIdentification t s).tar = s.tar := by
  simp [missIdentification]
@[simp] theorem missIdentification_mrg (t : Trigger) (s : State) : (missIdentification t s).mrg = s.mrg := by
  simp [missIdentification]
@[simp] theorem missIdentification_kch (t : Trigger) (s : State) : (missIdentification t s).kch = s.kch := by
  simp [missIdentification]
@[simp] theorem missIdentification_seu (t : Trigger) (s : State) : (missIdentification t s).seu = s.seu := by
  simp [missIdentification]
@[simp] theorem missIdentification_ilm (t : Trigger) (s : State) : (missIdentification t s).ilm = s.ilm := by
  simp [missIdentification]
@[simp] theorem missIdentification_spc (t : Trigger) (s : State) : (missIdentification t s).spc = s.spc := by
  simp [missIdentification]
@[simp] theorem missIdentification_lp (t : Trigger) (s : State) : (missIdentification t s).lp = s.lp := by
  simp [missIdentification]
@[simp] theorem missIdentification_cst (t : Trigger) (s : State) : (missIdentification t s).cst = s.cst := by
  simp [missIdentification]
@[simp] theorem missIdentification_powerHeld (t : Trigger) (s : State) : (missIdentification t s).powerHeld = s.powerHeld := by
  simp [missIdentification]
@[simp] theorem missIdentification_clockGood (t : Trigger) (s : State) : (missIdentification t s).clockGood = s.clockGood := by
  simp [missIdentification]
@[simp] theorem missIdentification_span (t : Trigger) (s : State) : (missIdentification t s).span = s.span := by
  simp [missIdentification]

@[simp] theorem missedAtOff_clock (s : State) : (missedAtOff s).clock = s.clock := by
  unfold missedAtOff; split <;> simp
@[simp] theorem missedAtOff_choices (s : State) : (missedAtOff s).choices = s.choices := by
  unfold missedAtOff; split <;> simp
@[simp] theorem missedAtOff_pending (s : State) : (missedAtOff s).pending = s.pending := by
  unfold missedAtOff; split <;> simp
@[simp] theorem missedAtOff_lines (s : State) : (missedAtOff s).lines = s.lines := by
  unfold missedAtOff; split <;> simp
@[simp] theorem missedAtOff_tar (s : State) : (missedAtOff s).tar = s.tar := by
  unfold missedAtOff; split <;> simp
@[simp] theorem missedAtOff_mrg (s : State) : (missedAtOff s).mrg = s.mrg := by
  unfold missedAtOff; split <;> simp
@[simp] theorem missedAtOff_kch (s : State) : (missedAtOff s).kch = s.kch := by
  unfold missedAtOff; split <;> simp
@[simp] theorem missedAtOff_seu (s : State) : (missedAtOff s).seu = s.seu := by
  unfold missedAtOff; split <;> simp
@[simp] theorem missedAtOff_ilm (s : State) : (missedAtOff s).ilm = s.ilm := by
  unfold missedAtOff; split <;> simp
@[simp] theorem missedAtOff_spc (s : State) : (missedAtOff s).spc = s.spc := by
  unfold missedAtOff; split <;> simp
@[simp] theorem missedAtOff_lp (s : State) : (missedAtOff s).lp = s.lp := by
  unfold missedAtOff; split <;> simp
@[simp] theorem missedAtOff_cst (s : State) : (missedAtOff s).cst = s.cst := by
  unfold missedAtOff; split <;> simp
@[simp] theorem missedAtOff_powerHeld (s : State) : (missedAtOff s).powerHeld = s.powerHeld := by
  unfold missedAtOff; split <;> simp
@[simp] theorem missedAtOff_clockGood (s : State) : (missedAtOff s).clockGood = s.clockGood := by
  unfold missedAtOff; split <;> simp
@[simp] theorem missedAtOff_span (s : State) : (missedAtOff s).span = s.span := by
  unfold missedAtOff; split <;> simp

@[simp] theorem enterOff_clock (c : Option SelfCheck) (s : State) : (enterOff c s).clock = s.clock := by
  simp [enterOff]
@[simp] theorem enterOff_choices (c : Option SelfCheck) (s : State) : (enterOff c s).choices = s.choices := by
  simp [enterOff]
@[simp] theorem enterOff_pending (c : Option SelfCheck) (s : State) : (enterOff c s).pending = s.pending := by
  simp [enterOff]
@[simp] theorem enterOff_lines (c : Option SelfCheck) (s : State) : (enterOff c s).lines = s.lines := by
  simp [enterOff]
@[simp] theorem enterOff_tar (c : Option SelfCheck) (s : State) : (enterOff c s).tar = s.tar := by
  simp [enterOff]
@[simp] theorem enterOff_mrg (c : Option SelfCheck) (s : State) : (enterOff c s).mrg = s.mrg := by
  simp [enterOff]
@[simp] theorem enterOff_kch (c : Option SelfCheck) (s : State) : (enterOff c s).kch = s.kch := by
  simp [enterOff]
@[simp] theorem enterOff_seu (c : Option SelfCheck) (s : State) : (enterOff c s).seu = s.seu := by
  simp [enterOff]
@[simp] theorem enterOff_lp (c : Option SelfCheck) (s : State) : (enterOff c s).lp = s.lp := by
  simp [enterOff]
@[simp] theorem enterOff_cst (c : Option SelfCheck) (s : State) : (enterOff c s).cst = s.cst := by
  simp [enterOff]
@[simp] theorem enterOff_powerHeld (c : Option SelfCheck) (s : State) : (enterOff c s).powerHeld = s.powerHeld := by
  simp [enterOff]
@[simp] theorem enterOff_clockGood (c : Option SelfCheck) (s : State) : (enterOff c s).clockGood = s.clockGood := by
  simp [enterOff]
@[simp] theorem enterOff_span (c : Option SelfCheck) (s : State) : (enterOff c s).span = s.span := by
  simp [enterOff]

@[simp] theorem enterCooling_clock (s : State) : (enterCooling s).clock = s.clock := by
  unfold enterCooling; dsimp only; split <;> simp
@[simp] theorem enterCooling_choices (s : State) : (enterCooling s).choices = s.choices := by
  unfold enterCooling; dsimp only; split <;> simp
@[simp] theorem enterCooling_pending (s : State) : (enterCooling s).pending = s.pending := by
  unfold enterCooling; dsimp only; split <;> simp
@[simp] theorem enterCooling_lines (s : State) : (enterCooling s).lines = s.lines := by
  unfold enterCooling; dsimp only; split <;> simp
@[simp] theorem enterCooling_tar (s : State) : (enterCooling s).tar = s.tar := by
  unfold enterCooling; dsimp only; split <;> simp
@[simp] theorem enterCooling_mrg (s : State) : (enterCooling s).mrg = s.mrg := by
  unfold enterCooling; dsimp only; split <;> simp
@[simp] theorem enterCooling_kch (s : State) : (enterCooling s).kch = s.kch := by
  unfold enterCooling; dsimp only; split <;> simp
@[simp] theorem enterCooling_seu (s : State) : (enterCooling s).seu = s.seu := by
  unfold enterCooling; dsimp only; split <;> simp
@[simp] theorem enterCooling_lp (s : State) : (enterCooling s).lp = s.lp := by
  unfold enterCooling; dsimp only; split <;> simp
@[simp] theorem enterCooling_cst (s : State) : (enterCooling s).cst = s.cst := by
  unfold enterCooling; dsimp only; split <;> simp
@[simp] theorem enterCooling_powerHeld (s : State) : (enterCooling s).powerHeld = s.powerHeld := by
  unfold enterCooling; dsimp only; split <;> simp
@[simp] theorem enterCooling_clockGood (s : State) : (enterCooling s).clockGood = s.clockGood := by
  unfold enterCooling; dsimp only; split <;> simp
@[simp] theorem enterCooling_span (s : State) : (enterCooling s).span = s.span := by
  unfold enterCooling; dsimp only; split <;> simp

@[simp] theorem comeToRest_clock (c : ChainState) (s : State) : (comeToRest c s).clock = s.clock := by
  simp [comeToRest]
@[simp] theorem comeToRest_choices (c : ChainState) (s : State) : (comeToRest c s).choices = s.choices := by
  simp [comeToRest]
@[simp] theorem comeToRest_pending (c : ChainState) (s : State) : (comeToRest c s).pending = s.pending := by
  simp [comeToRest]
@[simp] theorem comeToRest_lines (c : ChainState) (s : State) : (comeToRest c s).lines = s.lines := by
  simp [comeToRest]
@[simp] theorem comeToRest_tar (c : ChainState) (s : State) : (comeToRest c s).tar = s.tar := by
  simp [comeToRest]
@[simp] theorem comeToRest_mrg (c : ChainState) (s : State) : (comeToRest c s).mrg = s.mrg := by
  simp [comeToRest]
@[simp] theorem comeToRest_seu (c : ChainState) (s : State) : (comeToRest c s).seu = s.seu := by
  simp [comeToRest]
@[simp] theorem comeToRest_ids (c : ChainState) (s : State) : (comeToRest c s).ids = s.ids := by
  simp [comeToRest]
@[simp] theorem comeToRest_spc (c : ChainState) (s : State) : (comeToRest c s).spc = s.spc := by
  simp [comeToRest]
@[simp] theorem comeToRest_lp (c : ChainState) (s : State) : (comeToRest c s).lp = s.lp := by
  simp [comeToRest]
@[simp] theorem comeToRest_ntu (c : ChainState) (s : State) : (comeToRest c s).ntu = s.ntu := by
  simp [comeToRest]
@[simp] theorem comeToRest_journal (c : ChainState) (s : State) : (comeToRest c s).journal = s.journal := by
  simp [comeToRest]
@[simp] theorem comeToRest_cst (c : ChainState) (s : State) : (comeToRest c s).cst = s.cst := by
  simp [comeToRest]
@[simp] theorem comeToRest_powerHeld (c : ChainState) (s : State) : (comeToRest c s).powerHeld = s.powerHeld := by
  simp [comeToRest]
@[simp] theorem comeToRest_clockGood (c : ChainState) (s : State) : (comeToRest c s).clockGood = s.clockGood := by
  simp [comeToRest]
@[simp] theorem comeToRest_span (c : ChainState) (s : State) : (comeToRest c s).span = s.span := by
  simp [comeToRest]

@[simp] theorem missClosing_clock (s : State) : (missClosing s).clock = s.clock := by
  unfold missClosing; split <;> simp
@[simp] theorem missClosing_choices (s : State) : (missClosing s).choices = s.choices := by
  unfold missClosing; split <;> simp
@[simp] theorem missClosing_pending (s : State) : (missClosing s).pending = s.pending := by
  unfold missClosing; split <;> simp
@[simp] theorem missClosing_lines (s : State) : (missClosing s).lines = s.lines := by
  unfold missClosing; split <;> simp
@[simp] theorem missClosing_tar (s : State) : (missClosing s).tar = s.tar := by
  unfold missClosing; split <;> simp
@[simp] theorem missClosing_mrg (s : State) : (missClosing s).mrg = s.mrg := by
  unfold missClosing; split <;> simp
@[simp] theorem missClosing_kch (s : State) : (missClosing s).kch = s.kch := by
  unfold missClosing; split <;> simp
@[simp] theorem missClosing_seu (s : State) : (missClosing s).seu = s.seu := by
  unfold missClosing; split <;> simp
@[simp] theorem missClosing_ilm (s : State) : (missClosing s).ilm = s.ilm := by
  unfold missClosing; split <;> simp
@[simp] theorem missClosing_spc (s : State) : (missClosing s).spc = s.spc := by
  unfold missClosing; split <;> simp
@[simp] theorem missClosing_lp (s : State) : (missClosing s).lp = s.lp := by
  unfold missClosing; split <;> simp
@[simp] theorem missClosing_cst (s : State) : (missClosing s).cst = s.cst := by
  unfold missClosing; split <;> simp
@[simp] theorem missClosing_powerHeld (s : State) : (missClosing s).powerHeld = s.powerHeld := by
  unfold missClosing; split <;> simp
@[simp] theorem missClosing_clockGood (s : State) : (missClosing s).clockGood = s.clockGood := by
  unfold missClosing; split <;> simp
@[simp] theorem missClosing_span (s : State) : (missClosing s).span = s.span := by
  unfold missClosing; split <;> simp

@[simp] theorem displaceLowest_clock (s : State) : (displaceLowest s).clock = s.clock := by
  unfold displaceLowest; split <;> rfl
@[simp] theorem displaceLowest_choices (s : State) : (displaceLowest s).choices = s.choices := by
  unfold displaceLowest; split <;> rfl
@[simp] theorem displaceLowest_pending (s : State) : (displaceLowest s).pending = s.pending := by
  unfold displaceLowest; split <;> rfl
@[simp] theorem displaceLowest_lines (s : State) : (displaceLowest s).lines = s.lines := by
  unfold displaceLowest; split <;> rfl
@[simp] theorem displaceLowest_mrg (s : State) : (displaceLowest s).mrg = s.mrg := by
  unfold displaceLowest; split <;> rfl
@[simp] theorem displaceLowest_kch (s : State) : (displaceLowest s).kch = s.kch := by
  unfold displaceLowest; split <;> rfl
@[simp] theorem displaceLowest_seu (s : State) : (displaceLowest s).seu = s.seu := by
  unfold displaceLowest; split <;> rfl
@[simp] theorem displaceLowest_ids (s : State) : (displaceLowest s).ids = s.ids := by
  unfold displaceLowest; split <;> rfl
@[simp] theorem displaceLowest_ilm (s : State) : (displaceLowest s).ilm = s.ilm := by
  unfold displaceLowest; split <;> rfl
@[simp] theorem displaceLowest_spc (s : State) : (displaceLowest s).spc = s.spc := by
  unfold displaceLowest; split <;> rfl
@[simp] theorem displaceLowest_lp (s : State) : (displaceLowest s).lp = s.lp := by
  unfold displaceLowest; split <;> rfl
@[simp] theorem displaceLowest_ntu (s : State) : (displaceLowest s).ntu = s.ntu := by
  unfold displaceLowest; split <;> rfl
@[simp] theorem displaceLowest_journal (s : State) : (displaceLowest s).journal = s.journal := by
  unfold displaceLowest; split <;> rfl
@[simp] theorem displaceLowest_cst (s : State) : (displaceLowest s).cst = s.cst := by
  unfold displaceLowest; split <;> rfl
@[simp] theorem displaceLowest_powerHeld (s : State) : (displaceLowest s).powerHeld = s.powerHeld := by
  unfold displaceLowest; split <;> rfl
@[simp] theorem displaceLowest_clockGood (s : State) : (displaceLowest s).clockGood = s.clockGood := by
  unfold displaceLowest; split <;> rfl
@[simp] theorem displaceLowest_span (s : State) : (displaceLowest s).span = s.span := by
  unfold displaceLowest; split <;> rfl

@[simp] theorem runSelection_clock (s : State) : (runSelection s).clock = s.clock := by
  unfold runSelection; split; · split <;> simp
  · rfl
@[simp] theorem runSelection_choices (s : State) : (runSelection s).choices = s.choices := by
  unfold runSelection; split; · split <;> simp
  · rfl
@[simp] theorem runSelection_pending (s : State) : (runSelection s).pending = s.pending := by
  unfold runSelection; split; · split <;> simp
  · rfl
@[simp] theorem runSelection_lines (s : State) : (runSelection s).lines = s.lines := by
  unfold runSelection; split; · split <;> simp
  · rfl
@[simp] theorem runSelection_mrg (s : State) : (runSelection s).mrg = s.mrg := by
  unfold runSelection; split; · split <;> simp
  · rfl
@[simp] theorem runSelection_kch (s : State) : (runSelection s).kch = s.kch := by
  unfold runSelection; split; · split <;> simp
  · rfl
@[simp] theorem runSelection_seu (s : State) : (runSelection s).seu = s.seu := by
  unfold runSelection; split; · split <;> simp
  · rfl
@[simp] theorem runSelection_ids (s : State) : (runSelection s).ids = s.ids := by
  unfold runSelection; split; · split <;> simp
  · rfl
@[simp] theorem runSelection_ilm (s : State) : (runSelection s).ilm = s.ilm := by
  unfold runSelection; split; · split <;> simp
  · rfl
@[simp] theorem runSelection_spc (s : State) : (runSelection s).spc = s.spc := by
  unfold runSelection; split; · split <;> simp
  · rfl
@[simp] theorem runSelection_lp (s : State) : (runSelection s).lp = s.lp := by
  unfold runSelection; split; · split <;> simp
  · rfl
@[simp] theorem runSelection_journal (s : State) : (runSelection s).journal = s.journal := by
  unfold runSelection; split; · split <;> simp
  · rfl
@[simp] theorem runSelection_cst (s : State) : (runSelection s).cst = s.cst := by
  unfold runSelection; split; · split <;> simp
  · rfl
@[simp] theorem runSelection_powerHeld (s : State) : (runSelection s).powerHeld = s.powerHeld := by
  unfold runSelection; split; · split <;> simp
  · rfl
@[simp] theorem runSelection_clockGood (s : State) : (runSelection s).clockGood = s.clockGood := by
  unfold runSelection; split; · split <;> simp
  · rfl
@[simp] theorem runSelection_span (s : State) : (runSelection s).span = s.span := by
  unfold runSelection; split; · split <;> simp
  · rfl

@[simp] theorem becomeFree_clock (r : JournalBody) (s : State) : (becomeFree r s).clock = s.clock := by
  unfold becomeFree; dsimp only; split <;> simp
@[simp] theorem becomeFree_choices (r : JournalBody) (s : State) : (becomeFree r s).choices = s.choices := by
  unfold becomeFree; dsimp only; split <;> simp
@[simp] theorem becomeFree_pending (r : JournalBody) (s : State) : (becomeFree r s).pending = s.pending := by
  unfold becomeFree; dsimp only; split <;> simp
@[simp] theorem becomeFree_lines (r : JournalBody) (s : State) : (becomeFree r s).lines = s.lines := by
  unfold becomeFree; dsimp only; split <;> simp
@[simp] theorem becomeFree_mrg (r : JournalBody) (s : State) : (becomeFree r s).mrg = s.mrg := by
  unfold becomeFree; dsimp only; split <;> simp
@[simp] theorem becomeFree_kch (r : JournalBody) (s : State) : (becomeFree r s).kch = s.kch := by
  unfold becomeFree; dsimp only; split <;> simp
@[simp] theorem becomeFree_seu (r : JournalBody) (s : State) : (becomeFree r s).seu = s.seu := by
  unfold becomeFree; dsimp only; split <;> simp
@[simp] theorem becomeFree_lp (r : JournalBody) (s : State) : (becomeFree r s).lp = s.lp := by
  unfold becomeFree; dsimp only; split <;> simp
@[simp] theorem becomeFree_cst (r : JournalBody) (s : State) : (becomeFree r s).cst = s.cst := by
  unfold becomeFree; dsimp only; split <;> simp
@[simp] theorem becomeFree_powerHeld (r : JournalBody) (s : State) : (becomeFree r s).powerHeld = s.powerHeld := by
  unfold becomeFree; dsimp only; split <;> simp
@[simp] theorem becomeFree_clockGood (r : JournalBody) (s : State) : (becomeFree r s).clockGood = s.clockGood := by
  unfold becomeFree; dsimp only; split <;> simp
@[simp] theorem becomeFree_span (r : JournalBody) (s : State) : (becomeFree r s).span = s.span := by
  unfold becomeFree; dsimp only; split <;> simp

@[simp] theorem endOffered_clock (c : EndCause) (t : OfferedTurn) (s : State) : (endOffered c t s).clock = s.clock := by
  simp [endOffered]
@[simp] theorem endOffered_choices (c : EndCause) (t : OfferedTurn) (s : State) : (endOffered c t s).choices = s.choices := by
  simp [endOffered]
@[simp] theorem endOffered_pending (c : EndCause) (t : OfferedTurn) (s : State) : (endOffered c t s).pending = s.pending := by
  simp [endOffered]
@[simp] theorem endOffered_lines (c : EndCause) (t : OfferedTurn) (s : State) : (endOffered c t s).lines = s.lines := by
  simp [endOffered]
@[simp] theorem endOffered_mrg (c : EndCause) (t : OfferedTurn) (s : State) : (endOffered c t s).mrg = s.mrg := by
  simp [endOffered]
@[simp] theorem endOffered_kch (c : EndCause) (t : OfferedTurn) (s : State) : (endOffered c t s).kch = s.kch := by
  simp [endOffered]
@[simp] theorem endOffered_seu (c : EndCause) (t : OfferedTurn) (s : State) : (endOffered c t s).seu = s.seu := by
  simp [endOffered]
@[simp] theorem endOffered_lp (c : EndCause) (t : OfferedTurn) (s : State) : (endOffered c t s).lp = s.lp := by
  simp [endOffered]
@[simp] theorem endOffered_cst (c : EndCause) (t : OfferedTurn) (s : State) : (endOffered c t s).cst = s.cst := by
  simp [endOffered]
@[simp] theorem endOffered_powerHeld (c : EndCause) (t : OfferedTurn) (s : State) : (endOffered c t s).powerHeld = s.powerHeld := by
  simp [endOffered]
@[simp] theorem endOffered_clockGood (c : EndCause) (t : OfferedTurn) (s : State) : (endOffered c t s).clockGood = s.clockGood := by
  simp [endOffered]
@[simp] theorem endOffered_span (c : EndCause) (t : OfferedTurn) (s : State) : (endOffered c t s).span = s.span := by
  simp [endOffered]

@[simp] theorem freeClosing_clock (t : ClosingTurn) (s : State) : (freeClosing t s).clock = s.clock := by
  simp [freeClosing]
@[simp] theorem freeClosing_choices (t : ClosingTurn) (s : State) : (freeClosing t s).choices = s.choices := by
  simp [freeClosing]
@[simp] theorem freeClosing_pending (t : ClosingTurn) (s : State) : (freeClosing t s).pending = s.pending := by
  simp [freeClosing]
@[simp] theorem freeClosing_lines (t : ClosingTurn) (s : State) : (freeClosing t s).lines = s.lines := by
  simp [freeClosing]
@[simp] theorem freeClosing_mrg (t : ClosingTurn) (s : State) : (freeClosing t s).mrg = s.mrg := by
  simp [freeClosing]
@[simp] theorem freeClosing_kch (t : ClosingTurn) (s : State) : (freeClosing t s).kch = s.kch := by
  simp [freeClosing]
@[simp] theorem freeClosing_seu (t : ClosingTurn) (s : State) : (freeClosing t s).seu = s.seu := by
  simp [freeClosing]
@[simp] theorem freeClosing_lp (t : ClosingTurn) (s : State) : (freeClosing t s).lp = s.lp := by
  simp [freeClosing]
@[simp] theorem freeClosing_cst (t : ClosingTurn) (s : State) : (freeClosing t s).cst = s.cst := by
  simp [freeClosing]
@[simp] theorem freeClosing_powerHeld (t : ClosingTurn) (s : State) : (freeClosing t s).powerHeld = s.powerHeld := by
  simp [freeClosing]
@[simp] theorem freeClosing_clockGood (t : ClosingTurn) (s : State) : (freeClosing t s).clockGood = s.clockGood := by
  simp [freeClosing]
@[simp] theorem freeClosing_span (t : ClosingTurn) (s : State) : (freeClosing t s).span = s.span := by
  simp [freeClosing]

@[simp] theorem freeIfClosing_clock (s : State) : (freeIfClosing s).clock = s.clock := by
  unfold freeIfClosing; split <;> simp
@[simp] theorem freeIfClosing_choices (s : State) : (freeIfClosing s).choices = s.choices := by
  unfold freeIfClosing; split <;> simp
@[simp] theorem freeIfClosing_pending (s : State) : (freeIfClosing s).pending = s.pending := by
  unfold freeIfClosing; split <;> simp
@[simp] theorem freeIfClosing_lines (s : State) : (freeIfClosing s).lines = s.lines := by
  unfold freeIfClosing; split <;> simp
@[simp] theorem freeIfClosing_mrg (s : State) : (freeIfClosing s).mrg = s.mrg := by
  unfold freeIfClosing; split <;> simp
@[simp] theorem freeIfClosing_kch (s : State) : (freeIfClosing s).kch = s.kch := by
  unfold freeIfClosing; split <;> simp
@[simp] theorem freeIfClosing_seu (s : State) : (freeIfClosing s).seu = s.seu := by
  unfold freeIfClosing; split <;> simp
@[simp] theorem freeIfClosing_lp (s : State) : (freeIfClosing s).lp = s.lp := by
  unfold freeIfClosing; split <;> simp
@[simp] theorem freeIfClosing_cst (s : State) : (freeIfClosing s).cst = s.cst := by
  unfold freeIfClosing; split <;> simp
@[simp] theorem freeIfClosing_powerHeld (s : State) : (freeIfClosing s).powerHeld = s.powerHeld := by
  unfold freeIfClosing; split <;> simp
@[simp] theorem freeIfClosing_clockGood (s : State) : (freeIfClosing s).clockGood = s.clockGood := by
  unfold freeIfClosing; split <;> simp
@[simp] theorem freeIfClosing_span (s : State) : (freeIfClosing s).span = s.span := by
  unfold freeIfClosing; split <;> simp

@[simp] theorem releaseTurn_clock (c : EndCause) (s : State) : (releaseTurn c s).clock = s.clock := by
  unfold releaseTurn; split <;> simp
@[simp] theorem releaseTurn_choices (c : EndCause) (s : State) : (releaseTurn c s).choices = s.choices := by
  unfold releaseTurn; split <;> simp
@[simp] theorem releaseTurn_pending (c : EndCause) (s : State) : (releaseTurn c s).pending = s.pending := by
  unfold releaseTurn; split <;> simp
@[simp] theorem releaseTurn_lines (c : EndCause) (s : State) : (releaseTurn c s).lines = s.lines := by
  unfold releaseTurn; split <;> simp
@[simp] theorem releaseTurn_mrg (c : EndCause) (s : State) : (releaseTurn c s).mrg = s.mrg := by
  unfold releaseTurn; split <;> simp
@[simp] theorem releaseTurn_kch (c : EndCause) (s : State) : (releaseTurn c s).kch = s.kch := by
  unfold releaseTurn; split <;> simp
@[simp] theorem releaseTurn_seu (c : EndCause) (s : State) : (releaseTurn c s).seu = s.seu := by
  unfold releaseTurn; split <;> simp
@[simp] theorem releaseTurn_lp (c : EndCause) (s : State) : (releaseTurn c s).lp = s.lp := by
  unfold releaseTurn; split <;> simp
@[simp] theorem releaseTurn_cst (c : EndCause) (s : State) : (releaseTurn c s).cst = s.cst := by
  unfold releaseTurn; split <;> simp
@[simp] theorem releaseTurn_powerHeld (c : EndCause) (s : State) : (releaseTurn c s).powerHeld = s.powerHeld := by
  unfold releaseTurn; split <;> simp
@[simp] theorem releaseTurn_clockGood (c : EndCause) (s : State) : (releaseTurn c s).clockGood = s.clockGood := by
  unfold releaseTurn; split <;> simp
@[simp] theorem releaseTurn_span (c : EndCause) (s : State) : (releaseTurn c s).span = s.span := by
  unfold releaseTurn; split <;> simp

@[simp] theorem abandonSend_clock (s : State) : (abandonSend s).clock = s.clock := by
  unfold abandonSend; split; · split <;> simp
  · rfl
@[simp] theorem abandonSend_choices (s : State) : (abandonSend s).choices = s.choices := by
  unfold abandonSend; split; · split <;> simp
  · rfl
@[simp] theorem abandonSend_pending (s : State) : (abandonSend s).pending = s.pending := by
  unfold abandonSend; split; · split <;> simp
  · rfl
@[simp] theorem abandonSend_lines (s : State) : (abandonSend s).lines = s.lines := by
  unfold abandonSend; split; · split <;> simp
  · rfl
@[simp] theorem abandonSend_tar (s : State) : (abandonSend s).tar = s.tar := by
  unfold abandonSend; split; · split <;> simp
  · rfl
@[simp] theorem abandonSend_mrg (s : State) : (abandonSend s).mrg = s.mrg := by
  unfold abandonSend; split; · split <;> simp
  · rfl
@[simp] theorem abandonSend_kch (s : State) : (abandonSend s).kch = s.kch := by
  unfold abandonSend; split; · split <;> simp
  · rfl
@[simp] theorem abandonSend_seu (s : State) : (abandonSend s).seu = s.seu := by
  unfold abandonSend; split; · split <;> simp
  · rfl
@[simp] theorem abandonSend_ilm (s : State) : (abandonSend s).ilm = s.ilm := by
  unfold abandonSend; split; · split <;> simp
  · rfl
@[simp] theorem abandonSend_spc (s : State) : (abandonSend s).spc = s.spc := by
  unfold abandonSend; split; · split <;> simp
  · rfl
@[simp] theorem abandonSend_lp (s : State) : (abandonSend s).lp = s.lp := by
  unfold abandonSend; split; · split <;> simp
  · rfl
@[simp] theorem abandonSend_cst (s : State) : (abandonSend s).cst = s.cst := by
  unfold abandonSend; split; · split <;> simp
  · rfl
@[simp] theorem abandonSend_powerHeld (s : State) : (abandonSend s).powerHeld = s.powerHeld := by
  unfold abandonSend; split; · split <;> simp
  · rfl
@[simp] theorem abandonSend_clockGood (s : State) : (abandonSend s).clockGood = s.clockGood := by
  unfold abandonSend; split; · split <;> simp
  · rfl
@[simp] theorem abandonSend_span (s : State) : (abandonSend s).span = s.span := by
  unfold abandonSend; split; · split <;> simp
  · rfl

@[simp] theorem immediateRelease_clock (c : KeyDownCause) (s : State) : (immediateRelease c s).clock = s.clock := by
  unfold immediateRelease; split <;> simp
@[simp] theorem immediateRelease_choices (c : KeyDownCause) (s : State) : (immediateRelease c s).choices = s.choices := by
  unfold immediateRelease; split <;> simp
@[simp] theorem immediateRelease_pending (c : KeyDownCause) (s : State) : (immediateRelease c s).pending = s.pending := by
  unfold immediateRelease; split <;> simp
@[simp] theorem immediateRelease_lines (c : KeyDownCause) (s : State) : (immediateRelease c s).lines = s.lines := by
  unfold immediateRelease; split <;> simp
@[simp] theorem immediateRelease_tar (c : KeyDownCause) (s : State) : (immediateRelease c s).tar = s.tar := by
  unfold immediateRelease; split <;> simp
@[simp] theorem immediateRelease_mrg (c : KeyDownCause) (s : State) : (immediateRelease c s).mrg = s.mrg := by
  unfold immediateRelease; split <;> simp
@[simp] theorem immediateRelease_seu (c : KeyDownCause) (s : State) : (immediateRelease c s).seu = s.seu := by
  unfold immediateRelease; split <;> simp
@[simp] theorem immediateRelease_spc (c : KeyDownCause) (s : State) : (immediateRelease c s).spc = s.spc := by
  unfold immediateRelease; split <;> simp
@[simp] theorem immediateRelease_lp (c : KeyDownCause) (s : State) : (immediateRelease c s).lp = s.lp := by
  unfold immediateRelease; split <;> simp
@[simp] theorem immediateRelease_cst (c : KeyDownCause) (s : State) : (immediateRelease c s).cst = s.cst := by
  unfold immediateRelease; split <;> simp
@[simp] theorem immediateRelease_powerHeld (c : KeyDownCause) (s : State) : (immediateRelease c s).powerHeld = s.powerHeld := by
  unfold immediateRelease; split <;> simp
@[simp] theorem immediateRelease_clockGood (c : KeyDownCause) (s : State) : (immediateRelease c s).clockGood = s.clockGood := by
  unfold immediateRelease; split <;> simp
@[simp] theorem immediateRelease_span (c : KeyDownCause) (s : State) : (immediateRelease c s).span = s.span := by
  unfold immediateRelease; split <;> simp

@[simp] theorem idSent_clock (s : State) : (idSent s).clock = s.clock := by
  unfold idSent; split <;> simp
@[simp] theorem idSent_choices (s : State) : (idSent s).choices = s.choices := by
  unfold idSent; split <;> simp
@[simp] theorem idSent_pending (s : State) : (idSent s).pending = s.pending := by
  unfold idSent; split <;> simp
@[simp] theorem idSent_lines (s : State) : (idSent s).lines = s.lines := by
  unfold idSent; split <;> simp
@[simp] theorem idSent_tar (s : State) : (idSent s).tar = s.tar := by
  unfold idSent; split <;> simp
@[simp] theorem idSent_mrg (s : State) : (idSent s).mrg = s.mrg := by
  unfold idSent; split <;> simp
@[simp] theorem idSent_kch (s : State) : (idSent s).kch = s.kch := by
  unfold idSent; split <;> simp
@[simp] theorem idSent_seu (s : State) : (idSent s).seu = s.seu := by
  unfold idSent; split <;> simp
@[simp] theorem idSent_ilm (s : State) : (idSent s).ilm = s.ilm := by
  unfold idSent; split <;> simp
@[simp] theorem idSent_spc (s : State) : (idSent s).spc = s.spc := by
  unfold idSent; split <;> simp
@[simp] theorem idSent_lp (s : State) : (idSent s).lp = s.lp := by
  unfold idSent; split <;> simp
@[simp] theorem idSent_cst (s : State) : (idSent s).cst = s.cst := by
  unfold idSent; split <;> simp
@[simp] theorem idSent_powerHeld (s : State) : (idSent s).powerHeld = s.powerHeld := by
  unfold idSent; split <;> simp
@[simp] theorem idSent_clockGood (s : State) : (idSent s).clockGood = s.clockGood := by
  unfold idSent; split <;> simp
@[simp] theorem idSent_span (s : State) : (idSent s).span = s.span := by
  unfold idSent; split <;> simp

@[simp] theorem endRetune_clock (r : RetuneResult) (s : State) : (endRetune r s).clock = s.clock := by
  unfold endRetune; split <;> simp
@[simp] theorem endRetune_choices (r : RetuneResult) (s : State) : (endRetune r s).choices = s.choices := by
  unfold endRetune; split <;> simp
@[simp] theorem endRetune_pending (r : RetuneResult) (s : State) : (endRetune r s).pending = s.pending := by
  unfold endRetune; split <;> simp
@[simp] theorem endRetune_lines (r : RetuneResult) (s : State) : (endRetune r s).lines = s.lines := by
  unfold endRetune; split <;> simp
@[simp] theorem endRetune_tar (r : RetuneResult) (s : State) : (endRetune r s).tar = s.tar := by
  unfold endRetune; split <;> simp
@[simp] theorem endRetune_mrg (r : RetuneResult) (s : State) : (endRetune r s).mrg = s.mrg := by
  unfold endRetune; split <;> simp
@[simp] theorem endRetune_kch (r : RetuneResult) (s : State) : (endRetune r s).kch = s.kch := by
  unfold endRetune; split <;> simp
@[simp] theorem endRetune_ids (r : RetuneResult) (s : State) : (endRetune r s).ids = s.ids := by
  unfold endRetune; split <;> simp
@[simp] theorem endRetune_ilm (r : RetuneResult) (s : State) : (endRetune r s).ilm = s.ilm := by
  unfold endRetune; split <;> simp
@[simp] theorem endRetune_spc (r : RetuneResult) (s : State) : (endRetune r s).spc = s.spc := by
  unfold endRetune; split <;> simp
@[simp] theorem endRetune_lp (r : RetuneResult) (s : State) : (endRetune r s).lp = s.lp := by
  unfold endRetune; split <;> simp
@[simp] theorem endRetune_journal (r : RetuneResult) (s : State) : (endRetune r s).journal = s.journal := by
  unfold endRetune; split <;> simp
@[simp] theorem endRetune_cst (r : RetuneResult) (s : State) : (endRetune r s).cst = s.cst := by
  unfold endRetune; split <;> simp
@[simp] theorem endRetune_powerHeld (r : RetuneResult) (s : State) : (endRetune r s).powerHeld = s.powerHeld := by
  unfold endRetune; split <;> simp
@[simp] theorem endRetune_clockGood (r : RetuneResult) (s : State) : (endRetune r s).clockGood = s.clockGood := by
  unfold endRetune; split <;> simp
@[simp] theorem endRetune_span (r : RetuneResult) (s : State) : (endRetune r s).span = s.span := by
  unfold endRetune; split <;> simp

@[simp] theorem enterSwitching_clock (r : Requested) (s : State) : (enterSwitching r s).clock = s.clock := by
  unfold enterSwitching; dsimp only; split <;> simp
@[simp] theorem enterSwitching_choices (r : Requested) (s : State) : (enterSwitching r s).choices = s.choices := by
  unfold enterSwitching; dsimp only; split <;> simp
@[simp] theorem enterSwitching_pending (r : Requested) (s : State) : (enterSwitching r s).pending = s.pending := by
  unfold enterSwitching; dsimp only; split <;> simp
@[simp] theorem enterSwitching_lines (r : Requested) (s : State) : (enterSwitching r s).lines = s.lines := by
  unfold enterSwitching; dsimp only; split <;> simp
@[simp] theorem enterSwitching_tar (r : Requested) (s : State) : (enterSwitching r s).tar = s.tar := by
  unfold enterSwitching; dsimp only; split <;> simp
@[simp] theorem enterSwitching_mrg (r : Requested) (s : State) : (enterSwitching r s).mrg = s.mrg := by
  unfold enterSwitching; dsimp only; split <;> simp
@[simp] theorem enterSwitching_kch (r : Requested) (s : State) : (enterSwitching r s).kch = s.kch := by
  unfold enterSwitching; dsimp only; split <;> simp
@[simp] theorem enterSwitching_ids (r : Requested) (s : State) : (enterSwitching r s).ids = s.ids := by
  unfold enterSwitching; dsimp only; split <;> simp
@[simp] theorem enterSwitching_ilm (r : Requested) (s : State) : (enterSwitching r s).ilm = s.ilm := by
  unfold enterSwitching; dsimp only; split <;> simp
@[simp] theorem enterSwitching_spc (r : Requested) (s : State) : (enterSwitching r s).spc = s.spc := by
  unfold enterSwitching; dsimp only; split <;> simp
@[simp] theorem enterSwitching_lp (r : Requested) (s : State) : (enterSwitching r s).lp = s.lp := by
  unfold enterSwitching; dsimp only; split <;> simp
@[simp] theorem enterSwitching_ntu (r : Requested) (s : State) : (enterSwitching r s).ntu = s.ntu := by
  unfold enterSwitching; dsimp only; split <;> simp
@[simp] theorem enterSwitching_journal (r : Requested) (s : State) : (enterSwitching r s).journal = s.journal := by
  unfold enterSwitching; dsimp only; split <;> simp
@[simp] theorem enterSwitching_cst (r : Requested) (s : State) : (enterSwitching r s).cst = s.cst := by
  unfold enterSwitching; dsimp only; split <;> simp
@[simp] theorem enterSwitching_powerHeld (r : Requested) (s : State) : (enterSwitching r s).powerHeld = s.powerHeld := by
  unfold enterSwitching; dsimp only; split <;> simp
@[simp] theorem enterSwitching_clockGood (r : Requested) (s : State) : (enterSwitching r s).clockGood = s.clockGood := by
  unfold enterSwitching; dsimp only; split <;> simp
@[simp] theorem enterSwitching_span (r : Requested) (s : State) : (enterSwitching r s).span = s.span := by
  unfold enterSwitching; dsimp only; split <;> simp

@[simp] theorem beginRetune_clock (r : Requested) (s : State) : (beginRetune r s).clock = s.clock := by
  unfold beginRetune; dsimp only; split <;> simp
@[simp] theorem beginRetune_choices (r : Requested) (s : State) : (beginRetune r s).choices = s.choices := by
  unfold beginRetune; dsimp only; split <;> simp
@[simp] theorem beginRetune_pending (r : Requested) (s : State) : (beginRetune r s).pending = s.pending := by
  unfold beginRetune; dsimp only; split <;> simp
@[simp] theorem beginRetune_lines (r : Requested) (s : State) : (beginRetune r s).lines = s.lines := by
  unfold beginRetune; dsimp only; split <;> simp
@[simp] theorem beginRetune_tar (r : Requested) (s : State) : (beginRetune r s).tar = s.tar := by
  unfold beginRetune; dsimp only; split <;> simp
@[simp] theorem beginRetune_mrg (r : Requested) (s : State) : (beginRetune r s).mrg = s.mrg := by
  unfold beginRetune; dsimp only; split <;> simp
@[simp] theorem beginRetune_kch (r : Requested) (s : State) : (beginRetune r s).kch = s.kch := by
  unfold beginRetune; dsimp only; split <;> simp
@[simp] theorem beginRetune_ids (r : Requested) (s : State) : (beginRetune r s).ids = s.ids := by
  unfold beginRetune; dsimp only; split <;> simp
@[simp] theorem beginRetune_ilm (r : Requested) (s : State) : (beginRetune r s).ilm = s.ilm := by
  unfold beginRetune; dsimp only; split <;> simp
@[simp] theorem beginRetune_spc (r : Requested) (s : State) : (beginRetune r s).spc = s.spc := by
  unfold beginRetune; dsimp only; split <;> simp
@[simp] theorem beginRetune_lp (r : Requested) (s : State) : (beginRetune r s).lp = s.lp := by
  unfold beginRetune; dsimp only; split <;> simp
@[simp] theorem beginRetune_journal (r : Requested) (s : State) : (beginRetune r s).journal = s.journal := by
  unfold beginRetune; dsimp only; split <;> simp
@[simp] theorem beginRetune_cst (r : Requested) (s : State) : (beginRetune r s).cst = s.cst := by
  unfold beginRetune; dsimp only; split <;> simp
@[simp] theorem beginRetune_powerHeld (r : Requested) (s : State) : (beginRetune r s).powerHeld = s.powerHeld := by
  unfold beginRetune; dsimp only; split <;> simp
@[simp] theorem beginRetune_clockGood (r : Requested) (s : State) : (beginRetune r s).clockGood = s.clockGood := by
  unfold beginRetune; dsimp only; split <;> simp
@[simp] theorem beginRetune_span (r : Requested) (s : State) : (beginRetune r s).span = s.span := by
  unfold beginRetune; dsimp only; split <;> simp

@[simp] theorem senseChanged_clock (s : State) : (senseChanged s).clock = s.clock := by
  unfold senseChanged; split; · split <;> simp
  · rfl
@[simp] theorem senseChanged_choices (s : State) : (senseChanged s).choices = s.choices := by
  unfold senseChanged; split; · split <;> simp
  · rfl
@[simp] theorem senseChanged_pending (s : State) : (senseChanged s).pending = s.pending := by
  unfold senseChanged; split; · split <;> simp
  · rfl
@[simp] theorem senseChanged_lines (s : State) : (senseChanged s).lines = s.lines := by
  unfold senseChanged; split; · split <;> simp
  · rfl
@[simp] theorem senseChanged_tar (s : State) : (senseChanged s).tar = s.tar := by
  unfold senseChanged; split; · split <;> simp
  · rfl
@[simp] theorem senseChanged_mrg (s : State) : (senseChanged s).mrg = s.mrg := by
  unfold senseChanged; split; · split <;> simp
  · rfl
@[simp] theorem senseChanged_kch (s : State) : (senseChanged s).kch = s.kch := by
  unfold senseChanged; split; · split <;> simp
  · rfl
@[simp] theorem senseChanged_ids (s : State) : (senseChanged s).ids = s.ids := by
  unfold senseChanged; split; · split <;> simp
  · rfl
@[simp] theorem senseChanged_ilm (s : State) : (senseChanged s).ilm = s.ilm := by
  unfold senseChanged; split; · split <;> simp
  · rfl
@[simp] theorem senseChanged_spc (s : State) : (senseChanged s).spc = s.spc := by
  unfold senseChanged; split; · split <;> simp
  · rfl
@[simp] theorem senseChanged_lp (s : State) : (senseChanged s).lp = s.lp := by
  unfold senseChanged; split; · split <;> simp
  · rfl
@[simp] theorem senseChanged_ntu (s : State) : (senseChanged s).ntu = s.ntu := by
  unfold senseChanged; split; · split <;> simp
  · rfl
@[simp] theorem senseChanged_journal (s : State) : (senseChanged s).journal = s.journal := by
  unfold senseChanged; split; · split <;> simp
  · rfl
@[simp] theorem senseChanged_cst (s : State) : (senseChanged s).cst = s.cst := by
  unfold senseChanged; split; · split <;> simp
  · rfl
@[simp] theorem senseChanged_powerHeld (s : State) : (senseChanged s).powerHeld = s.powerHeld := by
  unfold senseChanged; split; · split <;> simp
  · rfl
@[simp] theorem senseChanged_clockGood (s : State) : (senseChanged s).clockGood = s.clockGood := by
  unfold senseChanged; split; · split <;> simp
  · rfl
@[simp] theorem senseChanged_span (s : State) : (senseChanged s).span = s.span := by
  unfold senseChanged; split; · split <;> simp
  · rfl

@[simp] theorem setBarefoot_clock (b : Bool) (s : State) : (setBarefoot b s).clock = s.clock := by
  simp [setBarefoot]
@[simp] theorem setBarefoot_choices (b : Bool) (s : State) : (setBarefoot b s).choices = s.choices := by
  simp [setBarefoot]
@[simp] theorem setBarefoot_pending (b : Bool) (s : State) : (setBarefoot b s).pending = s.pending := by
  simp [setBarefoot]
@[simp] theorem setBarefoot_lines (b : Bool) (s : State) : (setBarefoot b s).lines = s.lines := by
  simp [setBarefoot]
@[simp] theorem setBarefoot_tar (b : Bool) (s : State) : (setBarefoot b s).tar = s.tar := by
  simp [setBarefoot]
@[simp] theorem setBarefoot_mrg (b : Bool) (s : State) : (setBarefoot b s).mrg = s.mrg := by
  simp [setBarefoot]
@[simp] theorem setBarefoot_kch (b : Bool) (s : State) : (setBarefoot b s).kch = s.kch := by
  simp [setBarefoot]
@[simp] theorem setBarefoot_seu (b : Bool) (s : State) : (setBarefoot b s).seu = s.seu := by
  simp [setBarefoot]
@[simp] theorem setBarefoot_ids (b : Bool) (s : State) : (setBarefoot b s).ids = s.ids := by
  simp [setBarefoot]
@[simp] theorem setBarefoot_lp (b : Bool) (s : State) : (setBarefoot b s).lp = s.lp := by
  simp [setBarefoot]
@[simp] theorem setBarefoot_ntu (b : Bool) (s : State) : (setBarefoot b s).ntu = s.ntu := by
  simp [setBarefoot]
@[simp] theorem setBarefoot_journal (b : Bool) (s : State) : (setBarefoot b s).journal = s.journal := by
  simp [setBarefoot]
@[simp] theorem setBarefoot_cst (b : Bool) (s : State) : (setBarefoot b s).cst = s.cst := by
  simp [setBarefoot]
@[simp] theorem setBarefoot_powerHeld (b : Bool) (s : State) : (setBarefoot b s).powerHeld = s.powerHeld := by
  simp [setBarefoot]
@[simp] theorem setBarefoot_clockGood (b : Bool) (s : State) : (setBarefoot b s).clockGood = s.clockGood := by
  simp [setBarefoot]
@[simp] theorem setBarefoot_span (b : Bool) (s : State) : (setBarefoot b s).span = s.span := by
  simp [setBarefoot]

@[simp] theorem reloadIdle_clock (f : Frame) (s : State) : (reloadIdle f s).clock = s.clock := by
  unfold reloadIdle; split; · split <;> simp
  · rfl
@[simp] theorem reloadIdle_choices (f : Frame) (s : State) : (reloadIdle f s).choices = s.choices := by
  unfold reloadIdle; split; · split <;> simp
  · rfl
@[simp] theorem reloadIdle_pending (f : Frame) (s : State) : (reloadIdle f s).pending = s.pending := by
  unfold reloadIdle; split; · split <;> simp
  · rfl
@[simp] theorem reloadIdle_lines (f : Frame) (s : State) : (reloadIdle f s).lines = s.lines := by
  unfold reloadIdle; split; · split <;> simp
  · rfl
@[simp] theorem reloadIdle_mrg (f : Frame) (s : State) : (reloadIdle f s).mrg = s.mrg := by
  unfold reloadIdle; split; · split <;> simp
  · rfl
@[simp] theorem reloadIdle_kch (f : Frame) (s : State) : (reloadIdle f s).kch = s.kch := by
  unfold reloadIdle; split; · split <;> simp
  · rfl
@[simp] theorem reloadIdle_seu (f : Frame) (s : State) : (reloadIdle f s).seu = s.seu := by
  unfold reloadIdle; split; · split <;> simp
  · rfl
@[simp] theorem reloadIdle_ids (f : Frame) (s : State) : (reloadIdle f s).ids = s.ids := by
  unfold reloadIdle; split; · split <;> simp
  · rfl
@[simp] theorem reloadIdle_ilm (f : Frame) (s : State) : (reloadIdle f s).ilm = s.ilm := by
  unfold reloadIdle; split; · split <;> simp
  · rfl
@[simp] theorem reloadIdle_spc (f : Frame) (s : State) : (reloadIdle f s).spc = s.spc := by
  unfold reloadIdle; split; · split <;> simp
  · rfl
@[simp] theorem reloadIdle_lp (f : Frame) (s : State) : (reloadIdle f s).lp = s.lp := by
  unfold reloadIdle; split; · split <;> simp
  · rfl
@[simp] theorem reloadIdle_ntu (f : Frame) (s : State) : (reloadIdle f s).ntu = s.ntu := by
  unfold reloadIdle; split; · split <;> simp
  · rfl
@[simp] theorem reloadIdle_journal (f : Frame) (s : State) : (reloadIdle f s).journal = s.journal := by
  unfold reloadIdle; split; · split <;> simp
  · rfl
@[simp] theorem reloadIdle_cst (f : Frame) (s : State) : (reloadIdle f s).cst = s.cst := by
  unfold reloadIdle; split; · split <;> simp
  · rfl
@[simp] theorem reloadIdle_powerHeld (f : Frame) (s : State) : (reloadIdle f s).powerHeld = s.powerHeld := by
  unfold reloadIdle; split; · split <;> simp
  · rfl
@[simp] theorem reloadIdle_clockGood (f : Frame) (s : State) : (reloadIdle f s).clockGood = s.clockGood := by
  unfold reloadIdle; split; · split <;> simp
  · rfl
@[simp] theorem reloadIdle_span (f : Frame) (s : State) : (reloadIdle f s).span = s.span := by
  unfold reloadIdle; split; · split <;> simp
  · rfl

@[simp] theorem sendNotice_clock (s : State) : (sendNotice s).clock = s.clock := by
  simp [sendNotice]
@[simp] theorem sendNotice_choices (s : State) : (sendNotice s).choices = s.choices := by
  simp [sendNotice]
@[simp] theorem sendNotice_pending (s : State) : (sendNotice s).pending = s.pending := by
  simp [sendNotice]
@[simp] theorem sendNotice_lines (s : State) : (sendNotice s).lines = s.lines := by
  simp [sendNotice]
@[simp] theorem sendNotice_tar (s : State) : (sendNotice s).tar = s.tar := by
  simp [sendNotice]
@[simp] theorem sendNotice_mrg (s : State) : (sendNotice s).mrg = s.mrg := by
  simp [sendNotice]
@[simp] theorem sendNotice_kch (s : State) : (sendNotice s).kch = s.kch := by
  simp [sendNotice]
@[simp] theorem sendNotice_seu (s : State) : (sendNotice s).seu = s.seu := by
  simp [sendNotice]
@[simp] theorem sendNotice_ids (s : State) : (sendNotice s).ids = s.ids := by
  simp [sendNotice]
@[simp] theorem sendNotice_ilm (s : State) : (sendNotice s).ilm = s.ilm := by
  simp [sendNotice]
@[simp] theorem sendNotice_spc (s : State) : (sendNotice s).spc = s.spc := by
  simp [sendNotice]
@[simp] theorem sendNotice_journal (s : State) : (sendNotice s).journal = s.journal := by
  simp [sendNotice]
@[simp] theorem sendNotice_cst (s : State) : (sendNotice s).cst = s.cst := by
  simp [sendNotice]
@[simp] theorem sendNotice_powerHeld (s : State) : (sendNotice s).powerHeld = s.powerHeld := by
  simp [sendNotice]
@[simp] theorem sendNotice_clockGood (s : State) : (sendNotice s).clockGood = s.clockGood := by
  simp [sendNotice]
@[simp] theorem sendNotice_span (s : State) : (sendNotice s).span = s.span := by
  simp [sendNotice]

@[simp] theorem pumpNotice_clock (s : State) : (pumpNotice s).clock = s.clock := by
  unfold pumpNotice; split <;> simp
@[simp] theorem pumpNotice_choices (s : State) : (pumpNotice s).choices = s.choices := by
  unfold pumpNotice; split <;> simp
@[simp] theorem pumpNotice_pending (s : State) : (pumpNotice s).pending = s.pending := by
  unfold pumpNotice; split <;> simp
@[simp] theorem pumpNotice_lines (s : State) : (pumpNotice s).lines = s.lines := by
  unfold pumpNotice; split <;> simp
@[simp] theorem pumpNotice_tar (s : State) : (pumpNotice s).tar = s.tar := by
  unfold pumpNotice; split <;> simp
@[simp] theorem pumpNotice_mrg (s : State) : (pumpNotice s).mrg = s.mrg := by
  unfold pumpNotice; split <;> simp
@[simp] theorem pumpNotice_kch (s : State) : (pumpNotice s).kch = s.kch := by
  unfold pumpNotice; split <;> simp
@[simp] theorem pumpNotice_seu (s : State) : (pumpNotice s).seu = s.seu := by
  unfold pumpNotice; split <;> simp
@[simp] theorem pumpNotice_ids (s : State) : (pumpNotice s).ids = s.ids := by
  unfold pumpNotice; split <;> simp
@[simp] theorem pumpNotice_ilm (s : State) : (pumpNotice s).ilm = s.ilm := by
  unfold pumpNotice; split <;> simp
@[simp] theorem pumpNotice_spc (s : State) : (pumpNotice s).spc = s.spc := by
  unfold pumpNotice; split <;> simp
@[simp] theorem pumpNotice_journal (s : State) : (pumpNotice s).journal = s.journal := by
  unfold pumpNotice; split <;> simp
@[simp] theorem pumpNotice_cst (s : State) : (pumpNotice s).cst = s.cst := by
  unfold pumpNotice; split <;> simp
@[simp] theorem pumpNotice_powerHeld (s : State) : (pumpNotice s).powerHeld = s.powerHeld := by
  unfold pumpNotice; split <;> simp
@[simp] theorem pumpNotice_clockGood (s : State) : (pumpNotice s).clockGood = s.clockGood := by
  unfold pumpNotice; split <;> simp
@[simp] theorem pumpNotice_span (s : State) : (pumpNotice s).span = s.span := by
  unfold pumpNotice; split <;> simp

@[simp] theorem spendAllowance_clock (n : Nat) (s : State) : (spendAllowance n s).clock = s.clock := by
  unfold spendAllowance; split; · rfl
  · dsimp only; repeat' split
    all_goals simp
@[simp] theorem spendAllowance_choices (n : Nat) (s : State) : (spendAllowance n s).choices = s.choices := by
  unfold spendAllowance; split; · rfl
  · dsimp only; repeat' split
    all_goals simp
@[simp] theorem spendAllowance_pending (n : Nat) (s : State) : (spendAllowance n s).pending = s.pending := by
  unfold spendAllowance; split; · rfl
  · dsimp only; repeat' split
    all_goals simp
@[simp] theorem spendAllowance_lines (n : Nat) (s : State) : (spendAllowance n s).lines = s.lines := by
  unfold spendAllowance; split; · rfl
  · dsimp only; repeat' split
    all_goals simp
@[simp] theorem spendAllowance_tar (n : Nat) (s : State) : (spendAllowance n s).tar = s.tar := by
  unfold spendAllowance; split; · rfl
  · dsimp only; repeat' split
    all_goals simp
@[simp] theorem spendAllowance_kch (n : Nat) (s : State) : (spendAllowance n s).kch = s.kch := by
  unfold spendAllowance; split; · rfl
  · dsimp only; repeat' split
    all_goals simp
@[simp] theorem spendAllowance_seu (n : Nat) (s : State) : (spendAllowance n s).seu = s.seu := by
  unfold spendAllowance; split; · rfl
  · dsimp only; repeat' split
    all_goals simp
@[simp] theorem spendAllowance_ids (n : Nat) (s : State) : (spendAllowance n s).ids = s.ids := by
  unfold spendAllowance; split; · rfl
  · dsimp only; repeat' split
    all_goals simp
@[simp] theorem spendAllowance_ilm (n : Nat) (s : State) : (spendAllowance n s).ilm = s.ilm := by
  unfold spendAllowance; split; · rfl
  · dsimp only; repeat' split
    all_goals simp
@[simp] theorem spendAllowance_spc (n : Nat) (s : State) : (spendAllowance n s).spc = s.spc := by
  unfold spendAllowance; split; · rfl
  · dsimp only; repeat' split
    all_goals simp
@[simp] theorem spendAllowance_lp (n : Nat) (s : State) : (spendAllowance n s).lp = s.lp := by
  unfold spendAllowance; split; · rfl
  · dsimp only; repeat' split
    all_goals simp
@[simp] theorem spendAllowance_ntu (n : Nat) (s : State) : (spendAllowance n s).ntu = s.ntu := by
  unfold spendAllowance; split; · rfl
  · dsimp only; repeat' split
    all_goals simp
@[simp] theorem spendAllowance_journal (n : Nat) (s : State) : (spendAllowance n s).journal = s.journal := by
  unfold spendAllowance; split; · rfl
  · dsimp only; repeat' split
    all_goals simp
@[simp] theorem spendAllowance_cst (n : Nat) (s : State) : (spendAllowance n s).cst = s.cst := by
  unfold spendAllowance; split; · rfl
  · dsimp only; repeat' split
    all_goals simp
@[simp] theorem spendAllowance_powerHeld (n : Nat) (s : State) : (spendAllowance n s).powerHeld = s.powerHeld := by
  unfold spendAllowance; split; · rfl
  · dsimp only; repeat' split
    all_goals simp
@[simp] theorem spendAllowance_clockGood (n : Nat) (s : State) : (spendAllowance n s).clockGood = s.clockGood := by
  unfold spendAllowance; split; · rfl
  · dsimp only; repeat' split
    all_goals simp
@[simp] theorem spendAllowance_span (n : Nat) (s : State) : (spendAllowance n s).span = s.span := by
  unfold spendAllowance; split; · rfl
  · dsimp only; repeat' split
    all_goals simp

@[simp] theorem countAir_clock (n : Nat) (s : State) : (countAir n s).clock = s.clock := by
  unfold countAir; split <;> simp
@[simp] theorem countAir_choices (n : Nat) (s : State) : (countAir n s).choices = s.choices := by
  unfold countAir; split <;> simp
@[simp] theorem countAir_pending (n : Nat) (s : State) : (countAir n s).pending = s.pending := by
  unfold countAir; split <;> simp
@[simp] theorem countAir_lines (n : Nat) (s : State) : (countAir n s).lines = s.lines := by
  unfold countAir; split <;> simp
@[simp] theorem countAir_kch (n : Nat) (s : State) : (countAir n s).kch = s.kch := by
  unfold countAir; split <;> simp
@[simp] theorem countAir_seu (n : Nat) (s : State) : (countAir n s).seu = s.seu := by
  unfold countAir; split <;> simp
@[simp] theorem countAir_ids (n : Nat) (s : State) : (countAir n s).ids = s.ids := by
  unfold countAir; split <;> simp
@[simp] theorem countAir_ilm (n : Nat) (s : State) : (countAir n s).ilm = s.ilm := by
  unfold countAir; split <;> simp
@[simp] theorem countAir_spc (n : Nat) (s : State) : (countAir n s).spc = s.spc := by
  unfold countAir; split <;> simp
@[simp] theorem countAir_lp (n : Nat) (s : State) : (countAir n s).lp = s.lp := by
  unfold countAir; split <;> simp
@[simp] theorem countAir_ntu (n : Nat) (s : State) : (countAir n s).ntu = s.ntu := by
  unfold countAir; split <;> simp
@[simp] theorem countAir_journal (n : Nat) (s : State) : (countAir n s).journal = s.journal := by
  unfold countAir; split <;> simp
@[simp] theorem countAir_cst (n : Nat) (s : State) : (countAir n s).cst = s.cst := by
  unfold countAir; split <;> simp
@[simp] theorem countAir_powerHeld (n : Nat) (s : State) : (countAir n s).powerHeld = s.powerHeld := by
  unfold countAir; split <;> simp
@[simp] theorem countAir_clockGood (n : Nat) (s : State) : (countAir n s).clockGood = s.clockGood := by
  unfold countAir; split <;> simp
@[simp] theorem countAir_span (n : Nat) (s : State) : (countAir n s).span = s.span := by
  unfold countAir; split <;> simp

@[simp] theorem passTo_choices (n : Nat) (s : State) : (passTo n s).choices = s.choices := by
  unfold passTo; split <;> simp
@[simp] theorem passTo_pending (n : Nat) (s : State) : (passTo n s).pending = s.pending := by
  unfold passTo; split <;> simp
@[simp] theorem passTo_lines (n : Nat) (s : State) : (passTo n s).lines = s.lines := by
  unfold passTo; split <;> simp
@[simp] theorem passTo_kch (n : Nat) (s : State) : (passTo n s).kch = s.kch := by
  unfold passTo; split <;> simp
@[simp] theorem passTo_seu (n : Nat) (s : State) : (passTo n s).seu = s.seu := by
  unfold passTo; split <;> simp
@[simp] theorem passTo_ids (n : Nat) (s : State) : (passTo n s).ids = s.ids := by
  unfold passTo; split <;> simp
@[simp] theorem passTo_ilm (n : Nat) (s : State) : (passTo n s).ilm = s.ilm := by
  unfold passTo; split <;> simp
@[simp] theorem passTo_spc (n : Nat) (s : State) : (passTo n s).spc = s.spc := by
  unfold passTo; split <;> simp
@[simp] theorem passTo_lp (n : Nat) (s : State) : (passTo n s).lp = s.lp := by
  unfold passTo; split <;> simp
@[simp] theorem passTo_ntu (n : Nat) (s : State) : (passTo n s).ntu = s.ntu := by
  unfold passTo; split <;> simp
@[simp] theorem passTo_journal (n : Nat) (s : State) : (passTo n s).journal = s.journal := by
  unfold passTo; split <;> simp
@[simp] theorem passTo_cst (n : Nat) (s : State) : (passTo n s).cst = s.cst := by
  unfold passTo; split <;> simp
@[simp] theorem passTo_powerHeld (n : Nat) (s : State) : (passTo n s).powerHeld = s.powerHeld := by
  unfold passTo; split <;> simp
@[simp] theorem passTo_clockGood (n : Nat) (s : State) : (passTo n s).clockGood = s.clockGood := by
  unfold passTo; split <;> simp
@[simp] theorem passTo_span (n : Nat) (s : State) : (passTo n s).span = s.span := by
  unfold passTo; split <;> simp

end Sys2Proof.Machine
end

