-- ==== Sys2Proof/Laws/Moves.lean ====
section
/-! SUPPORT. What everything that an event brings about can do. `Moves s t` says how the state `t` that an operation
leaves can differ from the state `s` it met; every operation below the requests, the resets and the passing of time has
one lemma `<operation>_moves`, and each part of `Moves` is a frame rule that a proof can cite for all of them. -/

namespace Sys2Proof.Machine

/-- How the operations of the blocks can change the state. -/
structure Moves (s t : State) : Prop where
  clock : t.clock = s.clock
  choices : t.choices = s.choices
  pending : t.pending = s.pending
  lines : t.lines = s.lines
  lp : t.lp = s.lp
  cst : t.cst = s.cst
  powerHeld : t.powerHeld = s.powerHeld
  clockGood : t.clockGood = s.clockGood
  span : t.span = s.span
  mrg : t.mrg = { s.mrg with watch := t.mrg.watch, unitOwed := t.mrg.unitOwed }
  ranking : t.tar.copy = s.tar.copy
  antennas : t.seu.antennas = s.seu.antennas
  pattern : t.ids.pattern = s.ids.pattern
  barefoot : t.spc.barefoot = s.spc.barefoot
  enabled : t.ntu.enabled = s.ntu.enabled
  held : t.ntu.held = s.ntu.held
  deferred : t.ntu.deferredStore = s.ntu.deferredStore
  queue : t.tar.queue.Sublist s.tar.queue
  holds : ∀ m, holder t = some m →
    holder s = some m ∨ (m ∈ s.tar.queue.map (·.member) ∧ m ∉ t.tar.queue.map (·.member))
  setup : s.cst.phase = .setup → s.tar.turn = .free → t.tar.turn = .free
  unrecorded : s.ntu.held = true → t.ntu.pending = s.ntu.pending
  causes : causesInRange s.ntu.pending = true → causesInRange t.ntu.pending = true
  journal : s.journal.length ≤ 48 → t.journal.length ≤ 48
  localKey : s.ilm.latched.localKey = false → t.ilm.latched.localKey = false

theorem Moves.refl (s : State) : Moves s s := by
  constructor <;> simp +contextual

theorem Moves.trans {s t u : State} (a : Moves s t) (b : Moves t u) : Moves s u where
  clock := b.clock.trans a.clock
  choices := b.choices.trans a.choices
  pending := b.pending.trans a.pending
  lines := b.lines.trans a.lines
  lp := b.lp.trans a.lp
  cst := b.cst.trans a.cst
  powerHeld := b.powerHeld.trans a.powerHeld
  clockGood := b.clockGood.trans a.clockGood
  span := b.span.trans a.span
  mrg := by rw [b.mrg, a.mrg]
  ranking := b.ranking.trans a.ranking
  antennas := b.antennas.trans a.antennas
  pattern := b.pattern.trans a.pattern
  barefoot := b.barefoot.trans a.barefoot
  enabled := b.enabled.trans a.enabled
  held := b.held.trans a.held
  deferred := b.deferred.trans a.deferred
  queue := b.queue.trans a.queue
  holds := fun m h => by
    have sub := (b.queue.map (·.member)).subset
    rcases b.holds m h with h1 | ⟨h1, h2⟩
    · rcases a.holds m h1 with h3 | ⟨h3, h4⟩
      · exact .inl h3
      · exact .inr ⟨h3, fun x => h4 (sub x)⟩
    · exact .inr ⟨(a.queue.map (·.member)).subset h1, h2⟩
  setup := fun p f => b.setup (by rw [a.cst]; exact p) (a.setup p f)
  unrecorded := fun h => (b.unrecorded (a.held.trans h)).trans (a.unrecorded h)
  causes := fun h => b.causes (a.causes h)
  journal := fun h => b.journal (a.journal h)
  localKey := fun h => b.localKey (a.localKey h)

/-- A choice between two operations. -/
theorem Moves.ite {s t u : State} {p : Prop} [Decidable p] (a : Moves s t) (b : Moves s u) :
    Moves s (if p then t else u) := by
  split
  · exact a
  · exact b

/-- The holder depends on the turn record alone. -/
theorem holder_congr {s t : State} (h : t.tar = s.tar) : holder t = holder s := by
  unfold holder; rw [h]

/-- An update of the chain, the setting, the identification, the filters or the power alone. -/
theorem Moves.inner {s t : State} (clock : t.clock = s.clock) (choices : t.choices = s.choices)
    (pending : t.pending = s.pending) (lines : t.lines = s.lines) (lp : t.lp = s.lp) (cst : t.cst = s.cst)
    (powerHeld : t.powerHeld = s.powerHeld) (clockGood : t.clockGood = s.clockGood) (span : t.span = s.span)
    (mrg : t.mrg = s.mrg) (tar : t.tar = s.tar) (ntu : t.ntu = s.ntu) (journal : t.journal = s.journal)
    (antennas : t.seu.antennas = s.seu.antennas) (pattern : t.ids.pattern = s.ids.pattern)
    (barefoot : t.spc.barefoot = s.spc.barefoot)
    (localKey : s.ilm.latched.localKey = false → t.ilm.latched.localKey = false) : Moves s t := by
  have hh := holder_congr tar
  constructor <;> simp_all

/-! ## Causes and the journal -/

theorem causesInRange_or (a b : Half) (ha : causesInRange a = true) (hb : causesInRange b = true) :
    causesInRange (a ||| b) = true := by
  simp only [causesInRange, beq_iff_eq] at *
  rw [BitVec.and_or_distrib_right, ha, hb]; rfl

theorem causesInRange_mask (c : Cause) : causesInRange c.mask = true := by cases c <;> rfl

/-- An update of the pending set, the waiting notice and the journal. -/
theorem Moves.recorded {s : State} (n : NoticeUnit) (j : List JournalRecord) (enabled : n.enabled = s.ntu.enabled)
    (held : n.held = s.ntu.held) (deferred : n.deferredStore = s.ntu.deferredStore)
    (unrecorded : s.ntu.held = true → n.pending = s.ntu.pending)
    (causes : causesInRange s.ntu.pending = true → causesInRange n.pending = true)
    (journal : s.journal.length ≤ 48 → j.length ≤ 48) : Moves s ((s.setJournal j).setNtu n) where
  clock := rfl
  choices := rfl
  pending := rfl
  lines := rfl
  lp := rfl
  cst := rfl
  powerHeld := rfl
  clockGood := rfl
  span := rfl
  mrg := rfl
  ranking := rfl
  antennas := rfl
  pattern := rfl
  barefoot := rfl
  enabled := enabled
  held := held
  deferred := deferred
  queue := List.Sublist.refl _
  holds := fun _ h => .inl h
  setup := fun _ h => h
  unrecorded := unrecorded
  causes := causes
  journal := journal
  localKey := id

theorem raise_moves (c : Cause) (s : State) : Moves s (raise c s) := by
  unfold raise
  split
  · exact .refl s
  · rename_i h
    refine .recorded _ s.journal rfl rfl rfl (fun x => ?_) (fun x => causesInRange_or _ _ x (causesInRange_mask c)) id
    simp [x] at h

theorem ringAdd_length (r : JournalRecord) (j : List JournalRecord) (h : j.length ≤ 48) :
    (ringAdd r j).length ≤ 48 := by
  unfold ringAdd
  split
  · simp; omega
  · rcases j with _ | ⟨a, _ | ⟨b, l⟩⟩ <;> simp_all [markOldest]

theorem writeJournal_moves (b : JournalBody) (s : State) : Moves s (writeJournal b s) := by
  have base : Moves s (s.setJournal (ringAdd { body := b, gap := false, time := now s } s.journal)) :=
    .recorded s.ntu _ rfl rfl rfl (fun _ => rfl) id (ringAdd_length _ _)
  unfold writeJournal
  dsimp only
  split
  · exact base.trans (raise_moves _ _)
  · exact base

/-! ## The turn and the queue -/

/-- An update of the turn with the same holder, or to FREE, and of the queue with entries removed. -/
theorem Moves.turn {s : State} (x : Arbiter) (ranking : x.copy = s.tar.copy) (queue : x.queue.Sublist s.tar.queue)
    (holds : ∀ m, holder (s.setTar x) = some m → holder s = some m ∨
      (m ∈ s.tar.queue.map (·.member) ∧ m ∉ x.queue.map (·.member)))
    (setup : s.cst.phase = .setup → s.tar.turn = .free → x.turn = .free) : Moves s (s.setTar x) where
  clock := rfl
  choices := rfl
  pending := rfl
  lines := rfl
  lp := rfl
  cst := rfl
  powerHeld := rfl
  clockGood := rfl
  span := rfl
  mrg := rfl
  ranking := ranking
  antennas := rfl
  pattern := rfl
  barefoot := rfl
  enabled := rfl
  held := rfl
  deferred := rfl
  queue := queue
  holds := holds
  setup := setup
  unrecorded := fun _ => rfl
  causes := id
  journal := id
  localKey := id

theorem setQueue_moves (q : List Entry) (s : State) (h : q.Sublist s.tar.queue) : Moves s (s.setQueue q) :=
  .turn _ rfl h (fun _ x => .inl x) (fun _ x => x)

theorem setTurn_moves (t : Turn) (s : State) (h : ∀ m, holder (s.setTurn t) = some m → holder s = some m)
    (f : s.tar.turn = .free → t = .free) : Moves s (s.setTurn t) :=
  .turn _ rfl (List.Sublist.refl _) (fun m x => .inl (h m x)) (fun _ x => f x)

theorem removeEntry_moves (m : Nat) (s : State) : Moves s (removeEntry m s) := setQueue_moves _ s List.filter_sublist

theorem emptyQueue_moves (s : State) : Moves s (emptyQueue s) := setQueue_moves _ s (List.nil_sublist _)

theorem displaceLowest_moves (s : State) : Moves s (displaceLowest s) := by
  unfold displaceLowest
  split
  · exact .refl s
  · exact removeEntry_moves _ s

theorem setIdleDeadline_moves (d : Option Nat) (s : State) : Moves s (setIdleDeadline d s) := by
  unfold setIdleDeadline
  split
  · rename_i t h
    exact setTurn_moves _ s (fun m x => by simpa [holder, h] using x) (fun x => by simp [h] at x)
  · exact .refl s

theorem startIdleDeadline_moves (s : State) : Moves s (startIdleDeadline s) := setIdleDeadline_moves _ s

/-- The members of the ranked queue are those of the queue. -/
theorem mem_insertRanked (o : Nat) (e x : Entry) (l : List Entry) : x ∈ insertRanked o e l ↔ x = e ∨ x ∈ l := by
  induction l with
  | nil => simp [insertRanked]
  | cons y l ih => simp only [insertRanked]; split <;> simp [ih]; tauto

theorem mem_ranked (o : Nat) (x : Entry) (q : List Entry) : x ∈ ranked o q ↔ x ∈ q := by
  have main : ∀ (q l : List Entry), x ∈ q.foldl (fun l e => insertRanked o e l) l ↔ x ∈ l ∨ x ∈ q := by
    intro q
    induction q with
    | nil => simp
    | cons e q ih => intro l; simp only [List.foldl_cons, ih, mem_insertRanked, List.mem_cons]; tauto
  simp [ranked, main]

theorem firstEligible_mem (s : State) (e : Entry) (h : firstEligible s = some e) : e ∈ s.tar.queue :=
  (mem_ranked _ _ _).1 (List.mem_of_find?_eq_some h)

theorem selectionHeld_setup (s : State) (h : s.cst.phase = .setup) : selectionHeld s = true := by
  simp [selectionHeld, h]

theorem runSelection_moves (s : State) : Moves s (runSelection s) := by
  unfold runSelection
  split
  · rename_i h
    split
    · exact .refl s
    · rename_i e he
      refine Moves.trans ?_ (raise_moves _ _)
      refine .turn { s.tar with queue := s.tar.queue.filter fun x => x.member != e.member, turn := .offered (offerTo e s) }
        rfl List.filter_sublist (fun m x => .inr ?_) (fun p _ => ?_)
      · have x : e.member = m := by simpa [holder, offerTo] using x
        subst x
        exact ⟨List.mem_map_of_mem (firstEligible_mem s e he), by simp⟩
      · simp [selectionHeld_setup s p] at h
  · exact .refl s

/-! ## Filters, power, the identification record -/

theorem setFilter_moves (i : Input) (f : Filter) (s : State) : Moves s (setFilter i f s) := by
  apply Moves.inner <;> first | rfl | exact id

theorem become_moves (i : Input) (b : Bool) (s : State) : Moves s (become i b s) := by
  apply Moves.inner <;> first | rfl | exact id

theorem startFilter_moves (i : Input) (b : Bool) (s : State) : Moves s (startFilter i b s) := by
  unfold startFilter; dsimp only; split
  · exact become_moves _ _ s
  · exact setFilter_moves _ _ s

theorem senseInput_moves (i : Input) (s : State) : Moves s (senseInput i s) := by
  unfold senseInput
  split <;> split <;>
    first | exact .refl s | exact startFilter_moves _ _ s | exact setFilter_moves _ _ s

theorem filterExpires_moves (i : Input) (s : State) : Moves s (filterExpires i s) := by
  unfold filterExpires
  split <;> first | exact .refl s | exact become_moves _ _ s

theorem setBlanking_moves (b : Option Nat) (s : State) : Moves s (s.setIlm { s.ilm with blanking := b }) := by
  apply Moves.inner <;> first | rfl | exact id

theorem startBlanking_moves (s : State) : Moves s (startBlanking s) := by
  unfold startBlanking
  split
  · exact .refl s
  · exact (setBlanking_moves _ s).trans (senseInput_moves _ _)

theorem stopBlanking_moves (s : State) : Moves s (stopBlanking s) := by
  unfold stopBlanking
  split
  · exact .refl s
  · exact (setBlanking_moves _ s).trans (senseInput_moves _ _)

theorem setSpc_moves (x : PowerControl) (s : State) (h : x.barefoot = s.spc.barefoot) : Moves s (s.setSpc x) := by
  apply Moves.inner <;> first | rfl | exact id | exact h

theorem changePower_moves (p : Power) (c : Option SelfCheck) (s : State) : Moves s (changePower p c s) := by
  unfold changePower
  refine .trans ?_ (raise_moves _ _)
  refine .trans ?_ (writeJournal_moves _ _)
  exact setSpc_moves _ s rfl

theorem setRecord_moves (r : IdRecord) (s : State) : Moves s (setRecord r s) := by
  apply Moves.inner <;> first | rfl | exact id

theorem setTone_moves (b : Bool) (s : State) : Moves s (s.setTone b) := by
  apply Moves.inner <;> first | rfl | exact id

theorem missIdentification_moves (t : Trigger) (s : State) : Moves s (missIdentification t s) :=
  (writeJournal_moves _ s).trans (setRecord_moves _ _)

theorem missedAtOff_moves (s : State) : Moves s (missedAtOff s) := by
  unfold missedAtOff
  split
  · exact missIdentification_moves _ s
  · exact .refl s

theorem enterOff_moves (c : Option SelfCheck) (s : State) : Moves s (enterOff c s) := by
  unfold enterOff
  refine .trans ?_ (missedAtOff_moves _)
  refine .trans ?_ (senseInput_moves _ _)
  refine .trans ?_ (changePower_moves _ _ _)
  exact setSpc_moves _ s rfl

theorem enterCooling_moves (s : State) : Moves s (enterCooling s) := by
  have base : ∀ p : Power, Moves s (changePower p none (s.setSpc { s.spc with downRequested := false })) := by
    intro p
    refine .trans ?_ (changePower_moves p none _)
    exact setSpc_moves _ s rfl
  unfold enterCooling
  exact .ite ((base _).trans (enterOff_moves _ _)) (base _)

theorem recordCheckItems_moves (c : SelfCheck) (s : State) : Moves s (recordCheckItems c s) := setSpc_moves _ s rfl

/-! ## The end of a turn -/

theorem setFree_moves (s : State) : Moves s (s.setTurn .free) :=
  setTurn_moves _ s (fun m x => by simp [holder] at x) (fun _ => rfl)

theorem becomeFree_moves (r : JournalBody) (s : State) : Moves s (becomeFree r s) := by
  have base := ((writeJournal_moves r s).trans (raise_moves .turnEnd _)).trans (setFree_moves _)
  unfold becomeFree
  dsimp only
  split
  · exact base.trans (enterCooling_moves _)
  · exact base.trans (runSelection_moves _)

theorem endOffered_moves (c : EndCause) (t : OfferedTurn) (s : State) : Moves s (endOffered c t s) :=
  becomeFree_moves _ s

theorem freeClosing_moves (t : ClosingTurn) (s : State) : Moves s (freeClosing t s) := becomeFree_moves _ s

theorem missClosing_moves (s : State) : Moves s (missClosing s) := by
  unfold missClosing
  split
  · exact missIdentification_moves _ s
  · exact .refl s

theorem freeIfClosing_moves (s : State) : Moves s (freeIfClosing s) := by
  unfold freeIfClosing
  split
  · exact freeClosing_moves _ s
  · exact .refl s

theorem setClosing_moves (c : EndCause) (t : OpenTurn) (s : State) (h : s.tar.turn = .opened t) :
    Moves s (s.setTurn (.closing (closingOf c t))) :=
  setTurn_moves _ s (fun m x => by simpa [holder, h, closingOf] using x) (fun x => by simp [h] at x)

theorem releaseTurn_moves (c : EndCause) (s : State) : Moves s (releaseTurn c s) := by
  unfold releaseTurn
  split
  · exact .refl s
  · exact endOffered_moves _ _ s
  · rename_i t h
    exact ((setClosing_moves c t s h).trans (missClosing_moves _)).trans (freeIfClosing_moves _)
  · exact (missClosing_moves s).trans (freeIfClosing_moves _)

/-! ## The chain -/

theorem setKch_moves (x : Chain) (s : State) : Moves s (s.setKch x) := by
  apply Moves.inner <;> first | rfl | exact id

theorem comeToRest_moves (c : ChainState) (s : State) : Moves s (comeToRest c s) :=
  ((setKch_moves _ s).trans (stopBlanking_moves _)).trans (senseInput_moves _ _)

theorem abandonSend_moves (s : State) : Moves s (abandonSend s) := by
  unfold abandonSend
  split
  · split
    · exact ((setTone_moves _ s).trans (writeJournal_moves _ _)).trans (setRecord_moves _ _)
    · exact (setTone_moves _ s).trans (setRecord_moves _ _)
  · exact .refl s

theorem immediateRelease_moves (c : KeyDownCause) (s : State) : Moves s (immediateRelease c s) := by
  unfold immediateRelease
  split
  · exact .refl s
  · exact ((setKch_moves _ s).trans (comeToRest_moves _ _)).trans (abandonSend_moves _)

theorem chainFault_moves (k : FaultKind) (s : State) : Moves s (chainFault k s) := by
  unfold chainFault
  dsimp only
  have base := ((((setKch_moves _ s).trans (comeToRest_moves .faulted (writeLast .fault s))).trans
    (setKch_moves { (comeToRest .faulted (writeLast .fault s)).kch with
      fault := some ⟨k, s.kch.state, s.kch.claimant, chainMember s, now s⟩ } _)).trans
    (writeJournal_moves (.fault ⟨k, s.kch.state, s.kch.claimant, chainMember s, now s⟩) _)).trans (raise_moves .keyFault _)
  split
  · split
    · exact (base.trans (abandonSend_moves _)).trans (releaseTurn_moves _ _)
    · exact base.trans (abandonSend_moves _)
  · exact base.trans (releaseTurn_moves _ _)

theorem beginStage_moves (c : ChainState) (n : Nat) (s : State) : Moves s (beginStage c n s) := setKch_moves _ s

theorem enterTxUp_moves (air : State → State) (h : ∀ s, Moves s (air s)) (s : State) : Moves s (enterTxUp air s) := by
  have base : Moves s _ :=
    ((beginStage_moves .txUp s.kch.copy.txConfirmLatest s).trans (senseInput_moves .ants _)).trans
      (startBlanking_moves _)
  unfold enterTxUp
  dsimp only
  split
  · split
    · exact base.trans (h _)
    · exact base.trans (chainFault_moves _ _)
  · exact base

theorem enterAmpUp_moves (air : State → State) (h : ∀ s, Moves s (air s)) (s : State) : Moves s (enterAmpUp air s) := by
  have base : Moves s _ :=
    (beginStage_moves .ampUp s.kch.copy.ampReadyLatest s).trans (senseInput_moves .ants _)
  unfold enterAmpUp
  dsimp only
  split
  · split
    · exact base.trans (enterTxUp_moves air h _)
    · exact base.trans (chainFault_moves _ _)
  · exact base

theorem keyUp_moves (c : Claimant) (air : State → State) (h : ∀ s, Moves s (air s)) (s : State) :
    Moves s (keyUp c air s) := by
  have base : Moves s _ := (setKch_moves { s.kch with claimant := c } s).trans (setIdleDeadline_moves none _)
  unfold keyUp
  dsimp only
  split
  · exact base.trans (enterTxUp_moves air h _)
  · exact base.trans (enterAmpUp_moves air h _)

theorem enterOnAir_moves (s : State) : Moves s (enterOnAir s) := setKch_moves _ s

theorem onAirIdent_moves (s : State) : Moves s (onAirIdent s) := by
  unfold onAirIdent
  dsimp only
  split
  · exact ((enterOnAir_moves s).trans (setRecord_moves _ _)).trans (setTone_moves _ _)
  · exact enterOnAir_moves s

theorem takeClaim_moves (t : Trigger) (s : State) : Moves s (takeClaim t s) := by
  unfold takeClaim
  split
  · exact (setRecord_moves _ s).trans (keyUp_moves _ _ onAirIdent_moves _)
  · exact (setRecord_moves _ s).trans (keyUp_moves _ _ onAirIdent_moves _)
  · exact .refl s

theorem claimInterval_moves (s : State) : Moves s (claimInterval s) := by
  unfold claimInterval
  split
  · exact takeClaim_moves _ s
  · exact .refl s

theorem closingStep_moves (s : State) : Moves s (closingStep s) := by
  unfold closingStep
  split
  · split
    · split
      · exact .refl s
      · split
        · exact takeClaim_moves _ s
        · exact (missClosing_moves s).trans (freeIfClosing_moves _)
    · exact freeIfClosing_moves s
  · exact .refl s

theorem idSent_moves (s : State) : Moves s (idSent s) := by
  unfold idSent
  split
  · exact (writeJournal_moves _ s).trans (setRecord_moves _ _)
  · exact .refl s

theorem completeKeyDown_moves (s : State) : Moves s (completeKeyDown s) := by
  have base : Moves s (comeToRest .idle (writeLast (s.kch.keyDownCause.getD .unkey) s)) :=
    .trans (setKch_moves _ s) (comeToRest_moves _ _)
  have third : ∀ (b c : Bool) (t : State), Moves s t →
      Moves s (if c then idSent (if b then loadHoldoff t else t) else if b then loadHoldoff t else t) := by
    intro b c t h
    have second : Moves s (if b then loadHoldoff t else t) := .ite (h.trans (setKch_moves _ _)) h
    exact .ite (second.trans (idSent_moves _)) second
  unfold completeKeyDown
  exact .ite (((third _ _ _ base).trans (startIdleDeadline_moves _)).trans (claimInterval_moves _))
    ((third _ _ _ base).trans (closingStep_moves _))

theorem enterAmpDown_moves (s : State) : Moves s (enterAmpDown s) := by
  unfold enterAmpDown
  dsimp only
  split
  · exact (beginStage_moves _ _ s).trans (completeKeyDown_moves _)
  · exact beginStage_moves _ _ s

theorem endTxDown_moves (s : State) : Moves s (endTxDown s) := by
  unfold endTxDown
  split
  · exact completeKeyDown_moves s
  · exact enterAmpDown_moves s

theorem enterTxDown_moves (s : State) : Moves s (enterTxDown s) := by
  have base : ∀ x : Chain, Moves s (stopBlanking (beginStage .txDown s.kch.copy.txDropLimit (s.setKch x))) :=
    fun x => .trans (.trans (setKch_moves x s) (beginStage_moves _ _ _)) (stopBlanking_moves _)
  unfold enterTxDown
  exact .ite (base _) ((base _).trans (endTxDown_moves _))

theorem requestKeyDown_moves (cause : KeyDownCause) (c : Claimant) (s : State) :
    Moves s (requestKeyDown cause c s) := by
  have base : Moves s (beginKeyDown cause s) := setKch_moves _ s
  unfold requestKeyDown
  split
  · split
    · exact base.trans (enterAmpDown_moves _)
    · exact base.trans (enterTxDown_moves _)
    · exact base.trans (enterTxDown_moves _)
    · exact .refl s
  · exact .refl s

theorem endOpen_moves (cause : EndCause) (t : OpenTurn) (s : State) (h : s.tar.turn = .opened t) :
    Moves s (endOpen cause t s) := by
  have base := setClosing_moves cause t s h
  unfold endOpen
  dsimp only
  split
  · exact base.trans (requestKeyDown_moves _ _ _)
  · exact base.trans (closingStep_moves _)

theorem endTurn_moves (cause : EndCause) (s : State) : Moves s (endTurn cause s) := by
  unfold endTurn
  split
  · exact endOffered_moves _ _ s
  · rename_i t h
    exact endOpen_moves cause t s h
  · exact .refl s

theorem oweIdentification_moves (s : State) : Moves s (oweIdentification s) := by
  unfold oweIdentification
  split
  · exact setRecord_moves _ s
  · exact .refl s

theorem setUnitOwed_moves (b : Bool) (s : State) : Moves s (s.setUnitOwed b) := by
  constructor <;> first | rfl | exact List.Sublist.refl _ | exact fun _ h => .inl h | simp +contextual

theorem onAirHolder_moves (s : State) : Moves s (onAirHolder s) := by
  have base : Moves s _ := (((enterOnAir_moves s).trans (setUnitOwed_moves false _)).trans (setKch_moves
    { (enterOnAir s).kch with
      txLimit := some (afterSeconds (enterOnAir s).kch.copy.transmissionLimit (enterOnAir s)) } _)).trans
      (oweIdentification_moves _)
  unfold onAirHolder
  dsimp only
  split
  · exact base
  · exact base.trans (requestKeyDown_moves _ _ _)

theorem loadDeadMan_moves (s : State) : Moves s (loadDeadMan s) := setKch_moves _ s

theorem keyUpHolder_moves (s : State) : Moves s (keyUpHolder s) :=
  (loadDeadMan_moves s).trans (keyUp_moves _ _ onAirHolder_moves _)

theorem onAir_moves (s : State) : Moves s (onAir s) := by
  unfold onAir
  split
  · exact onAirIdent_moves s
  · exact onAirHolder_moves s

/-! ## What follows from the inputs -/

theorem trip_moves (i : Input) (s : State) (h : i ≠ .localKey) : Moves s (trip i s) := by
  have latch : Moves s (s.setIlm { s.ilm with latched := s.ilm.latched.set i true }) := by
    apply Moves.inner <;> first | rfl | skip
    cases i <;> first | exact id | exact absurd rfl h
  have base := ((((latch.trans (writeJournal_moves (.trip i s.kch.state (chainMember s)) _)).trans
    (raise_moves .trip _)).trans (immediateRelease_moves .trip _)).trans (releaseTurn_moves .trip _))
  unfold trip
  dsimp only
  split
  · exact base.trans (enterOff_moves _ _)
  · exact base

theorem report_moves (i : Input) (s : State) : Moves s (report i s) :=
  (writeJournal_moves _ s).trans (raise_moves _ _)

theorem localBecomesActive_moves (s : State) : Moves s (localBecomesActive s) :=
  (immediateRelease_moves _ s).trans (releaseTurn_moves _ _)

theorem localBecomesQuiet_moves (s : State) : Moves s (localBecomesQuiet s) :=
  (claimInterval_moves s).trans (runSelection_moves _)

theorem inputBecame_moves (i : Input) (b : Bool) (s : State) : Moves s (inputBecame i b s) := by
  unfold inputBecame
  split
  · exact localBecomesActive_moves s
  · exact localBecomesQuiet_moves s
  · rename_i h
    split
    · exact trip_moves i s (fun x => h (x ▸ rfl))
    · exact report_moves i s
  · exact .refl s

theorem setArisen_moves (l : List (Input × Bool)) (s : State) : Moves s (s.setIlm { s.ilm with arisen := l }) := by
  apply Moves.inner <;> first | rfl | exact id

theorem drain_moves (n : Nat) (s : State) : Moves s (drain n s) := by
  induction n generalizing s with
  | zero => exact setArisen_moves _ s
  | succ n ih =>
    unfold drain
    split
    · exact .refl s
    · exact ((setArisen_moves _ s).trans (inputBecame_moves _ _ _)).trans (ih _)

theorem settle_moves (s : State) : Moves s (settle s) := drain_moves _ s

/-- Log entry 7: nothing is left to act on at the end of an event. -/
theorem drain_arisen (n : Nat) (s : State) : (drain n s).ilm.arisen = [] := by
  induction n generalizing s with
  | zero => rfl
  | succ n ih =>
    unfold drain
    split
    · assumption
    · exact ih _

theorem settle_arisen (s : State) : (settle s).ilm.arisen = [] := drain_arisen _ s

/-- With nothing to act on, an event ends as it stands. -/
theorem settle_of_settled (s : State) (h : s.ilm.arisen = []) : settle s = s := by
  simp [settle, drainLimit, drain, h]

/-! ## The setting -/

theorem setSeu_moves (x : SettingUnit) (s : State) (h : x.antennas = s.seu.antennas) : Moves s (s.setSeu x) := by
  apply Moves.inner <;> first | rfl | exact id | exact h

theorem endRetune_moves (r : RetuneResult) (s : State) : Moves s (endRetune r s) := by
  unfold endRetune
  split
  · exact .refl s
  · refine .trans ?_ (raise_moves _ _)
    exact setSeu_moves _ s rfl

theorem claimHeldBack_moves (s : State) : Moves s (claimHeldBack s) := by
  unfold claimHeldBack
  split
  · exact claimInterval_moves s
  · exact closingStep_moves s

theorem enterAwaiting_moves (r : Requested) (s : State) : Moves s (enterAwaiting r s) := setSeu_moves _ s rfl

theorem enterSwitching_moves (r : Requested) (s : State) : Moves s (enterSwitching r s) := by
  unfold enterSwitching
  refine .ite (.trans ?_ (enterAwaiting_moves _ _)) ?_
  · exact setSeu_moves _ s rfl
  · exact setSeu_moves _ s rfl

theorem beginRetune_moves (r : Requested) (s : State) : Moves s (beginRetune r s) := by
  unfold beginRetune
  dsimp only
  split
  · exact (endRetune_moves _ s).trans (enterSwitching_moves _ _)
  · exact (endRetune_moves _ s).trans (enterAwaiting_moves _ _)

theorem senseChanged_moves (s : State) : Moves s (senseChanged s) := by
  unfold senseChanged
  split
  · split
    · exact enterAwaiting_moves _ s
    · exact .refl s
  · exact .refl s

theorem confirmSetting_moves (x : Setting) (s : State) : Moves s (confirmSetting x s) := setSeu_moves _ s rfl

theorem staleSetting_moves (s : State) : Moves s (staleSetting s) := setSeu_moves _ s rfl

theorem checkOnAir_moves (x : Setting) (s : State) : Moves s (checkOnAir x s) := by
  unfold checkOnAir
  split
  · split
    · exact .refl s
    · split
      · exact .refl s
      · exact requestKeyDown_moves _ _ s
  · exact .refl s

theorem unsolicited_moves (x : Setting) (s : State) : Moves s (unsolicited x s) := by
  have base := (confirmSetting_moves x s).trans (checkOnAir_moves x _)
  unfold unsolicited
  dsimp only
  split
  · exact base
  · exact base.trans (raise_moves _ _)

theorem takeReadback_moves (tag : Byte) (x : Setting) (s : State) : Moves s (takeReadback tag x s) := by
  unfold takeReadback
  split
  · split
    · exact (((confirmSetting_moves x s).trans (checkOnAir_moves x _)).trans (endRetune_moves _ _)).trans
        (claimHeldBack_moves _)
    · exact unsolicited_moves x s
  · exact unsolicited_moves x s

theorem setRigReceiver_moves (r : Receiver) (s : State) : Moves s (s.setSeu { s.seu with rx := r }) :=
  setSeu_moves _ s rfl

theorem readbackArrives_moves (tag : Byte) (f : Word) (m : Byte) (p c : Half) (s : State) :
    Moves s (readbackArrives tag f m p c s) := by
  have base := setRigReceiver_moves .hunting s
  unfold readbackArrives
  dsimp only
  split
  · split
    · exact base
    · split
      · exact base.trans (takeReadback_moves _ _ _)
      · exact base
  · exact base

theorem rigByte_moves (s : State) (b : Byte) : Moves s (rigByte s b) := by
  unfold rigByte
  split
  · split
    · exact setRigReceiver_moves _ s
    · exact .refl s
  · dsimp only
    split
    · exact readbackArrives_moves _ _ _ _ _ s
    · exact setRigReceiver_moves _ s

theorem rigBreak_moves (l : List Byte) (s : State) : Moves s (rigBreak l s) := by
  have main : ∀ (l : List Byte) (s : State), Moves s (l.foldl rigByte s) := by
    intro l
    induction l with
    | nil => exact fun s => .refl s
    | cons b l ih => exact fun s => (rigByte_moves s b).trans (ih _)
  exact (main l s).trans (setRigReceiver_moves _ _)

theorem settlePasses_moves (s : State) : Moves s (settlePasses s) :=
  (endRetune_moves _ s).trans (claimHeldBack_moves _)

theorem readbackTimesOut_moves (s : State) : Moves s (readbackTimesOut s) :=
  ((staleSetting_moves s).trans (endRetune_moves _ _)).trans (claimHeldBack_moves _)

theorem rigFallsSilent_moves (s : State) : Moves s (rigFallsSilent s) := by
  have base : Moves s (staleSetting (s.setSeu { s.seu with rigSilence := none })) := by
    refine .trans ?_ (staleSetting_moves _)
    exact setSeu_moves _ s rfl
  have second : ∀ b : Bool, Moves s (if b then
      raise .setting (staleSetting (s.setSeu { s.seu with rigSilence := none }))
      else staleSetting (s.setSeu { s.seu with rigSilence := none })) :=
    fun _ => .ite (base.trans (raise_moves _ _)) base
  unfold rigFallsSilent
  exact .ite ((second _).trans (requestKeyDown_moves _ _ _)) (second _)

theorem settingSent_moves (s : State) : Moves s (settingSent s) := by
  unfold settingSent
  split
  · exact .refl s
  · exact setSeu_moves _ s rfl

/-! ## The timers -/

theorem turnDeadlinePasses_moves (s : State) : Moves s (turnDeadlinePasses s) := by
  unfold turnDeadlinePasses
  split
  · rename_i t h
    split
    · exact endTurn_moves _ s
    · exact setTurn_moves _ s (fun m x => by simpa [holder, h] using x) (fun x => by simp [h] at x)
  · exact .refl s

theorem deadManExpires_moves (s : State) : Moves s (deadManExpires s) :=
  ((setKch_moves _ s).trans (requestKeyDown_moves _ _ _)).trans (endTurn_moves _ _)

theorem txLimitExpires_moves (s : State) : Moves s (txLimitExpires s) :=
  (setKch_moves _ s).trans (requestKeyDown_moves _ _ _)

theorem holdoffExpires_moves (s : State) : Moves s (holdoffExpires s) := setKch_moves _ s

theorem intervalExpires_moves (s : State) : Moves s (intervalExpires s) := by
  unfold intervalExpires
  split
  · exact ((setRecord_moves _ s).trans (raise_moves _ _)).trans (claimInterval_moves _)
  · exact .refl s

theorem graceExpires_moves (s : State) : Moves s (graceExpires s) := by
  unfold graceExpires
  split
  · dsimp only
    split
    · exact (setRecord_moves _ s).trans (requestKeyDown_moves _ _ _)
    · exact setRecord_moves _ s
  · exact .refl s

theorem patternEnds_moves (s : State) : Moves s (patternEnds s) := by
  unfold patternEnds
  split
  · exact ((setTone_moves _ s).trans (setRecord_moves _ _)).trans (requestKeyDown_moves _ _ _)
  · exact .refl s

theorem elementEnds_moves (n : Nat) (s : State) : Moves s (elementEnds n s) := by
  unfold elementEnds
  split
  · split
    · exact setTone_moves _ s
    · split
      · exact (setRecord_moves _ s).trans (setTone_moves _ _)
      · exact patternEnds_moves s
  · exact .refl s

theorem supplyFails_moves (s : State) : Moves s (supplyFails s) :=
  (recordCheckItems_moves _ s).trans (enterOff_moves _ _)

theorem restartAllowed_moves (s : State) : Moves s (restartAllowed s) := setSpc_moves _ s rfl

theorem makeSelfCheck_moves (s : State) : Moves s (makeSelfCheck s) := by
  have base := recordCheckItems_moves (selfCheckItems s) s
  unfold makeSelfCheck
  dsimp only
  split
  · exact ((base.trans (changePower_moves _ _ _)).trans (claimInterval_moves _)).trans (runSelection_moves _)
  · exact base.trans (enterOff_moves _ _)

theorem confirmSupply_moves (s : State) : Moves s (confirmSupply s) := by
  have base : Moves s _ := (setSpc_moves { s.spc with power := .warmUp (afterSeconds s.spc.copy.warmUp s) } s rfl).trans
    (senseInput_moves .supok _)
  unfold confirmSupply
  dsimp only
  split
  · exact base.trans (makeSelfCheck_moves _)
  · exact base

theorem enterWarming_moves (s : State) : Moves s (enterWarming s) := by
  have base := changePower_moves (.supplyWait (s.clock + Config.supplyConfirmTime)) none s
  unfold enterWarming
  dsimp only
  split
  · exact base.trans (confirmSupply_moves _)
  · exact base

/-! ## The watch -/

theorem setWatch_moves (w : Watch) (s : State) : Moves s (s.setWatch w) where
  clock := rfl
  choices := rfl
  pending := rfl
  lines := rfl
  lp := rfl
  cst := rfl
  powerHeld := rfl
  clockGood := rfl
  span := rfl
  mrg := rfl
  ranking := rfl
  antennas := rfl
  pattern := rfl
  barefoot := rfl
  enabled := rfl
  held := rfl
  deferred := rfl
  queue := List.Sublist.refl _
  holds := fun _ h => .inl h
  setup := fun _ h => h
  unrecorded := fun _ => rfl
  causes := id
  journal := id
  localKey := id

theorem beginWatch_moves (m : Nat) (s : State) : Moves s (beginWatch m s) :=
  (((setWatch_moves _ s).trans (writeJournal_moves _ _)).trans (raise_moves _ _)).trans (runSelection_moves _)

theorem endSupervised_moves (s : State) : Moves s (endSupervised s) := by
  unfold endSupervised
  split
  · exact endTurn_moves _ s
  · exact .refl s

theorem endWatch_moves (s : State) : Moves s (endWatch s) := by
  unfold endWatch
  split
  · exact .refl s
  · exact (((setWatch_moves _ s).trans (writeJournal_moves _ _)).trans (raise_moves _ _)).trans (endSupervised_moves _)

/-! ## The lines -/

theorem amprdyChanged_moves (b : Bool) (s : State) : Moves s (amprdyChanged b s) := by
  unfold amprdyChanged
  split
  · exact .refl s
  · split <;> first
      | exact .refl s
      | exact chainFault_moves _ s
      | (split
         · exact chainFault_moves _ s
         · exact enterTxUp_moves _ onAir_moves s)

theorem txcChanged_moves (b : Bool) (s : State) : Moves s (txcChanged b s) := by
  unfold txcChanged
  split <;> first
    | exact .refl s
    | exact chainFault_moves _ s
    | exact endTxDown_moves s
    | (split
       · exact chainFault_moves _ s
       · exact onAir_moves s)

theorem supokChanged_moves (b : Bool) (s : State) : Moves s (supokChanged b s) := by
  unfold supokChanged
  split
  · exact (confirmSupply_moves s).trans (senseInput_moves _ _)
  · exact senseInput_moves _ s

theorem antennaLinesChanged_moves (s : State) : Moves s (antennaLinesChanged s) :=
  (senseChanged_moves s).trans (senseInput_moves _ _)

end Sys2Proof.Machine
end

