-- ==== Sys2Proof/Laws/Lawful.lean ====
section
/-! SUPPORT. What every event keeps: the laws of `recordsLawful` and `turnsLawful`, operation by operation, up to the
whole of an event. -/

set_option linter.unusedSimpArgs false
set_option linter.unusedTactic false
set_option linter.unreachableTactic false

namespace Sys2Proof.Machine

/-! ## Members -/

theorem enrolment_congr {s t : State} (h : t.mrg.members = s.mrg.members) (m : Nat) : enrolment m t = enrolment m s := by
  simp [enrolment, memberSlot, h]

theorem isSuspended_congr {s t : State} (h : t.mrg.members = s.mrg.members) (m : Nat) :
    isSuspended m t = isSuspended m s := by
  simp [isSuspended, memberSlot, h]

/-! ## What moves keep -/

theorem Moves.members {s t : State} (h : Moves s t) : t.mrg.members = s.mrg.members := by rw [h.mrg]

theorem Moves.recordsLawful {s t : State} (h : Moves s t) (l : recordsLawful s) : recordsLawful t := by
  obtain ⟨a, b, c, d, e⟩ := l
  refine ⟨h.journal a, ?_, fun x => ?_, h.causes d, h.localKey e⟩
  · unfold receiveBounded; rw [h.lp]; exact b
  · have x' := h.held ▸ x
    rw [h.unrecorded x']; exact c x'

theorem Moves.turnsLawful {s t : State} (h : Moves s t) (l : turnsLawful s) : turnsLawful t := by
  obtain ⟨⟨a1, a2⟩, b, c, d, e⟩ := l
  have sub := h.queue.map (·.member)
  refine ⟨⟨h.queue.length_le.trans a1, sub.nodup a2⟩, fun x hx => ?_, fun m hm => ?_, fun p => ?_, fun w => ?_⟩
  · rw [enrolment_congr h.members, isSuspended_congr h.members]
    exact b x (h.queue.subset hx)
  · rcases h.holds m hm with k | ⟨_, k⟩
    · exact fun x => c m k (sub.subset x)
    · exact k
  · rw [h.cst] at p
    obtain ⟨q, f⟩ := d p
    exact ⟨List.sublist_nil.1 (q ▸ h.queue), h.setup p f⟩
  · rw [h.cst] at w ⊢; exact e w

/-- The laws of the turn and the queue look at nothing but the turn and queue, the members, and the store. -/
theorem turnsLawful_congr {s t : State} (tar : t.tar = s.tar) (members : t.mrg.members = s.mrg.members)
    (phase : t.cst.phase = s.cst.phase) (writing : t.cst.writing = s.cst.writing) (l : turnsLawful s) :
    turnsLawful t := by
  obtain ⟨⟨a1, a2⟩, b, c, d, e⟩ := l
  refine ⟨⟨by rw [tar]; exact a1, by rw [tar]; exact a2⟩, fun x hx => ?_, fun m hm => ?_, fun p => ?_, fun w => ?_⟩
  · rw [enrolment_congr members, isSuspended_congr members]
    exact b x (by rw [← tar]; exact hx)
  · rw [tar]; exact c m (by rw [← holder_congr tar]; exact hm)
  · rw [tar]; exact d (by rw [← phase]; exact p)
  · rw [phase]; exact e (by rw [← writing]; exact w)

/-- The laws of the records look at nothing but the journal, the receive queue, the notices and the latches. -/
theorem recordsLawful_congr {s t : State} (journal : t.journal = s.journal) (queue : t.lp.queue = s.lp.queue)
    (ntu : t.ntu = s.ntu) (latched : t.ilm.latched.localKey = s.ilm.latched.localKey) (l : recordsLawful s) :
    recordsLawful t := by
  unfold Machine.recordsLawful journalBounded receiveBounded heldIsEmpty causesNamed localUnlatched at *
  rw [journal, queue, ntu, latched]; exact l

/-- Everything that an event keeps. -/
def lawful (s : State) : Prop := recordsLawful s ∧ turnsLawful s

theorem Moves.lawful {s t : State} (h : Moves s t) (l : lawful s) : lawful t :=
  ⟨h.recordsLawful l.1, h.turnsLawful l.2⟩

theorem setLp_lawful (x : Link) (s : State) (h : x.queue.length ≤ 4) (l : lawful s) : lawful (s.setLp x) := by
  obtain ⟨⟨a, _, c, d, e⟩, b⟩ := l
  exact ⟨⟨a, h, c, d, e⟩, turnsLawful_congr rfl rfl rfl rfl b⟩

theorem setLp_lawful' (x : Link) (s : State) (h : x.queue = s.lp.queue) (l : lawful s) : lawful (s.setLp x) :=
  setLp_lawful x s (h ▸ l.1.2.1) l

theorem setCst_lawful (x : Store) (s : State) (phase : x.phase = s.cst.phase)
    (writing : x.writing.isSome = true → s.cst.phase = .setup) (l : lawful s) : lawful (s.setCst x) := by
  obtain ⟨a, ⟨q, m, h, d, _⟩⟩ := l
  refine ⟨recordsLawful_congr rfl rfl rfl rfl a, ⟨q, m, h, fun p => d (phase ▸ p), fun w => ?_⟩⟩
  show x.phase = .setup
  rw [phase]; exact writing w

theorem setNtu_lawful (x : NoticeUnit) (s : State) (held : x.held = true → x.pending = 0)
    (causes : causesInRange x.pending = true) (l : lawful s) : lawful (s.setNtu x) := by
  obtain ⟨⟨a, b, _, _, e⟩, t⟩ := l
  exact ⟨⟨a, b, held, causes, e⟩, turnsLawful_congr rfl rfl rfl rfl t⟩

/-! ## Joining and leaving the queue -/

theorem entryOf_isSome (m : Nat) (s : State) : (entryOf m s).isSome = true ↔ m ∈ s.tar.queue.map (·.member) := by
  simp [entryOf, List.find?_isSome]

/-- R20: an entry may join for an ENROLLED member that is not suspended, holds no turn and has no entry, in RUN. -/
theorem joinQueue_lawful (e : Entry) (s : State) (run : s.cst.phase = .run) (room : s.tar.queue.length < 12)
    (enrolled : (enrolment e.member s).isSome = true) (active : isSuspended e.member s = false)
    (free : e.member ∉ s.tar.queue.map (·.member)) (held : holder s ≠ some e.member) (l : lawful s) :
    lawful (joinQueue e s) := by
  obtain ⟨a, ⟨q1, q2⟩, m, h, d, w⟩ := l
  refine ⟨recordsLawful_congr rfl rfl rfl rfl a, ⟨?_, ?_⟩, ?_, ?_, ?_, w⟩
  · simp; omega
  · simp only [joinQueue_tar, List.map_append, List.map_cons, List.map_nil]
    exact q2.append (List.nodup_singleton _) (by simpa using free)
  · intro x hx
    rw [enrolment_congr (s := s) (by simp), isSuspended_congr (s := s) (by simp)]
    simp only [joinQueue_tar, List.mem_append, List.mem_singleton] at hx
    rcases hx with hx | rfl
    · exact m x hx
    · exact ⟨enrolled, active⟩
  · intro k hk
    have hk : holder s = some k := hk
    have ne : e.member ≠ k := fun x => held (x ▸ hk)
    have := h k hk
    simp only [joinQueue_tar, List.map_append, List.map_cons, List.map_nil, List.mem_append, List.mem_singleton]
    rintro (x | x)
    · exact this x
    · exact ne x.symm
  · intro p
    simp [run] at p

/-- R31: an entry that moves to BREAK placement keeps its member. -/
theorem moveToBreak_members (m k : Nat) (q : List Entry) :
    (q.map (moveToBreak m k)).map (·.member) = q.map (·.member) := by
  rw [List.map_map]
  refine List.map_congr_left fun e _ => ?_
  simp only [Function.comp, moveToBreak]
  split <;> rfl

/-! ## Members' run-time items -/

theorem memberSlot_setMember (m k : Nat) (x : MemberSlot) (s : State) :
    memberSlot k (setMember m x s) = if m = k ∧ k < 32 then x else memberSlot k s := by
  simp only [memberSlot, setMember_mrg, Vector.getElem?_setIfInBounds]
  by_cases h : m = k
  · subst h
    by_cases b : m < 32
    · simp [b]
    · simp [b]
  · simp [h]

/-- Run-time items that suspend nobody keep the laws. -/
theorem setMember_lawful (m : Nat) (x : MemberSlot) (s : State) (entry : x.entry = (memberSlot m s).entry)
    (active : x.suspended = true → (memberSlot m s).suspended = true) (l : lawful s) : lawful (setMember m x s) := by
  obtain ⟨a, ⟨q, mem, h, d, w⟩⟩ := l
  refine ⟨recordsLawful_congr rfl rfl rfl rfl a, ⟨q, fun e he => ?_, h, d, w⟩⟩
  obtain ⟨b1, b2⟩ := mem e he
  unfold enrolment at b1 ⊢
  unfold isSuspended at b2 ⊢
  rw [memberSlot_setMember]
  by_cases k : m = e.member ∧ e.member < 32
  · rw [if_pos k, entry, k.1]
    refine ⟨b1, ?_⟩
    cases y : x.suspended
    · rfl
    · rw [← k.1, active y] at b2; exact b2
  · rw [if_neg k]; exact ⟨b1, b2⟩

/-- R46 steps 1 and 2: a member that is suspended has left the queue. -/
theorem suspended_lawful (m : Nat) (s : State) (l : lawful s) : lawful (removeEntry m (setSuspended m true s)) := by
  obtain ⟨a, ⟨⟨q1, q2⟩, mem, h, d, w⟩⟩ := l
  have sub : (s.tar.queue.filter fun e => e.member != m).Sublist s.tar.queue := List.filter_sublist
  refine ⟨recordsLawful_congr rfl rfl rfl rfl a, ⟨⟨sub.length_le.trans q1, (sub.map _).nodup q2⟩, fun e he => ?_,
    fun k hk x => h k hk ((sub.map (·.member)).subset x), fun p => ?_, w⟩⟩
  · simp only [removeEntry_tar, setSuspended_tar, List.mem_filter, bne_iff_ne, ne_eq] at he
    have := mem e he.1
    simp only [enrolment, isSuspended, memberSlot] at this ⊢
    simp only [removeEntry_mrg, setSuspended, setMember_mrg, Vector.getElem?_setIfInBounds, Ne.symm he.2, if_false,
      this, and_self]
  · obtain ⟨x, y⟩ := d p
    exact ⟨List.sublist_nil.1 (x ▸ sub), y⟩

theorem refill_lawful (m : Nat) (s : State) (l : lawful s) : lawful (refill m s) := by
  unfold refill
  split
  · exact setMember_lawful m _ s rfl id l
  · exact l

theorem refillAll_lawful (s : State) (l : lawful s) : lawful (refillAll s) := by
  have main : ∀ (n : List Nat) (s : State), lawful s → lawful (n.foldl (fun s m => refill m s) s) := by
    intro n
    induction n with
    | nil => exact fun _ l => l
    | cons m n ih => exact fun s l => ih _ (refill_lawful m s l)
  exact main _ s l

/-! ## The requests: each keeps the laws where the general checks have let it through -/

@[simp] theorem answer_state (o : ReplyOutcome) (s : State) : (answer o s).state = s := rfl
@[simp] theorem answerWith_state (o : ReplyOutcome) (b : List Byte) (s : State) : (answerWith o b s).state = s := rfl
@[simp] theorem deny_state (r : Reason) (s : State) : (deny r s).state = s := rfl

theorem acceptOffer_moves (t : OfferedTurn) (s : State) (h : s.tar.turn = .offered t) : Moves s (acceptOffer t s) :=
  .turn _ rfl (List.Sublist.refl _) (fun m x => .inl (by simpa [holder, h, acceptOffer, acceptedTurn] using x))
    (fun _ x => by simp [h] at x)

theorem holderTest_lawful (b : Bool) (c : ReplyOutcome) (m : Nat) (owner : State → Answer)
    (h : ∀ s, lawful s → lawful (owner s).state) (s : State) (l : lawful s) :
    lawful (holderTest b c m owner s).state := by
  unfold holderTest
  split
  · exact l
  · split
    · split
      · rename_i t ht
        refine h _ ?_
        split
        · exact (acceptOffer_moves t s ht).lawful l
        · exact l
      · exact l
      · exact h s l
    · exact l

theorem preempt_moves (s : State) : Moves s (preempt s) := by
  unfold preempt
  split
  · exact endTurn_moves _ s
  · exact .refl s

theorem ranked_length (o : Nat) (q : List Entry) : (ranked o q).length = q.length := by
  have one : ∀ (e : Entry) (l : List Entry), (insertRanked o e l).length = l.length + 1 := by
    intro e l
    induction l with
    | nil => rfl
    | cons x l ih => simp only [insertRanked]; split <;> simp [ih]
  have main : ∀ (q l : List Entry), (q.foldl (fun l e => insertRanked o e l) l).length = l.length + q.length := by
    intro q
    induction q with
    | nil => simp
    | cons e q ih => intro l; simp only [List.foldl_cons, ih, one, List.length_cons]; omega
  simp [ranked, main]

/-- R25: the displacement makes room. -/
theorem displaceLowest_length (s : State) (h : s.tar.queue ≠ []) :
    (displaceLowest s).tar.queue.length < s.tar.queue.length := by
  have ne : rankedQueue s ≠ [] := by
    intro x
    have := ranked_length s.tar.copy.ranking s.tar.queue
    rw [show ranked s.tar.copy.ranking s.tar.queue = [] from x] at this
    exact h (List.length_eq_zero_iff.1 this.symm)
  obtain ⟨e, he⟩ : ∃ e, (rankedQueue s).getLast? = some e := ⟨_, List.getLast?_eq_some_getLast ne⟩
  have mem : e ∈ s.tar.queue := (mem_ranked _ _ _).1 (List.mem_of_getLast? he)
  simp only [displaceLowest, lowestRanked, he, removeEntry_tar]
  exact List.length_filter_lt_length_iff_exists.2 ⟨e, mem, by simp⟩

theorem takeReq_lawful (m : Nat) (em : Bool) (x n : Nat) (s : State) (run : s.cst.phase = .run)
    (enrolled : (enrolment m s).isSome = true) (active : isSuspended m s = false) (held : holder s ≠ some m)
    (free : (entryOf m s).isSome = false) (l : lawful s) : lawful (takeReq m em x n s) := by
  have room : ∃ t, Moves s t ∧ t.tar.queue.length < 12 ∧ (if queueFull s then displaceLowest s else s) = t := by
    by_cases f : queueFull s = true
    · refine ⟨displaceLowest s, displaceLowest_moves s, ?_, by simp [f]⟩
      have len := l.2.1.1
      have := displaceLowest_length s (by
        intro z
        simp [queueFull, z] at f)
      omega
    · refine ⟨s, .refl s, ?_, by simp [f]⟩
      simp only [queueFull, decide_eq_true_eq] at f
      omega
  obtain ⟨t, mv, len, eq⟩ := room
  have ht : holder t ≠ some m := by
    intro z
    rcases mv.holds m z with y | ⟨y, _⟩
    · exact held y
    · rw [(entryOf_isSome m s).2 y] at free; cases free
  have joined : lawful (joinQueue (newEntry m (requestClass m em s) x n s) t) := by
    refine joinQueue_lawful _ t (by rw [mv.cst]; exact run) len ?_ ?_ ?_ ht (mv.lawful l)
    · rw [enrolment_congr mv.members]; exact enrolled
    · rw [isSuspended_congr mv.members]; exact active
    · intro y
      have := (mv.queue.map (·.member)).subset y
      rw [(entryOf_isSome m s).2 this] at free; cases free
  unfold takeReq
  dsimp only
  rw [eq]
  refine (runSelection_moves _).lawful ?_
  split
  · exact (preempt_moves _).lawful joined
  · exact joined

theorem answerReq_lawful (m : Nat) (em : Bool) (x n : Nat) (s : State) (run : s.cst.phase = .run)
    (enrolled : (enrolment m s).isSome = true) (l : lawful s) : lawful (answerReq m em x n s).state := by
  unfold answerReq
  split
  · exact l
  · rename_i active
    split
    · exact l
    · split
      · exact l
      · rename_i free
        simp only [Bool.or_eq_true, not_or, beq_iff_eq, Bool.not_eq_true] at free
        split
        · exact l
        · split
          · exact l
          · split
            · exact l
            · exact takeReq_lawful m em x n s run enrolled (by simpa using active) free.1 free.2 l

theorem answerRel_lawful (m : Nat) (s : State) (l : lawful s) : lawful (answerRel m s).state := by
  unfold answerRel
  split
  · exact l
  · split
    · split
      · exact (endTurn_moves _ s).lawful l
      · exact (endTurn_moves _ s).lawful l
      · exact l
    · split
      · exact (removeEntry_moves _ s).lawful l
      · exact l

theorem placeBreak_lawful (m : Nat) (s : State) (run : s.cst.phase = .run) (enrolled : (enrolment m s).isSome = true)
    (active : isSuspended m s = false) (held : holder s ≠ some m)
    (room : (entryOf m s).isNone = true → queueFull s = false) (l : lawful s) : lawful (placeBreak m s) := by
  have base : Moves s (s.setTar { s.tar with placements := s.tar.placements + 1 }) :=
    .turn _ rfl (List.Sublist.refl _) (fun _ x => .inl x) (fun _ x => x)
  unfold placeBreak
  dsimp only
  split
  · rename_i none
    refine joinQueue_lawful _ _ run ?_ ?_ ?_ ?_ held (base.lawful l)
    · simpa [queueFull] using room (by simp [none])
    · rw [enrolment_congr base.members]; exact enrolled
    · rw [isSuspended_congr base.members]; exact active
    · intro x
      have := (entryOf_isSome m s).2 x
      rw [none] at this; cases this
  · split
    · obtain ⟨a, ⟨⟨q1, q2⟩, mem, h, d, w⟩⟩ := base.lawful l
      refine ⟨recordsLawful_congr rfl rfl rfl rfl a, ⟨⟨by simpa using q1, ?_⟩, fun e he => ?_, fun k hk => ?_,
        fun p => ?_, w⟩⟩
      · simp only [setQueue_tar, moveToBreak_members]; exact q2
      · simp only [setQueue_tar, List.mem_map] at he
        obtain ⟨y, hy, rfl⟩ := he
        have := mem y hy
        have same : (moveToBreak m s.tar.placements y).member = y.member := by
          unfold moveToBreak; split <;> rfl
        rw [same]; exact this
      · simp only [setQueue_tar, moveToBreak_members]; exact h k hk
      · simp only [setQueue_cst, setTar_cst] at p; rw [run] at p; cases p
    · exact l

theorem takeBrk_lawful (placed : Option Nat) (s : State)
    (h : ∀ m, placed = some m → lawful (placeBreak m s)) (l : lawful s) : lawful (takeBrk placed s) := by
  unfold takeBrk
  dsimp only
  refine (runSelection_moves _).lawful ((endTurn_moves _ _).lawful ?_)
  split
  · exact l
  · exact h _ rfl

theorem answerBrkAuthority_lawful (b : Bool) (s : State) (l : lawful s) : lawful (answerBrkAuthority b s).state := by
  unfold answerBrkAuthority
  split
  · exact l
  · exact takeBrk_lawful none s (fun _ h => by cases h) l

theorem answerBrkMember_lawful (m : Nat) (b : Bool) (s : State) (run : s.cst.phase = .run)
    (enrolled : (enrolment m s).isSome = true) (l : lawful s) : lawful (answerBrkMember m b s).state := by
  unfold answerBrkMember
  repeat' split
  all_goals try simp only [answer_state, answerWith_state, deny_state]
  all_goals first | with_reducible exact l | skip
  · rename_i active _ held _ _ full tk
    refine takeBrk_lawful (some m) s (fun k hk => ?_) l
    cases hk
    refine placeBreak_lawful m s run enrolled (by simpa using active) (by simpa using held) (fun none => ?_) l
    simpa [tk, none] using full
  · exact takeBrk_lawful none s (fun _ h => by cases h) l

/-! ### Writes, watch and members -/

theorem startWrite_lawful (w : StoreWrite) (s : State) (setup : s.cst.phase = .setup) (l : lawful s) :
    lawful (startWrite w s) := setCst_lawful _ s rfl (fun _ => setup) l

theorem writeUnlessBusy_lawful (w : StoreWrite) (s : State) (setup : s.cst.phase = .setup) (l : lawful s) :
    lawful (writeUnlessBusy w s).state := by
  unfold writeUnlessBusy
  split
  · exact l
  · exact startWrite_lawful w s setup l

theorem readUnlessBusy_state (b : List Byte) (s : State) : (readUnlessBusy b s).state = s := by
  unfold readUnlessBusy; split <;> rfl

theorem endWatchOf_moves (m : Nat) (s : State) : Moves s (endWatchOf m s) := by
  unfold endWatchOf
  split
  · split
    · exact endWatch_moves s
    · exact .refl s
  · exact .refl s

theorem endHeld_moves (m : Nat) (s : State) : Moves s (endHeld m s) := by
  unfold endHeld
  split
  · exact endTurn_moves _ s
  · exact .refl s

theorem reinstate_lawful (m : Nat) (s : State) (l : lawful s) : lawful (setSuspended m false s) := by
  unfold setSuspended
  exact setMember_lawful m { memberSlot m s with suspended := false } s rfl (fun h => by simp at h) l

theorem answerSus_lawful (m : Nat) (b : Byte) (s : State) (l : lawful s) : lawful (answerSus m b s).state := by
  unfold answerSus
  repeat' split
  all_goals try simp only [answer_state, answerWith_state, deny_state]
  all_goals first | with_reducible exact l | skip
  · exact (endWatchOf_moves m _).lawful ((endHeld_moves m _).lawful (suspended_lawful m s l))
  · exact reinstate_lawful m s l

theorem answerQrf_lawful (m : Nat) (s : State) (l : lawful s) : lawful (answerQrf m s).state := by
  unfold answerQrf
  split
  · simp only [answer_state]
    exact refillAll_lawful s l
  · repeat' split
    all_goals try simp only [answer_state]
    all_goals first | with_reducible exact l | exact refill_lawful m s l

theorem answerWch_lawful (m : Nat) (b : Byte) (s : State) (l : lawful s) : lawful (answerWch m b s).state := by
  unfold answerWch watchOn watchOff
  repeat' split
  all_goals try simp only [answer_state, answerWith_state, deny_state]
  all_goals first
    | with_reducible exact l
    | exact (beginWatch_moves m s).lawful l
    | exact (setWatch_moves _ s).lawful l
    | exact (endWatch_moves s).lawful l

/-! ### The chain, the setting, the interlocks and the power -/

theorem answerKey_lawful (m : Nat) (s : State) (l : lawful s) : lawful (answerKey m s).state := by
  refine holderTest_lawful _ _ _ _ (fun s l => ?_) s l
  unfold keyStep
  repeat' split
  all_goals try simp only [answer_state, answerWith_state, deny_state]
  all_goals first | with_reducible exact l | exact (keyUpHolder_moves s).lawful l

theorem answerUnk_lawful (m : Nat) (s : State) (l : lawful s) : lawful (answerUnk m s).state := by
  refine holderTest_lawful _ _ _ _ (fun s l => ?_) s l
  unfold unkeyStep
  repeat' split
  all_goals try simp only [answer_state, answerWith_state, deny_state]
  all_goals first | with_reducible exact l | exact (requestKeyDown_moves _ _ s).lawful l

theorem answerHld_lawful (m : Nat) (s : State) (l : lawful s) : lawful (answerHld m s).state := by
  refine holderTest_lawful _ _ _ _ (fun s l => ?_) s l
  show lawful (if _ then _ else _)
  split
  · exact (loadDeadMan_moves s).lawful l
  · exact l

theorem clearFault_moves (s : State) : Moves s (clearFault s) := by
  unfold clearFault
  refine .ite ?_ ?_
  · exact .trans (.trans (setKch_moves _ s) (startIdleDeadline_moves _)) (claimInterval_moves _)
  · exact .trans (setKch_moves _ s) (runSelection_moves _)

theorem answerFcl_lawful (s : State) (l : lawful s) : lawful (answerFcl s).state := by
  unfold answerFcl
  repeat' split
  all_goals try simp only [answer_state, answerWith_state, deny_state]
  all_goals first | with_reducible exact l | exact (clearFault_moves s).lawful l

theorem answerTun_lawful (m : Nat) (f : Word) (md : Byte) (p : Half) (a : Byte) (s : State) (l : lawful s) :
    lawful (answerTun m f md p a s).state := by
  refine holderTest_lawful _ _ _ _ (fun s l => ?_) s l
  unfold tuneOwner tuneStep
  repeat' split
  all_goals try simp only [answer_state, answerWith_state, deny_state]
  all_goals first | with_reducible exact l | exact (beginRetune_moves _ s).lawful l

theorem clearQuiet_moves (s : State) : Moves s (clearQuiet s) := by
  apply Moves.inner <;> first | rfl | skip
  intro h
  simp [clearQuiet, State.setIlm, PerInput.get, h]

theorem clearTrips_moves (s : State) : Moves s (clearTrips s) := by
  unfold clearTrips
  refine .ite (clearQuiet_moves s) ?_
  exact .trans (.trans (clearQuiet_moves s) (claimInterval_moves _)) (runSelection_moves _)

theorem answerIcl_lawful (s : State) (l : lawful s) : lawful (answerIcl s).state := by
  unfold answerIcl
  repeat' split
  all_goals try simp only [answer_state, answerWith_state, deny_state]
  all_goals first | with_reducible exact l | exact (clearTrips_moves s).lawful l

theorem clearDownRequest_moves (s : State) : Moves s (clearDownRequest s) := by
  unfold clearDownRequest
  refine .ite ?_ (.refl s)
  refine .trans ?_ (runSelection_moves _)
  exact setSpc_moves _ s rfl

theorem answerSpw_lawful (b : Byte) (s : State) (l : lawful s) : lawful (answerSpw b s).state := by
  unfold answerSpw powerUp powerDown requestDown
  repeat' split
  all_goals try simp only [answer_state, answerWith_state, deny_state]
  all_goals first
    | with_reducible exact l
    | exact (enterWarming_moves s).lawful l
    | exact (clearDownRequest_moves s).lawful l
    | exact (enterCooling_moves s).lawful l
    | skip
  refine Moves.lawful (.trans ?_ (endTurn_moves _ _)) l
  exact setSpc_moves _ s rfl

/-- R154: `bft` changes the barefoot flag and the AMPF filter. -/
theorem setBarefoot_lawful (b : Bool) (s : State) (l : lawful s) : lawful (setBarefoot b s) := by
  refine (senseInput_moves _ _).lawful ?_
  exact ⟨recordsLawful_congr rfl rfl rfl rfl l.1, turnsLawful_congr rfl rfl rfl rfl l.2⟩

theorem answerBft_lawful (b : Byte) (s : State) (l : lawful s) : lawful (answerBft b s).state := by
  unfold answerBft
  repeat' split
  all_goals try simp only [answer_state, answerWith_state, deny_state]
  all_goals first | with_reducible exact l | exact setBarefoot_lawful _ s l

/-! ### The link, the notices, the journal and the store -/

theorem causesInRange_and (a b : Half) (h : causesInRange a = true) : causesInRange (a &&& b) = true := by
  simp only [causesInRange, beq_iff_eq] at *
  rw [BitVec.and_assoc, BitVec.and_comm b, ← BitVec.and_assoc, h]; exact BitVec.zero_and

theorem answerNen_lawful (c : Half) (s : State) (l : lawful s) : lawful (answerNen c s).state := by
  unfold answerNen
  split
  · exact l
  · refine setNtu_lawful _ s (fun h => ?_) ?_ l
    · simp only [enableCauses, endHold] at h
      split at h
      · cases h
      · rename_i x
        exact absurd h x
    · have base := l.1.2.2.2.1
      simp only [enableCauses, endHold]
      split
      · dsimp only
        split
        · exact causesInRange_or _ _ base (causesInRange_mask _)
        · exact base
      · exact base

theorem answerNcl_lawful (c : Half) (s : State) (l : lawful s) : lawful (answerNcl c s).state := by
  unfold answerNcl
  split
  · exact l
  · refine setNtu_lawful _ s (fun h => ?_) (causesInRange_and _ _ l.1.2.2.2.1) l
    simp [l.1.2.2.1 h]

theorem answerJrd_lawful (s : State) (l : lawful s) : lawful (answerJrd s).state := by
  unfold answerJrd
  split
  · exact l
  · rename_i r rest h
    obtain ⟨⟨a, b, c, d, e⟩, t⟩ := l
    refine ⟨⟨?_, b, c, d, e⟩, turnsLawful_congr rfl rfl rfl rfl t⟩
    have a : s.journal.length ≤ 48 := a
    show rest.length ≤ 48
    rw [h] at a
    simp only [List.length_cons] at a
    omega

theorem setPhase_run_lawful (s : State) (free : s.cst.writing.isSome = false) (l : lawful s) :
    lawful (s.setPhase .run) := by
  obtain ⟨a, ⟨q, m, h, _, _⟩⟩ := l
  refine ⟨recordsLawful_congr rfl rfl rfl rfl a, ⟨q, m, h, fun p => ?_, fun w => ?_⟩⟩
  · simp at p
  · simp only [setPhase_cst] at w
    rw [free] at w; cases w

theorem loadSupervision_lawful (s : State) (l : lawful s) : lawful (loadSupervision s) := setLp_lawful' _ s rfl l

theorem answerRun_lawful (s : State) (l : lawful s) : lawful (answerRun s).state := by
  unfold answerRun
  split
  · exact l
  · rename_i busy
    repeat' split
    all_goals try simp only [answer_state, answerWith_state, deny_state]
    all_goals first | with_reducible exact l | skip
    exact (runSelection_moves _).lawful (loadSupervision_lawful _ (refillAll_lawful _
      (setPhase_run_lawful s (by simpa [storeBusy] using busy) l)))

/-- R188: with the turn FREE, what the end of a watch brings about leaves it FREE. -/
theorem endWatch_free (s : State) (h : s.tar.turn = .free) : (endWatch s).tar = s.tar := by
  unfold endWatch
  split
  · rfl
  · rename_i m _ _ _
    have : (raise .watch (writeJournal (.watch m false) (s.setWatch .inactive))).tar = s.tar := by simp
    simp only [endSupervised, turnRunning, this, h]
    simp

theorem enterSetup_lawful (s : State) (free : s.tar.turn = .free) (l : lawful s) : lawful (enterSetup s) := by
  have base : Moves s (endWatch (emptyQueue s)) := (emptyQueue_moves s).trans (endWatch_moves _)
  have tar : (endWatch (emptyQueue s)).tar = (emptyQueue s).tar := endWatch_free _ free
  have next : lawful ((endWatch (emptyQueue s)).setLp { (endWatch (emptyQueue s)).lp with supervision := none }) :=
    setLp_lawful' _ _ rfl (base.lawful l)
  obtain ⟨a, ⟨q, m, h, _, w⟩⟩ := next
  refine ⟨recordsLawful_congr rfl rfl rfl rfl a, ⟨q, m, h, fun _ => ?_, fun _ => rfl⟩⟩
  simp only [enterSetup, setPhase_tar, setLp_tar, tar]
  exact ⟨rfl, free⟩

theorem answerSet_lawful (s : State) (l : lawful s) : lawful (answerSet s).state := by
  unfold answerSet
  split
  · rename_i h
    simp only [Bool.and_eq_true, beq_iff_eq] at h
    exact enterSetup_lawful s h.1.1 l
  · exact l

theorem answerRst_lawful (s : State) (l : lawful s) : lawful (answerRst s).state := by
  unfold answerRst
  split
  · exact l
  · exact setCst_lawful _ s rfl (fun h => l.2.2.2.2.2 h) l

/-! ### Any request -/

/-- Section 8.4: a kind that is taken in one phase alone passes check 5 of R161 in that phase. -/
theorem phaseSuits_some (r : Request) (p q : Phase) (k : kindPhase r = some q) (h : phaseSuits r p = true) : p = q := by
  simpa [phaseSuits, k] using h

theorem ownerAnswer_lawful (r : Request) (m : Byte) (was : Bool) (s : State) (phase : phaseSuits r s.cst.phase = true)
    (enrolled : memberKind r = true → (enrolment m.toNat s).isSome = true) (l : lawful s) :
    lawful (ownerAnswer r m was s).state := by
  cases r with
  | sta => exact setLp_lawful' _ s rfl l
  | mwr k state callsign standing profile allowance emergency =>
    have setup := phaseSuits_some _ _ .setup rfl phase
    simp only [ownerAnswer, answerMwr]
    repeat' split
    all_goals try simp only [answer_state, answerWith_state, deny_state]
    all_goals first | with_reducible exact l | exact writeUnlessBusy_lawful _ s setup l
  | mrd k =>
    simp only [ownerAnswer, answerMrd]
    split
    · exact l
    · rw [readUnlessBusy_state]; exact l
  | pfw index count slots =>
    have setup := phaseSuits_some _ _ .setup rfl phase
    simp only [ownerAnswer, answerPfw]
    repeat' split
    all_goals try simp only [answer_state, answerWith_state, deny_state]
    all_goals first | with_reducible exact l | exact writeUnlessBusy_lawful _ s setup l
  | pfr index =>
    simp only [ownerAnswer, answerPfr]
    split
    · exact l
    · rw [readUnlessBusy_state]; exact l
  | anw index state count ranges rating =>
    have setup := phaseSuits_some _ _ .setup rfl phase
    simp only [ownerAnswer, answerAnw]
    repeat' split
    all_goals try simp only [answer_state, answerWith_state, deny_state]
    all_goals first | with_reducible exact l | exact writeUnlessBusy_lawful _ s setup l
  | anr index =>
    simp only [ownerAnswer, answerAnr]
    split
    · exact l
    · rw [readUnlessBusy_state]; exact l
  | prw record =>
    have setup := phaseSuits_some _ _ .setup rfl phase
    simp only [ownerAnswer, answerPrw]
    repeat' split
    all_goals try simp only [answer_state, answerWith_state, deny_state]
    all_goals first | with_reducible exact l | exact writeUnlessBusy_lawful _ s setup l
  | prr => simp only [ownerAnswer, answerPrr, readUnlessBusy_state]; exact l
  | idw count slots =>
    have setup := phaseSuits_some _ _ .setup rfl phase
    simp only [ownerAnswer, answerIdw]
    split
    · exact l
    · exact writeUnlessBusy_lawful _ s setup l
  | idr => simp only [ownerAnswer, answerIdr, readUnlessBusy_state]; exact l
  | cls order =>
    have setup := phaseSuits_some _ _ .setup rfl phase
    simp only [ownerAnswer, answerCls]
    repeat' split
    all_goals try simp only [answer_state, answerWith_state, deny_state]
    all_goals first | with_reducible exact l | exact startWrite_lawful _ s setup l
  | run => exact answerRun_lawful s l
  | set => exact answerSet_lawful s l
  | spw b => exact answerSpw_lawful b s l
  | bft b => exact answerBft_lawful b s l
  | sus k b => exact answerSus_lawful _ b s l
  | qrf k => exact answerQrf_lawful _ s l
  | qrd => exact l
  | jrd => exact answerJrd_lawful s l
  | nen c => exact answerNen_lawful c s l
  | ncl c => exact answerNcl_lawful c s l
  | icl => exact answerIcl_lawful s l
  | fcl => exact answerFcl_lawful s l
  | tst =>
    simp only [ownerAnswer, answerTst]
    split
    · exact l
    · exact setLp_lawful' _ s rfl l
  | rst => exact answerRst_lawful s l
  | brkAuthority b => exact answerBrkAuthority_lawful _ s l
  | req e x n =>
    exact answerReq_lawful _ _ _ _ s (phaseSuits_some _ _ .run rfl phase) (enrolled rfl) l
  | hld => exact answerHld_lawful _ s l
  | rel => exact answerRel_lawful _ s l
  | key => exact answerKey_lawful _ s l
  | unk => exact answerUnk_lawful _ s l
  | tun f md p a => exact answerTun_lawful _ f md p a s l
  | qst => exact l
  | wch b => exact answerWch_lawful _ b s l
  | brkMember b =>
    exact answerBrkMember_lawful _ _ s (phaseSuits_some _ _ .run rfl phase) (enrolled rfl) l
  | unknownKind k b => exact l
  | malformed k b => exact l

theorem reloadIdle_moves (f : Frame) (s : State) : Moves s (reloadIdle f s) := by
  unfold reloadIdle
  split
  · exact .ite (startIdleDeadline_moves s) (.refl s)
  · exact .refl s

/-- R161: a request that passes the general checks suits the phase, and speaks for an ENROLLED member. -/
theorem generalRefusal_none (f : Frame) (s : State) (h : generalRefusal f s = none) :
    phaseSuits f.request s.cst.phase = true ∧
      (memberKind f.request = true → (enrolment f.member.toNat s).isSome = true) := by
  unfold generalRefusal at h
  repeat' split at h
  all_goals first | cases h | skip
  rename_i none phase
  refine ⟨phase, fun k => ?_⟩
  simp only [memberRefusal, k, if_true, entryRefusal] at none
  simp only [enrolment]
  split at none
  all_goals first | cases none | skip
  rename_i e he
  simp [he]

theorem answerFrame_lawful (f : Frame) (was : Bool) (s : State) (l : lawful s) : lawful (answerFrame f was s).state := by
  unfold answerFrame
  split
  · exact l
  · rename_i h
    obtain ⟨phase, enrolled⟩ := generalRefusal_none f s h
    have mv := reloadIdle_moves f s
    exact ownerAnswer_lawful _ _ _ _ (by rw [mv.cst]; exact phase)
      (fun k => by rw [enrolment_congr mv.members]; exact enrolled k) (mv.lawful l)

/-! ## Events -/

theorem setTransmitter_lawful (t : LinkTransmitter) (s : State) (l : lawful s) : lawful (s.setTransmitter t) :=
  setLp_lawful' _ s rfl l

theorem takeFrame_lawful (f : Frame) (s : State) (l : lawful s) : lawful (takeFrame f s) :=
  setTransmitter_lawful _ _ ((settle_moves _).lawful (answerFrame_lawful _ _ _ (setLp_lawful' _ s rfl l)))

theorem takeOldest_lawful (s : State) (l : lawful s) : lawful (takeOldest s) := by
  unfold takeOldest
  split
  · exact setTransmitter_lawful _ s l
  · rename_i f rest h
    refine takeFrame_lawful f _ (setLp_lawful _ s ?_ l)
    have b := l.1.2.1
    simp only [receiveBounded, h, List.length_cons] at b
    show rest.length ≤ 4
    omega

theorem sendNotice_lawful (s : State) (l : lawful s) : lawful (sendNotice s) :=
  setTransmitter_lawful _ _ (setNtu_lawful _ s l.1.2.2.1 l.1.2.2.2.1 l)

theorem pumpNotice_lawful (s : State) (l : lawful s) : lawful (pumpNotice s) := by
  unfold pumpNotice
  split
  · exact sendNotice_lawful s l
  · exact l

theorem event_lawful (f : State → State) (s : State) (h : lawful s → lawful (f s)) (l : lawful s) :
    lawful (event f s) := by
  unfold event
  split
  · exact l
  · exact pumpNotice_lawful _ ((settle_moves _).lawful (h l))

theorem discardFrame_lawful (s : State) (l : lawful s) : lawful (discardFrame s) :=
  (raise_moves _ _).lawful (setLp_lawful' _ s rfl l)

theorem recoverLink_lawful (s : State) (l : lawful s) : lawful (recoverLink s) := by
  have base : lawful (raise .link (s.setLp { s.lp with lost := false })) :=
    (raise_moves _ _).lawful (setLp_lawful' _ s rfl l)
  unfold recoverLink
  refine (runSelection_moves _).lawful ?_
  dsimp only
  split
  · exact loadSupervision_lawful _ base
  · exact base

theorem validArrival_lawful (s : State) (l : lawful s) : lawful (validArrival s) := by
  unfold validArrival
  split
  · exact recoverLink_lawful s l
  · split
    · exact loadSupervision_lawful s l
    · exact l

theorem validArrival_queue (s : State) : (validArrival s).lp.queue = s.lp.queue := by
  unfold validArrival recoverLink
  dsimp only
  split
  · rw [runSelection_lp]
    split <;> simp [loadSupervision]
  · split
    · rfl
    · rfl

theorem frameArrives_lawful (f : Frame) (s : State) (l : lawful s) : lawful (frameArrives f s) := by
  unfold frameArrives
  split
  · exact discardFrame_lawful s l
  · rename_i room
    have base : lawful (validArrival (s.setLp { s.lp with rx := .hunting })) :=
      validArrival_lawful _ (setLp_lawful' _ s rfl l)
    have q := validArrival_queue (s.setLp { s.lp with rx := .hunting })
    dsimp only
    have joined : lawful ((validArrival (s.setLp { s.lp with rx := .hunting })).setLp
        { (validArrival (s.setLp { s.lp with rx := .hunting })).lp with
          queue := (validArrival (s.setLp { s.lp with rx := .hunting })).lp.queue ++ [f] }) := by
      refine setLp_lawful _ _ ?_ base
      have : (s.setLp { s.lp with rx := .hunting }).lp.queue = s.lp.queue := rfl
      simp only [q, this, List.length_append, List.length_cons, List.length_nil]
      omega
    split
    · exact takeOldest_lawful _ joined
    · exact joined

theorem frameComplete_lawful (b : List Byte) (s : State) (l : lawful s) : lawful (frameComplete b s) := by
  unfold frameComplete
  repeat' split
  all_goals first | exact discardFrame_lawful s l | exact frameArrives_lawful _ s l

theorem linkByte_lawful (s : State) (b : Byte) (l : lawful s) : lawful (linkByte s b) := by
  unfold linkByte
  split
  · split
    · exact setLp_lawful' _ s rfl l
    · exact l
  · dsimp only
    repeat' split
    all_goals first
      | exact discardFrame_lawful s l
      | exact frameComplete_lawful _ s l
      | exact setLp_lawful' _ s rfl l

theorem linkBreak_lawful (b : List Byte) (s : State) (l : lawful s) : lawful (linkBreak b s) := by
  have main : ∀ (b : List Byte) (s : State), lawful s → lawful (b.foldl linkByte s) := by
    intro b
    induction b with
    | nil => exact fun _ l => l
    | cons x b ih => exact fun s l => ih _ (linkByte_lawful s x l)
  unfold linkBreak
  dsimp only
  split
  · exact main b s l
  · exact discardFrame_lawful _ (main b s l)

theorem lengthArrives_lawful (b : Byte) (s : State) (l : lawful s) : lawful (lengthArrives b s) :=
  linkByte_lawful _ b (setLp_lawful' _ s rfl l)

theorem loseLink_lawful (s : State) (l : lawful s) : lawful (loseLink s) := by
  refine (endWatch_moves _).lawful ((emptyQueue_moves _).lawful ((endTurn_moves _ _).lawful
    ((writeJournal_moves _ _).lawful (setLp_lawful' _ s rfl l))))

/-! ## Store writes and resets -/

/-- In SETUP nothing of the members is looked at by the laws of the turn. -/
theorem lawful_of_setup {s t : State} (tar : t.tar = s.tar) (phase : t.cst.phase = s.cst.phase)
    (setup : s.cst.phase = .setup) (journal : t.journal = s.journal) (queue : t.lp.queue = s.lp.queue)
    (ntu : t.ntu = s.ntu) (latched : t.ilm.latched.localKey = s.ilm.latched.localKey) (l : lawful s) : lawful t := by
  obtain ⟨a, ⟨q, _, h, d, _⟩⟩ := l
  obtain ⟨d1, d2⟩ := d setup
  refine ⟨recordsLawful_congr journal queue ntu latched a, ⟨?_, fun e he => ?_, fun m hm => ?_, fun _ => ?_, fun _ => ?_⟩⟩
  · unfold queueLawful; rw [tar]; exact q
  · rw [tar, d1] at he; cases he
  · rw [tar]; exact h m (by rw [← holder_congr tar]; exact hm)
  · rw [tar]; exact ⟨d1, d2⟩
  · rw [phase]; exact setup

/-- R34: the ranking copy is not looked at by the laws of the turn and the queue. -/
theorem setRanking_lawful (c : ArbiterCopy) (s : State) (setup : s.cst.phase = .setup) (l : lawful s) :
    lawful (s.setTar { s.tar with copy := c }) := by
  obtain ⟨a, ⟨q, _, h, d, _⟩⟩ := l
  obtain ⟨d1, d2⟩ := d setup
  refine ⟨recordsLawful_congr rfl rfl rfl rfl a, ⟨q, fun e he => ?_, h, fun _ => ⟨d1, d2⟩, fun _ => setup⟩⟩
  have he : e ∈ s.tar.queue := he
  rw [d1] at he; cases he

theorem ownContents_lawful (w : StoreWrite) (s : State) (setup : s.cst.phase = .setup) (l : lawful s) :
    lawful (ownContents w s) := by
  cases w with
  | member m c =>
    simp only [ownContents, takeMember]
    split <;> exact lawful_of_setup (s := s) rfl rfl setup rfl rfl rfl rfl l
  | profile i g => exact lawful_of_setup rfl rfl setup rfl rfl rfl rfl l
  | antenna i c => exact lawful_of_setup rfl rfl setup rfl rfl rfl rfl l
  | pattern g => exact lawful_of_setup rfl rfl setup rfl rfl rfl rfl l
  | params p =>
    have base : lawful (s.setTar { s.tar with copy := arbiterCopy p }) := setRanking_lawful _ s setup l
    exact lawful_of_setup (s := s.setTar { s.tar with copy := arbiterCopy p }) rfl rfl setup rfl rfl rfl rfl base
  | ranking p => exact setRanking_lawful _ s setup l

theorem ownContents_phase (w : StoreWrite) (s : State) : (ownContents w s).cst.phase = s.cst.phase := by
  cases w with
  | member m c => simp only [ownContents, takeMember]; split <;> rfl
  | _ => rfl

theorem completeWrite_lawful (s : State) (l : lawful s) : lawful (completeWrite s) := by
  unfold completeWrite
  split
  · exact l
  · rename_i w h
    have setup : s.cst.phase = .setup := l.2.2.2.2.2 (by rw [h]; rfl)
    have base : lawful (s.setRecords (storeContents w.write s.cst.records)) :=
      setCst_lawful _ s rfl (fun _ => setup) l
    exact setCst_lawful _ _ rfl (fun x => by cases x)
      ((raise_moves _ _).lawful (ownContents_lawful w.write _ setup base))

theorem cutWrite_lawful (s : State) (l : lawful s) : lawful (cutWrite s) := by
  unfold cutWrite
  split
  · exact l
  · exact setCst_lawful _ s rfl (fun x => by cases x) l

theorem resetBlocks_lawful (k : ResetKind) (s : State) (l : lawful s) : lawful (resetBlocks k s) := by
  obtain ⟨⟨a, _, c, d, _⟩, _⟩ := l
  refine ⟨⟨?_, ?_, ?_, ?_, rfl⟩, ⟨⟨?_, ?_⟩, ?_, ?_, ?_, ?_⟩⟩
  · simp only [journalBounded, resetBlocks]
    split
    · simp
    · exact a
  · simp [receiveBounded, resetBlocks, linkAfterReset]
  · cases k <;> simp [heldIsEmpty, resetBlocks, noticesAfterReset]
  · cases k <;> simp [causesNamed, resetBlocks, noticesAfterReset, causesInRange]
  · simp [resetBlocks, arbiterAfterReset]
  · simp [resetBlocks, arbiterAfterReset]
  · intro e he
    simp [resetBlocks, arbiterAfterReset] at he
  · intro m _
    simp [resetBlocks, arbiterAfterReset]
  · intro _
    simp [resetBlocks, arbiterAfterReset]
  · intro h
    simp [resetBlocks, storeAfterReset] at h

theorem reportDamage_lawful (s : State) (l : lawful s) : lawful (reportDamage s) := by
  unfold reportDamage
  split
  · split
    · exact setNtu_lawful _ s l.1.2.2.1 l.1.2.2.2.1 l
    · exact (raise_moves _ _).lawful l
  · exact l

theorem senseAll_moves (s : State) : Moves s (senseAll s) :=
  (((((senseInput_moves _ s).trans (senseInput_moves _ _)).trans (senseInput_moves _ _)).trans
    (senseInput_moves _ _)).trans (senseInput_moves _ _)).trans (senseInput_moves _ _)

theorem resetEnds_lawful (k : ResetKind) (s : State) (l : lawful s) : lawful (resetEnds k s) :=
  pumpNotice_lawful _ ((settle_moves _).lawful ((senseAll_moves _).lawful (reportDamage_lawful _
    (resetBlocks_lawful k _ (cutWrite_lawful s l)))))

theorem setHold_lawful (p c : Bool) (k : Option ResetKind) (s : State) (l : lawful s) : lawful (s.setHold p c k) :=
  ⟨recordsLawful_congr rfl rfl rfl rfl l.1, turnsLawful_congr rfl rfl rfl rfl l.2⟩

theorem setLines_lawful (x : Lines) (s : State) (l : lawful s) : lawful (s.setLines x) :=
  ⟨recordsLawful_congr rfl rfl rfl rfl l.1, turnsLawful_congr rfl rfl rfl rfl l.2⟩

theorem silence_lawful (s : State) (l : lawful s) : lawful (silence s) :=
  ⟨recordsLawful_congr rfl rfl rfl rfl l.1, turnsLawful_congr rfl rfl rfl rfl l.2⟩

theorem takeHold_lawful (k : ResetKind) (s : State) (l : lawful s) : lawful (takeHold k s) := by
  have base := silence_lawful _ (cutWrite_lawful s l)
  exact setHold_lawful _ _ _ _ (setCst_lawful _ _ rfl (fun h => base.2.2.2.2.2 h) base)

theorem leaveHold_lawful (s : State) (l : lawful s) : lawful (leaveHold s) := by
  unfold leaveHold
  repeat' split
  all_goals try simp only [answer_state, answerWith_state, deny_state]
  all_goals first | with_reducible exact l | exact resetEnds_lawful _ s l

theorem replyEnds_lawful (s : State) (l : lawful s) : lawful (replyEnds s) := by
  unfold replyEnds
  repeat' split
  all_goals try simp only [answer_state, answerWith_state, deny_state]
  all_goals first
    | with_reducible exact l
    | exact resetEnds_lawful _ s l
    | exact sendNotice_lawful s l
    | exact takeOldest_lawful s l

theorem noticeEnds_lawful (s : State) (l : lawful s) : lawful (noticeEnds s) := by
  unfold noticeEnds
  split
  · exact takeOldest_lawful s l
  · exact l

/-! ## Time -/

theorem setUnitOwed_lawful (b : Bool) (s : State) (l : lawful s) : lawful (s.setUnitOwed b) :=
  (setUnitOwed_moves b s).lawful l

theorem spendAllowance_lawful (n : Nat) (s : State) (l : lawful s) : lawful (spendAllowance n s) := by
  unfold spendAllowance
  split
  · exact l
  · dsimp only
    repeat' split
    all_goals first | exact l | exact setUnitOwed_lawful _ _ (setMember_lawful _ _ s rfl id l)

theorem spendLast_lawful (s : State) (l : lawful s) : lawful (spendLast s) := by
  unfold spendLast
  split
  · exact l
  · exact setUnitOwed_lawful _ _ (setMember_lawful _ _ s rfl id l)

theorem allowanceRunsOut_lawful (s : State) (l : lawful s) : lawful (allowanceRunsOut s) :=
  ((requestKeyDown_moves _ _ _).trans (endTurn_moves _ _)).lawful (spendLast_lawful s l)

theorem countAir_lawful (n : Nat) (s : State) (l : lawful s) : lawful (countAir n s) := by
  unfold countAir
  split
  · have tar : (spendAllowance n s).tar.turn = s.tar.turn := by simp
    refine Moves.lawful (setTurn_moves _ _ (fun m x => ?_) (fun x => ?_)) (spendAllowance_lawful n s l)
    · have same : holder ((spendAllowance n s).setTurn (addOnAir n s.tar.turn)) = holder (spendAllowance n s) := by
        simp only [holder, tar, setTurn_tar]
        cases s.tar.turn <;> rfl
      rw [← same]; exact x
    · rw [tar] at x; rw [x]; rfl
  · exact l

theorem setClock_lawful (n : Nat) (s : State) (l : lawful s) : lawful (s.setClock n) :=
  ⟨recordsLawful_congr rfl rfl rfl rfl l.1, turnsLawful_congr rfl rfl rfl rfl l.2⟩

theorem passTo_lawful (n : Nat) (s : State) (l : lawful s) : lawful (passTo n s) := by
  unfold passTo
  split
  · exact countAir_lawful _ _ (setClock_lawful n s l)
  · exact l

theorem expiry_lawful (moment : Option Nat) (f : State → State) (h : ∀ s, Moves s (f s)) (s : State) (l : lawful s) :
    lawful (expiry moment f s) := by
  unfold expiry
  repeat' split
  all_goals first | exact l | exact event_lawful _ s (fun l => (h _).lawful l) l

theorem lineChange_lawful (x : Lines) (f : State → State) (h : ∀ s, Moves s (f s)) (s : State) (l : lawful s) :
    lawful (lineChange x f s) := by
  unfold lineChange
  split
  · exact l
  · exact event_lawful _ _ (fun l => (h _).lawful l) (setLines_lawful x s l)

theorem setPending_lawful (x : List Instr) (s : State) (l : lawful s) : lawful (s.setPending x) :=
  ⟨recordsLawful_congr rfl rfl rfl rfl l.1, turnsLawful_congr rfl rfl rfl rfl l.2⟩

theorem setChoices_lawful (x : Nat) (s : State) (l : lawful s) : lawful (s.setChoices x) :=
  ⟨recordsLawful_congr rfl rfl rfl rfl l.1, turnsLawful_congr rfl rfl rfl rfl l.2⟩

theorem tick_lawful (s : State) (l : lawful s) : lawful (tick s) := by
  unfold tick
  split
  · exact l
  · dsimp only
    exact setChoices_lawful _ _ (setPending_lawful _ _ (passTo_lawful _ s l))

end Sys2Proof.Machine
end

