-- ==== Sys2Proof/Laws/Link.lean ====
section
/-! SUPPORT. What a request row does when its request is taken at once, and what an expiry does in the present moment, each
said once for all of them. -/

namespace Sys2Proof.Machine

/-! ## Requests -/

/-! ### What `heard` and `heardFrom` leave as it was -/

@[simp] theorem heard_clock (s : State) : (heard s).clock = s.clock := rfl
@[simp] theorem heard_choices (s : State) : (heard s).choices = s.choices := rfl
@[simp] theorem heard_pending (s : State) : (heard s).pending = s.pending := rfl
@[simp] theorem heard_lines (s : State) : (heard s).lines = s.lines := rfl
@[simp] theorem heard_tar (s : State) : (heard s).tar = s.tar := rfl
@[simp] theorem heard_mrg (s : State) : (heard s).mrg = s.mrg := rfl
@[simp] theorem heard_kch (s : State) : (heard s).kch = s.kch := rfl
@[simp] theorem heard_seu (s : State) : (heard s).seu = s.seu := rfl
@[simp] theorem heard_ids (s : State) : (heard s).ids = s.ids := rfl
@[simp] theorem heard_ilm (s : State) : (heard s).ilm = s.ilm := rfl
@[simp] theorem heard_spc (s : State) : (heard s).spc = s.spc := rfl
@[simp] theorem heard_ntu (s : State) : (heard s).ntu = s.ntu := rfl
@[simp] theorem heard_journal (s : State) : (heard s).journal = s.journal := rfl
@[simp] theorem heard_cst (s : State) : (heard s).cst = s.cst := rfl
@[simp] theorem heard_powerHeld (s : State) : (heard s).powerHeld = s.powerHeld := rfl
@[simp] theorem heard_clockGood (s : State) : (heard s).clockGood = s.clockGood := rfl
@[simp] theorem heard_span (s : State) : (heard s).span = s.span := rfl
@[simp] theorem heard_lp_queue (s : State) : (heard s).lp.queue = s.lp.queue := rfl
@[simp] theorem heard_lp_tx (s : State) : (heard s).lp.tx = s.lp.tx := rfl
@[simp] theorem heard_lp_lost (s : State) : (heard s).lp.lost = s.lp.lost := rfl
@[simp] theorem heard_lp_resetIndication (s : State) : (heard s).lp.resetIndication = s.lp.resetIndication := rfl
@[simp] theorem heard_lp_supervisionTime (s : State) : (heard s).lp.supervisionTime = s.lp.supervisionTime := rfl
@[simp] theorem heard_now (s : State) : now (heard s) = now s := rfl
@[simp] theorem heard_corruptNext (s : State) : (heard s).lp.corruptNext = false := rfl

/-- R10: an OPEN turn after a request of its holder: an idle deadline that is present is reloaded. -/
def reloaded (o : OpenTurn) (s : State) : OpenTurn :=
  if o.idleDeadline.isSome then { o with idleDeadline := some (now s + 10 * s.tar.copy.idleLimit) } else o

theorem heardFrom_opened (m : Byte) (s : State) (o : OpenTurn) (open_ : s.tar.turn = .opened o)
    (holds : o.holder = m.toNat) : heardFrom m s = (heard s).setTurn (.opened (reloaded o s)) := by
  unfold heardFrom reloaded
  simp only [open_, holds, true_and]
  split
  · rfl
  · simp only [heard, ← open_, State.setTurn, State.setTar]

@[simp] theorem reloaded_holder (o : OpenTurn) (s : State) : (reloaded o s).holder = o.holder := by
  unfold reloaded; split <;> rfl
@[simp] theorem reloaded_cls (o : OpenTurn) (s : State) : (reloaded o s).cls = o.cls := by
  unfold reloaded; split <;> rfl
@[simp] theorem reloaded_offeredAt (o : OpenTurn) (s : State) : (reloaded o s).offeredAt = o.offeredAt := by
  unfold reloaded; split <;> rfl
@[simp] theorem reloaded_openedAt (o : OpenTurn) (s : State) : (reloaded o s).openedAt = o.openedAt := by
  unfold reloaded; split <;> rfl
@[simp] theorem reloaded_onAirTotal (o : OpenTurn) (s : State) : (reloaded o s).onAirTotal = o.onAirTotal := by
  unfold reloaded; split <;> rfl
@[simp] theorem reloaded_turnDeadline (o : OpenTurn) (s : State) : (reloaded o s).turnDeadline = o.turnDeadline := by
  unfold reloaded; split <;> rfl

theorem heardFrom_of_not_opened (m : Byte) (s : State)
    (other : ∀ o, s.tar.turn = .opened o → o.holder ≠ m.toNat) : heardFrom m s = heard s := by
  unfold heardFrom
  split
  · next o e => simp [other o e]
  · rfl

@[simp] theorem heardFrom_clock (m : Byte) (s : State) : (heardFrom m s).clock = s.clock := by
  unfold heardFrom; split <;> first | rfl | (split <;> rfl)
@[simp] theorem heardFrom_choices (m : Byte) (s : State) : (heardFrom m s).choices = s.choices := by
  unfold heardFrom; split <;> first | rfl | (split <;> rfl)
@[simp] theorem heardFrom_pending (m : Byte) (s : State) : (heardFrom m s).pending = s.pending := by
  unfold heardFrom; split <;> first | rfl | (split <;> rfl)
@[simp] theorem heardFrom_lines (m : Byte) (s : State) : (heardFrom m s).lines = s.lines := by
  unfold heardFrom; split <;> first | rfl | (split <;> rfl)
@[simp] theorem heardFrom_mrg (m : Byte) (s : State) : (heardFrom m s).mrg = s.mrg := by
  unfold heardFrom; split <;> first | rfl | (split <;> rfl)
@[simp] theorem heardFrom_kch (m : Byte) (s : State) : (heardFrom m s).kch = s.kch := by
  unfold heardFrom; split <;> first | rfl | (split <;> rfl)
@[simp] theorem heardFrom_seu (m : Byte) (s : State) : (heardFrom m s).seu = s.seu := by
  unfold heardFrom; split <;> first | rfl | (split <;> rfl)
@[simp] theorem heardFrom_ids (m : Byte) (s : State) : (heardFrom m s).ids = s.ids := by
  unfold heardFrom; split <;> first | rfl | (split <;> rfl)
@[simp] theorem heardFrom_ilm (m : Byte) (s : State) : (heardFrom m s).ilm = s.ilm := by
  unfold heardFrom; split <;> first | rfl | (split <;> rfl)
@[simp] theorem heardFrom_spc (m : Byte) (s : State) : (heardFrom m s).spc = s.spc := by
  unfold heardFrom; split <;> first | rfl | (split <;> rfl)
@[simp] theorem heardFrom_ntu (m : Byte) (s : State) : (heardFrom m s).ntu = s.ntu := by
  unfold heardFrom; split <;> first | rfl | (split <;> rfl)
@[simp] theorem heardFrom_journal (m : Byte) (s : State) : (heardFrom m s).journal = s.journal := by
  unfold heardFrom; split <;> first | rfl | (split <;> rfl)
@[simp] theorem heardFrom_cst (m : Byte) (s : State) : (heardFrom m s).cst = s.cst := by
  unfold heardFrom; split <;> first | rfl | (split <;> rfl)
@[simp] theorem heardFrom_powerHeld (m : Byte) (s : State) : (heardFrom m s).powerHeld = s.powerHeld := by
  unfold heardFrom; split <;> first | rfl | (split <;> rfl)
@[simp] theorem heardFrom_clockGood (m : Byte) (s : State) : (heardFrom m s).clockGood = s.clockGood := by
  unfold heardFrom; split <;> first | rfl | (split <;> rfl)
@[simp] theorem heardFrom_span (m : Byte) (s : State) : (heardFrom m s).span = s.span := by
  unfold heardFrom; split <;> first | rfl | (split <;> rfl)
@[simp] theorem heardFrom_lp (m : Byte) (s : State) : (heardFrom m s).lp = (heard s).lp := by
  unfold heardFrom; split <;> first | rfl | (split <;> rfl)
@[simp] theorem heardFrom_tar_queue (m : Byte) (s : State) : (heardFrom m s).tar.queue = s.tar.queue := by
  unfold heardFrom; split <;> first | rfl | (split <;> rfl)
@[simp] theorem heardFrom_tar_placements (m : Byte) (s : State) : (heardFrom m s).tar.placements = s.tar.placements := by
  unfold heardFrom; split <;> first | rfl | (split <;> rfl)
@[simp] theorem heardFrom_tar_acceptances (m : Byte) (s : State) :
    (heardFrom m s).tar.acceptances = s.tar.acceptances := by
  unfold heardFrom; split <;> first | rfl | (split <;> rfl)
@[simp] theorem heardFrom_tar_copy (m : Byte) (s : State) : (heardFrom m s).tar.copy = s.tar.copy := by
  unfold heardFrom; split <;> first | rfl | (split <;> rfl)
@[simp] theorem heardFrom_now (m : Byte) (s : State) : now (heardFrom m s) = now s := by simp [now]

/-- R157, R159, R160: a request that is taken at once: its answer, what follows in the event, and its reply. -/
theorem arrive_taken (f : Frame) (s : State) (h : takesAtOnce s) :
    event (frameArrives f) s =
      (settle (answerFrame f s.lp.corruptNext (heard s)).state).setTransmitter
        (.replying (replyOf f (answerFrame f s.lp.corruptNext (heard s)).outcome
          (bodyBytes (answerFrame f s.lp.corruptNext (heard s)).body
            (settle (answerFrame f s.lp.corruptNext (heard s)).state)) s.lp.corruptNext
          (settle (answerFrame f s.lp.corruptNext (heard s)).state))) := by
  obtain ⟨reset, tx, queue, lost, _⟩ := h
  have arrived : ∀ l : Link, l.queue = [] → l.tx = .idle → l.lost = false →
      validArrival (s.setLp l) = s.setLp { l with
        supervision := if l.supervision.isSome then some (s.clock + 100 * l.supervisionTime) else none } := by
    rintro ⟨_, _, _, up, timer, _, _, _⟩ _ _ lost
    cases lost
    cases timer <;> simp [validArrival, loadSupervision, State.setLp]
  have taken : frameArrives f s = takeFrame f (s.setLp { s.lp with
      rx := .hunting
      queue := []
      tx := .idle
      supervision := if s.lp.supervision.isSome then some (s.clock + 100 * s.lp.supervisionTime) else none }) := by
    unfold frameArrives
    rw [if_neg (by simp [queue])]
    dsimp only
    rw [arrived { s.lp with rx := .hunting } queue tx lost]
    simp [takeOldest, State.setLp, queue, tx]
  have cleared : ({ s.lp with
      rx := .hunting
      queue := []
      tx := .idle
      supervision := if s.lp.supervision.isSome then some (s.clock + 100 * s.lp.supervisionTime) else none
      corruptNext := false } : Link) = (heard s).lp := by
    simp only [heard]
    rw [← queue, ← tx]
  have took : frameArrives f s =
      (settle (answerFrame f s.lp.corruptNext (heard s)).state).setTransmitter
        (.replying (replyOf f (answerFrame f s.lp.corruptNext (heard s)).outcome
          (bodyBytes (answerFrame f s.lp.corruptNext (heard s)).body
            (settle (answerFrame f s.lp.corruptNext (heard s)).state)) s.lp.corruptNext
          (settle (answerFrame f s.lp.corruptNext (heard s)).state))) := by
    rw [taken]
    unfold takeFrame
    dsimp only [setLp_lp, State.setLp]
    rw [cleared]
    rfl
  rw [event, reset, if_neg (by simp), took, settle_of_settled _ (by simpa using settle_arisen _)]
  rfl

/-- R10, R161: what a request that speaks for a member reaches its owner with. -/
theorem reloadIdle_heard (tag m : Byte) (r : Request) (s : State) (k : memberKind r = true) :
    reloadIdle ⟨tag, m, r⟩ (heard s) = heardFrom m s := by
  unfold reloadIdle heardFrom
  cases h : s.tar.turn with
  | opened t =>
    have h' : (heard s).tar.turn = .opened t := h
    simp only [h', k, Bool.true_and]
    by_cases c : t.holder = m.toNat ∧ t.idleDeadline.isSome = true
    · rw [if_pos c, if_pos (by simp [c.1, c.2])]
      simp only [startIdleDeadline, setIdleDeadline, h']
      rfl
    · rw [if_neg c, if_neg (by simpa using c)]
  | free => rw [show (heard s).tar.turn = .free from h]
  | offered t => rw [show (heard s).tar.turn = .offered t from h]
  | closing t => rw [show (heard s).tar.turn = .closing t from h]

theorem reloadIdle_authority (f : Frame) (s : State) (k : memberKind f.request = false) : reloadIdle f s = s := by
  unfold reloadIdle
  split
  · simp [k]
  · rfl

/-- R161: a request whose owner's answer leaves nothing to act on. -/
theorem arrive_passed (tag m : Byte) (r : Request) (s : State) (h : takesAtOnce s) (o : ReplyOutcome) (b : ReplyBody)
    (t : State) (pass : generalRefusal ⟨tag, m, r⟩ (heard s) = none)
    (a : ownerAnswer r m s.lp.corruptNext (reloadIdle ⟨tag, m, r⟩ (heard s)) = ⟨o, b, t⟩) (done : t.ilm.arisen = []) :
    event (frameArrives ⟨tag, m, r⟩) s = replied tag m r o (bodyBytes b t) s t := by
  rw [arrive_taken _ s h]
  have e : answerFrame ⟨tag, m, r⟩ s.lp.corruptNext (heard s) = ⟨o, b, t⟩ := by
    unfold answerFrame
    rw [pass]
    exact a
  rw [e]
  dsimp only
  rw [settle_of_settled t done]
  rfl

/-- R161: a request that a general check refuses. -/
theorem arrive_refused (tag m : Byte) (r : Request) (s : State) (h : takesAtOnce s) (o : ReplyOutcome)
    (refused : generalRefusal ⟨tag, m, r⟩ (heard s) = some o) :
    event (frameArrives ⟨tag, m, r⟩) s = replied tag m r o [] s (heard s) := by
  rw [arrive_taken _ s h]
  have e : answerFrame ⟨tag, m, r⟩ s.lp.corruptNext (heard s) = ⟨o, .bytes [], heard s⟩ := by
    unfold answerFrame
    rw [refused]
    rfl
  rw [e]
  dsimp only
  rw [settle_of_settled (heard s) h.2.2.2.2]
  rfl

/-- A member's request that its owner takes. -/
theorem arrive_member (tag m : Byte) (r : Request) (s : State) (h : takesAtOnce s) (o : ReplyOutcome) (b : ReplyBody)
    (t : State) (known : kindUnknown r = false) (kind : memberKind r = true) (shaped : r.shaped = true)
    (enrolled : (enrolment m.toNat s).isSome = true) (phase : phaseSuits r s.cst.phase = true)
    (a : ownerAnswer r m s.lp.corruptNext (heardFrom m s) = ⟨o, b, t⟩) (done : t.ilm.arisen = []) :
    event (frameArrives ⟨tag, m, r⟩) s = replied tag m r o (bodyBytes b t) s t := by
  have small : m.toNat < 32 := by
    by_contra big
    have : memberSlot m.toNat s = noMember := by
      unfold memberSlot
      rw [Vector.getElem?_eq_none (by omega)]; rfl
    simp [enrolment, this, noMember] at enrolled
  refine arrive_passed tag m r s h o b t ?_ (by rw [reloadIdle_heard _ _ _ _ kind]; exact a) done
  have enrolled' : entryRefusal m.toNat (heard s) = none := by
    unfold entryRefusal
    have e : (memberSlot m.toNat (heard s)) = memberSlot m.toNat s := rfl
    rw [e]
    unfold enrolment at enrolled
    split <;> simp_all
  unfold generalRefusal
  simp only [known, Bool.false_eq_true, if_false, sourceSuits, kind, if_true, small, decide_true, Bool.not_true,
    shaped, memberRefusal, enrolled']
  rw [show (heard s).cst.phase = s.cst.phase from rfl, phase]
  rfl

/-- A request of the station authority that its owner takes. -/
theorem arrive_authority (tag : Byte) (r : Request) (s : State) (h : takesAtOnce s) (o : ReplyOutcome) (b : ReplyBody)
    (t : State) (known : kindUnknown r = false) (kind : memberKind r = false) (shaped : r.shaped = true)
    (phase : phaseSuits r s.cst.phase = true)
    (a : ownerAnswer r authority s.lp.corruptNext (heard s) = ⟨o, b, t⟩) (done : t.ilm.arisen = []) :
    event (frameArrives ⟨tag, authority, r⟩) s = replied tag authority r o (bodyBytes b t) s t := by
  refine arrive_passed tag authority r s h o b t ?_ (by rw [reloadIdle_authority _ _ kind]; exact a) done
  unfold generalRefusal
  simp only [known, Bool.false_eq_true, if_false, sourceSuits, kind, shaped, memberRefusal]
  rw [show (heard s).cst.phase = s.cst.phase from rfl, phase]
  rfl

/-! ## Expiries and lines -/

/-- An expiry whose moment has come, and that leaves nothing to act on. -/
theorem expiry_now (moment : Option Nat) (f : State → State) (s : State) (t : Nat) (h : moment = some t)
    (come : t ≤ s.clock) (reset : inReset s = false) (done : (f s).ilm.arisen = []) :
    expiry moment f s = pumpNotice (f s) := by
  rw [h]
  simp only [expiry, event, reset, come, if_true, settle_of_settled _ done]
  rfl

/-- An event that leaves nothing to act on. -/
theorem event_now (f : State → State) (s : State) (reset : inReset s = false) (done : (f s).ilm.arisen = []) :
    event f s = pumpNotice (f s) := by
  simp only [event, reset, settle_of_settled _ done]
  rfl

/-- A change of lines outside reset that leaves nothing to act on. -/
theorem lineChange_now (x : Lines) (f : State → State) (s : State) (new : x ≠ s.lines)
    (reset : inReset (s.setLines x) = false) (done : (f (s.setLines x)).ilm.arisen = []) :
    lineChange x f s = pumpNotice (f (s.setLines x)) := by
  rw [lineChange, if_neg new, event_now _ _ reset done]

end Sys2Proof.Machine
end

