-- ==== Sys2Proof/Laws/Causes.lean ====
section
/-! SUPPORT. Raising a cause and writing a journal record as plain updates of the state, so that a state reached through
several of them is one record update; and the effects that statements name, in the same form. -/

namespace Sys2Proof.Machine

/-- R171 to R173: the notice unit after a cause is raised. -/
def raisedIn (c : Cause) (n : NoticeUnit) : NoticeUnit :=
  if n.held || hasCause n.pending c then n
  else { n with pending := n.pending ||| c.mask, waiting := n.waiting || hasCause n.enabled c }

/-- R180: the notice unit after a record joins a journal of this length. -/
def countedIn (length : Nat) (n : NoticeUnit) : NoticeUnit := if length = 23 then raisedIn .journal n else n

theorem raise_eq (c : Cause) (s : State) : raise c s = { s with ntu := raisedIn c s.ntu } := by
  unfold raise raisedIn
  split <;> rfl

theorem writeJournal_eq (b : JournalBody) (s : State) :
    writeJournal b s = { s with
      journal := ringAdd { body := b, gap := false, time := s.clock / 100 } s.journal
      ntu := countedIn s.journal.length s.ntu } := by
  unfold writeJournal countedIn
  split
  · rw [raise_eq]; rfl
  · rfl

theorem turnFreed_eq (r : JournalBody) (s : State) :
    turnFreed r s = { s with
      tar := { s.tar with turn := .free }
      journal := ringAdd { body := r, gap := false, time := s.clock / 100 } s.journal
      ntu := raisedIn .turnEnd (countedIn s.journal.length s.ntu) } := by
  rw [turnFreed, raise_eq, writeJournal_eq]; rfl

theorem powerChanged_eq (p : Power) (summary : Option SelfCheck) (s : State) :
    powerChanged p summary s = { s with
      spc := { s.spc with power := p, since := some (s.clock / 100) }
      journal := ringAdd { body := .power p.state summary, gap := false, time := s.clock / 100 } s.journal
      ntu := raisedIn .power (countedIn s.journal.length s.ntu) } := by
  rw [powerChanged, raise_eq, writeJournal_eq]; rfl

theorem becomeFree_eq (r : JournalBody) (s : State) (stays : s.spc.downRequested = false) :
    becomeFree r s = runSelection (turnFreed r s) := by
  rw [turnFreed_eq, becomeFree, raise_eq, writeJournal_eq]
  simp [stays, State.setTurn, State.setTar]

theorem changePower_eq (p : Power) (summary : Option SelfCheck) (s : State) :
    changePower p summary s = powerChanged p summary s := rfl

end Sys2Proof.Machine
end

