-- ==== Sys2Proof/Laws/Chain.lean ====
section
/-! SUPPORT. What every event of the blocks keeps of the laws between the chain, the identification, the turn, the station
power and the watch (`chainLawful`), operation by operation. -/

set_option linter.unusedSimpArgs false

namespace Sys2Proof.Machine

/-- The laws of the chain look at nothing but these. -/
theorem chainLawful_congr {s t : State} (turn : t.tar.turn = s.tar.turn) (state : t.kch.state = s.kch.state)
    (claimant : t.kch.claimant = s.kch.claimant) (start : t.kch.onAirStart = s.kch.onAirStart)
    (record : t.ids.record = s.ids.record) (power : t.spc.power = s.spc.power) (watch : t.mrg.watch = s.mrg.watch)
    (l : chainLawful s) : chainLawful t := by
  unfold chainLawful identIsSending restIsUnclaimed idleBeforeOpen airIsOwed turnsNeedPower supervisedIsWatched idSending
    idOwed chainAtRest turnOpen turnClosing turnRunning turnClass at *
  rw [turn, state, claimant, start, record, power, watch]
  exact l

/-- The chain is under a claim of a turn. -/
structure Engaged (s : State) : Prop where
  claimed : s.kch.claimant ≠ .none
  sending : identIsSending s
  begun : turnOpen s = true ∨ turnClosing s = true
  owed : s.kch.claimant = .holder → s.kch.onAirStart ≠ none → idOwed s = true
  ready : s.spc.power = .ready
  watched : supervisedIsWatched s

theorem Engaged.congr {s t : State} (e : Engaged s) (turn : t.tar.turn = s.tar.turn)
    (claimant : t.kch.claimant = s.kch.claimant) (start : t.kch.onAirStart = s.kch.onAirStart)
    (record : t.ids.record = s.ids.record) (power : t.spc.power = s.spc.power) (watch : t.mrg.watch = s.mrg.watch) :
    Engaged t := by
  obtain ⟨a, b, c, d, e, f⟩ := e
  unfold identIsSending supervisedIsWatched idSending turnRunning turnClass turnOpen turnClosing idOwed at *
  constructor <;>
    simp only [identIsSending, supervisedIsWatched, idSending, turnRunning, turnClass, turnOpen, turnClosing, idOwed, turn,
      claimant, start, record, power, watch] <;> assumption

theorem Engaged.lawful {s : State} (e : Engaged s) (up : chainAtRest s = false)
    (air : s.kch.state = .onAir → s.kch.onAirStart ≠ none) : chainLawful s := by
  obtain ⟨a, b, c, d, r, f⟩ := e
  refine ⟨b, ⟨?_, ?_⟩, ⟨?_, ?_⟩, ⟨air, d⟩, ?_, f⟩
  · simp [a, up]
  · simp [up]
  · intro x y; simp [x, y] at c
  · intro o h; simp [turnOpen, turnClosing, h] at c
  · intro h; exact absurd r h

theorem chainLawful.engaged {s : State} (l : chainLawful s) (up : chainAtRest s = false) : Engaged s := by
  obtain ⟨a, ⟨b, _⟩, ⟨c, _⟩, ⟨_, d⟩, e, f⟩ := l
  have begun : turnOpen s = true ∨ turnClosing s = true := by
    by_contra h
    simp only [not_or, Bool.not_eq_true] at h
    have := (c h.1 h.2).2
    rw [up] at this; cases this
  refine ⟨fun h => ?_, a, begun, d, ?_, f⟩
  · rw [b.1 h] at up; cases up
  · by_contra h
    have := e h
    simp [turnOpen, turnClosing, this] at begun

/-- The chain is at rest with nothing claimed and nothing owed. -/
structure Quiet (s : State) : Prop where
  rest : chainAtRest s = true
  claimant : s.kch.claimant = .none
  start : s.kch.onAirStart = none
  record : s.ids.record = .clear

theorem Quiet.free {s : State} (q : Quiet s) (h : s.tar.turn = .free) : chainLawful s := by
  obtain ⟨a, b, c, d⟩ := q
  refine ⟨?_, ⟨?_, fun _ => c⟩, ⟨fun _ _ => ⟨d, a⟩, ?_⟩, ⟨?_, ?_⟩, fun _ => h, ?_⟩
  · simp [identIsSending, b, d, idSending]
  · simp [a, b]
  · simp [h]
  · intro x; simp [chainAtRest, x] at a
  · simp [b]
  · simp [supervisedIsWatched, turnRunning, h]

theorem chainLawful.quiet {s : State} (l : chainLawful s) (a : turnOpen s = false) (b : turnClosing s = false) :
    Quiet s := by
  obtain ⟨x, ⟨y, y'⟩, ⟨z, _⟩, _⟩ := l
  obtain ⟨c, d⟩ := z a b
  exact ⟨d, y.2 d, y' d, c⟩

theorem Quiet.congr {s t : State} (q : Quiet s) (state : t.kch.state = s.kch.state)
    (claimant : t.kch.claimant = s.kch.claimant) (start : t.kch.onAirStart = s.kch.onAirStart)
    (record : t.ids.record = s.ids.record) : Quiet t := by
  obtain ⟨a, b, c, d⟩ := q
  exact ⟨by unfold chainAtRest at *; rw [state]; exact a, by rw [claimant, b], by rw [start, c], by rw [record, d]⟩

/-! ## Selection -/

theorem runSelection_chainLawful (s : State) (l : chainLawful s) : chainLawful (runSelection s) := by
  unfold runSelection
  split
  · rename_i h
    simp only [Bool.and_eq_true, beq_iff_eq, Bool.not_eq_true'] at h
    obtain ⟨free, held⟩ := h
    have q := l.quiet (by simp [turnOpen, free]) (by simp [turnClosing, free])
    simp only [selectionHeld, Bool.or_eq_false_iff, Bool.not_eq_false', stationReady] at held
    obtain ⟨⟨⟨⟨⟨⟨_, _⟩, _⟩, fa⟩, re⟩, _⟩, _⟩ := held
    have re : s.spc.power = .ready := by simpa using re
    have idle : s.kch.state = .idle := by
      have := q.rest
      simp [chainAtRest] at this fa
      tauto
    split
    · exact l
    · rename_i e he
      have el : eligible s e = true := by
        have := List.find?_some he
        exact this
      refine ⟨?_, ⟨?_, ?_⟩, ⟨?_, ?_⟩, ⟨?_, ?_⟩, ?_, ?_⟩
      · simp [identIsSending, idSending, q.claimant, q.record]
      · simp [chainAtRest, q.claimant, idle]
      · simp [q.start]
      · intro _ _; simp [q.record, chainAtRest, idle]
      · intro o _; simp [idle]
      · simp [idle]
      · simp [q.claimant]
      · intro x; simp [re] at x
      · intro _ y
        simp only [turnClass, raise_tar, setTurn_tar, offerTo, Option.some.injEq] at y
        simpa [eligible, y] using el
  · exact l

/-! ## Power -/

theorem missedAtOff_of_clear (s : State) (h : s.ids.record = .clear) : missedAtOff s = s := by
  simp [missedAtOff, idOwed, h]

theorem enterOff_chainLawful (c : Option SelfCheck) (s : State) (q : Quiet s) (f : s.tar.turn = .free) :
    chainLawful (enterOff c s) ∧ (enterOff c s).tar.turn = .free := by
  have f' : (enterOff c s).tar.turn = .free := by simp [f]
  refine ⟨Quiet.free (q.congr (by simp) (by simp) (by simp) ?_) f', f'⟩
  unfold enterOff
  dsimp only
  rw [missedAtOff_of_clear]
  · simp
  · simp [q.record]

theorem enterCooling_chainLawful (s : State) (q : Quiet s) (f : s.tar.turn = .free) :
    chainLawful (enterCooling s) := by
  have base : ∀ p : Power, Quiet (changePower p none (s.setSpc { s.spc with downRequested := false })) :=
    fun p => q.congr (by simp) (by simp) (by simp) (by simp)
  unfold enterCooling
  dsimp only
  split
  · exact (enterOff_chainLawful none _ (base _) (by simp [f])).1
  · exact (base _).free (by simp [f])

theorem becomeFree_chainLawful (r : JournalBody) (s : State) (q : Quiet s) : chainLawful (becomeFree r s) := by
  have q1 : Quiet ((raise .turnEnd (writeJournal r s)).setTurn .free) := q.congr (by simp) (by simp) (by simp) (by simp)
  unfold becomeFree
  dsimp only
  split
  · exact enterCooling_chainLawful _ q1 rfl
  · exact runSelection_chainLawful _ (q1.free rfl)

theorem becomeFree_free (r : JournalBody) (s : State) (h : anyLatched s = true) : (becomeFree r s).tar.turn = .free := by
  unfold becomeFree
  dsimp only
  split
  · simp
  · have : selectionHeld ((raise .turnEnd (writeJournal r s)).setTurn .free) = true := by
      have : anyLatched ((raise .turnEnd (writeJournal r s)).setTurn .free) = true := by
        simpa [anyLatched] using h
      simp [selectionHeld, this]
    simp [runSelection, this]

theorem missClosing_record (s : State) (h : idSending s = false) : (missClosing s).ids.record = .clear := by
  unfold missClosing idOwed idSending at *
  cases r : s.ids.record <;> simp [r, missIdentification] at *

theorem freeIfClosing_chainLawful (s : State) (q : Quiet s) (h : turnClosing s = true) : chainLawful (freeIfClosing s) := by
  unfold freeIfClosing
  split
  · exact becomeFree_chainLawful _ s q
  · rename_i x
    unfold turnClosing at h
    split at h
    · rename_i t ht; exact absurd ht (x t)
    · cases h

/-- At rest under the laws, with the turn begun, what is owed can be missed. -/
theorem missClosing_quiet (s : State) (l : chainLawful s) (r : chainAtRest s = true) : Quiet (missClosing s) := by
  obtain ⟨a, ⟨b, b'⟩, _⟩ := l
  have n := b.2 r
  have ns : idSending s = false := by
    by_contra h
    have := a.2 (by simpa using h)
    rw [n] at this; cases this
  exact ⟨by simpa [chainAtRest] using r, by simpa using n, by simpa using b' r, missClosing_record s ns⟩

theorem setClosing_chainLawful (c : ClosingTurn) (s : State) (t : OpenTurn) (h : s.tar.turn = .opened t) (l : chainLawful s) :
    chainLawful (s.setTurn (.closing c)) := by
  obtain ⟨a, b, d, e, f, g⟩ := l
  refine ⟨a, b, ⟨?_, ?_⟩, e, ?_, ?_⟩
  · intro x y; simp [turnClosing] at y
  · intro o x; simp at x
  · intro x; have := f x; rw [h] at this; cases this
  · intro x; simp [turnRunning] at x

theorem releaseTurn_chainLawful (c : EndCause) (s : State) (l : chainLawful s) (r : chainAtRest s = true) :
    chainLawful (releaseTurn c s) := by
  unfold releaseTurn
  split
  · exact l
  · rename_i t h
    exact becomeFree_chainLawful _ s (l.quiet (by simp [turnOpen, h]) (by simp [turnClosing, h]))
  · rename_i t h
    have l1 := setClosing_chainLawful (closingOf c t) s t h l
    exact freeIfClosing_chainLawful _ (missClosing_quiet _ l1 r) (by simp [turnClosing])
  · rename_i t h
    exact freeIfClosing_chainLawful _ (missClosing_quiet _ l r) (by simp [turnClosing, h])

theorem missClosing_latched (s : State) : anyLatched (missClosing s) = anyLatched s := by
  unfold missClosing missIdentification; split <;> simp [anyLatched]

theorem releaseTurn_free (c : EndCause) (s : State) (h : anyLatched s = true) : (releaseTurn c s).tar.turn = .free := by
  unfold releaseTurn
  split
  · assumption
  · exact becomeFree_free _ _ h
  · unfold freeIfClosing
    simp only [missClosing_tar, setTurn_tar]
    exact becomeFree_free _ _ (by rw [missClosing_latched]; simpa [anyLatched] using h)
  · rename_i t ht
    unfold freeIfClosing
    simp only [missClosing_tar, ht]
    exact becomeFree_free _ _ (by rw [missClosing_latched]; exact h)


/-! ## The chain -/

theorem comeToRest_kch (c : ChainState) (s : State) : (comeToRest c s).kch = { s.kch with
    state := c, claimant := .none, stageStart := none, stageTimer := none, keyDownCause := none, onAirStart := none,
    onAirEnd := none, deadMan := none, txLimit := none } := by
  simp [comeToRest]

/-- What an abandoned send leaves in the ID record. -/
theorem abandonSend_sending (s : State) : idSending (abandonSend s) = false := by
  unfold abandonSend
  split
  · split <;> simp [idSending]
  · rename_i h
    unfold idSending
    split
    · rename_i x; exact absurd x (h _ _ _)
    · rfl

theorem abandonSend_record (s : State) (h : idSending s = false) : abandonSend s = s := by
  unfold abandonSend
  cases r : s.ids.record with
  | sending since trigger progress => simp [idSending, r] at h
  | _ => rfl

/-- The chain at rest, nothing claimed and nothing being sent, with the turn begun. -/
theorem rested_chainLawful {s t : State} (l : chainLawful s) (up : chainAtRest s = false) (tar : t.tar.turn = s.tar.turn)
    (rest : chainAtRest t = true) (claimant : t.kch.claimant = .none) (start : t.kch.onAirStart = none)
    (record : idSending t = false) (power : t.spc.power = s.spc.power) (watch : t.mrg.watch = s.mrg.watch) :
    chainLawful t := by
  obtain ⟨_, _, begun, _, ready, watched⟩ := l.engaged up
  refine ⟨?_, ⟨?_, fun _ => start⟩, ⟨?_, ?_⟩, ⟨?_, ?_⟩, ?_, ?_⟩
  · simp [identIsSending, claimant, record]
  · simp [claimant, rest]
  · intro a b
    simp only [turnOpen, turnClosing, tar] at *
    rw [a, b] at begun; simp at begun
  · intro o h
    rw [tar] at h
    simp [turnOpen, turnClosing, h] at begun
  · intro h; simp [chainAtRest, h] at rest
  · intro h; rw [claimant] at h; cases h
  · intro h; rw [power] at h; exact absurd ready h
  · unfold supervisedIsWatched turnRunning turnClass at *
    rw [tar, watch]; exact watched

theorem immediateRelease_chainLawful (c : KeyDownCause) (s : State) (l : chainLawful s) :
    chainLawful (immediateRelease c s) ∧ chainAtRest (immediateRelease c s) = true := by
  unfold immediateRelease
  split
  · exact ⟨l, by assumption⟩
  · rename_i up
    have rest : chainAtRest (abandonSend (comeToRest .idle (writeLast c s))) = true := by
      simp [chainAtRest, comeToRest_kch]
    refine ⟨rested_chainLawful l (by simpa using up) (by simp) rest (by simp [comeToRest_kch]) (by simp [comeToRest_kch])
      (abandonSend_sending _) (by simp) (by simp), rest⟩

theorem chainFault_chainLawful (k : FaultKind) (s : State) (l : chainLawful s) (up : chainAtRest s = false) :
    chainLawful (chainFault k s) := by
  unfold chainFault
  dsimp only
  generalize hb : (raise Cause.keyFault (writeJournal _ _)) = b
  have tar : b.tar = s.tar := by simp [← hb]
  have kch : b.kch.state = .faulted ∧ b.kch.claimant = .none ∧ b.kch.onAirStart = none := by
    simp [← hb, comeToRest_kch]
  have ids : b.ids = s.ids := by simp [← hb]
  have spc : b.spc = s.spc := by simp [← hb]
  have mrg : b.mrg = s.mrg := by simp [← hb]
  have rest : chainAtRest b = true := by simp [chainAtRest, kch.1]
  split
  · have l3 : chainLawful (abandonSend b) :=
      rested_chainLawful l up (by simp [tar]) (by simpa [chainAtRest] using rest) (by simp [kch]) (by simp [kch])
        (abandonSend_sending _) (by simp [spc]) (by simp [mrg])
    split
    · exact releaseTurn_chainLawful _ _ l3 (by simpa [chainAtRest] using rest)
    · exact l3
  · rename_i h
    refine releaseTurn_chainLawful _ _ (rested_chainLawful l up (by rw [tar]) rest kch.2.1 kch.2.2 ?_ (by rw [spc]) (by rw [mrg])) rest
    have : ¬ idSending s = true := fun x => h (by simpa using l.1.2 x)
    simpa [idSending, ids] using this

theorem beginStage_engaged (c : ChainState) (n : Nat) {s : State} (e : Engaged s) : Engaged (beginStage c n s) :=
  e.congr rfl rfl rfl rfl rfl rfl

theorem enterTxUp_chainLawful (air : State → State) (s : State) (e : Engaged s)
    (h : ∀ t, Engaged t → t.kch.claimant = s.kch.claimant → chainLawful (air t)) : chainLawful (enterTxUp air s) := by
  unfold enterTxUp
  dsimp only
  generalize hb : startBlanking _ = b
  have e1 : Engaged b := e.congr (by simp [← hb]) (by simp [← hb, beginStage]) (by simp [← hb, beginStage]) (by simp [← hb])
    (by simp [← hb]) (by simp [← hb])
  have st : b.kch.state = .txUp := by simp [← hb, beginStage]
  have up : chainAtRest b = false := by simp [chainAtRest, st]
  have l1 : chainLawful b := e1.lawful up (by simp [st])
  split
  · split
    · exact h _ e1 (by simp [← hb, beginStage])
    · exact chainFault_chainLawful _ _ l1 up
  · exact l1

theorem enterAmpUp_chainLawful (air : State → State) (s : State) (e : Engaged s)
    (h : ∀ t, Engaged t → t.kch.claimant = s.kch.claimant → chainLawful (air t)) : chainLawful (enterAmpUp air s) := by
  unfold enterAmpUp
  dsimp only
  generalize hb : senseInput _ _ = b
  have e1 : Engaged b := e.congr (by simp [← hb]) (by simp [← hb, beginStage]) (by simp [← hb, beginStage]) (by simp [← hb])
    (by simp [← hb]) (by simp [← hb])
  have st : b.kch.state = .ampUp := by simp [← hb, beginStage]
  have up : chainAtRest b = false := by simp [chainAtRest, st]
  have cl : b.kch.claimant = s.kch.claimant := by simp [← hb, beginStage]
  have l1 : chainLawful b := e1.lawful up (by simp [st])
  split
  · split
    · exact enterTxUp_chainLawful air b e1 (fun t a c => h t a (c.trans cl))
    · exact chainFault_chainLawful _ _ l1 up
  · exact l1

theorem setIdleDeadline_begun (d : Option Nat) (s : State) :
    turnOpen (setIdleDeadline d s) = turnOpen s ∧ turnClosing (setIdleDeadline d s) = turnClosing s ∧
      turnRunning (setIdleDeadline d s) = turnRunning s ∧ turnClass (setIdleDeadline d s) = turnClass s ∧
      (s.tar.turn ≠ .free → (setIdleDeadline d s).tar.turn ≠ .free) ∧
      (∀ o, (setIdleDeadline d s).tar.turn = .offered o → s.tar.turn = .offered o) ∧
      ((setIdleDeadline d s).tar.turn = .free ↔ s.tar.turn = .free) := by
  unfold setIdleDeadline
  split
  · rename_i t h; simp [turnOpen, turnClosing, turnRunning, turnClass, h]
  · simp

theorem setIdleDeadline_chainLawful (d : Option Nat) (s : State) (l : chainLawful s) : chainLawful (setIdleDeadline d s) := by
  obtain ⟨a, b, c, x, o, f, g⟩ := setIdleDeadline_begun d s
  unfold chainLawful identIsSending restIsUnclaimed idleBeforeOpen airIsOwed turnsNeedPower supervisedIsWatched idSending
    idOwed chainAtRest at *
  rw [a, b, c, x, g]
  simp only [setIdleDeadline_kch, setIdleDeadline_ids, setIdleDeadline_spc, setIdleDeadline_mrg]
  obtain ⟨l1, l2, ⟨l3, l3'⟩, l4⟩ := l
  exact ⟨l1, l2, ⟨l3, fun u h => l3' u (f u h)⟩, l4⟩

theorem setIdleDeadline_engaged (d : Option Nat) (s : State) (e : Engaged s) : Engaged (setIdleDeadline d s) := by
  obtain ⟨a, b, c, x, _⟩ := setIdleDeadline_begun d s
  obtain ⟨e1, e2, e3, e4, e5, e6⟩ := e
  constructor <;>
    simp only [identIsSending, supervisedIsWatched, idSending, idOwed, setIdleDeadline_kch, setIdleDeadline_ids,
      setIdleDeadline_spc, setIdleDeadline_mrg, a, b, c, x] <;> assumption

/-- R62: key-up begins from IDLE for a claim of a turn. -/
theorem keyUp_chainLawful (c : Claimant) (air : State → State) (s : State)
    (e : Engaged (s.setKch { s.kch with claimant := c }))
    (h : ∀ t, Engaged t → t.kch.claimant = c → chainLawful (air t)) : chainLawful (keyUp c air s) := by
  have e1 := setIdleDeadline_engaged none _ e
  unfold keyUp
  dsimp only
  split
  · exact enterTxUp_chainLawful air _ e1 (fun t a k => h t a (by rw [k]; simp))
  · exact enterAmpUp_chainLawful air _ e1 (fun t a k => h t a (by rw [k]; simp))

theorem onAirIdent_chainLawful (s : State) (e : Engaged s) (i : s.kch.claimant = .ident) : chainLawful (onAirIdent s) := by
  obtain ⟨e1, e2, e3, e4, e5, e6⟩ := e
  have sd : idSending s = true := e2.1 i
  unfold onAirIdent
  dsimp only
  split
  · refine Engaged.lawful ⟨by simpa [enterOnAir] using e1, ?_, ?_, ?_, by simpa using e5, ?_⟩ ?_ ?_
    · simp [identIsSending, idSending, enterOnAir, i]
    · simpa [turnOpen, turnClosing] using e3
    · simp [enterOnAir, i]
    · simpa [supervisedIsWatched, turnRunning, turnClass] using e6
    · simp [chainAtRest, enterOnAir]
    · simp [enterOnAir]
  · rename_i x
    unfold idSending at sd
    split at sd
    · rename_i y; exact absurd y (by simpa using x _ _ _)
    · cases sd

theorem takeClaim_chainLawful (t : Trigger) (s : State) (l : chainLawful s) (rest : chainAtRest s = true)
    (begun : turnOpen s = true ∨ turnClosing s = true) : chainLawful (takeClaim t s) := by
  have ready : s.spc.power = .ready := by
    by_contra h
    have := l.2.2.2.2.1 h
    simp [turnOpen, turnClosing, this] at begun
  have start := l.2.1.2 rest
  have main : ∀ r, (∃ a b c, r = IdRecord.sending a b c) →
      chainLawful (keyUp .ident onAirIdent (setRecord r s)) := by
    rintro r ⟨a, b, c, rfl⟩
    refine keyUp_chainLawful .ident onAirIdent _ ⟨?_, ?_, ?_, ?_, ?_, ?_⟩ (fun t e k => onAirIdent_chainLawful t e k)
    · simp
    · simp [identIsSending, idSending]
    · simpa [turnOpen, turnClosing] using begun
    · simp
    · simpa using ready
    · simpa [supervisedIsWatched, turnRunning, turnClass] using l.2.2.2.2.2
  unfold takeClaim
  split
  · exact main _ ⟨_, _, _, rfl⟩
  · exact main _ ⟨_, _, _, rfl⟩
  · exact l

theorem chainIdle_rest (s : State) (h : chainIdle s = true) : chainAtRest s = true := by
  simp [chainIdle, chainAtRest] at *; simp [h]

theorem claimInterval_chainLawful (s : State) (l : chainLawful s) : chainLawful (claimInterval s) := by
  unfold claimInterval
  split
  · rename_i h
    simp only [Bool.and_eq_true] at h
    exact takeClaim_chainLawful _ s l (chainIdle_rest s h.1.1.2) (.inl h.1.1.1.2)
  · exact l

theorem closingStep_chainLawful (s : State) (l : chainLawful s) : chainLawful (closingStep s) := by
  unfold closingStep
  split
  · rename_i h
    simp only [Bool.and_eq_true] at h
    have q := missClosing_quiet s l h.2
    split
    · split
      · exact l
      · split
        · exact takeClaim_chainLawful _ s l h.2 (.inr h.1)
        · exact freeIfClosing_chainLawful _ q (by simpa [turnClosing] using h.1)
    · rename_i n
      have : missClosing s = s := by unfold missClosing; rw [if_neg n]
      rw [this] at q
      exact freeIfClosing_chainLawful _ q h.1
  · exact l

theorem completeKeyDown_chainLawful (s : State) (l : chainLawful s) (up : chainAtRest s = false) :
    chainLawful (completeKeyDown s) := by
  unfold completeKeyDown
  dsimp only
  generalize hb : (if (s.kch.keyDownCause.getD KeyDownCause.unkey == KeyDownCause.txLimit) = true then
      loadHoldoff (comeToRest ChainState.idle (writeLast (s.kch.keyDownCause.getD KeyDownCause.unkey) s))
    else comeToRest ChainState.idle (writeLast (s.kch.keyDownCause.getD KeyDownCause.unkey) s)) = b
  have b1 : b.tar = s.tar ∧ b.ids = s.ids ∧ b.spc = s.spc ∧ b.mrg = s.mrg ∧ chainAtRest b = true ∧
      b.kch.claimant = .none ∧ b.kch.onAirStart = none := by
    rw [← hb]
    split <;> simp [comeToRest_kch, chainAtRest, loadHoldoff]
  obtain ⟨tar, ids, spc, mrg, rest, cl, st⟩ := b1
  have third : chainLawful (if (s.kch.claimant == Claimant.ident) = true then idSent b else b) := by
    split
    · refine rested_chainLawful l up (by simp [tar]) (by simpa [chainAtRest] using rest) (by simpa using cl) (by simpa using st) ?_
        (by simp [spc]) (by simp [mrg])
      unfold idSent
      split
      · simp [idSending]
      · rename_i x
        unfold idSending
        split
        · rename_i y; exact absurd y (x _ _ _)
        · rfl
    · rename_i h
      refine rested_chainLawful l up (by rw [tar]) rest cl st ?_ (by rw [spc]) (by rw [mrg])
      have : ¬ idSending s = true := fun x => h (by simpa using l.1.2 x)
      simpa [idSending, ids] using this
  generalize (if (s.kch.claimant == Claimant.ident) = true then idSent b else b) = d at third
  split
  · exact claimInterval_chainLawful _ (setIdleDeadline_chainLawful _ _ third)
  · exact closingStep_chainLawful _ third

/-- A stage of a claim. -/
theorem stage_chainLawful {s t : State} (l : chainLawful s) (up : chainAtRest s = false) (tar : t.tar = s.tar)
    (claimant : t.kch.claimant = s.kch.claimant) (start : t.kch.onAirStart = s.kch.onAirStart) (ids : t.ids = s.ids)
    (spc : t.spc = s.spc) (mrg : t.mrg = s.mrg) (rest : chainAtRest t = false)
    (state : t.kch.state = .onAir → s.kch.state = .onAir) : chainLawful t :=
  ((l.engaged up).congr (by rw [tar]) claimant start (by rw [ids]) (by rw [spc]) (by rw [mrg])).lawful rest
    (fun h => by rw [start]; exact l.2.2.2.1.1 (state h))

theorem enterAmpDown_chainLawful (s : State) (l : chainLawful s) (up : chainAtRest s = false) :
    chainLawful (enterAmpDown s) := by
  have l1 : chainLawful (beginStage .ampDown s.kch.copy.ampHold s) :=
    stage_chainLawful l up rfl rfl rfl rfl rfl rfl rfl (by simp [beginStage])
  unfold enterAmpDown
  dsimp only
  split
  · exact completeKeyDown_chainLawful _ l1 rfl
  · exact l1

theorem endTxDown_chainLawful (s : State) (l : chainLawful s) (up : chainAtRest s = false) : chainLawful (endTxDown s) := by
  unfold endTxDown
  split
  · exact completeKeyDown_chainLawful s l up
  · exact enterAmpDown_chainLawful s l up

theorem enterTxDown_chainLawful (s : State) (l : chainLawful s) (up : chainAtRest s = false) : chainLawful (enterTxDown s) := by
  unfold enterTxDown
  dsimp only
  generalize hb : stopBlanking _ = b
  have up1 : chainAtRest b = false := by simp [← hb, chainAtRest, beginStage]
  have l1 : chainLawful b :=
    stage_chainLawful l up (by simp [← hb]) (by simp [← hb, beginStage]) (by simp [← hb, beginStage]) (by simp [← hb])
      (by simp [← hb]) (by simp [← hb]) up1 (by simp [← hb, beginStage])
  split
  · exact l1
  · exact endTxDown_chainLawful _ l1 up1

theorem requestKeyDown_chainLawful (cause : KeyDownCause) (c : Claimant) (s : State) (l : chainLawful s) :
    chainLawful (requestKeyDown cause c s) := by
  have base : chainLawful (beginKeyDown cause s) := chainLawful_congr rfl rfl rfl rfl rfl rfl rfl l
  unfold requestKeyDown
  split
  · split
    · rename_i h; exact enterAmpDown_chainLawful _ base (by simp [chainAtRest, beginKeyDown, h])
    · rename_i h; exact enterTxDown_chainLawful _ base (by simp [chainAtRest, beginKeyDown, h])
    · rename_i h; exact enterTxDown_chainLawful _ base (by simp [chainAtRest, beginKeyDown, h])
    · exact l
  · exact l

/-- R51: the end of a turn keeps the laws even where a watch that has just ended leaves it unwatched. -/
def unwatchedLawful (s : State) : Prop :=
  identIsSending s ∧ restIsUnclaimed s ∧ idleBeforeOpen s ∧ airIsOwed s ∧ turnsNeedPower s

theorem chainLawful.unwatched {s : State} (l : chainLawful s) : unwatchedLawful s :=
  ⟨l.1, l.2.1, l.2.2.1, l.2.2.2.1, l.2.2.2.2.1⟩

theorem endTurn_chainLawful (cause : EndCause) (s : State) (l : unwatchedLawful s)
    (w : turnRunning s = false → chainLawful s) : chainLawful (endTurn cause s) := by
  unfold endTurn
  split
  · rename_i t h
    obtain ⟨_, ⟨y, y'⟩, ⟨z, _⟩, _⟩ := l
    obtain ⟨c, d⟩ := z (by simp [turnOpen, h]) (by simp [turnClosing, h])
    exact becomeFree_chainLawful _ s ⟨d, y.2 d, y' d, c⟩
  · rename_i t h
    have l1 : chainLawful (s.setTurn (.closing (closingOf cause t))) := by
      obtain ⟨a, b, d, e, f⟩ := l
      refine ⟨a, b, ⟨?_, ?_⟩, e, ?_, ?_⟩
      · intro x y; simp [turnClosing] at y
      · intro o x; simp at x
      · intro x; have := f x; rw [h] at this; cases this
      · intro x; simp [turnRunning] at x
    unfold endOpen
    dsimp only
    split
    · exact requestKeyDown_chainLawful _ _ _ l1
    · exact closingStep_chainLawful _ l1
  · rename_i a b
    refine w ?_
    unfold turnRunning
    split
    · rename_i x; exact absurd x (a _)
    · rename_i x; exact absurd x (b _)
    · rfl

theorem endTurn_keeps (cause : EndCause) (s : State) (l : chainLawful s) : chainLawful (endTurn cause s) :=
  endTurn_chainLawful cause s l.unwatched (fun _ => l)

theorem onAirHolder_chainLawful (s : State) (e : Engaged s) (i : s.kch.claimant = .holder) : chainLawful (onAirHolder s) := by
  obtain ⟨e1, e2, e3, e4, e5, e6⟩ := e
  have ns : idSending s = false := by
    by_contra h
    have := e2.2 (by simpa using h)
    rw [i] at this; cases this
  unfold onAirHolder
  dsimp only
  generalize hb : oweIdentification _ = b
  have tar : b.tar = s.tar := by rw [← hb]; unfold oweIdentification; split <;> simp
  have spc : b.spc = s.spc := by rw [← hb]; unfold oweIdentification; split <;> simp
  have watch : b.mrg.watch = s.mrg.watch := by rw [← hb]; unfold oweIdentification; split <;> simp
  have st : b.kch.state = .onAir ∧ b.kch.claimant = .holder ∧ b.kch.onAirStart = some (now s) := by
    rw [← hb]; unfold oweIdentification; split <;> simp [enterOnAir, i]
  have left : idOwed b = true ∧ idSending b = false := by
    rw [← hb]
    unfold oweIdentification
    split
    · simp [idOwed, idSending]
    · rename_i x
      simp at x
      unfold idOwed idSending at *
      simp only [setKch_ids, setUnitOwed_ids, enterOnAir_ids]
      cases r : s.ids.record <;> simp [r] at *
  have l1 : chainLawful b := by
    refine Engaged.lawful ⟨by simp [st], ?_, ?_, fun _ _ => left.1, by rw [spc]; exact e5, ?_⟩ ?_ (by simp [st])
    · simp [identIsSending, st, left]
    · simpa [turnOpen, turnClosing, tar] using e3
    · simpa [supervisedIsWatched, turnRunning, turnClass, tar, watch] using e6
    · simp [chainAtRest, st]
  split
  · exact l1
  · exact requestKeyDown_chainLawful _ _ _ l1

theorem onAir_chainLawful (s : State) (e : Engaged s) : chainLawful (onAir s) := by
  unfold onAir
  split
  · rename_i h; exact onAirIdent_chainLawful s e (by simpa using h)
  · rename_i h
    refine onAirHolder_chainLawful s e ?_
    have := e.claimed
    cases hc : s.kch.claimant <;> simp [hc] at *
/-! ## What follows from the inputs -/

theorem senseInput_latched (i : Input) (s : State) : (senseInput i s).ilm.latched = s.ilm.latched := by
  unfold senseInput startFilter
  repeat' split
  all_goals rfl

theorem comeToRest_latched (c : ChainState) (s : State) : (comeToRest c s).ilm.latched = s.ilm.latched := by
  unfold comeToRest stopBlanking
  rw [senseInput_latched]
  split
  · rfl
  · rw [senseInput_latched]; rfl

theorem trip_chainLawful (i : Input) (s : State) (h : i ≠ .localKey) (l : chainLawful s) : chainLawful (trip i s) := by
  unfold trip
  dsimp only
  generalize hb : raise Cause.trip (writeJournal _ _) = b
  have lb : chainLawful b := by
    refine chainLawful_congr ?_ ?_ ?_ ?_ ?_ ?_ ?_ l <;> simp [← hb]
  have la : anyLatched b = true := by
    have : (b.ilm.latched.get i) = true := by
      simp only [← hb, raise_ilm, writeJournal_ilm, setIlm_ilm]
      cases i <;> rfl
    cases i <;> simp_all [anyLatched, PerInput.get, PerInput.toList]
  obtain ⟨lr, rest⟩ := immediateRelease_chainLawful .trip b lb
  have latch : anyLatched (immediateRelease .trip b) = true := by
    have same : (immediateRelease .trip b).ilm.latched = b.ilm.latched := by
      unfold immediateRelease
      split
      · rfl
      · rename_i x
        have : (abandonSend (comeToRest .idle (writeLast .trip b))).ilm =
            (comeToRest .idle (writeLast .trip b)).ilm := by simp
        rw [this, comeToRest_latched, writeLast_ilm]
    simpa [anyLatched, same] using la
  have l3 := releaseTurn_chainLawful .trip _ lr rest
  have free := releaseTurn_free .trip _ latch
  split
  · refine (enterOff_chainLawful none _ ?_ free).1
    exact l3.quiet (by simp [turnOpen, free]) (by simp [turnClosing, free])
  · exact l3


theorem report_chainLawful (i : Input) (s : State) (l : chainLawful s) : chainLawful (report i s) := by
  refine chainLawful_congr ?_ ?_ ?_ ?_ ?_ ?_ ?_ l <;> simp [report]

theorem localBecomesActive_chainLawful (s : State) (l : chainLawful s) : chainLawful (localBecomesActive s) :=
  releaseTurn_chainLawful _ _ (immediateRelease_chainLawful _ s l).1 (immediateRelease_chainLawful _ s l).2

theorem localBecomesQuiet_chainLawful (s : State) (l : chainLawful s) : chainLawful (localBecomesQuiet s) :=
  runSelection_chainLawful _ (claimInterval_chainLawful s l)

theorem inputBecame_chainLawful (i : Input) (b : Bool) (s : State) (l : chainLawful s) : chainLawful (inputBecame i b s) := by
  unfold inputBecame
  split
  · exact localBecomesActive_chainLawful s l
  · exact localBecomesQuiet_chainLawful s l
  · rename_i h
    split
    · exact trip_chainLawful i s (fun x => h (x ▸ rfl)) l
    · exact report_chainLawful i s l
  · exact l

theorem setIlm_chainLawful (x : Monitor) (s : State) (l : chainLawful s) : chainLawful (s.setIlm x) :=
  chainLawful_congr rfl rfl rfl rfl rfl rfl rfl l

theorem drain_chainLawful (n : Nat) (s : State) (l : chainLawful s) : chainLawful (drain n s) := by
  induction n generalizing s with
  | zero => exact setIlm_chainLawful _ s l
  | succ n ih =>
    unfold drain
    split
    · exact l
    · exact ih _ (inputBecame_chainLawful _ _ _ (setIlm_chainLawful _ s l))

theorem settle_chainLawful (s : State) (l : chainLawful s) : chainLawful (settle s) := drain_chainLawful _ s l

/-- Operations that touch none of what the laws of the chain look at. -/
theorem Moves.aside {s t : State} (turn : t.tar.turn = s.tar.turn) (kch : t.kch = s.kch) (ids : t.ids = s.ids)
    (spc : t.spc = s.spc) (watch : t.mrg.watch = s.mrg.watch) (l : chainLawful s) : chainLawful t :=
  chainLawful_congr turn (by rw [kch]) (by rw [kch]) (by rw [kch]) (by rw [ids]) (by rw [spc]) watch l

theorem senseInput_chainLawful (i : Input) (s : State) (l : chainLawful s) : chainLawful (senseInput i s) :=
  Moves.aside (by simp) (by simp) (by simp) (by simp) (by simp) l

theorem raise_chainLawful (c : Cause) (s : State) (l : chainLawful s) : chainLawful (raise c s) :=
  Moves.aside (by simp) (by simp) (by simp) (by simp) (by simp) l

theorem writeJournal_chainLawful (b : JournalBody) (s : State) (l : chainLawful s) : chainLawful (writeJournal b s) :=
  Moves.aside (by simp) (by simp) (by simp) (by simp) (by simp) l

theorem setSeu_chainLawful (x : SettingUnit) (s : State) (l : chainLawful s) : chainLawful (s.setSeu x) :=
  Moves.aside rfl rfl rfl rfl rfl l

/-! ## The setting -/

theorem endRetune_chainLawful (r : RetuneResult) (s : State) (l : chainLawful s) : chainLawful (endRetune r s) :=
  Moves.aside (by simp) (by simp) (by simp) (by simp) (by simp) l

theorem claimHeldBack_chainLawful (s : State) (l : chainLawful s) : chainLawful (claimHeldBack s) := by
  unfold claimHeldBack
  split
  · exact claimInterval_chainLawful s l
  · exact closingStep_chainLawful s l

theorem beginRetune_chainLawful (r : Requested) (s : State) (l : chainLawful s) : chainLawful (beginRetune r s) :=
  Moves.aside (by simp) (by simp) (by simp) (by simp) (by simp) l

theorem senseChanged_chainLawful (s : State) (l : chainLawful s) : chainLawful (senseChanged s) :=
  Moves.aside (by simp) (by simp) (by simp) (by simp) (by simp) l

theorem checkOnAir_chainLawful (x : Setting) (s : State) (l : chainLawful s) : chainLawful (checkOnAir x s) := by
  unfold checkOnAir
  repeat' split
  all_goals first | exact l | exact requestKeyDown_chainLawful _ _ s l

theorem unsolicited_chainLawful (x : Setting) (s : State) (l : chainLawful s) : chainLawful (unsolicited x s) := by
  have base := checkOnAir_chainLawful x _ (setSeu_chainLawful { s.seu with
    confirmed := ⟨some x, true⟩
    rigSilence := some (afterSeconds s.seu.copy.rigSilenceLimit s) } s l)
  unfold unsolicited
  dsimp only
  split
  · exact base
  · exact raise_chainLawful _ _ base

theorem takeReadback_chainLawful (tag : Byte) (x : Setting) (s : State) (l : chainLawful s) :
    chainLawful (takeReadback tag x s) := by
  unfold takeReadback
  repeat' split
  all_goals first
    | exact unsolicited_chainLawful x s l
    | exact claimHeldBack_chainLawful _ (endRetune_chainLawful _ _ (checkOnAir_chainLawful x _ (setSeu_chainLawful _ s l)))

theorem readbackArrives_chainLawful (tag : Byte) (f : Word) (m : Byte) (p c : Half) (s : State) (l : chainLawful s) :
    chainLawful (readbackArrives tag f m p c s) := by
  unfold readbackArrives
  dsimp only
  repeat' split
  all_goals first
    | exact takeReadback_chainLawful _ _ _ (setSeu_chainLawful _ s l)
    | exact setSeu_chainLawful _ s l

theorem rigByte_chainLawful (s : State) (b : Byte) (l : chainLawful s) : chainLawful (rigByte s b) := by
  unfold rigByte
  split
  · split
    · exact setSeu_chainLawful _ s l
    · exact l
  · dsimp only
    split
    · exact readbackArrives_chainLawful _ _ _ _ _ s l
    · exact setSeu_chainLawful _ s l

theorem rigBreak_chainLawful (b : List Byte) (s : State) (l : chainLawful s) : chainLawful (rigBreak b s) := by
  have main : ∀ (b : List Byte) (s : State), chainLawful s → chainLawful (b.foldl rigByte s) := by
    intro b
    induction b with
    | nil => exact fun _ l => l
    | cons x b ih => exact fun s l => ih _ (rigByte_chainLawful s x l)
  exact setSeu_chainLawful _ _ (main b s l)

theorem rigFallsSilent_chainLawful (s : State) (l : chainLawful s) : chainLawful (rigFallsSilent s) := by
  have base : ∀ t, (t = staleSetting (s.setSeu { s.seu with rigSilence := none }) ∨
      t = raise .setting (staleSetting (s.setSeu { s.seu with rigSilence := none }))) → chainLawful t := by
    rintro t (rfl | rfl)
    · exact setSeu_chainLawful _ _ (setSeu_chainLawful _ s l)
    · exact raise_chainLawful _ _ (setSeu_chainLawful _ _ (setSeu_chainLawful _ s l))
  unfold rigFallsSilent
  dsimp only
  repeat' split
  all_goals first
    | exact requestKeyDown_chainLawful _ _ _ (base _ (by simp))
    | exact base _ (by simp)

theorem settingSent_chainLawful (s : State) (l : chainLawful s) : chainLawful (settingSent s) := by
  unfold settingSent
  split
  · exact l
  · exact setSeu_chainLawful _ s l

/-! ## Timers -/

theorem setTurn_open_chainLawful (t u : OpenTurn) (s : State) (h : s.tar.turn = .opened t) (cls : u.cls = t.cls)
    (l : chainLawful s) : chainLawful (s.setTurn (.opened u)) := by
  obtain ⟨a, b, ⟨c, _⟩, d, e, f⟩ := l
  refine ⟨a, b, ⟨?_, ?_⟩, d, ?_, ?_⟩
  · intro x; simp [turnOpen] at x
  · intro o x; simp at x
  · intro x; have := e x; rw [h] at this; cases this
  · simpa [supervisedIsWatched, turnRunning, turnClass, h, cls] using f

theorem turnDeadlinePasses_chainLawful (s : State) (l : chainLawful s) : chainLawful (turnDeadlinePasses s) := by
  unfold turnDeadlinePasses
  split
  · rename_i t h
    split
    · exact endTurn_keeps _ s l
    · exact setTurn_open_chainLawful t _ s h rfl l
  · exact l

theorem setTimers_chainLawful (x : Chain) (s : State) (state : x.state = s.kch.state) (claimant : x.claimant = s.kch.claimant)
    (start : x.onAirStart = s.kch.onAirStart) (l : chainLawful s) : chainLawful (s.setKch x) :=
  chainLawful_congr (s := s) rfl state claimant start rfl rfl rfl l

theorem deadManExpires_chainLawful (s : State) (l : chainLawful s) : chainLawful (deadManExpires s) :=
  endTurn_keeps _ _ (requestKeyDown_chainLawful _ _ _ (setTimers_chainLawful _ s rfl rfl rfl l))

theorem txLimitExpires_chainLawful (s : State) (l : chainLawful s) : chainLawful (txLimitExpires s) :=
  requestKeyDown_chainLawful _ _ _ (setTimers_chainLawful _ s rfl rfl rfl l)

/-- A change of the ID record within its group of states. -/
theorem setRecord_chainLawful (r : IdRecord) (s : State) (sending : idSending (setRecord r s) = idSending s)
    (owed : idOwed (setRecord r s) = idOwed s) (l : chainLawful s) : chainLawful (setRecord r s) := by
  obtain ⟨a, b, ⟨c, c'⟩, ⟨d, d'⟩, e, f⟩ := l
  refine ⟨?_, b, ⟨?_, c'⟩, ⟨d, ?_⟩, e, f⟩
  · unfold identIsSending; rw [sending]; exact a
  · intro x y
    obtain ⟨u, v⟩ := c x y
    refine ⟨?_, v⟩
    have s1 : idSending (setRecord r s) = false := by rw [sending]; simp [idSending, u]
    have s2 : idOwed (setRecord r s) = false := by rw [owed]; simp [idOwed, u]
    cases r <;> simp_all [idSending, idOwed]
  · intro x y; rw [owed]; exact d' x y

theorem intervalExpires_chainLawful (s : State) (l : chainLawful s) : chainLawful (intervalExpires s) := by
  unfold intervalExpires
  split
  · rename_i a b h
    refine claimInterval_chainLawful _ (raise_chainLawful _ _ (setRecord_chainLawful _ s ?_ ?_ l)) <;>
      simp [idSending, idOwed, h]
  · exact l

theorem graceExpires_chainLawful (s : State) (l : chainLawful s) : chainLawful (graceExpires s) := by
  unfold graceExpires
  split
  · rename_i a b h
    have base : chainLawful (setRecord (.due a none) s) := by
      refine setRecord_chainLawful _ s ?_ ?_ l <;> simp [idSending, idOwed, h]
    dsimp only
    split
    · exact requestKeyDown_chainLawful _ _ _ base
    · exact base
  · exact l

theorem setTone_chainLawful (b : Bool) (s : State) (l : chainLawful s) : chainLawful (s.setTone b) :=
  chainLawful_congr rfl rfl rfl rfl rfl rfl rfl l

theorem patternEnds_chainLawful (s : State) (l : chainLawful s) : chainLawful (patternEnds s) := by
  unfold patternEnds
  split
  · rename_i a b c d e h
    refine requestKeyDown_chainLawful _ _ _ (setRecord_chainLawful _ _ ?_ ?_ (setTone_chainLawful _ s l)) <;>
      simp [idSending, idOwed, h]
  · exact l

theorem elementEnds_chainLawful (n : Nat) (s : State) (l : chainLawful s) : chainLawful (elementEnds n s) := by
  unfold elementEnds
  split
  · rename_i a b c d e h
    repeat' split
    · exact setTone_chainLawful _ s l
    · refine setTone_chainLawful _ _ (setRecord_chainLawful _ s ?_ ?_ l) <;> simp [idSending, idOwed, h]
    · exact patternEnds_chainLawful s l
  · exact l

/-! ## Power -/

/-- The power state changes while the turn is FREE. -/
theorem setPower_chainLawful (x : PowerControl) (s : State) (free : s.tar.turn = .free) (l : chainLawful s) :
    chainLawful (s.setSpc x) :=
  (l.quiet (by simp [turnOpen, free]) (by simp [turnClosing, free])).congr (t := s.setSpc x) rfl rfl rfl rfl |>.free free

theorem changePower_chainLawful (p : Power) (c : Option SelfCheck) (s : State) (free : s.tar.turn = .free)
    (l : chainLawful s) : chainLawful (changePower p c s) :=
  raise_chainLawful _ _ (writeJournal_chainLawful _ _ (setPower_chainLawful _ s free l))

theorem chainLawful.quiet_of_free {s : State} (l : chainLawful s) (free : s.tar.turn = .free) : Quiet s :=
  l.quiet (by simp [turnOpen, free]) (by simp [turnClosing, free])

theorem makeSelfCheck_chainLawful (s : State) (free : s.tar.turn = .free) (l : chainLawful s) :
    chainLawful (makeSelfCheck s) := by
  have base : chainLawful (recordCheckItems (selfCheckItems s) s) := setPower_chainLawful _ s free l
  unfold makeSelfCheck
  dsimp only
  split
  · exact runSelection_chainLawful _ (claimInterval_chainLawful _ (changePower_chainLawful _ _ _ free base))
  · exact (enterOff_chainLawful _ _ (base.quiet_of_free free) free).1

theorem supplyFails_chainLawful (s : State) (free : s.tar.turn = .free) (l : chainLawful s) : chainLawful (supplyFails s) :=
  (enterOff_chainLawful _ _ ((setPower_chainLawful _ s free l).quiet_of_free (s := recordCheckItems supplyFailure s) free)
    free).1

theorem confirmSupply_chainLawful (s : State) (free : s.tar.turn = .free) (l : chainLawful s) :
    chainLawful (confirmSupply s) := by
  have base : chainLawful (senseInput .supok (s.setSpc { s.spc with power := .warmUp (afterSeconds s.spc.copy.warmUp s) })) :=
    senseInput_chainLawful _ _ (setPower_chainLawful _ s free l)
  unfold confirmSupply
  dsimp only
  split
  · exact makeSelfCheck_chainLawful _ (by simpa using free) base
  · exact base

theorem enterWarming_chainLawful (s : State) (free : s.tar.turn = .free) (l : chainLawful s) :
    chainLawful (enterWarming s) := by
  have base := changePower_chainLawful (.supplyWait (s.clock + Config.supplyConfirmTime)) none s free l
  unfold enterWarming
  dsimp only
  split
  · exact confirmSupply_chainLawful _ (by simpa using free) base
  · exact base

theorem setFlag_chainLawful (b : Bool) (s : State) (l : chainLawful s) :
    chainLawful (s.setSpc { s.spc with downRequested := b }) := chainLawful_congr rfl rfl rfl rfl rfl rfl rfl l

/-! ## The watch -/

theorem endSupervised_chainLawful (s : State) (l : unwatchedLawful s) : chainLawful (endSupervised s) := by
  have full : (turnRunning s = true → turnClass s ≠ some (.standing .supervised)) → chainLawful s := fun h =>
    ⟨l.1, l.2.1, l.2.2.1, l.2.2.2.1, l.2.2.2.2, fun x y => absurd y (h x)⟩
  unfold endSupervised
  split
  · exact endTurn_chainLawful _ s l (fun h => full (fun x => by rw [h] at x; cases x))
  · rename_i h
    exact full (fun x y => h (by simp [x, y]))

theorem endWatch_chainLawful (s : State) (l : chainLawful s) : chainLawful (endWatch s) := by
  unfold endWatch
  split
  · exact l
  · refine endSupervised_chainLawful _ ?_
    have := l.unwatched
    unfold unwatchedLawful identIsSending restIsUnclaimed idleBeforeOpen airIsOwed turnsNeedPower idSending
      idOwed chainAtRest turnOpen turnClosing at *
    simpa using this

theorem setWatch_chainLawful (m b e : Nat) (s : State) (l : chainLawful s) : chainLawful (s.setWatch (.active m b e)) :=
  ⟨l.1, l.2.1, l.2.2.1, l.2.2.2.1, l.2.2.2.2.1, fun _ _ => by simp⟩

theorem beginWatch_chainLawful (m : Nat) (s : State) (l : chainLawful s) : chainLawful (beginWatch m s) :=
  runSelection_chainLawful _ (raise_chainLawful _ _ (writeJournal_chainLawful _ _ (setWatch_chainLawful _ _ _ s l)))

/-! ## The lines -/

theorem amprdyChanged_chainLawful (b : Bool) (s : State) (l : chainLawful s) : chainLawful (amprdyChanged b s) := by
  unfold amprdyChanged
  split
  · exact l
  · split
    · rename_i h
      have up : chainAtRest s = false := by simp [chainAtRest, h]
      split
      · exact chainFault_chainLawful _ s l up
      · exact enterTxUp_chainLawful _ s (l.engaged up) (fun t e _ => onAir_chainLawful t e)
    · rename_i h; exact chainFault_chainLawful _ s l (by simp [chainAtRest, h])
    · rename_i h; exact chainFault_chainLawful _ s l (by simp [chainAtRest, h])
    · rename_i h; exact chainFault_chainLawful _ s l (by simp [chainAtRest, h])
    · exact l

theorem txcChanged_chainLawful (b : Bool) (s : State) (l : chainLawful s) : chainLawful (txcChanged b s) := by
  unfold txcChanged
  split
  · rename_i h
    have up : chainAtRest s = false := by simp [chainAtRest, h]
    split
    · exact chainFault_chainLawful _ s l up
    · exact onAir_chainLawful s (l.engaged up)
  · rename_i h; exact chainFault_chainLawful _ s l (by simp [chainAtRest, h])
  · rename_i h; exact endTxDown_chainLawful s l (by simp [chainAtRest, h])
  · exact l

theorem supokChanged_chainLawful (b : Bool) (s : State) (l : chainLawful s) : chainLawful (supokChanged b s) := by
  unfold supokChanged
  split
  · rename_i h
    have free : s.tar.turn = .free := l.2.2.2.2.1 (by rw [h]; simp)
    exact senseInput_chainLawful _ _ (confirmSupply_chainLawful s free l)
  · exact senseInput_chainLawful _ s l

end Sys2Proof.Machine
end

