-- ==== Sys2Proof/Laws/Requests.lean ====
section
/-! SUPPORT. The request rows: each is the arrival of its frame, an owner's answer is its next state, and what the arrival
of a request and a change of the turn leave as it was, by the terms that owners read. -/

namespace Sys2Proof.Machine

/-! ## What owners read after an arrival or a change of the turn -/

@[simp] theorem memberSlot_heard (k : Nat) (s : State) : memberSlot k (heard s) = memberSlot k s := rfl
@[simp] theorem enrolment_heard (k : Nat) (s : State) : enrolment k (heard s) = enrolment k s := rfl
@[simp] theorem isSuspended_heard (k : Nat) (s : State) : isSuspended k (heard s) = isSuspended k s := rfl
@[simp] theorem allowanceZero_heard (k : Nat) (s : State) : allowanceZero k (heard s) = allowanceZero k s := rfl
@[simp] theorem isLimited_heard (k : Nat) (s : State) : isLimited k (heard s) = isLimited k s := rfl
@[simp] theorem standing_heard (k : Nat) (s : State) : standing k (heard s) = standing k s := rfl
@[simp] theorem holder_heard (s : State) : holder (heard s) = holder s := rfl
@[simp] theorem entryOf_heard (k : Nat) (s : State) : entryOf k (heard s) = entryOf k s := rfl
@[simp] theorem turnRunning_heard (s : State) : turnRunning (heard s) = turnRunning s := rfl
@[simp] theorem turnClass_heard (s : State) : turnClass (heard s) = turnClass s := rfl
@[simp] theorem turnOpen_heard (s : State) : turnOpen (heard s) = turnOpen s := rfl
@[simp] theorem idDue_heard (s : State) : idDue (heard s) = idDue s := rfl
@[simp] theorem idSending_heard (s : State) : idSending (heard s) = idSending s := rfl
@[simp] theorem anyLatched_heard (s : State) : anyLatched (heard s) = anyLatched s := rfl
@[simp] theorem localActive_heard (s : State) : localActive (heard s) = localActive s := rfl
@[simp] theorem stationReady_heard (s : State) : stationReady (heard s) = stationReady s := rfl
@[simp] theorem selectionHeld_heard (s : State) : selectionHeld (heard s) = selectionHeld s := rfl
@[simp] theorem chainIdle_heard (s : State) : chainIdle (heard s) = chainIdle s := rfl
@[simp] theorem retuneInFlight_heard (s : State) : retuneInFlight (heard s) = retuneInFlight s := rfl
@[simp] theorem storeBusy_heard (s : State) : storeBusy (heard s) = storeBusy s := rfl
@[simp] theorem rankedQueue_heard (s : State) : rankedQueue (heard s) = rankedQueue s := rfl
@[simp] theorem senseConfirms_heard (s : State) : senseConfirms (heard s) = senseConfirms s := rfl
@[simp] theorem idOwed_heard (s : State) : idOwed (heard s) = idOwed s := rfl
@[simp] theorem memberSlot_heardFrom (k : Nat) (m : Byte) (s : State) :
    memberSlot k (heardFrom m s) = memberSlot k s := by simp [memberSlot]
@[simp] theorem enrolment_heardFrom (k : Nat) (m : Byte) (s : State) :
    enrolment k (heardFrom m s) = enrolment k s := by simp [enrolment]
@[simp] theorem isSuspended_heardFrom (k : Nat) (m : Byte) (s : State) :
    isSuspended k (heardFrom m s) = isSuspended k s := by simp [isSuspended]
@[simp] theorem isLimited_heardFrom (k : Nat) (m : Byte) (s : State) :
    isLimited k (heardFrom m s) = isLimited k s := by simp [isLimited]
@[simp] theorem allowanceZero_heardFrom (k : Nat) (m : Byte) (s : State) :
    allowanceZero k (heardFrom m s) = allowanceZero k s := by simp [allowanceZero]
@[simp] theorem standing_heardFrom (k : Nat) (m : Byte) (s : State) :
    standing k (heardFrom m s) = standing k s := by simp [standing]
@[simp] theorem entryOf_heardFrom (k : Nat) (m : Byte) (s : State) :
    entryOf k (heardFrom m s) = entryOf k s := by simp [entryOf]
@[simp] theorem isSuspended_setTurn (k : Nat) (s : State) (t : Turn) : isSuspended k (s.setTurn t) = isSuspended k s := rfl
@[simp] theorem allowanceZero_setTurn (k : Nat) (s : State) (t : Turn) : allowanceZero k (s.setTurn t) = allowanceZero k s := rfl
@[simp] theorem enrolment_setTurn (k : Nat) (s : State) (t : Turn) : enrolment k (s.setTurn t) = enrolment k s := rfl
@[simp] theorem standing_setTurn (k : Nat) (s : State) (t : Turn) : standing k (s.setTurn t) = standing k s := rfl
@[simp] theorem memberSlot_setTurn (k : Nat) (s : State) (t : Turn) : memberSlot k (s.setTurn t) = memberSlot k s := rfl
@[simp] theorem localActive_setTurn (s : State) (t : Turn) : localActive (s.setTurn t) = localActive s := rfl
@[simp] theorem anyLatched_setTurn (s : State) (t : Turn) : anyLatched (s.setTurn t) = anyLatched s := rfl
@[simp] theorem idSending_setTurn (s : State) (t : Turn) : idSending (s.setTurn t) = idSending s := rfl
@[simp] theorem idDue_setTurn (s : State) (t : Turn) : idDue (s.setTurn t) = idDue s := rfl
@[simp] theorem senseConfirms_setTurn (s : State) (t : Turn) : senseConfirms (s.setTurn t) = senseConfirms s := rfl
@[simp] theorem holder_heardFrom (m : Byte) (s : State) : holder (heardFrom m s) = holder s := by
  unfold heardFrom
  split
  · next o e => split <;> simp [holder, e]
  · rfl
@[simp] theorem eligible_heard (s : State) (e : Entry) : eligible (heard s) e = eligible s e := rfl
@[simp] theorem holder_setTurn_offered (s : State) (t : OfferedTurn) : holder (s.setTurn (.offered t)) = some t.holder := rfl
@[simp] theorem holder_setTurn_opened (s : State) (t : OpenTurn) : holder (s.setTurn (.opened t)) = some t.holder := rfl
@[simp] theorem holder_setTurn_closing (s : State) (t : ClosingTurn) : holder (s.setTurn (.closing t)) = some t.holder := rfl
@[simp] theorem turnClass_setTurn_opened (s : State) (t : OpenTurn) : turnClass (s.setTurn (.opened t)) = some t.cls := rfl
@[simp] theorem turnOpen_setTurn_opened (s : State) (t : OpenTurn) : turnOpen (s.setTurn (.opened t)) = true := rfl
@[simp] theorem setTurn_setTurn (s : State) (t u : Turn) : (s.setTurn t).setTurn u = s.setTurn u := rfl
@[simp] theorem privilege_heard (m : Nat) (x : Setting) (a : BitVec 2) (s : State) :
    privilege m x a (heard s) = privilege m x a s := rfl
@[simp] theorem privilege_setTurn (m : Nat) (x : Setting) (a : BitVec 2) (s : State) (t : Turn) :
    privilege m x a (s.setTurn t) = privilege m x a s := rfl
@[simp] theorem chooseAntenna_heard (n : Option (BitVec 2)) (f p : Nat) (s : State) :
    chooseAntenna n f p (heard s) = chooseAntenna n f p s := rfl
@[simp] theorem chooseAntenna_setTurn (n : Option (BitVec 2)) (f p : Nat) (s : State) (t : Turn) :
    chooseAntenna n f p (s.setTurn t) = chooseAntenna n f p s := rfl

/-! ## Requests -/

/-- Log entry 4: a request row is the arrival of the frame it carries. -/
theorem exec_carries (c : Instr) (tag m : Byte) (r : Request) (s : State) (h : carries c = some (tag, m, r)) :
    exec c s = .next (arrive tag m r s) := by
  cases c <;> simp only [carries, Option.some.injEq, Prod.mk.injEq, reduceCtorEq] at h <;>
    obtain ⟨rfl, rfl, rfl⟩ := h <;> rfl

/-- A member's request that its owner takes, as the next state. -/
theorem next_member (tag m : Byte) (r : Request) (s : State) (h : takesAtOnce s)
    (enrolled : (enrolment m.toNat s).isSome = true) (o : ReplyOutcome) (b : List Byte) (t : State)
    (a : ownerAnswer r m s.lp.corruptNext (heardFrom m s) = ⟨o, .bytes b, t⟩) (known : kindUnknown r = false)
    (kind : memberKind r = true) (shaped : r.shaped = true) (phase : phaseSuits r s.cst.phase = true)
    (done : t.ilm.arisen = []) :
    (Host.Outcome.next (arrive tag m r s) : Result) = .next (replied tag m r o b s t) := by
  rw [arrive, arrive_member tag m r s h o (.bytes b) t known kind shaped enrolled phase a done]
  rfl

/-- A request of the station authority that its owner takes, as the next state. -/
theorem next_authority (tag : Byte) (r : Request) (s : State) (h : takesAtOnce s) (o : ReplyOutcome) (b : List Byte)
    (t : State) (a : ownerAnswer r authority s.lp.corruptNext (heard s) = ⟨o, .bytes b, t⟩)
    (known : kindUnknown r = false) (kind : memberKind r = false) (shaped : r.shaped = true)
    (phase : phaseSuits r s.cst.phase = true) (done : t.ilm.arisen = []) :
    (Host.Outcome.next (arrive tag authority r s) : Result) = .next (replied tag authority r o b s t) := by
  rw [arrive, arrive_authority tag r s h o (.bytes b) t known kind shaped phase a done]
  rfl

end Sys2Proof.Machine
end

