-- ==== Sys2Proof/Laws/Ends.lean ====
section
/-! SUPPORT. The terms of `Safety` for the ends of turns, transmissions and watches: each operation of the model that they
speak of is the term, under the term's premise, and leaves nothing to act on where nothing was. -/

set_option linter.unusedSimpArgs false

namespace Sys2Proof.Machine

/-! ## Filters -/

theorem PerInput.set_get {α : Type} (x : PerInput α) (i : Input) : x.set i (x.get i) = x := by cases i <;> rfl

/-- R125: an input whose filter time is above 0, or that is neither ACTIVE nor at fault, is filtered with nothing turning. -/
theorem senseInput_moved (i : Input) (s : State)
    (h : 0 < s.ilm.copy.filterTimes.get i ∨ (inputActive i s = false ∧ faultCondition i s = false)) :
    senseInput i s =
      { s with ilm := { s.ilm with
        filters := s.ilm.filters.set i (filterMoved (faultCondition i s) (s.clock + s.ilm.copy.filterTimes.get i)
          (s.ilm.filters.get i)) } } := by
  have same : ∀ f, s.ilm.filters.get i = f → s = { s with ilm := { s.ilm with filters := s.ilm.filters.set i f } } := by
    rintro f rfl
    rw [PerInput.set_get]
  unfold senseInput
  split
  · rename_i q
    split
    · rename_i c
      have p : ¬ s.ilm.copy.filterTimes.get i = 0 := by
        rcases h with h | ⟨_, h⟩
        · omega
        · rw [c] at h; cases h
      rw [startFilter, if_neg p, q]; simp [filterMoved, c, setFilter, State.setIlm]
    · rename_i c
      exact same _ (by rw [q]; simp [filterMoved, c])
  · rename_i k q
    split
    · rename_i c
      exact same _ (by rw [q]; simp [filterMoved, c])
    · rename_i c
      simp [q, filterMoved, c, setFilter, State.setIlm]
  · rename_i q
    split
    · rename_i c
      exact same _ (by rw [q]; simp [filterMoved, c])
    · rename_i c
      have p : ¬ s.ilm.copy.filterTimes.get i = 0 := by
        rcases h with h | ⟨h, _⟩
        · omega
        · simp [inputActive, q, Filter.isActive] at h
      rw [startFilter, if_neg p, q]; simp [filterMoved, c, setFilter, State.setIlm]
  · rename_i k q
    split
    · rename_i c
      simp [q, filterMoved, c, setFilter, State.setIlm]
    · rename_i c
      exact same _ (by rw [q]; simp [filterMoved, c])

theorem stopBlanking_eq (s : State) (h : unblanksQuietly s) : stopBlanking s = { s with ilm := unblanked s } := by
  unfold stopBlanking unblanked
  split
  · rename_i b; simp [b]
  · rename_i k b
    rw [if_neg (by rw [b]; simp)]
    rw [senseInput_moved]
    · simp [faultCondition, State.setIlm, PerInput.get, PerInput.set]
    · rcases h with h | h | ⟨l, f⟩
      · rw [b] at h; cases h
      · exact .inl h
      · right; exact ⟨by simpa [inputActive, State.setIlm] using f, by simp [faultCondition, State.setIlm, l]⟩

theorem unblanked_arisen (s : State) : (unblanked s).arisen = s.ilm.arisen := by unfold unblanked; split <;> rfl
theorem unblanked_latched (s : State) : (unblanked s).latched = s.ilm.latched := by unfold unblanked; split <;> rfl
theorem unblanked_copy (s : State) : (unblanked s).copy = s.ilm.copy := by unfold unblanked; split <;> rfl
theorem unblanked_filters (s : State) : (unblanked s).filters.ants = s.ilm.filters.ants ∧
    (unblanked s).filters.localKey = s.ilm.filters.localKey := by unfold unblanked; split <;> exact ⟨rfl, rfl⟩

theorem comeToRest_eq (rest : ChainState) (s : State) (at_rest : rest = .idle ∨ rest = .faulted) (h : restsQuietly s) :
    comeToRest rest s = { s with
      kch := { s.kch with
        state := rest
        claimant := .none
        stageStart := none
        stageTimer := none
        keyDownCause := none
        onAirStart := none
        onAirEnd := none
        deadMan := none
        txLimit := none }
      ilm := restMonitor s } := by
  unfold comeToRest
  rw [stopBlanking_eq (s.setKch _) (by exact h.1)]
  have u : ∀ x, unblanked (s.setKch x) = unblanked s := fun _ => rfl
  have no : ∀ t : State, t.kch.state = rest → faultCondition .ants t = false := by
    intro t ht
    rcases at_rest with rfl | rfl <;> simp [faultCondition, chainAtRest, ht]
  rw [senseInput_moved]
  · rw [no _ (by rfl)]
    simp only [u, restMonitor]
    simp [State.setKch, PerInput.get, PerInput.set, unblanked_copy, (unblanked_filters s).1]
  · rw [no _ (by rfl)]
    rcases h.2 with h | h
    · left; simp [u, PerInput.get, unblanked_copy]; exact h
    · right; refine ⟨?_, rfl⟩
      simpa [inputActive, u, PerInput.get, (unblanked_filters s).1] using h

theorem writeLast_rest_eq (rest : ChainState) (cause : KeyDownCause) (s : State)
    (at_rest : rest = .idle ∨ rest = .faulted) (h : restsQuietly s) :
    comeToRest rest (writeLast cause s) = { s with kch := restedIn rest cause s, ilm := restMonitor s } := by
  rw [comeToRest_eq rest _ at_rest (by exact h)]
  cases a : s.kch.onAirStart <;>
    simp [writeLast, State.setKch, restedIn, restMonitor, unblanked, chainMember, a]

theorem restMonitor_arisen (s : State) : (restMonitor s).arisen = s.ilm.arisen := unblanked_arisen s

/-! ## The turn becomes FREE -/

/-- R125: an input filtered quietly. -/
theorem senseInput_inputMoved (i : Input) (s : State) (h : movesQuietly i (faultCondition i s) s) :
    senseInput i s = { s with ilm := inputMoved i (faultCondition i s) s } := senseInput_moved i s h

theorem inputMoved_arisen (i : Input) (b : Bool) (s : State) : (inputMoved i b s).arisen = s.ilm.arisen := rfl

theorem missIdentification_eq (t : Trigger) (s : State) : missIdentification t s = identMissed t s := by
  simp [missIdentification, identMissed, setRecord, State.setIds]

/-- R151, R120: the entry to OFF. -/
theorem enterOff_eq (summary : Option SelfCheck) (s : State) (h : movesQuietly .supok false s) :
    enterOff summary s = offEntered summary s := by
  unfold enterOff missedAtOff offEntered
  dsimp only
  have e : changePower (.off (some (afterSeconds s.spc.copy.restartHoldoff s))) summary
      (s.setSpc { s.spc with downRequested := false }) =
      powerChanged (.off (some (s.clock + 1000 * s.spc.copy.restartHoldoff))) summary (requestCleared s) := rfl
  rw [e]
  generalize hu : powerChanged (.off (some (s.clock + 1000 * s.spc.copy.restartHoldoff))) summary (requestCleared s) = u
  have ilm : u.ilm = s.ilm := by rw [← hu]; simp [powerChanged, requestCleared]
  have ids : u.ids = s.ids := by rw [← hu]; simp [powerChanged, requestCleared]
  have tar : u.tar = s.tar := by rw [← hu]; simp [powerChanged, requestCleared]
  have clock : u.clock = s.clock := by rw [← hu]; simp [powerChanged, requestCleared]
  have spc : u.spc.power = .off (some (s.clock + 1000 * s.spc.copy.restartHoldoff)) := by rw [← hu]; simp [powerChanged]
  have fault : faultCondition .supok u = false := by simp [faultCondition, spc, Power.confirmed]
  have quiet : movesQuietly .supok (faultCondition .supok u) u := by
    rw [fault]; simpa [movesQuietly, inputActive, ilm] using h
  have moved : inputMoved .supok false u = inputMoved .supok false s := by simp [inputMoved, ilm, clock]
  rw [senseInput_inputMoved _ _ quiet, fault, moved]
  have owed : idOwed { u with ilm := inputMoved .supok false s } = idOwed s := by simp [idOwed, ids]
  have closing : turnClosing { u with ilm := inputMoved .supok false s } = turnClosing s := by simp [turnClosing, tar]
  rw [owed, closing, missIdentification_eq]

theorem identMissed_ilm (t : Trigger) (s : State) : (identMissed t s).ilm = s.ilm := by simp [identMissed]

theorem offEntered_arisen (summary : Option SelfCheck) (s : State) :
    (offEntered summary s).ilm.arisen = s.ilm.arisen := by
  unfold offEntered
  dsimp only
  split
  · rw [identMissed_ilm, inputMoved_arisen]
  · rfl

/-- R151: the entry to COOLING. -/
theorem enterCooling_eq (s : State) (h : s.spc.copy.coolDown = 0 → movesQuietly .supok false s) :
    enterCooling s = coolingEntered s := by
  have e : changePower (.cooling (afterSeconds s.spc.copy.coolDown s) s.spc.power.confirmed) none
      (s.setSpc { s.spc with downRequested := false }) =
      powerChanged (.cooling (s.clock + 1000 * s.spc.copy.coolDown) s.spc.power.confirmed) none (requestCleared s) := rfl
  unfold enterCooling coolingEntered
  dsimp only
  rw [e]
  by_cases z : s.spc.copy.coolDown = 0
  · rw [if_pos z, if_pos z]
    refine enterOff_eq _ _ ?_
    simpa [movesQuietly, inputActive, powerChanged, requestCleared] using h z
  · rw [if_neg z, if_neg z]

theorem coolingEntered_arisen (s : State) : (coolingEntered s).ilm.arisen = s.ilm.arisen := by
  unfold coolingEntered
  dsimp only
  split
  · rw [offEntered_arisen]; simp [powerChanged, requestCleared]
  · simp [powerChanged, requestCleared]

theorem becomeFree_freedTo (r : JournalBody) (s : State) (h : coolsQuietly s) : becomeFree r s = freedTo r s := by
  unfold becomeFree freedTo
  have e : (raise .turnEnd (writeJournal r s)).setTurn .free = turnFreed r s := rfl
  dsimp only
  rw [e]
  have d : (turnFreed r s).spc = s.spc := by simp [turnFreed]
  by_cases k : s.spc.downRequested = true ∧ s.spc.power = .ready
  · rw [if_pos (by simp [d, k, stationReady]), if_pos k, enterCooling_eq]
    intro z
    rw [d] at z
    simpa [movesQuietly, inputActive, turnFreed] using h k.1 z
  · rw [if_neg (by simpa [d, stationReady] using k), if_neg k]

theorem freedTo_arisen (r : JournalBody) (s : State) : (freedTo r s).ilm.arisen = s.ilm.arisen := by
  unfold freedTo
  split
  · rw [coolingEntered_arisen]; simp [turnFreed]
  · simp [turnFreed]

theorem setTurn_freedTo (r : JournalBody) (t : Turn) (s : State) : freedTo r (s.setTurn t) = freedTo r s := by
  have e : turnFreed r (s.setTurn t) = turnFreed r s := by simp [turnFreed_eq, State.setTurn, State.setTar]
  unfold freedTo
  rw [e]
  rfl

theorem identMissed_setTurn (x : Trigger) (t : Turn) (s : State) :
    identMissed x (s.setTurn t) = (identMissed x s).setTurn t := by
  simp [identMissed, writeJournal_eq, State.setTurn, State.setTar]

theorem missedThenFreed_setTurn (r : JournalBody) (t : Turn) (s : State) :
    missedThenFreed r (s.setTurn t) = missedThenFreed r s := by
  unfold missedThenFreed
  have e : idOwed (s.setTurn t) = idOwed s := rfl
  rw [e]
  split
  · rw [identMissed_setTurn, setTurn_freedTo]
  · exact setTurn_freedTo r t s

theorem missedThenFreed_arisen (r : JournalBody) (s : State) : (missedThenFreed r s).ilm.arisen = s.ilm.arisen := by
  unfold missedThenFreed
  rw [freedTo_arisen]
  split
  · rw [identMissed_ilm]
  · rfl

theorem coolsQuietly_missed (x : Trigger) (s : State) (h : coolsQuietly s) : coolsQuietly (identMissed x s) := by
  simpa [coolsQuietly, movesQuietly, inputActive, identMissed] using h

/-- R16, R114: what is owed is MISSED, and a CLOSING turn becomes FREE. -/
theorem freeMissed_eq (c : ClosingTurn) (s : State) (t : s.tar.turn = .closing c)
    (h : coolsQuietly s) :
    freeIfClosing (missClosing s) = missedThenFreed (closedRecord c s) s := by
  unfold missClosing missedThenFreed
  split
  · rw [missIdentification_eq]
    have tt : (identMissed .closing s).tar.turn = .closing c := by simpa [identMissed] using t
    simp only [freeIfClosing, tt, freeClosing]
    rw [becomeFree_freedTo _ _ (coolsQuietly_missed _ _ h)]
    simp [closedRecord, identMissed, now]
  · simp only [freeIfClosing, t, freeClosing]
    rw [becomeFree_freedTo _ _ h]
    rfl

theorem releaseTurn_eq (cause : EndCause) (s : State) (h : coolsQuietly s) :
    releaseTurn cause s = turnReleased cause s := by
  unfold releaseTurn turnReleased
  cases t : s.tar.turn with
  | free => rfl
  | offered o => exact becomeFree_freedTo _ s h
  | opened o =>
    dsimp only
    rw [freeMissed_eq (closingOf cause o) _ rfl (by exact h), missedThenFreed_setTurn]
    rfl
  | closing c => exact freeMissed_eq c s t h

theorem turnReleased_arisen (cause : EndCause) (s : State) : (turnReleased cause s).ilm.arisen = s.ilm.arisen := by
  unfold turnReleased
  split
  · rfl
  · exact freedTo_arisen _ s
  · exact missedThenFreed_arisen _ s
  · exact missedThenFreed_arisen _ s

theorem restMonitor_supok (s : State) : (restMonitor s).filters.get .supok = s.ilm.filters.get .supok := by
  unfold restMonitor unblanked; dsimp only; split <;> rfl

theorem restMonitor_copy (s : State) : (restMonitor s).copy = s.ilm.copy := unblanked_copy s

/-! ## Immediate release and faults -/

theorem abandonSend_eq (s : State) : abandonSend s = sendAbandoned s := by
  unfold abandonSend sendAbandoned
  cases r : s.ids.record with
  | sending since trigger progress =>
    dsimp only
    split
    · have d : abandonedDuration progress s = sentFor progress s := by cases progress <;> rfl
      rw [d]
      simp [setRecord, State.setIds, State.setTone, writeJournal_eq]
    · simp [setRecord, State.setIds, State.setTone, afterSeconds]
  | _ => rfl

theorem sendAbandoned_ilm (s : State) : (sendAbandoned s).ilm = s.ilm := by
  rw [← abandonSend_eq]; simp

/-- R74, R132: immediate release, and the turn's. -/
theorem released_eq (cause : KeyDownCause) (ends : EndCause) (s : State) (q : chainAtRest s = true ∨ restsQuietly s)
    (h : coolsQuietly s) :
    releaseTurn ends (immediateRelease cause s) = releasedBy cause ends s := by
  unfold immediateRelease releasedBy
  split
  · exact releaseTurn_eq ends s h
  · rename_i up
    rcases q with q | q
    · exact absurd q up
    rw [writeLast_rest_eq _ _ _ (.inl rfl) q, abandonSend_eq, releaseTurn_eq]
    rw [← abandonSend_eq]
    simpa [coolsQuietly, movesQuietly, inputActive, restMonitor_supok, restMonitor_copy] using h

theorem releasedBy_arisen (cause : KeyDownCause) (ends : EndCause) (s : State) :
    (releasedBy cause ends s).ilm.arisen = s.ilm.arisen := by
  unfold releasedBy
  rw [turnReleased_arisen]
  split
  · rfl
  · rw [sendAbandoned_ilm, restMonitor_arisen]

/-- R72: a fault is detected, with a turn begun. -/
theorem chainFault_eq (kind : FaultKind) (s : State) (x : Lines) (same_line : x.refl = s.lines.refl) (q : restsQuietly s)
    (begun : turnOpen s = true ∨ turnClosing s = true) (sending : identIsSending s)
    (h : ¬ (s.kch.claimant = .ident ∧ turnOpen s = true) → coolsQuietly s) :
    chainFault kind { s with lines := x } = faulted kind x s := by
  unfold chainFault faulted
  dsimp only
  have q' : restsQuietly { s with lines := x } := by simpa [restsQuietly, unblanksQuietly, inputActive, same_line] using q
  rw [writeLast_rest_eq _ _ _ (.inr rfl) q']
  have rm : restMonitor { s with lines := x } = restMonitor s := by simp [restMonitor, unblanked, same_line]
  rw [rm]
  have same : (raise Cause.keyFault (writeJournal (.fault ⟨kind, s.kch.state, s.kch.claimant, chainMember { s with lines := x },
      now { s with lines := x }⟩) (State.setKch { s with lines := x, kch := restedIn .faulted .fault { s with lines := x }, ilm := restMonitor s }
        { restedIn .faulted .fault { s with lines := x } with fault := some ⟨kind, s.kch.state, s.kch.claimant,
          chainMember { s with lines := x }, now { s with lines := x }⟩ }))) =
      raise .keyFault (writeJournal (.fault (faultOf kind s)) { s with
        lines := x
        kch := { restedIn .faulted .fault s with fault := some (faultOf kind s) }
        ilm := restMonitor s }) := by
    simp [State.setKch, faultOf, chainMember, now, holder, restedIn]
  simp only [] at same ⊢
  rw [same]
  generalize hb : raise Cause.keyFault (writeJournal (.fault (faultOf kind s)) _) = b
  have tar : b.tar = s.tar := by simp [← hb]
  have ids : b.ids = s.ids := by simp [← hb]
  have spc : b.spc = s.spc := by simp [← hb]
  have turns : turnOpen (sendAbandoned b) = turnOpen s ∧ turnClosing (sendAbandoned b) = turnClosing s := by
    rw [← abandonSend_eq]; simp [turnOpen, turnClosing, tar]
  have ilm : b.ilm = restMonitor s := by simp [← hb]
  have hb' : ¬ (s.kch.claimant = .ident ∧ turnOpen s = true) → coolsQuietly b := by
    intro k
    simpa [coolsQuietly, movesQuietly, inputActive, spc, ilm, restMonitor_supok, restMonitor_copy] using h k
  have hh : ¬ (s.kch.claimant = .ident ∧ turnOpen s = true) → coolsQuietly (sendAbandoned b) := by
    intro k
    rw [← abandonSend_eq]
    simpa [coolsQuietly, movesQuietly, inputActive] using hb' k
  by_cases c : s.kch.claimant = .ident
  · rw [if_pos (by simp [c]), abandonSend_eq]
    rw [turns.2]
    by_cases o : turnOpen s = true
    · have cf : turnClosing s = false := by
        unfold turnClosing turnOpen at *
        split <;> simp_all
      simp [cf, c, o]
    · have cl : turnClosing s = true := by rcases begun with b | b <;> [exact absurd b o; exact b]
      have e := releaseTurn_eq .chainFault _ (hh (fun k => o k.2))
      simpa [cl, c, o] using e
  · rw [if_neg (by simpa using c), if_neg (fun k => c k.1)]
    have no : idSending s = false := by
      by_contra k
      exact c (sending.2 (by simpa using k))
    have e : sendAbandoned b = b := by
      rw [← abandonSend_eq]
      unfold abandonSend
      split
      · rename_i r; rw [ids] at r; simp [idSending, r] at no
      · rfl
    rw [e]
    exact releaseTurn_eq _ b (hb' (fun k => c k.1))

theorem chainFault_faulted (kind : FaultKind) (s : State) (q : restsQuietly s)
    (begun : turnOpen s = true ∨ turnClosing s = true) (sending : identIsSending s)
    (h : ¬ (s.kch.claimant = .ident ∧ turnOpen s = true) → coolsQuietly s) : chainFault kind s = faulted kind s.lines s :=
  chainFault_eq kind s s.lines rfl q begun sending h

theorem offEntered_copy (summary : Option SelfCheck) (s : State) : (offEntered summary s).ilm.copy = s.ilm.copy := by
  unfold offEntered
  dsimp only
  split
  · rw [identMissed_ilm]; rfl
  · rfl

theorem freedTo_copy (r : JournalBody) (s : State) : (freedTo r s).ilm.copy = s.ilm.copy := by
  unfold freedTo coolingEntered
  dsimp only
  split
  · split
    · rw [offEntered_copy]; simp [turnFreed, powerChanged, requestCleared]
    · simp [turnFreed, powerChanged, requestCleared]
  · simp [turnFreed]

theorem missedThenFreed_copy (r : JournalBody) (s : State) : (missedThenFreed r s).ilm.copy = s.ilm.copy := by
  unfold missedThenFreed
  rw [freedTo_copy]
  split
  · rw [identMissed_ilm]
  · rfl

/-- R74, R132: a release leaves the filter times and options as they were. -/
theorem releasedBy_copy (cause : KeyDownCause) (ends : EndCause) (s : State) :
    (releasedBy cause ends s).ilm.copy = s.ilm.copy := by
  have e : (if chainAtRest s then s
      else sendAbandoned { s with kch := restedIn .idle cause s, ilm := restMonitor s }).ilm.copy = s.ilm.copy := by
    split
    · rfl
    · rw [sendAbandoned_ilm, restMonitor_copy]
  unfold releasedBy turnReleased
  split
  · exact e
  · rw [freedTo_copy, e]
  · rw [missedThenFreed_copy, e]
  · rw [missedThenFreed_copy, e]

theorem faulted_arisen (kind : FaultKind) (x : Lines) (s : State) : (faulted kind x s).ilm.arisen = s.ilm.arisen := by
  unfold faulted
  dsimp only
  split
  · rw [sendAbandoned_ilm]; simp [restMonitor_arisen]
  · rw [turnReleased_arisen, sendAbandoned_ilm]; simp [restMonitor_arisen]

/-! ## A claim -/

theorem startBlanking_eq (s : State) (h : 0 < s.ilm.copy.filterTimes.refl ∨ inputActive .refl s = false) :
    startBlanking s = { s with ilm := blanked s } := by
  unfold startBlanking blanked
  split
  · rfl
  · rw [senseInput_moved]
    · simp [faultCondition, State.setIlm, PerInput.get, PerInput.set]
    · rcases h with h | h
      · exact .inl h
      · right; simp [faultCondition, State.setIlm]; simpa [inputActive] using h

theorem blanked_arisen (s : State) : (blanked s).arisen = s.ilm.arisen := by unfold blanked; split <;> rfl

theorem antsWatched_copy (s : State) : (antsWatched s).copy = s.ilm.copy := rfl

theorem blanked_copy (s : State) : (blanked s).copy = s.ilm.copy := by unfold blanked; split <;> rfl

theorem blanked_filters (s : State) : (blanked s).filters.ants = s.ilm.filters.ants ∧
    (blanked s).filters.get .supok = s.ilm.filters.get .supok := by unfold blanked; split <;> exact ⟨rfl, rfl⟩

/-- R129: the antenna sense is watched outside rest. -/
theorem senseAnts_eq (s : State) (up : chainAtRest s = false)
    (h : 0 < s.ilm.copy.filterTimes.ants ∨ (inputActive .ants s = false ∧ senseConfirms s = true)) :
    senseInput .ants s = { s with ilm := antsWatched s } := by
  have fc : faultCondition .ants s = !senseConfirms s := by simp [faultCondition, up]
  rw [senseInput_moved]
  · rw [fc]; rfl
  · rw [fc]
    rcases h with h | ⟨h, c⟩
    · exact .inl h
    · exact .inr ⟨h, by simp [c]⟩

/-- R67: key-down from ON_AIR with TXC active. -/
theorem keyedDown_eq (cause : KeyDownCause) (s : State) (st : s.kch.state = .onAir) (tx : s.lines.txc = true) (q : unblanksQuietly s) :
    requestKeyDown cause s.kch.claimant s = keyedDown cause s := by
  unfold requestKeyDown
  simp only [st, beq_self_eq_true, if_true]
  unfold enterTxDown
  dsimp only
  have k : (beginKeyDown cause s).kch.state = .onAir := st
  rw [k]
  rw [stopBlanking_eq _ (by exact q)]
  simp [beginKeyDown, beginStage, State.setKch, tx, keyedDown, unblanked, now]

theorem onAirIdent_eq (s : State) : onAirIdent s = identAired s := by
  unfold onAirIdent identAired enterOnAir
  cases r : s.ids.record with
  | sending since trigger p =>
    cases l : s.ids.pattern with
    | damaged => simp [State.setKch, r, setRecord, State.setIds, State.setTone, toneAt, patternElements, l]
    | valid es =>
      cases es with
      | nil => simp [State.setKch, r, setRecord, State.setIds, State.setTone, toneAt, patternElements, l]
      | cons e es =>
        cases e <;>
          simp [State.setKch, r, setRecord, State.setIds, State.setTone, toneAt, patternElements, l, toneUnits]
  | _ => simp [State.setKch, r]; rw [← r]

/-- R65: what the entry to ON_AIR does, with a STALE setting's key-down unblanking quietly. -/
theorem onAirHolder_eq (s : State) (cl : s.kch.claimant = .holder)
    (stale : s.seu.confirmed.fresh = false → s.lines.txc = true ∧ unblanksQuietly s) :
    onAirHolder s = holderAired s := by
  have e : oweIdentification (((enterOnAir s).setUnitOwed false).setKch { ((enterOnAir s).setUnitOwed false).kch with
      txLimit := some (afterSeconds ((enterOnAir s).setUnitOwed false).kch.copy.transmissionLimit
        ((enterOnAir s).setUnitOwed false)) }) = { s with
      kch := { s.kch with
        state := .onAir
        stageStart := none
        stageTimer := none
        onAirStart := some (now s)
        txLimit := some (s.clock + 1000 * s.kch.copy.transmissionLimit) }
      mrg := { s.mrg with unitOwed := false }
      ids := { s.ids with
        record := if s.ids.record = .clear then .owed (now s) (s.clock + 1000 * s.ids.copy.interval)
          else s.ids.record } } := by
    unfold oweIdentification
    by_cases c : s.ids.record = .clear
    · simp [enterOnAir, State.setUnitOwed, State.setMrg, State.setKch, afterSeconds, setRecord, State.setIds, now, c]
    · rw [if_neg c]
      split
      · rename_i r; exact absurd r c
      · rfl
  unfold onAirHolder holderAired
  dsimp only
  rw [e]
  by_cases f : s.seu.confirmed.fresh = true
  · rw [if_pos (by exact f), if_pos f]
  · rw [if_neg (by exact f), if_neg f]
    obtain ⟨tx, q⟩ := stale (by simpa using f)
    have k := keyedDown_eq .rigSilent { s with
      kch := { s.kch with
        state := .onAir
        stageStart := none
        stageTimer := none
        onAirStart := some (now s)
        txLimit := some (s.clock + 1000 * s.kch.copy.transmissionLimit) }
      mrg := { s.mrg with unitOwed := false }
      ids := { s.ids with
        record := if s.ids.record = .clear then .owed (now s) (s.clock + 1000 * s.ids.copy.interval)
          else s.ids.record } } rfl tx q
    simpa [cl] using k

theorem onAir_eq (s : State) (cl : s.kch.claimant ≠ .none)
    (stale : s.seu.confirmed.fresh = false → s.lines.txc = true ∧ unblanksQuietly s) : onAir s = aired s := by
  unfold onAir aired
  by_cases c : s.kch.claimant = .ident
  · rw [if_pos (by simp [c]), if_pos c, onAirIdent_eq]
  · rw [if_neg (by simpa using c), if_neg c]
    refine onAirHolder_eq s ?_ stale
    cases k : s.kch.claimant <;> simp_all

/-- What a confirmation that is active already asks of a key-up: the turn is begun, the claimant is IDENT exactly while a send
is going on, and what follows turns no input. -/
def earlyQuietly (s : State) : Prop :=
  (turnOpen s = true ∨ turnClosing s = true) ∧ identIsSending s ∧ s.kch.claimant ≠ .none ∧
    (0 < s.ilm.copy.filterTimes.refl ∨ s.lines.refl = false) ∧
    (¬ (s.kch.claimant = .ident ∧ turnOpen s = true) → coolsQuietly s)

/-- R64: the entry to TX_UP. -/
theorem enterTxUp_eq (air : State → State) (s : State) (hair : ∀ t, t.kch.claimant = s.kch.claimant → air t = onAir t)
    (re : 0 < s.ilm.copy.filterTimes.refl ∨ inputActive .refl s = false)
    (an : 0 < s.ilm.copy.filterTimes.ants ∨ (inputActive .ants s = false ∧ senseConfirms s = true))
    (early : s.lines.txc = true → earlyQuietly s) : enterTxUp air s = txUpEntered s := by
  unfold enterTxUp txUpEntered
  dsimp only
  rw [senseAnts_eq _ (by rfl) (by simpa [inputActive, beginStage, State.setKch, senseConfirms] using an)]
  rw [startBlanking_eq _ (by simpa [inputActive, PerInput.get, antsWatched, beginStage, State.setKch] using re)]
  have st : ({ beginStage .txUp s.kch.copy.txConfirmLatest s with
        ilm := antsWatched (beginStage .txUp s.kch.copy.txConfirmLatest s) } : State) =
      { beginStage .txUp s.kch.copy.txConfirmLatest s with ilm := antsWatched s } := rfl
  rw [st]
  have e : ({ ({ beginStage .txUp s.kch.copy.txConfirmLatest s with ilm := antsWatched s } : State) with
        ilm := blanked { beginStage .txUp s.kch.copy.txConfirmLatest s with ilm := antsWatched s } } : State) =
      { s with
        kch := { s.kch with
          state := .txUp
          stageStart := some s.clock
          stageTimer := some (s.clock + s.kch.copy.txConfirmLatest) }
        ilm := blanked { s with ilm := antsWatched s } } := rfl
  rw [e]
  by_cases tx : s.lines.txc = true
  · rw [if_pos (by exact tx), if_pos tx]
    obtain ⟨begun, sending, cl, line, cool⟩ := early tx
    have copy : (blanked { s with ilm := antsWatched s }).copy = s.ilm.copy := blanked_copy _
    have uq : unblanksQuietly { s with
        kch := { s.kch with
          state := .txUp
          stageStart := some s.clock
          stageTimer := some (s.clock + s.kch.copy.txConfirmLatest) }
        ilm := blanked { s with ilm := antsWatched s } } := by
      unfold unblanksQuietly
      rw [copy]
      rcases re with re | re
      · exact .inr (.inl re)
      · rcases line with line | line
        · exact .inr (.inl line)
        · refine .inr (.inr ⟨line, ?_⟩)
          unfold inputActive PerInput.get blanked antsWatched at *
          dsimp only at re ⊢
          split
          · exact re
          · cases f : s.ilm.filters.refl <;> simp [f, filterMoved, Filter.isActive] at re ⊢
    by_cases z : s.kch.copy.txConfirmEarliest = 0
    · rw [if_pos (by exact z), if_pos z, hair _ ?_]
      · exact onAir_eq _ cl (fun _ => ⟨tx, uq⟩)
      · rfl
    · rw [if_neg (by exact z), if_neg z]
      refine chainFault_faulted .txEarly _ ⟨uq, ?_⟩ begun sending ?_
      · rw [copy]
        rcases an with a | ⟨a, b⟩
        · exact .inl a
        · right
          unfold inputActive PerInput.get at *
          dsimp only at a ⊢
          rw [(blanked_filters _).1]
          cases f : s.ilm.filters.ants <;> simp [f, antsWatched, b, filterMoved, Filter.isActive] at a ⊢
      · intro k
        unfold coolsQuietly movesQuietly inputActive
        rw [copy, (blanked_filters _).2]
        exact cool k
  · rw [if_neg (by exact tx), if_neg tx]

/-- R63: the entry to AMP_UP. -/
theorem enterAmpUp_eq (air : State → State) (s : State) (hair : ∀ t, t.kch.claimant = s.kch.claimant → air t = onAir t)
    (re : 0 < s.ilm.copy.filterTimes.refl ∨ inputActive .refl s = false)
    (an : 0 < s.ilm.copy.filterTimes.ants ∨ (inputActive .ants s = false ∧ senseConfirms s = true))
    (early : s.lines.amprdy = true → earlyQuietly s) : enterAmpUp air s = ampUpEntered s := by
  unfold enterAmpUp ampUpEntered
  dsimp only
  rw [senseAnts_eq _ (by rfl) (by simpa [inputActive, beginStage, State.setKch, senseConfirms] using an)]
  have e : ({ beginStage .ampUp s.kch.copy.ampReadyLatest s with
        ilm := antsWatched (beginStage .ampUp s.kch.copy.ampReadyLatest s) } : State) =
      { s with
        kch := { s.kch with
          state := .ampUp
          stageStart := some s.clock
          stageTimer := some (s.clock + s.kch.copy.ampReadyLatest) }
        ilm := antsWatched s } := rfl
  rw [e]
  by_cases rdy : s.lines.amprdy = true
  · rw [if_pos (by exact rdy), if_pos rdy]
    obtain ⟨begun, sending, cl, line, cool⟩ := early rdy
    have an' : 0 < s.ilm.copy.filterTimes.ants ∨ (Filter.isActive (antsWatched s).filters.ants = false ∧
        senseConfirms s = true) := by
      rcases an with a | ⟨a, b⟩
      · exact .inl a
      · right
        refine ⟨?_, b⟩
        unfold inputActive PerInput.get at a
        dsimp only at a
        cases f : s.ilm.filters.ants <;> simp [f, antsWatched, b, filterMoved, Filter.isActive] at a ⊢
    have cool' : ∀ k, (¬ (s.kch.claimant = .ident ∧ turnOpen s = true) → coolsQuietly { s with
        kch := k, ilm := antsWatched s }) := by
      intro k x
      have := cool x
      simpa [coolsQuietly, movesQuietly, inputActive, antsWatched, PerInput.get] using this
    by_cases z : s.kch.copy.ampReadyEarliest = 0
    · rw [if_pos (by exact z), if_pos z]
      refine enterTxUp_eq air _ hair (by simpa [inputActive, PerInput.get, antsWatched] using re) ?_ (fun _ => ?_)
      · exact an'
      · exact ⟨by exact begun, by exact sending, by exact cl, by exact line, cool' _⟩
    · rw [if_neg (by exact z), if_neg z]
      refine chainFault_faulted .ampEarly _ ⟨?_, ?_⟩ begun sending (cool' _)
      · rcases re with re | re
        · exact .inr (.inl re)
        · rcases line with line | line
          · exact .inr (.inl line)
          · exact .inr (.inr ⟨line, by simpa [inputActive, PerInput.get, antsWatched] using re⟩)
      · rcases an' with a | ⟨a, _⟩
        · exact .inl a
        · exact .inr a
  · rw [if_neg (by exact rdy), if_neg rdy]

theorem setIdleDeadline_none (s : State) :
    setIdleDeadline none s = { s with tar := { s.tar with turn := idleRemoved s.tar.turn } } := by
  unfold setIdleDeadline idleRemoved
  cases t : s.tar.turn with
  | opened o => rfl
  | _ => simp [← t]

/-- R62: key-up begins. -/
theorem keyUp_eq (c : Claimant) (air : State → State) (s : State) (quiet : keysUpQuietly s)
    (hair : ∀ t, t.kch.claimant = c → air t = onAir t) (cl : c ≠ .none)
    (begun : turnOpen s = true ∨ turnClosing s = true) (sending : c = .ident ↔ idSending s = true) :
    keyUp c air s = keyedUp c s := by
  obtain ⟨re, an, early⟩ := quiet
  have turns : ∀ t : Turn, s.tar.turn = t →
      turnOpen { s with tar := { s.tar with turn := idleRemoved t } } = turnOpen s ∧
      turnClosing { s with tar := { s.tar with turn := idleRemoved t } } = turnClosing s := by
    intro t ht
    cases t <;> simp [turnOpen, turnClosing, ht, idleRemoved]
  have ready : (if s.spc.barefoot then s.lines.txc else s.lines.amprdy) = true →
      earlyQuietly { s with tar := { s.tar with turn := idleRemoved s.tar.turn }, kch := { s.kch with claimant := c } } := by
    intro k
    obtain ⟨line, cool⟩ := early k
    refine ⟨?_, by exact sending, by exact cl, by exact line, fun _ => by exact cool⟩
    have := turns _ rfl
    rcases begun with b | b
    · left; rw [← this.1] at b; exact b
    · right; rw [← this.2] at b; exact b
  unfold keyUp keyedUp
  dsimp only
  rw [setIdleDeadline_none]
  by_cases b : s.spc.barefoot = true
  · rw [if_pos (by exact b), if_pos b]
    exact enterTxUp_eq air _ hair (by exact re) (by exact an) (fun k => ready (by rw [if_pos b]; exact k))
  · rw [if_neg (by exact b), if_neg b]
    exact enterAmpUp_eq air _ hair (by exact re) (by exact an) (fun k => ready (by rw [if_neg b]; exact k))

/-- R79: a claim is taken. -/
theorem takeClaim_eq (trigger : Trigger) (s : State) (owed : idOwed s = true) (quiet : keysUpQuietly s)
    (begun : turnOpen s = true ∨ turnClosing s = true) : takeClaim trigger s = identClaimed trigger s := by
  have main : ∀ since, owedSince s = since →
      keyUp .ident onAirIdent (setRecord (.sending since trigger .notBegun) s) = identClaimed trigger s := by
    rintro since rfl
    exact keyUp_eq .ident onAirIdent (setRecord (.sending (owedSince s) trigger .notBegun) s) (by exact quiet)
      (fun t k => by simp [onAir, k]) (by simp) (by exact begun)
      (by simp [idSending, setRecord, State.setIds])
  unfold takeClaim
  split
  · rename_i since _ r; exact main since (by simp [owedSince, r])
  · rename_i since _ r; exact main since (by simp [owedSince, r])
  · rename_i a b
    unfold idOwed at owed
    split at owed
    · rename_i x; exact absurd x (a _ _)
    · rename_i x; exact absurd x (b _ _)
    · cases owed

theorem aired_arisen (s : State) : (aired s).ilm.arisen = s.ilm.arisen := by
  unfold aired identAired holderAired keyedDown
  split
  · rfl
  · dsimp only
    split
    · rfl
    · exact unblanked_arisen _

theorem txUpEntered_arisen (s : State) : (txUpEntered s).ilm.arisen = s.ilm.arisen := by
  unfold txUpEntered
  dsimp only
  split
  · split
    · rw [aired_arisen]; exact blanked_arisen _
    · rw [faulted_arisen]; exact blanked_arisen _
  · exact blanked_arisen _

theorem ampUpEntered_arisen (s : State) : (ampUpEntered s).ilm.arisen = s.ilm.arisen := by
  unfold ampUpEntered
  dsimp only
  split
  · split
    · rw [txUpEntered_arisen]; rfl
    · rw [faulted_arisen]; rfl
  · rfl

theorem keyedUp_arisen (c : Claimant) (s : State) : (keyedUp c s).ilm.arisen = s.ilm.arisen := by
  unfold keyedUp
  dsimp only
  split
  · rw [txUpEntered_arisen]
  · rw [ampUpEntered_arisen]

theorem identClaimed_arisen (trigger : Trigger) (s : State) : (identClaimed trigger s).ilm.arisen = s.ilm.arisen :=
  keyedUp_arisen .ident _

theorem intervalClaimMade_arisen (s : State) : (intervalClaimMade s).ilm.arisen = s.ilm.arisen := by
  unfold intervalClaimMade
  split
  · exact identClaimed_arisen .interval s
  · rfl

theorem idleAgain_arisen (o : OpenTurn) (s : State) : (idleAgain o s).ilm.arisen = s.ilm.arisen :=
  intervalClaimMade_arisen _

/-- R113: the interval claim of an OPEN turn. -/
theorem claimInterval_eq (s : State) (o : turnOpen s = true) (quiet : claimIsTaken s → keysUpQuietly s) :
    claimInterval s = intervalClaimMade s := by
  unfold claimInterval intervalClaimMade
  by_cases k : idDue s = true ∧ claimIsTaken s
  · obtain ⟨d, a, b, e, f, g, i⟩ := id k
    rw [if_pos k, if_pos (by simp [d, o, chainIdle, b, e, claimable, f, g, stationReady, i])]
    exact takeClaim_eq .interval s a (quiet k.2) (.inl o)
  · rw [if_neg k, if_neg]
    intro h
    simp [chainIdle, claimable, stationReady] at h
    obtain ⟨⟨⟨⟨d, _⟩, st⟩, e⟩, ⟨⟨_, f⟩, g⟩, i⟩ := h
    refine k ⟨d, ?_, st, e, f, g, i⟩
    unfold idDue at d
    unfold idOwed
    split at d
    · simp [*]
    · cases d

/-! ## The end of a turn -/

theorem closingStep_eq (c : ClosingTurn) (s : State) (t : s.tar.turn = .closing c) (rest : chainAtRest s = true)
    (plain : claimIsTaken s → keysUpQuietly s) (h : coolsQuietly s) :
    closingStep s = closingEnds c s := by
  unfold closingStep closingEnds
  rw [if_pos (by simp [turnClosing, t, rest])]
  have free := freeMissed_eq c s t h
  by_cases owed : idOwed s = true
  · rw [if_pos owed]
    by_cases taken : claimIsTaken s
    · obtain ⟨_, a, b, d, e, f⟩ := id taken
      rw [if_pos taken, if_neg (by simp [b]), if_pos (by simp [claimable, chainIdle, a, d, e, stationReady, f])]
      exact takeClaim_eq _ s owed (plain taken) (.inr (by simp [turnClosing, t]))
    · rw [if_neg taken]
      by_cases held : s.kch.state = .idle ∧ retuneInFlight s = true
      · rw [if_pos (by simp [chainIdle, held]), if_pos ⟨owed, held⟩]
      · rw [if_neg (by simpa [chainIdle] using held), if_neg (c := claimable s = true) ?_, if_neg (fun x => held x.2), free]
        intro k
        refine taken ⟨owed, ?_⟩
        simp [claimable, chainIdle, stationReady] at k
        obtain ⟨⟨⟨a, b⟩, d⟩, e⟩ := k
        have r : retuneInFlight s = false := by
          cases x : retuneInFlight s
          · rfl
          · exact absurd ⟨a, x⟩ held
        exact ⟨a, r, b, d, e⟩
  · rw [if_neg owed, if_neg (fun x => owed x.1), if_neg (fun x => owed x.1), ← free]
    unfold missClosing
    rw [if_neg owed]

theorem closingEnds_arisen (c : ClosingTurn) (s : State) : (closingEnds c s).ilm.arisen = s.ilm.arisen := by
  unfold closingEnds
  split
  · exact identClaimed_arisen _ s
  · split
    · rfl
    · exact missedThenFreed_arisen _ s

theorem keyDownBegun_arisen (cause : KeyDownCause) (s : State) :
    (keyDownBegun cause s).ilm.arisen = s.ilm.arisen := by
  unfold keyDownBegun keyedDown
  split
  · exact unblanked_arisen s
  · dsimp only; split
    · exact unblanked_arisen s
    · rfl

theorem keyDownDone_arisen (cause : KeyDownCause) (s : State) :
    (keyDownDone cause s).ilm.arisen = s.ilm.arisen := restMonitor_arisen s

/-- R69, R77: what a completed key-down leaves in the chain record. -/
theorem holdoff_eq (s : State) :
    (if (s.kch.keyDownCause.getD .unkey == KeyDownCause.txLimit) = true then
      loadHoldoff { s with kch := restedIn .idle (s.kch.keyDownCause.getD .unkey) s, ilm := restMonitor s }
      else { s with kch := restedIn .idle (s.kch.keyDownCause.getD .unkey) s, ilm := restMonitor s }) =
      { s with kch := restedChain s, ilm := restMonitor s } := by
  cases k : s.kch.keyDownCause with
  | none => simp [restedChain, k]; rfl
  | some c => cases c <;> simp [restedChain, k, loadHoldoff, State.setKch, afterSeconds] <;> rfl

/-- R69, R77: the chain of the holder comes to rest as its key-down completes. -/
theorem completeKeyDown_eq (s : State) (cl : s.kch.claimant = .holder) (q : restsQuietly s) :
    completeKeyDown s =
      let u : State := { s with kch := restedChain s, ilm := restMonitor s }
      if turnOpen u then claimInterval (startIdleDeadline u) else closingStep u := by
  unfold completeKeyDown
  dsimp only
  rw [writeLast_rest_eq _ _ _ (.inl rfl) q]
  have cl' : ¬ (s.kch.claimant == Claimant.ident) = true := by simp [cl]
  rw [holdoff_eq]
  simp only [cl', Bool.false_eq_true, if_false]

/-- What the chain's coming to rest brings an OPEN or CLOSING turn. -/
def turnAtRest (s : State) : State :=
  match s.tar.turn with
  | .opened o => idleAgain o s
  | .closing c => closingEnds c s
  | _ => s

theorem turnAtRest_arisen (s : State) : (turnAtRest s).ilm.arisen = s.ilm.arisen := by
  unfold turnAtRest
  split
  · exact idleAgain_arisen _ s
  · exact closingEnds_arisen _ s
  · rfl

/-- R10, R16, R113, R114: the chain has come to rest in IDLE. -/
theorem turnAtRest_eq (s : State) (idle : s.kch.state = .idle) (plain : claimIsTaken s → keysUpQuietly s)
    (h : turnClosing s = true → coolsQuietly s) :
    (if turnOpen s then claimInterval (startIdleDeadline s) else closingStep s) = turnAtRest s := by
  have rest : chainAtRest s = true := by simp [chainAtRest, idle]
  unfold turnAtRest
  cases t : s.tar.turn with
  | opened o =>
    rw [if_pos (by simp [turnOpen, t])]
    have si : startIdleDeadline s = { s with tar := { s.tar with
        turn := .opened { o with idleDeadline := some (now s + 10 * s.tar.copy.idleLimit) } } } := by
      simp [startIdleDeadline, setIdleDeadline, t, State.setTurn, State.setTar]
    rw [si, claimInterval_eq _ rfl (by exact plain)]
    rfl
  | closing c =>
    rw [if_neg (by simp [turnOpen, t])]
    exact closingStep_eq c s t rest plain (h (by simp [turnClosing, t]))
  | _ =>
    rw [if_neg (by simp [turnOpen, t])]
    simp [closingStep, turnClosing, t]

theorem coolsQuietly_rest (k : Chain) (s : State) (h : coolsQuietly s) :
    coolsQuietly { s with kch := k, ilm := restMonitor s } := by
  simpa [coolsQuietly, movesQuietly, inputActive, restMonitor_supok, restMonitor_copy] using h

/-- R69: a key-down of the holder completes. -/
theorem completeKeyDown_rest (s : State) (cl : s.kch.claimant = .holder) (q : restsQuietly s)
    (plain : claimIsTaken { s with kch := restedChain s, ilm := restMonitor s } →
      keysUpQuietly { s with kch := restedChain s, ilm := restMonitor s })
    (h : turnClosing s = true → coolsQuietly s) :
    completeKeyDown s = turnAtRest { s with kch := restedChain s, ilm := restMonitor s } := by
  rw [completeKeyDown_eq s cl q]
  refine turnAtRest_eq _ rfl plain (fun c => ?_)
  have h := h c
  simpa [coolsQuietly, movesQuietly, inputActive, restMonitor_supok, restMonitor_copy] using h

/-- R69, R117: the key-down of an identification that was sent completes. -/
theorem completeKeyDown_sent (since start : Nat) (trigger : Trigger) (s : State)
    (r : s.ids.record = .sending since trigger (.ended start)) (cl : s.kch.claimant = .ident) (q : restsQuietly s)
    (h : turnClosing s = true → coolsQuietly s) :
    completeKeyDown s = turnAtRest { writeJournal (.ident trigger .sent (patternTime s))
        { s with kch := restedChain s, ilm := restMonitor s } with ids := { s.ids with record := .clear } } := by
  unfold completeKeyDown
  dsimp only
  rw [writeLast_rest_eq _ _ _ (.inl rfl) q, holdoff_eq]
  have sent : idSent { s with kch := restedChain s, ilm := restMonitor s } =
      { writeJournal (.ident trigger .sent (patternTime s)) { s with kch := restedChain s, ilm := restMonitor s } with
        ids := { s.ids with record := .clear } } := by
    unfold idSent
    simp only [r]
    simp [setRecord, State.setIds, patternTime, patternElements, unitTime]
  simp only [show (s.kch.claimant == Claimant.ident) = true by simp [cl], if_true, sent]
  refine turnAtRest_eq _ ?_ (fun k => ?_) (fun c => ?_)
  · simp [restedChain, restedIn]
  · have := k.1
    simp [idOwed] at this
  · have := coolsQuietly_rest (restedChain s) s (h (by simpa [turnClosing] using c))
    simpa [coolsQuietly, movesQuietly, inputActive] using this

/-- R68, R69: the end of TX_DOWN completes the key-down in barefoot mode and with an amp hold of 0. -/
theorem endTxDown_completes (s : State) (z : s.spc.barefoot = true ∨ s.kch.copy.ampHold = 0) :
    endTxDown s = completeKeyDown s ∨ endTxDown s = completeKeyDown (beginStage .ampDown 0 s) := by
  unfold endTxDown enterAmpDown
  by_cases b : s.spc.barefoot = true
  · left; rw [if_pos b]
  · have z : s.kch.copy.ampHold = 0 := by rcases z with z | z <;> [exact absurd z b; exact z]
    right
    rw [if_neg b]
    simp only [z, if_true]

theorem keysUpQuietly_rest (k : Chain) (s : State) (h : keysUpQuietly s) :
    keysUpQuietly { s with kch := k, ilm := restMonitor s } := by
  obtain ⟨e, f, g⟩ := h
  refine ⟨?_, ?_, fun x => ⟨?_, coolsQuietly_rest k s (g x).2⟩⟩
  · rcases e with e | e
    · left; simpa [restMonitor, unblanked_copy] using e
    · right
      unfold inputActive PerInput.get restMonitor unblanked at *
      simp only at *
      split
      · exact e
      · cases f : s.ilm.filters.refl <;> cases l : s.lines.refl <;> simp [f, l, filterMoved, Filter.isActive] at e ⊢
  · rcases f with f | ⟨f, g⟩
    · left; simpa [restMonitor, unblanked_copy] using f
    · right
      refine ⟨?_, g⟩
      unfold inputActive PerInput.get restMonitor at *
      simp only at *
      cases k : s.ilm.filters.ants <;> simp [k, filterMoved, Filter.isActive] at f ⊢
  · simpa [restMonitor, unblanked_copy] using (g x).1

theorem restMonitor_unblanked (s t : State) (c : t.clock = s.clock) (m : t.ilm = unblanked s) :
    restMonitor t = restMonitor s := by
  have e : unblanked t = unblanked s := by
    rw [← m]
    unfold unblanked
    rw [if_pos]
    rw [m]
    unfold unblanked
    split
    · assumption
    · rfl
  unfold restMonitor
  rw [e, c, m, unblanked_copy, (unblanked_filters s).1]

theorem restsQuietly_unblanked (s t : State) (m : t.ilm = unblanked s) (h : restsQuietly s) : restsQuietly t := by
  refine ⟨.inl ?_, ?_⟩
  · rw [m]
    unfold unblanked
    split
    · assumption
    · rfl
  · rcases h.2 with h | h
    · left; rw [m, unblanked_copy]; exact h
    · right; simpa [inputActive, PerInput.get, m, (unblanked_filters s).1] using h

/-- R67, R68, R69: the key-down of a keyed holder. -/
theorem requestKeyDown_eq (cause : KeyDownCause) (s : State) (keyed : holderKeyed s = true) (n : cause ≠ .txLimit)
    (q : unblanksQuietly s) (air : s.kch.state = .onAir → s.lines.txc = true)
    (up : s.kch.state = .txUp → s.lines.txc = false)
    (once : downAtOnce s → restsQuietly s ∧ (idOwed s = true → keysUpQuietly s))
    (h : turnClosing s = true → coolsQuietly s) :
    requestKeyDown cause .holder s =
      if downAtOnce s then turnAtRest (keyDownDone cause s) else keyDownBegun cause s := by
  simp only [holderKeyed, Bool.and_eq_true, beq_iff_eq, Bool.or_eq_true] at keyed
  obtain ⟨cl, st⟩ := keyed
  have done : ∀ u : State, downAtOnce s → u.tar = s.tar → u.spc = s.spc → u.ids = s.ids → u.kch.claimant = .holder →
      u.kch.keyDownCause = some cause → (u.ilm = s.ilm ∨ u.ilm = unblanked s) → u.lines = s.lines → u.clock = s.clock →
      { u with kch := restedIn .idle cause u, ilm := s.ilm } = { keyDownDone cause s with ilm := s.ilm } →
      completeKeyDown u = turnAtRest (keyDownDone cause s) := by
    intro u d tar spc ids cl' k m l ck e
    have rm : restMonitor u = restMonitor s := by
      rcases m with m | m
      · simp only [restMonitor, unblanked, m, l, ck]
      · exact restMonitor_unblanked s u ck m
    have rq : restsQuietly u := by
      have := (once d).1
      rcases m with m | m
      · simpa [restsQuietly, unblanksQuietly, inputActive, m, l] using this
      · exact restsQuietly_unblanked s u m this
    have rc : restedChain u = restedIn .idle cause u := by simp [restedChain, k, n]; rfl
    have f : { u with kch := restedChain u, ilm := restMonitor u } = keyDownDone cause s := by
      have := congrArg (fun x : State => { x with ilm := restMonitor s }) e
      simpa [rm, rc, keyDownDone] using this
    have cq : turnClosing u = true → coolsQuietly u := by
      intro x
      have h := h (by simpa [turnClosing, tar] using x)
      have su : inputActive .supok u = inputActive .supok s ∧ u.ilm.copy = s.ilm.copy := by
        rcases m with m | m
        · simp [inputActive, m]
        · refine ⟨?_, by rw [m, unblanked_copy]⟩
          simp only [inputActive, m, PerInput.get]
          unfold unblanked; split <;> rfl
      unfold coolsQuietly movesQuietly
      rw [spc, su.1, su.2]
      exact h
    rw [completeKeyDown_rest u cl' rq ?_ cq, f]
    rw [f]
    exact fun x => keysUpQuietly_rest _ _ ((once d).2 x.1)
  unfold requestKeyDown
  rw [if_pos (by simp [cl])]
  rcases st with (st | st) | st
  · simp only [st]
    unfold enterAmpDown
    dsimp only
    by_cases z : s.kch.copy.ampHold = 0
    · have d : downAtOnce s := .inl ⟨st, z⟩
      rw [if_pos (by exact z), if_pos d]
      refine done _ d rfl rfl rfl cl rfl (.inl rfl) rfl rfl ?_
      simp [beginStage, beginKeyDown, State.setKch, keyDownDone, restedIn, holder, now, st]
    · rw [if_neg (by exact z), if_neg (by simp [downAtOnce, st, z])]
      simp [beginStage, beginKeyDown, State.setKch, keyDownBegun, st]
  · simp only [st]
    have tx := up st
    have e : enterTxDown (beginKeyDown cause s) = endTxDown { s with
        kch := { s.kch with
          state := .txDown
          stageStart := some s.clock
          stageTimer := some (s.clock + s.kch.copy.txDropLimit)
          keyDownCause := some cause
          onAirEnd := none
          deadMan := none
          txLimit := none }
        ilm := unblanked s } := by
      unfold enterTxDown
      dsimp only
      rw [stopBlanking_eq _ (by exact q)]
      simp [beginKeyDown, beginStage, State.setKch, tx, unblanked, st]
    rw [e]
    unfold endTxDown enterAmpDown
    dsimp only
    by_cases b : s.spc.barefoot = true
    · have d : downAtOnce s := .inr ⟨st, .inr b⟩
      rw [if_pos (by exact b), if_pos d]
      refine done _ d rfl rfl rfl cl rfl (.inr rfl) rfl rfl ?_
      simp [keyDownDone, restedIn, holder, now, st]
    · rw [if_neg (by exact b)]
      by_cases z : s.kch.copy.ampHold = 0
      · have d : downAtOnce s := .inr ⟨st, .inl z⟩
        rw [if_pos (by exact z), if_pos d]
        refine done _ d rfl rfl rfl cl rfl (.inr rfl) rfl rfl ?_
        simp [beginStage, State.setKch, keyDownDone, restedIn, holder, now, st]
        rfl
      · rw [if_neg (by exact z), if_neg (by simp [downAtOnce, st, z, b])]
        simp [beginStage, State.setKch, keyDownBegun, st]
  · have k := keyedDown_eq cause s st (air st) q
    unfold requestKeyDown at k
    rw [if_pos (by simp)] at k
    rw [k, if_neg (by simp [downAtOnce, st])]
    simp [keyDownBegun, st]

/-- R13, R14: the end of a turn with a cause. -/
theorem endTurn_eq (cause : EndCause) (s : State) (plain : endsQuietly s)
    (asks : holderKeyed s = true → asksKeyDown cause = true) : endTurn cause s = turnEnded cause s := by
  obtain ⟨h, keyed, claimed⟩ := plain
  unfold endTurn turnEnded
  cases t : s.tar.turn with
  | offered o => exact becomeFree_freedTo _ s h
  | opened o =>
    dsimp only
    unfold endOpen openEnded
    dsimp only
    have set : s.setTurn (.closing (closingOf cause o)) = { s with tar := { s.tar with turn := closedBy o cause } } := rfl
    rw [set]
    by_cases k : holderKeyed s = true
    · obtain ⟨q, air, up, once⟩ := keyed k
      rw [if_pos (by simp [k, asks k]), if_pos k]
      exact requestKeyDown_eq .turnEnd _ (by exact k) (by simp) q air up once (fun _ => h)
    · rw [if_neg (by simp [k]), if_neg k]
      by_cases r : chainAtRest s = true
      · rw [if_pos r]
        exact closingStep_eq (closingFrom o cause) _ rfl (by exact r) (by exact claimed) h
      · rw [if_neg r]
        unfold closingStep
        rw [if_neg]
        simp only [Bool.and_eq_true, not_and]
        exact fun _ => r
  | _ => rfl

theorem turnEnded_arisen (cause : EndCause) (s : State) : (turnEnded cause s).ilm.arisen = s.ilm.arisen := by
  unfold turnEnded
  split
  · exact freedTo_arisen _ s
  · unfold openEnded
    dsimp only
    split
    · split
      · rw [closingEnds_arisen, keyDownDone_arisen]
      · rw [keyDownBegun_arisen]
    · split
      · rw [closingEnds_arisen]
      · rfl
  · rfl

/-- What ends quietly does so whatever the queue, the members, the requests and the power-down-requested flag are. -/
theorem endsQuietly_congr {s t : State} (h : endsQuietly s) (kch : t.kch = s.kch) (ids : t.ids = s.ids) (ilm : t.ilm = s.ilm)
    (lines : t.lines = s.lines) (seu : t.seu = s.seu) (power : t.spc.power = s.spc.power)
    (barefoot : t.spc.barefoot = s.spc.barefoot)
    (down : coolsQuietly t) : endsQuietly t := by
  have e : keysUpQuietly s → keysUpQuietly t := by
    rintro ⟨a, b, c⟩
    refine ⟨by simpa [inputActive, ilm] using a, by simpa [inputActive, ilm, senseConfirms, lines, seu] using b, fun x => ?_⟩
    rw [barefoot, lines] at x
    exact ⟨by simpa [ilm, lines] using (c x).1, down⟩
  refine ⟨down, ?_, ?_⟩
  · intro k
    obtain ⟨a, b, c, d⟩ := h.2.1 (by simpa [holderKeyed, kch] using k)
    refine ⟨by simpa [unblanksQuietly, inputActive, ilm, lines] using a, by simpa [kch, lines] using b,
      by simpa [kch, lines] using c, fun x => ?_⟩
    obtain ⟨f, g⟩ := d (by simpa [downAtOnce, kch, barefoot] using x)
    exact ⟨by simpa [restsQuietly, unblanksQuietly, inputActive, ilm, lines] using f,
      fun y => e (g (by simpa [idOwed, ids] using y))⟩
  · intro k
    exact e (h.2.2 (by simpa [claimIsTaken, idOwed, retuneInFlight, anyLatched, localActive, inputActive, ids, kch, seu, ilm,
      power] using k))

/-- R95 step 4: the claim that a retune held back is made. -/
theorem claimHeldBack_eq (s : State) (plain : claimIsTaken s → keysUpQuietly s) (h : coolsQuietly s) :
    claimHeldBack s = heldClaimMade s := by
  unfold claimHeldBack heldClaimMade
  cases t : s.tar.turn with
  | opened o =>
    have o' : turnOpen s = true := by simp [turnOpen, t]
    rw [if_pos o']
    exact claimInterval_eq s o' plain
  | closing c =>
    rw [if_neg (by simp [turnOpen, t])]
    dsimp only
    by_cases r : chainAtRest s = true
    · rw [if_pos r]; exact closingStep_eq c s t r plain h
    · rw [if_neg r]; simp [closingStep, r]
  | _ =>
    rw [if_neg (by simp [turnOpen, t])]
    simp [closingStep, turnClosing, t]

theorem heldClaimMade_arisen (s : State) : (heldClaimMade s).ilm.arisen = s.ilm.arisen := by
  unfold heldClaimMade
  split
  · exact intervalClaimMade_arisen s
  · split
    · exact closingEnds_arisen _ s
    · rfl
  · rfl

/-! ## The watch and a break -/

/-- R51: the watch ends. -/
theorem endWatch_eq (w b x : Nat) (s : State) (h : s.mrg.watch = .active w b x) (plain : endsQuietly s) :
    endWatch s = watchEnds w s := by
  have e : raise .watch (writeJournal (.watch w false) (s.setWatch .inactive)) = watchLeft w s := rfl
  unfold endWatch
  rw [h]
  dsimp only
  rw [e]
  unfold endSupervised watchEnds
  have tr : turnRunning (watchLeft w s) = turnRunning s ∧ turnClass (watchLeft w s) = turnClass s := by
    simp [watchLeft, turnRunning, turnClass]
  rw [tr.1, tr.2]
  by_cases k : turnRunning s = true ∧ turnClass s = some (.standing .supervised)
  · rw [if_pos (by simp [k]), if_pos k]
    refine endTurn_eq _ _ ?_ (fun _ => rfl)
    refine endsQuietly_congr plain ?_ ?_ ?_ ?_ ?_ ?_ ?_ ?_ <;> simp [watchLeft]
    simpa [coolsQuietly, movesQuietly, inputActive] using plain.1
  · rw [if_neg (by simpa using k), if_neg k]

theorem watchLeft_ilm (w : Nat) (s : State) : (watchLeft w s).ilm = s.ilm := by simp [watchLeft]

theorem watchEnds_arisen (w : Nat) (s : State) : (watchEnds w s).ilm.arisen = s.ilm.arisen := by
  unfold watchEnds
  split
  · rw [turnEnded_arisen, watchLeft_ilm]
  · rw [watchLeft_ilm]

/-- R31 steps 2 and 3. -/
theorem placeBreak_eq (m : Nat) (s : State) : placeBreak m s = breakPlaced m s := by
  unfold placeBreak breakPlaced
  cases e : entryOf m s with
  | none => simp [joinQueue, breakEntry, State.setQueue, State.setTar]
  | some x =>
    simp [State.setQueue, State.setTar, moveToBreak]
    rfl

/-! ## The claimant after a claim -/

theorem offEntered_kch (summary : Option SelfCheck) (s : State) : (offEntered summary s).kch = s.kch := by
  unfold offEntered
  dsimp only
  split <;> simp [identMissed, powerChanged, requestCleared]

theorem coolingEntered_kch (s : State) : (coolingEntered s).kch = s.kch := by
  unfold coolingEntered
  dsimp only
  split <;> simp [offEntered_kch, powerChanged, requestCleared]

theorem freedTo_kch (r : JournalBody) (s : State) : (freedTo r s).kch = s.kch := by
  unfold freedTo
  split <;> simp [coolingEntered_kch, turnFreed]

theorem turnReleased_kch (cause : EndCause) (s : State) : (turnReleased cause s).kch = s.kch := by
  unfold turnReleased missedThenFreed
  split
  · rfl
  · exact freedTo_kch _ _
  all_goals rw [freedTo_kch]; split <;> simp [identMissed]

theorem sendAbandoned_kch (s : State) : (sendAbandoned s).kch = s.kch := by
  unfold sendAbandoned
  split
  · split <;> simp
  · rfl

theorem faulted_claimant (kind : FaultKind) (x : Lines) (s : State) : (faulted kind x s).kch.claimant = .none := by
  unfold faulted
  dsimp only
  split
  · rw [sendAbandoned_kch]; simp [restedIn]
  · rw [turnReleased_kch, sendAbandoned_kch]; simp [restedIn]

theorem txUpEntered_claimant (s : State) (h : s.kch.claimant ≠ .holder) : (txUpEntered s).kch.claimant ≠ .holder := by
  unfold txUpEntered
  dsimp only
  split
  · split
    · unfold aired identAired holderAired keyedDown
      split
      · exact h
      · dsimp only; split <;> exact h
    · simp [faulted_claimant]
  · exact h

theorem keyedUp_claimant (c : Claimant) (s : State) (h : c ≠ .holder) : (keyedUp c s).kch.claimant ≠ .holder := by
  unfold keyedUp ampUpEntered
  dsimp only
  split
  · exact txUpEntered_claimant _ h
  · split
    · split
      · exact txUpEntered_claimant _ h
      · simp [faulted_claimant]
    · exact h

/-- R62, R72: the claim of an identification leaves the chain with claimant IDENT or NONE. -/
theorem idleAgain_claimant (o : OpenTurn) (s : State) (h : s.kch.claimant ≠ .holder) :
    (idleAgain o s).kch.claimant ≠ .holder := by
  unfold idleAgain intervalClaimMade
  split
  · exact keyedUp_claimant .ident _ (by simp)
  · exact h

end Sys2Proof.Machine
end

