-- ==== Sys2Proof/Laws/Ordered.lean ====
section
/-! SUPPORT. What every request, arrival, reset and step keeps of `chainLawful` and `allowanceBounded`, up to the whole of
a step. -/

set_option linter.unusedSimpArgs false
set_option linter.unusedTactic false
set_option linter.unreachableTactic false

namespace Sys2Proof.Machine

/-- Everything of the chain and the allowances that an event keeps. -/
def ordered (s : State) : Prop := chainLawful s ∧ allowanceBounded s

/-! ## Allowances -/

theorem allowanceBounded_congr {s t : State} (h : t.mrg.members = s.mrg.members) (l : allowanceBounded s) :
    allowanceBounded t := by
  intro m
  rw [enrolment_congr h]
  simpa only [memberSlot, h] using l m

theorem Moves.ordered {s t : State} (h : Moves s t) (c : chainLawful s → chainLawful t) (l : ordered s) : ordered t :=
  ⟨c l.1, allowanceBounded_congr h.members l.2⟩

/-- A state that differs in nothing that the laws look at. -/
theorem ordered_congr {s t : State} (turn : t.tar.turn = s.tar.turn) (kch : t.kch = s.kch) (ids : t.ids = s.ids)
    (spc : t.spc = s.spc) (mrg : t.mrg = s.mrg) (l : ordered s) : ordered t :=
  ⟨Moves.aside turn kch ids spc (by rw [mrg]) l.1, allowanceBounded_congr (by rw [mrg]) l.2⟩

/-- A member's items change within its bound. -/
theorem setMember_ordered (m : Nat) (x : MemberSlot) (s : State)
    (bound : m < 32 → x.remaining ≤ (match x.entry with
      | .enrolled e => 10 * e.allowance
      | _ => 0)) (l : ordered s) : ordered (setMember m x s) := by
  refine ⟨Moves.aside rfl rfl rfl rfl rfl l.1, fun k => ?_⟩
  unfold enrolment
  rw [memberSlot_setMember]
  split
  · rename_i h
    have := bound (by omega)
    revert this
    cases x.entry <;> simp
  · exact l.2 k

theorem remaining_bound (m : Nat) (s : State) (l : allowanceBounded s) : (memberSlot m s).remaining ≤
    (match (memberSlot m s).entry with
      | .enrolled e => 10 * e.allowance
      | _ => 0) := by
  have := l m
  revert this
  unfold enrolment
  cases (memberSlot m s).entry <;> simp

theorem setSuspended_ordered (m : Nat) (b : Bool) (s : State) (l : ordered s) : ordered (setSuspended m b s) :=
  setMember_ordered m _ s (fun _ => remaining_bound m s l.2) l

theorem refill_ordered (m : Nat) (s : State) (l : ordered s) : ordered (refill m s) := by
  unfold refill
  split
  · refine setMember_ordered m _ s (fun _ => ?_) l
    simp only [fullAllowance, enrolment]
    cases (memberSlot m s).entry <;> simp
  · exact l

theorem refillAll_ordered (s : State) (l : ordered s) : ordered (refillAll s) := by
  have main : ∀ (n : List Nat) (s : State), ordered s → ordered (n.foldl (fun s m => refill m s) s) := by
    intro n
    induction n with
    | nil => exact fun _ l => l
    | cons m n ih => exact fun s l => ih _ (refill_ordered m s l)
  exact main _ s l

theorem setUnitOwed_ordered (b : Bool) (s : State) (l : ordered s) : ordered (s.setUnitOwed b) :=
  (setUnitOwed_moves b s).ordered (Moves.aside rfl rfl rfl rfl rfl) l

theorem spendAllowance_ordered (n : Nat) (s : State) (l : ordered s) : ordered (spendAllowance n s) := by
  unfold spendAllowance
  split
  · exact l
  · rename_i m _
    have base := remaining_bound m s l.2
    dsimp only
    repeat' split
    all_goals first | exact l | skip
    all_goals
      refine setUnitOwed_ordered _ _ (setMember_ordered _ _ s (fun _ => ?_) l)
      revert base
      cases (memberSlot m s).entry <;> simp <;> omega

theorem spendLast_ordered (s : State) (l : ordered s) : ordered (spendLast s) := by
  unfold spendLast
  split
  · exact l
  · exact setUnitOwed_ordered _ _ (setMember_ordered _ _ s (fun _ => Nat.zero_le _) l)

theorem allowanceRunsOut_ordered (s : State) (l : ordered s) : ordered (allowanceRunsOut s) :=
  ((requestKeyDown_moves _ _ _).trans (endTurn_moves _ _)).ordered
    (fun c => endTurn_keeps _ _ (requestKeyDown_chainLawful _ _ _ c)) (spendLast_ordered s l)

/-! ## The requests -/

theorem endTurn_ordered (c : EndCause) (s : State) (l : ordered s) : ordered (endTurn c s) :=
  (endTurn_moves c s).ordered (endTurn_keeps c s) l

theorem runSelection_ordered (s : State) (l : ordered s) : ordered (runSelection s) :=
  (runSelection_moves s).ordered (runSelection_chainLawful s) l

theorem endWatch_ordered (s : State) (l : ordered s) : ordered (endWatch s) :=
  (endWatch_moves s).ordered (endWatch_chainLawful s) l

theorem acceptOffer_ordered (t : OfferedTurn) (s : State) (h : s.tar.turn = .offered t) (l : ordered s) :
    ordered (acceptOffer t s) := by
  refine (acceptOffer_moves t s h).ordered (fun c => ?_) l
  obtain ⟨a, b, ⟨_, _⟩, d, e, f⟩ := c
  refine ⟨a, b, ⟨?_, ?_⟩, d, ?_, ?_⟩
  · intro x; simp [turnOpen, acceptOffer] at x
  · intro o x; simp [acceptOffer] at x
  · intro x; have := e x; rw [h] at this; cases this
  · simpa [supervisedIsWatched, turnRunning, turnClass, h, acceptOffer, acceptedTurn] using f

theorem holderTest_ordered (b : Bool) (c : ReplyOutcome) (m : Nat) (owner : State → Answer) (s : State)
    (h : ∀ s, (b = true → turnOpen s = true) → ordered s → ordered (owner s).state) (l : ordered s) :
    ordered (holderTest b c m owner s).state := by
  unfold holderTest
  split
  · exact l
  · split
    · rename_i held
      split
      · rename_i t ht
        by_cases a : b = true
        · rw [if_pos a]
          exact h _ (fun _ => by simp [turnOpen, acceptOffer]) (acceptOffer_ordered t s ht l)
        · rw [if_neg a]
          exact h _ (fun x => absurd x a) l
      · exact l
      · rename_i x y
        refine h s (fun _ => ?_) l
        unfold turnOpen
        split
        · rfl
        · rename_i z
          exfalso
          simp only [beq_iff_eq] at held
          unfold holder at held
          split at held
          · cases held
          · rename_i u; exact x _ u
          · rename_i u; exact z _ u
          · rename_i u; exact y _ u
    · exact l

theorem joinQueue_ordered (e : Entry) (s : State) (l : ordered s) : ordered (joinQueue e s) :=
  ordered_congr rfl rfl rfl rfl rfl l

theorem removeEntry_ordered (m : Nat) (s : State) (l : ordered s) : ordered (removeEntry m s) :=
  ordered_congr rfl rfl rfl rfl rfl l

theorem displaceLowest_ordered (s : State) (l : ordered s) : ordered (displaceLowest s) := by
  unfold displaceLowest
  split
  · exact l
  · exact removeEntry_ordered _ s l

theorem takeReq_ordered (m : Nat) (em : Bool) (x n : Nat) (s : State) (l : ordered s) : ordered (takeReq m em x n s) := by
  have base : ∀ t, ordered t → ordered (joinQueue (newEntry m (requestClass m em s) x n s) t) :=
    fun t h => joinQueue_ordered _ t h
  have pre : ∀ t, ordered t → ordered (preempt t) := by
    intro t h
    unfold preempt
    split
    · exact endTurn_ordered _ t h
    · exact h
  unfold takeReq
  dsimp only
  refine runSelection_ordered _ ?_
  repeat' split
  all_goals first
    | exact pre _ (base _ (displaceLowest_ordered s l))
    | exact pre _ (base _ l)
    | exact base _ (displaceLowest_ordered s l)
    | exact base _ l

theorem answerReq_ordered (m : Nat) (em : Bool) (x n : Nat) (s : State) (l : ordered s) :
    ordered (answerReq m em x n s).state := by
  unfold answerReq
  repeat' split
  all_goals try simp only [answer_state, answerWith_state, deny_state]
  all_goals first | exact l | exact takeReq_ordered m em x n s l

theorem answerRel_ordered (m : Nat) (s : State) (l : ordered s) : ordered (answerRel m s).state := by
  unfold answerRel
  repeat' split
  all_goals try simp only [answer_state, answerWith_state, deny_state]
  all_goals first | with_reducible exact l | exact endTurn_ordered _ s l | exact removeEntry_ordered _ s l

theorem placeBreak_ordered (m : Nat) (s : State) (l : ordered s) : ordered (placeBreak m s) := by
  unfold placeBreak
  dsimp only
  repeat' split
  all_goals exact ordered_congr rfl rfl rfl rfl rfl l

theorem takeBrk_ordered (placed : Option Nat) (s : State) (l : ordered s) : ordered (takeBrk placed s) := by
  unfold takeBrk
  dsimp only
  refine runSelection_ordered _ (endTurn_ordered _ _ ?_)
  split
  · exact l
  · exact placeBreak_ordered _ s l

theorem answerBrkAuthority_ordered (b : Bool) (s : State) (l : ordered s) : ordered (answerBrkAuthority b s).state := by
  unfold answerBrkAuthority
  split
  · exact l
  · exact takeBrk_ordered none s l

theorem answerBrkMember_ordered (m : Nat) (b : Bool) (s : State) (l : ordered s) :
    ordered (answerBrkMember m b s).state := by
  unfold answerBrkMember
  repeat' split
  all_goals try simp only [answer_state, answerWith_state, deny_state]
  all_goals first | with_reducible exact l | exact takeBrk_ordered _ s l

theorem startWrite_ordered (w : StoreWrite) (s : State) (l : ordered s) : ordered (startWrite w s) :=
  ordered_congr rfl rfl rfl rfl rfl l

theorem writeUnlessBusy_ordered (w : StoreWrite) (s : State) (l : ordered s) : ordered (writeUnlessBusy w s).state := by
  unfold writeUnlessBusy
  split
  · exact l
  · exact startWrite_ordered w s l

theorem answerSus_ordered (m : Nat) (b : Byte) (s : State) (l : ordered s) : ordered (answerSus m b s).state := by
  have held : ∀ t, ordered t → ordered (endHeld m t) := by
    intro t h; unfold endHeld; split
    · exact endTurn_ordered _ t h
    · exact h
  have watch : ∀ t, ordered t → ordered (endWatchOf m t) := by
    intro t h; unfold endWatchOf
    repeat' split
    all_goals first | exact h | exact endWatch_ordered t h
  unfold answerSus
  repeat' split
  all_goals try simp only [answer_state, answerWith_state, deny_state]
  all_goals first
    | with_reducible exact l
    | exact watch _ (held _ (removeEntry_ordered _ _ (setSuspended_ordered m true s l)))
    | exact setSuspended_ordered m false s l

theorem answerQrf_ordered (m : Nat) (s : State) (l : ordered s) : ordered (answerQrf m s).state := by
  unfold answerQrf
  split
  · simp only [answer_state]
    exact refillAll_ordered s l
  · repeat' split
    all_goals try simp only [answer_state]
    all_goals first | with_reducible exact l | exact refill_ordered m s l

theorem answerWch_ordered (m : Nat) (b : Byte) (s : State) (l : ordered s) : ordered (answerWch m b s).state := by
  unfold answerWch watchOn watchOff
  repeat' split
  all_goals try simp only [answer_state, answerWith_state, deny_state]
  all_goals first
    | with_reducible exact l
    | exact (beginWatch_moves m s).ordered (beginWatch_chainLawful m s) l
    | exact (setWatch_moves _ s).ordered (setWatch_chainLawful _ _ _ s) l
    | exact endWatch_ordered s l

theorem keyUpHolder_chainLawful (s : State) (o : turnOpen s = true) (idle : chainIdle s = true)
    (ready : stationReady s = true) (l : chainLawful s) : chainLawful (keyUpHolder s) := by
  have rest := chainIdle_rest s idle
  have none : s.kch.claimant = .none := l.2.1.1.2 rest
  have start := l.2.1.2 rest
  have ns : idSending s = false := by
    by_contra h
    have := l.1.2 (by simpa using h)
    rw [none] at this; cases this
  refine keyUp_chainLawful .holder onAirHolder (loadDeadMan s) ⟨?_, ?_, ?_, ?_, ?_, ?_⟩
    (fun t e k => onAirHolder_chainLawful t e k)
  · simp
  · simpa [identIsSending, idSending] using ns
  · exact .inl (by simpa [turnOpen] using o)
  · simp [loadDeadMan, start]
  · simpa [stationReady] using ready
  · simpa [supervisedIsWatched, turnRunning, turnClass] using l.2.2.2.2.2

theorem answerKey_ordered (m : Nat) (s : State) (l : ordered s) : ordered (answerKey m s).state := by
  refine holderTest_ordered _ _ _ _ s (fun s o l => ?_) l
  unfold keyStep
  repeat' split
  all_goals try simp only [answer_state, answerWith_state, deny_state]
  all_goals first | with_reducible exact l | skip
  rename_i ready busy _ _ _ _ _
  refine (keyUpHolder_moves s).ordered (keyUpHolder_chainLawful s (o rfl) ?_ ?_) l
  · simp only [Bool.or_eq_true, Bool.not_eq_true', not_or, Bool.not_eq_false] at busy
    exact busy.1.1
  · simpa using ready

theorem answerUnk_ordered (m : Nat) (s : State) (l : ordered s) : ordered (answerUnk m s).state := by
  refine holderTest_ordered _ _ _ _ s (fun s _ l => ?_) l
  unfold unkeyStep
  repeat' split
  all_goals try simp only [answer_state, answerWith_state, deny_state]
  all_goals first | with_reducible exact l | exact (requestKeyDown_moves _ _ s).ordered (requestKeyDown_chainLawful _ _ s) l

theorem answerHld_ordered (m : Nat) (s : State) (l : ordered s) : ordered (answerHld m s).state := by
  refine holderTest_ordered _ _ _ _ s (fun s _ l => ?_) l
  show ordered (if _ then _ else _)
  split
  · exact (loadDeadMan_moves s).ordered (setTimers_chainLawful _ s rfl rfl rfl) l
  · exact l

/-- R83: a FAULTED chain goes to IDLE. -/
theorem setIdle_chainLawful (s : State) (h : s.kch.state = .faulted) (l : chainLawful s) :
    chainLawful (s.setKch { s.kch with state := .idle, fault := none }) := by
  have rest : chainAtRest s = true := by simp [chainAtRest, h]
  obtain ⟨a, ⟨b, b'⟩, ⟨c, c'⟩, ⟨_, d'⟩, e, f⟩ := l
  refine ⟨a, ⟨⟨fun _ => rfl, fun _ => b.2 rest⟩, fun _ => b' rest⟩, ⟨fun x y => ⟨(c x y).1, rfl⟩, fun o x => rfl⟩,
    ⟨fun x => ?_, d'⟩, e, f⟩
  cases x

theorem clearFault_chainLawful (s : State) (h : s.kch.state = .faulted) (l : chainLawful s) : chainLawful (clearFault s) := by
  have base := setIdle_chainLawful s h l
  unfold clearFault
  dsimp only
  split
  · exact claimInterval_chainLawful _ (setIdleDeadline_chainLawful _ _ base)
  · exact runSelection_chainLawful _ base

theorem answerFcl_ordered (s : State) (l : ordered s) : ordered (answerFcl s).state := by
  unfold answerFcl
  repeat' split
  all_goals try simp only [answer_state, answerWith_state, deny_state]
  all_goals first | with_reducible exact l | skip
  rename_i f _
  exact (clearFault_moves s).ordered (clearFault_chainLawful s (by simpa using f)) l

theorem answerTun_ordered (m : Nat) (f : Word) (md : Byte) (p : Half) (a : Byte) (s : State) (l : ordered s) :
    ordered (answerTun m f md p a s).state := by
  refine holderTest_ordered _ _ _ _ s (fun s _ l => ?_) l
  unfold tuneOwner tuneStep
  repeat' split
  all_goals try simp only [answer_state, answerWith_state, deny_state]
  all_goals first | with_reducible exact l | exact (beginRetune_moves _ s).ordered (beginRetune_chainLawful _ s) l

theorem answerIcl_ordered (s : State) (l : ordered s) : ordered (answerIcl s).state := by
  have base : chainLawful s → chainLawful (clearTrips s) := by
    intro c
    have q : chainLawful (clearQuiet s) := Moves.aside rfl rfl rfl rfl rfl c
    unfold clearTrips
    dsimp only
    split
    · exact q
    · exact runSelection_chainLawful _ (claimInterval_chainLawful _ q)
  unfold answerIcl
  repeat' split
  all_goals try simp only [answer_state, answerWith_state, deny_state]
  all_goals first | with_reducible exact l | exact (clearTrips_moves s).ordered base l

theorem clearDownRequest_chainLawful (s : State) (l : chainLawful s) : chainLawful (clearDownRequest s) := by
  unfold clearDownRequest
  split
  · exact runSelection_chainLawful _ (setFlag_chainLawful false s l)
  · exact l

theorem answerSpw_ordered (b : Byte) (s : State) (l : ordered s) : ordered (answerSpw b s).state := by
  have free : ∀ p, s.spc.power = p → p ≠ .ready → s.tar.turn = .free := fun p h n => l.1.2.2.2.2.1 (h ▸ n)
  unfold answerSpw powerUp powerDown requestDown
  repeat' split
  all_goals try simp only [answer_state, answerWith_state, deny_state]
  all_goals first
    | with_reducible exact l
    | (rename_i h
       exact (enterWarming_moves s).ordered (enterWarming_chainLawful s (free _ h (by simp))) l)
    | exact (clearDownRequest_moves s).ordered (clearDownRequest_chainLawful s) l
    | (rename_i h
       exact (enterCooling_moves s).ordered
         (fun c => enterCooling_chainLawful s (c.quiet_of_free (free _ h (by simp))) (free _ h (by simp))) l)
    | (rename_i h
       exact (enterCooling_moves s).ordered
         (fun c => enterCooling_chainLawful s (c.quiet_of_free (by simpa using h)) (by simpa using h)) l)
    | exact endTurn_ordered _ _ ((setSpc_moves _ s rfl).ordered (setFlag_chainLawful true s) l)

theorem answerBft_ordered (b : Byte) (s : State) (l : ordered s) : ordered (answerBft b s).state := by
  have base : ∀ x, ordered (setBarefoot x s) := fun x =>
    ⟨senseInput_chainLawful _ _ (chainLawful_congr (s := s) rfl rfl rfl rfl rfl rfl rfl l.1),
      allowanceBounded_congr (by simp) l.2⟩
  unfold answerBft
  repeat' split
  all_goals try simp only [answer_state, answerWith_state, deny_state]
  all_goals first | with_reducible exact l | exact base _

theorem answerRun_ordered (s : State) (l : ordered s) : ordered (answerRun s).state := by
  unfold answerRun
  repeat' split
  all_goals try simp only [answer_state, answerWith_state, deny_state]
  all_goals first | with_reducible exact l | skip
  have run : ordered (s.setPhase .run) := ordered_congr rfl rfl rfl rfl rfl l
  have filled := refillAll_ordered _ run
  unfold enterRun
  generalize refillAll (s.setPhase .run) = t at filled
  exact runSelection_ordered _ (ordered_congr (s := t) rfl rfl rfl rfl rfl filled)

theorem answerSet_ordered (s : State) (l : ordered s) : ordered (answerSet s).state := by
  unfold answerSet
  split
  · exact ordered_congr rfl rfl rfl rfl rfl (endWatch_ordered _ (ordered_congr (s := s) rfl rfl rfl rfl rfl l))
  · exact l

/-- R161: whatever the owner of a request does keeps the laws. -/
theorem ownerAnswer_ordered (r : Request) (m : Byte) (was : Bool) (s : State) (l : ordered s) :
    ordered (ownerAnswer r m was s).state := by
  cases r with
  | sta => exact ordered_congr (s := s) rfl rfl rfl rfl rfl l
  | mwr k state callsign standing profile allowance emergency =>
    simp only [ownerAnswer, answerMwr]
    repeat' split
    all_goals try simp only [answer_state, answerWith_state, deny_state]
    all_goals first | with_reducible exact l | exact writeUnlessBusy_ordered _ s l
  | mrd k =>
    simp only [ownerAnswer, answerMrd]
    split
    · exact l
    · rw [readUnlessBusy_state]; exact l
  | pfw index count slots =>
    simp only [ownerAnswer, answerPfw]
    repeat' split
    all_goals try simp only [answer_state, answerWith_state, deny_state]
    all_goals first | with_reducible exact l | exact writeUnlessBusy_ordered _ s l
  | pfr index =>
    simp only [ownerAnswer, answerPfr]
    split
    · exact l
    · rw [readUnlessBusy_state]; exact l
  | anw index state count ranges rating =>
    simp only [ownerAnswer, answerAnw]
    repeat' split
    all_goals try simp only [answer_state, answerWith_state, deny_state]
    all_goals first | with_reducible exact l | exact writeUnlessBusy_ordered _ s l
  | anr index =>
    simp only [ownerAnswer, answerAnr]
    split
    · exact l
    · rw [readUnlessBusy_state]; exact l
  | prw record =>
    simp only [ownerAnswer, answerPrw]
    repeat' split
    all_goals try simp only [answer_state, answerWith_state, deny_state]
    all_goals first | with_reducible exact l | exact writeUnlessBusy_ordered _ s l
  | prr => simp only [ownerAnswer, answerPrr, readUnlessBusy_state]; exact l
  | idw count slots =>
    simp only [ownerAnswer, answerIdw]
    split
    · exact l
    · exact writeUnlessBusy_ordered _ s l
  | idr => simp only [ownerAnswer, answerIdr, readUnlessBusy_state]; exact l
  | cls order =>
    simp only [ownerAnswer, answerCls]
    repeat' split
    all_goals try simp only [answer_state, answerWith_state, deny_state]
    all_goals first | with_reducible exact l | exact startWrite_ordered _ s l
  | run => exact answerRun_ordered s l
  | set => exact answerSet_ordered s l
  | spw b => exact answerSpw_ordered b s l
  | bft b => exact answerBft_ordered b s l
  | sus k b => exact answerSus_ordered _ b s l
  | qrf k => exact answerQrf_ordered _ s l
  | qrd => exact l
  | jrd =>
    simp only [ownerAnswer, answerJrd]
    split
    · exact l
    · exact ordered_congr (s := s) rfl rfl rfl rfl rfl l
  | nen c =>
    simp only [ownerAnswer, answerNen]
    split
    · exact l
    · exact ordered_congr (s := s) rfl rfl rfl rfl rfl l
  | ncl c =>
    simp only [ownerAnswer, answerNcl]
    split
    · exact l
    · exact ordered_congr (s := s) rfl rfl rfl rfl rfl l
  | icl => exact answerIcl_ordered s l
  | fcl => exact answerFcl_ordered s l
  | tst =>
    simp only [ownerAnswer, answerTst]
    split
    · exact l
    · exact ordered_congr (s := s) rfl rfl rfl rfl rfl l
  | rst =>
    simp only [ownerAnswer, answerRst]
    split
    · exact l
    · exact ordered_congr (s := s) rfl rfl rfl rfl rfl l
  | brkAuthority b => exact answerBrkAuthority_ordered _ s l
  | req e x n => exact answerReq_ordered _ _ _ _ s l
  | hld => exact answerHld_ordered _ s l
  | rel => exact answerRel_ordered _ s l
  | key => exact answerKey_ordered _ s l
  | unk => exact answerUnk_ordered _ s l
  | tun f md p a => exact answerTun_ordered _ f md p a s l
  | qst => exact l
  | wch b => exact answerWch_ordered _ b s l
  | brkMember b => exact answerBrkMember_ordered _ _ s l
  | unknownKind k b => exact l
  | malformed k b => exact l

theorem reloadIdle_ordered (f : Frame) (s : State) (l : ordered s) : ordered (reloadIdle f s) := by
  unfold reloadIdle
  repeat' split
  all_goals first
    | exact l
    | exact (startIdleDeadline_moves s).ordered (setIdleDeadline_chainLawful _ s) l

theorem answerFrame_ordered (f : Frame) (was : Bool) (s : State) (l : ordered s) : ordered (answerFrame f was s).state := by
  unfold answerFrame
  split
  · exact l
  · exact ownerAnswer_ordered _ _ _ _ (reloadIdle_ordered f s l)

/-! ## Events -/

theorem setLp_ordered (x : Link) (s : State) (l : ordered s) : ordered (s.setLp x) := ordered_congr rfl rfl rfl rfl rfl l

theorem settle_ordered (s : State) (l : ordered s) : ordered (settle s) :=
  (settle_moves s).ordered (settle_chainLawful s) l

theorem takeFrame_ordered (f : Frame) (s : State) (l : ordered s) : ordered (takeFrame f s) :=
  setLp_ordered _ _ (settle_ordered _ (answerFrame_ordered _ _ _ (setLp_ordered _ s l)))

theorem takeOldest_ordered (s : State) (l : ordered s) : ordered (takeOldest s) := by
  unfold takeOldest
  split
  · exact setLp_ordered _ s l
  · exact takeFrame_ordered _ _ (setLp_ordered _ s l)

theorem sendNotice_ordered (s : State) (l : ordered s) : ordered (sendNotice s) :=
  ordered_congr (s := s) rfl rfl rfl rfl rfl l

theorem pumpNotice_ordered (s : State) (l : ordered s) : ordered (pumpNotice s) := by
  unfold pumpNotice
  split
  · exact sendNotice_ordered s l
  · exact l

theorem event_ordered (f : State → State) (s : State) (h : ordered s → ordered (f s)) (l : ordered s) :
    ordered (event f s) := by
  unfold event
  split
  · exact l
  · exact pumpNotice_ordered _ (settle_ordered _ (h l))

theorem raise_ordered (c : Cause) (s : State) (l : ordered s) : ordered (raise c s) :=
  (raise_moves c s).ordered (raise_chainLawful c s) l

theorem discardFrame_ordered (s : State) (l : ordered s) : ordered (discardFrame s) :=
  raise_ordered _ _ (setLp_ordered _ s l)

theorem recoverLink_ordered (s : State) (l : ordered s) : ordered (recoverLink s) := by
  have base : ordered (raise .link (s.setLp { s.lp with lost := false })) := raise_ordered _ _ (setLp_ordered _ s l)
  unfold recoverLink
  refine runSelection_ordered _ ?_
  dsimp only
  split
  · exact setLp_ordered _ _ base
  · exact base

theorem validArrival_ordered (s : State) (l : ordered s) : ordered (validArrival s) := by
  unfold validArrival
  repeat' split
  all_goals first | exact recoverLink_ordered s l | exact setLp_ordered _ s l | exact l

theorem frameArrives_ordered (f : Frame) (s : State) (l : ordered s) : ordered (frameArrives f s) := by
  unfold frameArrives
  split
  · exact discardFrame_ordered s l
  · have joined : ∀ x, ordered ((validArrival (s.setLp { s.lp with rx := .hunting })).setLp x) := fun x =>
      setLp_ordered x _ (validArrival_ordered _ (setLp_ordered _ s l))
    dsimp only
    split
    · exact takeOldest_ordered _ (joined _)
    · exact joined _

theorem frameComplete_ordered (b : List Byte) (s : State) (l : ordered s) : ordered (frameComplete b s) := by
  unfold frameComplete
  repeat' split
  all_goals first | exact discardFrame_ordered s l | exact frameArrives_ordered _ s l

theorem linkByte_ordered (s : State) (b : Byte) (l : ordered s) : ordered (linkByte s b) := by
  unfold linkByte
  split
  · split
    · exact setLp_ordered _ s l
    · exact l
  · dsimp only
    repeat' split
    all_goals first
      | exact discardFrame_ordered s l
      | exact frameComplete_ordered _ s l
      | exact setLp_ordered _ s l

theorem linkBreak_ordered (b : List Byte) (s : State) (l : ordered s) : ordered (linkBreak b s) := by
  have main : ∀ (b : List Byte) (s : State), ordered s → ordered (b.foldl linkByte s) := by
    intro b
    induction b with
    | nil => exact fun _ l => l
    | cons x b ih => exact fun s l => ih _ (linkByte_ordered s x l)
  unfold linkBreak
  dsimp only
  split
  · exact main b s l
  · exact discardFrame_ordered _ (main b s l)

theorem lengthArrives_ordered (b : Byte) (s : State) (l : ordered s) : ordered (lengthArrives b s) :=
  linkByte_ordered _ b (setLp_ordered _ s l)

theorem loseLink_ordered (s : State) (l : ordered s) : ordered (loseLink s) := by
  refine endWatch_ordered _ (ordered_congr rfl rfl rfl rfl rfl (endTurn_ordered _ _
    ((writeJournal_moves _ _).ordered (writeJournal_chainLawful _ _) (setLp_ordered _ s l))))

/-! ## Store writes, resets and time -/

theorem ownContents_ordered (w : StoreWrite) (s : State) (l : ordered s) : ordered (ownContents w s) := by
  cases w with
  | member m c =>
    simp only [ownContents, takeMember]
    split
    · exact setMember_ordered m _ s (fun _ => Nat.le_refl _) l
    · exact setMember_ordered m _ s (fun _ => Nat.min_le_right _ _) l
  | profile i g => exact ⟨Moves.aside rfl rfl rfl rfl rfl l.1, allowanceBounded_congr rfl l.2⟩
  | antenna i c => exact ordered_congr (s := s) rfl rfl rfl rfl rfl l
  | pattern g => exact ⟨chainLawful_congr (s := s) rfl rfl rfl rfl rfl rfl rfl l.1, allowanceBounded_congr rfl l.2⟩
  | params p => exact ⟨chainLawful_congr (s := s) rfl rfl rfl rfl rfl rfl rfl l.1, allowanceBounded_congr rfl l.2⟩
  | ranking p => exact ordered_congr (s := s) rfl rfl rfl rfl rfl l

theorem completeWrite_ordered (s : State) (l : ordered s) : ordered (completeWrite s) := by
  unfold completeWrite
  split
  · exact l
  · exact ordered_congr rfl rfl rfl rfl rfl (raise_ordered _ _ (ownContents_ordered _ _
      (ordered_congr (s := s) rfl rfl rfl rfl rfl l)))

theorem cutWrite_ordered (s : State) (l : ordered s) : ordered (cutWrite s) := by
  unfold cutWrite
  split
  · exact l
  · exact ordered_congr (s := s) rfl rfl rfl rfl rfl l

/-- R35, R57, R84, R123, R156: the blocks after a reset have the laws. -/
theorem resetBlocks_ordered (k : ResetKind) (s : State) : ordered (resetBlocks k s) := by
  refine ⟨Quiet.free ⟨rfl, rfl, rfl, rfl⟩ rfl, fun m => ?_⟩
  have : (memberSlot m (resetBlocks k s)).remaining = 0 := by
    simp only [memberSlot, resetBlocks, registerAfterReset, Vector.getElem?_map]
    cases (s.cst.records.members[m]?) <;> rfl
  rw [this]
  exact Nat.zero_le _

theorem resetEnds_ordered (k : ResetKind) (s : State) : ordered (resetEnds k s) := by
  have base : ordered (reportDamage (resetBlocks k (cutWrite s))) := by
    have := resetBlocks_ordered k (cutWrite s)
    unfold reportDamage
    repeat' split
    all_goals first | exact this | exact raise_ordered _ _ this | exact ordered_congr rfl rfl rfl rfl rfl this
  exact pumpNotice_ordered _ (settle_ordered _ ((senseAll_moves _).ordered
    (Moves.aside (by simp) (by simp) (by simp) (by simp) (by simp)) base))

theorem takeHold_ordered (k : ResetKind) (s : State) (l : ordered s) : ordered (takeHold k s) :=
  ordered_congr rfl rfl rfl rfl rfl (cutWrite_ordered s l)

theorem leaveHold_ordered (s : State) (l : ordered s) : ordered (leaveHold s) := by
  unfold leaveHold
  repeat' split
  all_goals first | exact l | exact resetEnds_ordered _ s

theorem replyEnds_ordered (s : State) (l : ordered s) : ordered (replyEnds s) := by
  unfold replyEnds
  repeat' split
  all_goals first
    | with_reducible exact l
    | exact resetEnds_ordered _ s
    | exact sendNotice_ordered s l
    | exact takeOldest_ordered s l

theorem noticeEnds_ordered (s : State) (l : ordered s) : ordered (noticeEnds s) := by
  unfold noticeEnds
  split
  · exact takeOldest_ordered s l
  · exact l

theorem countAir_ordered (n : Nat) (s : State) (l : ordered s) : ordered (countAir n s) := by
  unfold countAir
  split
  · have base := spendAllowance_ordered n s l
    have tar : (spendAllowance n s).tar.turn = s.tar.turn := by simp
    refine ⟨?_, allowanceBounded_congr rfl base.2⟩
    rw [← tar]
    generalize spendAllowance n s = t at base
    cases h : t.tar.turn with
    | opened o => exact setTurn_open_chainLawful o _ t h rfl base.1
    | closing c =>
      obtain ⟨a, b, ⟨_, _⟩, d, e, f⟩ := base.1
      refine ⟨a, b, ⟨?_, ?_⟩, d, ?_, ?_⟩
      · intro x y; simp [turnClosing, addOnAir] at y
      · intro o x; simp [addOnAir] at x
      · intro x; have := e x; rw [h] at this; cases this
      · intro x; simp [turnRunning, addOnAir] at x
    | free => exact Moves.aside (s := t) (by simp [addOnAir, h]) rfl rfl rfl rfl base.1
    | offered o => exact Moves.aside (s := t) (by simp [addOnAir, h]) rfl rfl rfl rfl base.1
  · exact l

theorem passTo_ordered (n : Nat) (s : State) (l : ordered s) : ordered (passTo n s) := by
  unfold passTo
  split
  · exact countAir_ordered _ _ (ordered_congr (s := s) rfl rfl rfl rfl rfl l)
  · exact l

theorem tick_ordered (s : State) (l : ordered s) : ordered (tick s) := by
  unfold tick
  split
  · exact l
  · have base := passTo_ordered (s.clock + 1) s l
    dsimp only
    generalize passTo (s.clock + 1) s = t at base
    exact ordered_congr (s := t) (by simp) (by simp) (by simp) (by simp) (by simp) base

theorem expiry_ordered (moment : Option Nat) (f : State → State) (s : State)
    (h : ∀ t, moment = some t → ordered s → ordered (f s)) (l : ordered s) : ordered (expiry moment f s) := by
  unfold expiry
  split
  · exact l
  · rename_i t
    split
    · exact event_ordered _ s (h t rfl) l
    · exact l

theorem lineChange_ordered (x : Lines) (f : State → State) (h : ∀ s, ordered s → ordered (f s)) (s : State)
    (l : ordered s) : ordered (lineChange x f s) := by
  have base : ordered (s.setLines x) := ordered_congr rfl rfl rfl rfl rfl l
  unfold lineChange
  split
  · exact l
  · exact event_ordered _ _ (h _) base

/-- A stage timer that is present is the timer of a chain that is not at rest. -/
theorem stage_up (c : ChainState) (s : State) (t : Nat) (h : stageMoment c s = some t)
    (n : c ≠ .idle) (n' : c ≠ .faulted) : chainAtRest s = false := by
  unfold stageMoment at h
  split at h
  · rename_i x
    simp only [beq_iff_eq] at x
    simp [chainAtRest, x, n, n']
  · cases h

/-- Every command keeps the laws of the chain and of the allowances. -/
theorem exec_ordered (c : Instr) (s t : State) (h : exec c s = .next t) (l : ordered s) : ordered t := by
  have power : ∀ p, s.spc.power = p → p ≠ .ready → s.tar.turn = .free := fun p h n => l.1.2.2.2.2.1 (h ▸ n)
  cases c with
  | linkSupervisionExpiry => cases h; exact expiry_ordered _ _ _ (fun _ _ => loseLink_ordered s) l
  | offerDeadline => cases h; exact expiry_ordered _ _ _ (fun _ _ => endTurn_ordered _ s) l
  | turnDeadline =>
    cases h; exact expiry_ordered _ _ _ (fun _ _ => (turnDeadlinePasses_moves s).ordered (turnDeadlinePasses_chainLawful s)) l
  | idleDeadline => cases h; exact expiry_ordered _ _ _ (fun _ _ => endTurn_ordered _ s) l
  | entryExpiry _ => cases h; exact expiry_ordered _ _ _ (fun _ _ => removeEntry_ordered _ s) l
  | allowanceExhausted => cases h; exact expiry_ordered _ _ _ (fun _ _ => allowanceRunsOut_ordered s) l
  | watchExpiry => cases h; exact expiry_ordered _ _ _ (fun _ _ => endWatch_ordered s) l
  | amprdyChange b =>
    cases h
    exact lineChange_ordered _ _ (fun s => (amprdyChanged_moves b s).ordered (amprdyChanged_chainLawful b s)) _ l
  | txcChange b =>
    cases h; exact lineChange_ordered _ _ (fun s => (txcChanged_moves b s).ordered (txcChanged_chainLawful b s)) _ l
  | ampReadyLatestBound =>
    cases h
    exact expiry_ordered _ _ _ (fun k x => (chainFault_moves _ s).ordered
      (fun c => chainFault_chainLawful _ s c (stage_up _ s k x (by simp) (by simp)))) l
  | txConfirmLatestBound =>
    cases h
    exact expiry_ordered _ _ _ (fun k x => (chainFault_moves _ s).ordered
      (fun c => chainFault_chainLawful _ s c (stage_up _ s k x (by simp) (by simp)))) l
  | txDropLimit =>
    cases h
    exact expiry_ordered _ _ _ (fun k x => (chainFault_moves _ s).ordered
      (fun c => chainFault_chainLawful _ s c (stage_up _ s k x (by simp) (by simp)))) l
  | ampHoldExpiry =>
    cases h
    exact expiry_ordered _ _ _ (fun k x => (completeKeyDown_moves s).ordered
      (fun c => completeKeyDown_chainLawful s c (stage_up _ s k x (by simp) (by simp)))) l
  | deadManExpiry =>
    cases h; exact expiry_ordered _ _ _ (fun _ _ => (deadManExpires_moves s).ordered (deadManExpires_chainLawful s)) l
  | transmissionLimitExpiry =>
    cases h; exact expiry_ordered _ _ _ (fun _ _ => (txLimitExpires_moves s).ordered (txLimitExpires_chainLawful s)) l
  | reKeyHoldoffExpiry =>
    cases h
    exact expiry_ordered _ _ _ (fun _ _ => (holdoffExpires_moves s).ordered (setTimers_chainLawful _ s rfl rfl rfl)) l
  | antennaSenseChange _ _ =>
    cases h
    exact lineChange_ordered _ _ (fun s => (antennaLinesChanged_moves s).ordered
      (fun c => senseInput_chainLawful _ _ (senseChanged_chainLawful s c))) _ l
  | settleLimit =>
    cases h
    exact expiry_ordered _ _ _ (fun _ _ => (settlePasses_moves s).ordered
      (fun c => claimHeldBack_chainLawful _ (endRetune_chainLawful _ s c))) l
  | readbackTimeout =>
    cases h
    exact expiry_ordered _ _ _ (fun _ _ => (readbackTimesOut_moves s).ordered
      (fun c => claimHeldBack_chainLawful _ (endRetune_chainLawful _ _ (setSeu_chainLawful _ s c)))) l
  | readback _ _ _ _ _ =>
    cases h; exact event_ordered _ _ ((readbackArrives_moves _ _ _ _ _ s).ordered (readbackArrives_chainLawful _ _ _ _ _ s)) l
  | rigSilenceExpiry =>
    cases h; exact expiry_ordered _ _ _ (fun _ _ => (rigFallsSilent_moves s).ordered (rigFallsSilent_chainLawful s)) l
  | rigByteGap _ => cases h; exact event_ordered _ _ ((rigBreak_moves _ s).ordered (rigBreak_chainLawful _ s)) l
  | rigFramingError _ => cases h; exact event_ordered _ _ ((rigBreak_moves _ s).ordered (rigBreak_chainLawful _ s)) l
  | settingFrameSent => cases h; exact event_ordered _ _ ((settingSent_moves s).ordered (settingSent_chainLawful s)) l
  | intervalTimerExpiry =>
    cases h; exact expiry_ordered _ _ _ (fun _ _ => (intervalExpires_moves s).ordered (intervalExpires_chainLawful s)) l
  | graceTimerExpiry =>
    cases h; exact expiry_ordered _ _ _ (fun _ _ => (graceExpires_moves s).ordered (graceExpires_chainLawful s)) l
  | idElementEnd =>
    cases h; exact expiry_ordered _ _ _ (fun _ _ => (elementEnds_moves _ s).ordered (elementEnds_chainLawful _ s)) l
  | interlockInputChange _ _ =>
    cases h; exact lineChange_ordered _ _ (fun s => (senseInput_moves _ s).ordered (senseInput_chainLawful _ s)) _ l
  | filterTimerExpiry i =>
    cases h
    exact expiry_ordered _ _ _ (fun _ _ => (filterExpires_moves i s).ordered
      (Moves.aside (by simp) (by simp) (by simp) (by simp) (by simp))) l
  | reflBlankingExpiry =>
    cases h
    exact expiry_ordered _ _ _ (fun _ _ => (stopBlanking_moves s).ordered
      (Moves.aside (by simp) (by simp) (by simp) (by simp) (by simp))) l
  | supokChange b =>
    cases h; exact lineChange_ordered _ _ (fun s => (supokChanged_moves b s).ordered (supokChanged_chainLawful b s)) _ l
  | supplyConfirmExpiry =>
    cases h
    refine expiry_ordered _ _ _ (fun k x => (supplyFails_moves s).ordered (supplyFails_chainLawful s ?_)) l
    unfold supplyMoment at x
    split at x
    · rename_i y; exact power _ y (by simp)
    · cases x
  | warmUpExpiry =>
    cases h
    refine expiry_ordered _ _ _ (fun k x => (makeSelfCheck_moves s).ordered (makeSelfCheck_chainLawful s ?_)) l
    unfold warmUpMoment at x
    split at x
    · rename_i y; exact power _ y (by simp)
    · cases x
  | coolDownExpiry =>
    cases h
    refine expiry_ordered _ _ _ (fun k x => ?_) l
    have free : s.tar.turn = .free := by
      unfold coolDownMoment at x
      split at x
      · rename_i y; exact power _ y (by simp)
      · cases x
    exact (enterOff_moves _ s).ordered (fun c => (enterOff_chainLawful _ s (c.quiet_of_free free) free).1)
  | restartHoldoffExpiry =>
    cases h
    refine expiry_ordered _ _ _ (fun k x => ?_) l
    have free : s.tar.turn = .free := by
      unfold holdoffMoment at x
      split at x
      · rename_i y; exact power _ y (by simp)
      · cases x
    exact (restartAllowed_moves s).ordered (setPower_chainLawful _ s free)
  | storeWriteCompletion => cases h; exact event_ordered _ _ (completeWrite_ordered s) l
  | powerOnReset => cases h; exact ordered_congr rfl rfl rfl rfl rfl (takeHold_ordered .powerOn s l)
  | pinReset => cases h; exact ordered_congr rfl rfl rfl rfl rfl (takeHold_ordered .pin s l)
  | pinResetEnd => cases h; exact leaveHold_ordered _ (ordered_congr (s := s) rfl rfl rfl rfl rfl l)
  | clockFailure => cases h; exact ordered_congr rfl rfl rfl rfl rfl (takeHold_ordered .clock s l)
  | clockRecovery => cases h; exact leaveHold_ordered _ (ordered_congr (s := s) rfl rfl rfl rfl rfl l)
  | powerOnResetEnd => cases h; exact leaveHold_ordered _ (ordered_congr (s := s) rfl rfl rfl rfl rfl l)
  | requestFrameArrival _ => cases h; exact event_ordered _ _ (frameComplete_ordered _ s) l
  | linkByteGap _ => cases h; exact event_ordered _ _ (linkBreak_ordered _ s) l
  | linkFramingError _ => cases h; exact event_ordered _ _ (linkBreak_ordered _ s) l
  | requestLengthOutOfRange _ => cases h; exact event_ordered _ _ (lengthArrives_ordered _ s) l
  | replySent => cases h; exact event_ordered _ _ (replyEnds_ordered s) l
  | noticeSent => cases h; exact event_ordered _ _ (noticeEnds_ordered s) l
  | _ => cases h; exact event_ordered _ _ (frameArrives_ordered _ s) l

end Sys2Proof.Machine
end

