-- ==== Sys2Proof/Laws/Steps.lean ====
section
/-! SUPPORT. What every command does, said once: it keeps the laws and leaves nothing to act on; and closed forms of the
shared operations that several commands end in: the end of a reset, an input that becomes ACTIVE or QUIET, a fault of the
chain, the end of a retune, the bytes of the rig port, the self-check and the supply, a change of the antenna sense. -/

set_option linter.unusedSimpArgs false

namespace Sys2Proof.Machine

/-! ## Every command -/

/-- Log entry 7: an event leaves nothing to act on. -/
theorem event_settled (f : State → State) (s : State) (h : settled s) : settled (event f s) := by
  unfold event
  split
  · exact h
  · have := settle_arisen (f s)
    unfold settled
    unfold pumpNotice sendNotice
    split <;> simpa using this

theorem expiry_settled (mo : Option Nat) (f : State → State) (s : State) (h : settled s) : settled (expiry mo f s) := by
  unfold expiry
  repeat' split
  all_goals first | exact h | exact event_settled _ _ h

theorem lineChange_settled (x) (f : State → State) (s : State) (h : settled s) : settled (lineChange x f s) := by
  unfold lineChange; split
  · exact h
  · exact event_settled _ _ h
theorem cutWrite_settled (s : State) (h : settled s) : settled (cutWrite s) := by
  unfold cutWrite; split <;> exact h

theorem takeHold_settled (k : ResetKind) (s : State) (h : settled s) : settled (takeHold k s) := cutWrite_settled s h

theorem leaveHold_settled (s : State) (h : settled s) : settled (leaveHold s) := by
  unfold leaveHold resetEnds; split
  · exact h
  · split
    · exact h
    · have := settle_arisen (senseAll (reportDamage (resetBlocks ‹_› (cutWrite s))))
      unfold settled
      unfold pumpNotice sendNotice
      split <;> simpa using this

/-- Log entry 7: no command leaves an input change to act on. -/
theorem exec_settled (c : Instr) (s t : State) (h : exec c s = .next t) (l : settled s) : settled t := by
  cases c <;> (simp only [exec] at h; injection h with h; subst h)
  all_goals first
    | exact event_settled _ _ l
    | exact expiry_settled _ _ _ l
    | exact lineChange_settled _ _ _ l
    | exact leaveHold_settled _ l
    | exact takeHold_settled .powerOn _ l


theorem expiry_lawful_of (mo : Option Nat) (f : State → State) (h : ∀ s, lawful s → lawful (f s)) (s : State) (l : lawful s) :
    lawful (expiry mo f s) := by
  unfold expiry
  repeat' split
  all_goals first | exact l | exact event_lawful _ s (fun l => h _ l) l

/-- Every command keeps the laws of the records and of the turn. -/
theorem exec_lawful (c : Instr) (s t : State) (h : exec c s = .next t) (l : lawful s) : lawful t := by
  cases c with
  | req _ _ _ _ _ => cases h; exact event_lawful _ _ (frameArrives_lawful _ _) l
  | rel _ _ => cases h; exact event_lawful _ _ (frameArrives_lawful _ _) l
  | brkMember _ _ _ => cases h; exact event_lawful _ _ (frameArrives_lawful _ _) l
  | brkAuthority _ _ => cases h; exact event_lawful _ _ (frameArrives_lawful _ _) l
  | qst _ _ => cases h; exact event_lawful _ _ (frameArrives_lawful _ _) l
  | qrd _ => cases h; exact event_lawful _ _ (frameArrives_lawful _ _) l
  | cls _ _ => cases h; exact event_lawful _ _ (frameArrives_lawful _ _) l
  | mwr _ _ _ _ _ _ _ _ => cases h; exact event_lawful _ _ (frameArrives_lawful _ _) l
  | mrd _ _ => cases h; exact event_lawful _ _ (frameArrives_lawful _ _) l
  | pfw _ _ _ _ => cases h; exact event_lawful _ _ (frameArrives_lawful _ _) l
  | pfr _ _ => cases h; exact event_lawful _ _ (frameArrives_lawful _ _) l
  | susSuspend _ _ => cases h; exact event_lawful _ _ (frameArrives_lawful _ _) l
  | susReinstate _ _ => cases h; exact event_lawful _ _ (frameArrives_lawful _ _) l
  | qrf _ _ => cases h; exact event_lawful _ _ (frameArrives_lawful _ _) l
  | wchOn _ _ => cases h; exact event_lawful _ _ (frameArrives_lawful _ _) l
  | wchOff _ _ => cases h; exact event_lawful _ _ (frameArrives_lawful _ _) l
  | key _ _ => cases h; exact event_lawful _ _ (frameArrives_lawful _ _) l
  | unk _ _ => cases h; exact event_lawful _ _ (frameArrives_lawful _ _) l
  | hld _ _ => cases h; exact event_lawful _ _ (frameArrives_lawful _ _) l
  | fcl _ => cases h; exact event_lawful _ _ (frameArrives_lawful _ _) l
  | tun _ _ _ _ _ _ => cases h; exact event_lawful _ _ (frameArrives_lawful _ _) l
  | anw _ _ _ _ _ _ => cases h; exact event_lawful _ _ (frameArrives_lawful _ _) l
  | anr _ _ => cases h; exact event_lawful _ _ (frameArrives_lawful _ _) l
  | idw _ _ _ => cases h; exact event_lawful _ _ (frameArrives_lawful _ _) l
  | idr _ => cases h; exact event_lawful _ _ (frameArrives_lawful _ _) l
  | icl _ => cases h; exact event_lawful _ _ (frameArrives_lawful _ _) l
  | spwUp _ => cases h; exact event_lawful _ _ (frameArrives_lawful _ _) l
  | spwDown _ => cases h; exact event_lawful _ _ (frameArrives_lawful _ _) l
  | bftOn _ => cases h; exact event_lawful _ _ (frameArrives_lawful _ _) l
  | bftOff _ => cases h; exact event_lawful _ _ (frameArrives_lawful _ _) l
  | sta _ => cases h; exact event_lawful _ _ (frameArrives_lawful _ _) l
  | tst _ => cases h; exact event_lawful _ _ (frameArrives_lawful _ _) l
  | nen _ _ => cases h; exact event_lawful _ _ (frameArrives_lawful _ _) l
  | ncl _ _ => cases h; exact event_lawful _ _ (frameArrives_lawful _ _) l
  | jrd _ => cases h; exact event_lawful _ _ (frameArrives_lawful _ _) l
  | prw _ _ => cases h; exact event_lawful _ _ (frameArrives_lawful _ _) l
  | prr _ => cases h; exact event_lawful _ _ (frameArrives_lawful _ _) l
  | run _ => cases h; exact event_lawful _ _ (frameArrives_lawful _ _) l
  | set _ => cases h; exact event_lawful _ _ (frameArrives_lawful _ _) l
  | rst _ => cases h; exact event_lawful _ _ (frameArrives_lawful _ _) l
  | unknownKindRequest _ _ _ _ => cases h; exact event_lawful _ _ (frameArrives_lawful _ _) l
  | requestFrameArrival _ => cases h; exact event_lawful _ _ (frameComplete_lawful _ _) l
  | linkByteGap _ => cases h; exact event_lawful _ _ (linkBreak_lawful _ _) l
  | linkFramingError _ => cases h; exact event_lawful _ _ (linkBreak_lawful _ _) l
  | replySent => cases h; exact event_lawful _ _ (replyEnds_lawful _) l
  | noticeSent => cases h; exact event_lawful _ _ (noticeEnds_lawful _) l
  | linkSupervisionExpiry => cases h; exact expiry_lawful_of _ _ loseLink_lawful _ l
  | offerDeadline => cases h; exact expiry_lawful _ _ (endTurn_moves _) _ l
  | turnDeadline => cases h; exact expiry_lawful _ _ (turnDeadlinePasses_moves) _ l
  | idleDeadline => cases h; exact expiry_lawful _ _ (endTurn_moves _) _ l
  | entryExpiry _ => cases h; exact expiry_lawful _ _ (removeEntry_moves _) _ l
  | allowanceExhausted => cases h; exact expiry_lawful_of _ _ allowanceRunsOut_lawful _ l
  | watchExpiry => cases h; exact expiry_lawful _ _ (endWatch_moves) _ l
  | amprdyChange _ => cases h; exact lineChange_lawful _ _ (amprdyChanged_moves _) _ l
  | txcChange _ => cases h; exact lineChange_lawful _ _ (txcChanged_moves _) _ l
  | ampReadyLatestBound => cases h; exact expiry_lawful _ _ (chainFault_moves _) _ l
  | txConfirmLatestBound => cases h; exact expiry_lawful _ _ (chainFault_moves _) _ l
  | txDropLimit => cases h; exact expiry_lawful _ _ (chainFault_moves _) _ l
  | ampHoldExpiry => cases h; exact expiry_lawful _ _ (completeKeyDown_moves) _ l
  | deadManExpiry => cases h; exact expiry_lawful _ _ (deadManExpires_moves) _ l
  | transmissionLimitExpiry => cases h; exact expiry_lawful _ _ (txLimitExpires_moves) _ l
  | reKeyHoldoffExpiry => cases h; exact expiry_lawful _ _ (holdoffExpires_moves) _ l
  | antennaSenseChange _ _ => cases h; exact lineChange_lawful _ _ (antennaLinesChanged_moves) _ l
  | settleLimit => cases h; exact expiry_lawful _ _ (settlePasses_moves) _ l
  | readbackTimeout => cases h; exact expiry_lawful _ _ (readbackTimesOut_moves) _ l
  | readback _ _ _ _ _ => cases h; exact event_lawful _ _ (fun l => (readbackArrives_moves _ _ _ _ _ _).lawful l) l
  | rigSilenceExpiry => cases h; exact expiry_lawful _ _ (rigFallsSilent_moves) _ l
  | rigByteGap _ => cases h; exact event_lawful _ _ (fun l => (rigBreak_moves _ _).lawful l) l
  | rigFramingError _ => cases h; exact event_lawful _ _ (fun l => (rigBreak_moves _ _).lawful l) l
  | settingFrameSent => cases h; exact event_lawful _ _ (fun l => (settingSent_moves _).lawful l) l
  | intervalTimerExpiry => cases h; exact expiry_lawful _ _ (intervalExpires_moves) _ l
  | graceTimerExpiry => cases h; exact expiry_lawful _ _ (graceExpires_moves) _ l
  | idElementEnd => cases h; exact expiry_lawful _ _ (elementEnds_moves _) _ l
  | interlockInputChange _ _ => cases h; exact lineChange_lawful _ _ (senseInput_moves _) _ l
  | filterTimerExpiry _ => cases h; exact expiry_lawful _ _ (filterExpires_moves _) _ l
  | reflBlankingExpiry => cases h; exact expiry_lawful _ _ (stopBlanking_moves) _ l
  | supokChange _ => cases h; exact lineChange_lawful _ _ (supokChanged_moves _) _ l
  | supplyConfirmExpiry => cases h; exact expiry_lawful _ _ (supplyFails_moves) _ l
  | warmUpExpiry => cases h; exact expiry_lawful _ _ (makeSelfCheck_moves) _ l
  | coolDownExpiry => cases h; exact expiry_lawful _ _ (enterOff_moves _) _ l
  | restartHoldoffExpiry => cases h; exact expiry_lawful _ _ (restartAllowed_moves) _ l
  | storeWriteCompletion => cases h; exact event_lawful _ _ (completeWrite_lawful _) l
  | powerOnReset => cases h; exact setHold_lawful _ _ _ _ (takeHold_lawful _ _ l)
  | pinReset => cases h; exact setLines_lawful _ _ (takeHold_lawful _ _ l)
  | pinResetEnd => cases h; exact leaveHold_lawful _ (setLines_lawful _ _ l)
  | clockFailure => cases h; exact setHold_lawful _ _ _ _ (takeHold_lawful _ _ l)
  | clockRecovery => cases h; exact leaveHold_lawful _ (setHold_lawful _ _ _ _ l)
  | powerOnResetEnd => cases h; exact leaveHold_lawful _ (setHold_lawful _ _ _ _ l)
  | requestLengthOutOfRange _ => cases h; exact event_lawful _ _ (lengthArrives_lawful _ _) l

/-! ## Selection -/

/-- R22: selection does nothing with the turn not FREE or while something holds it. -/
theorem runSelection_noop (s : State) (h : s.tar.turn ≠ .free ∨ selectionHeld s = true) : runSelection s = s := by
  unfold runSelection
  rcases h with h | h <;> simp [h]

/-- R22: selection does nothing with the queue empty. -/
theorem runSelection_empty (s : State) (h : s.tar.queue = []) : runSelection s = s := by
  unfold runSelection firstEligible rankedQueue ranked
  simp [h]

/-- R6: selection that has run finds nothing more to do. -/
theorem runSelection_idem (s : State) : runSelection (runSelection s) = runSelection s := by
  by_cases h : runSelection s = s
  · rw [h, h]
  · have left : (runSelection s).tar.turn ≠ .free := by
      unfold runSelection at h ⊢
      split
      · rename_i c
        rw [if_pos c] at h
        split
        · rename_i e
          rw [e] at h
          exact absurd rfl h
        · simp [offerTo]
      · rename_i c
        rw [if_neg c] at h
        exact absurd rfl h
    exact runSelection_noop _ (Or.inl left)

/-! ## Inputs that become ACTIVE or QUIET -/

/-- Log entry 7: one input that became ACTIVE or QUIET is acted on, and nothing follows from that. -/
theorem settle_one (s : State) (i : Input) (active : Bool) (t : State) (one : s.ilm.arisen = [(i, active)])
    (acted : inputBecame i active (s.setIlm { s.ilm with arisen := [] }) = t) (done : t.ilm.arisen = []) :
    settle s = t := by
  unfold settle drainLimit
  rw [drain]
  simp only [one, acted]
  have still : ∀ n, drain n t = t := by
    intro n
    cases n with
    | zero => rw [drain]; simp [State.setIlm]; rw [← done]
    | succ n => rw [drain]; simp [done]
  exact still _

/-- R125: a filter timer expires now, and what follows from the input's change leaves nothing more to act on. -/
theorem filterExpiry_now (i : Input) (active : Bool) (s t : State) (moment : Option Nat) (k : Nat)
    (reset : inReset s = false) (none_left : s.ilm.arisen = []) (h : moment = some k) (come : k ≤ s.clock)
    (turns : filterExpires i s = become i active s)
    (acted : inputBecame i active { s with ilm := { s.ilm with
      filters := s.ilm.filters.set i (if active then .active else .quiet) } } = t)
    (done : t.ilm.arisen = []) : expiry moment (filterExpires i) s = pumpNotice t := by
  rw [h]
  simp only [expiry, event, reset, come, if_true, turns]
  rw [settle_one _ i active t _ _ done]
  · rfl
  · simp [become, none_left]
  · rw [← acted]
    congr 1
    simp [become, State.setIlm]
    rw [none_left]

/-! ## The end of a reset -/

/-- R125, R142: an input whose filter is QUIET is filtered afresh. -/
theorem senseInput_of_quiet (i : Input) (s : State) (q : s.ilm.filters.get i = .quiet) (pos : 0 < s.ilm.copy.filterTimes.get i) : senseInput i s = { s with ilm := { s.ilm with filters := s.ilm.filters.set i (filterAfterReset (faultCondition i s) s.clock (s.ilm.copy.filterTimes.get i)) } } := by
  simp only [senseInput, q, filterAfterReset]
  split
  · simp [startFilter, show ¬ s.ilm.copy.filterTimes.get i = 0 by omega, setFilter]; rfl
  · have : ∀ (f : PerInput Filter) i, f.set i (f.get i) = f := by intro f i; cases i <;> rfl
    rw [← q, this]

/-- R142, R184, R189: the end of a reset in closed form. -/
theorem resetEnds_eq (kind : ResetKind) (s : State) (fp : filterTimesPositive s) : resetEnds kind s = pumpNotice (resetDone kind s) := by
  unfold resetEnds
  have hil : (reportDamage (resetBlocks kind (cutWrite s))).ilm = monitorAfterReset (loadedParams (cutWrite s).cst.records) := by
    unfold reportDamage; split <;> [split; skip] <;> simp [resetBlocks]
  have hl : (reportDamage (resetBlocks kind (cutWrite s))).lines = s.lines := by
    unfold reportDamage; split <;> [split; skip] <;> simp [resetBlocks] <;> (unfold cutWrite; split <;> rfl)
  have hk : (reportDamage (resetBlocks kind (cutWrite s))).kch.state = .idle := by
    unfold reportDamage; split <;> [split; skip] <;> simp [resetBlocks, chainAfterReset]
  have hs : (reportDamage (resetBlocks kind (cutWrite s))).spc = powerAfterReset (loadedParams (cutWrite s).cst.records) := by
    unfold reportDamage; split <;> [split; skip] <;> simp [resetBlocks]
  have e : senseAll (reportDamage (resetBlocks kind (cutWrite s))) = resetDone kind s := by
    unfold resetDone senseAll
    dsimp only
    have p := fp
    unfold filterTimesPositive at p
    generalize reportDamage (resetBlocks kind (cutWrite s)) = t at *
    generalize loadedParams (cutWrite s).cst.records = P at *
    have m1 : t.ilm.filters = PerInput.all .quiet := by rw [hil]; rfl
    have m2 : t.ilm.copy.filterTimes = P.filterTimes := by rw [hil]; rfl
    have m3 : t.ilm.blanking = none := by rw [hil]; rfl
    have p1 := p .refl; have p2 := p .ampf; have p3 := p .supok; have p4 := p .estop; have p5 := p .localKey; have p6 := p .ants
    clear fp p hil
    rw [senseInput_of_quiet .refl t (by rw [m1]; rfl) (by rw [m2]; exact p1)]
    rw [senseInput_of_quiet .ampf _ (by dsimp only; rw [m1]; rfl) (by dsimp only; rw [m2]; exact p2)]
    rw [senseInput_of_quiet .supok _ (by dsimp only; rw [m1]; rfl) (by dsimp only; rw [m2]; exact p3)]
    rw [senseInput_of_quiet .estop _ (by dsimp only; rw [m1]; rfl) (by dsimp only; rw [m2]; exact p4)]
    rw [senseInput_of_quiet .localKey _ (by dsimp only; rw [m1]; rfl) (by dsimp only; rw [m2]; exact p5)]
    rw [senseInput_of_quiet .ants _ (by dsimp only; rw [m1]; rfl) (by dsimp only; rw [m2]; exact p6)]
    simp [faultCondition, m1, m2, m3, hs, powerAfterReset, Power.confirmed, chainAtRest, hk, hl, PerInput.set, filterAfterReset, PerInput.get, PerInput.all]
  rw [e, settle_of_settled]
  simp [resetDone, hil, monitorAfterReset]

/-! ## The setting -/

/-- R95: the end of a retune, from the request it was made for. -/
theorem endRetune_eq (result : RetuneResult) (r : Requested) (tag : Option Byte) (s : State)
    (h : requested s = some (r, tag)) : endRetune result s = retuneEnded result r tag s := by
  have owner : resultOwner r s =
      if turnOpen s = true ∧ holder s = some r.requester ∧ s.tar.acceptances = r.turn then some r.requester else none := by
    simp [resultOwner, and_assoc]
  simp only [endRetune, h, retuneEnded, owner]
  rfl

/-- R102: bytes with no lead byte among them leave the hunting receiver as it is. -/
theorem rigBytes_hunting (l : List Byte) (s : State) (h : s.seu.rx = .hunting) (n : ∀ b ∈ l, b ≠ 0x69) :
    l.foldl rigByte s = s := by
  induction l with
  | nil => rfl
  | cons b l ih =>
    have e : rigByte s b = s := by
      simp only [rigByte, h]
      rw [if_neg (n b (by simp))]
    rw [List.foldl_cons, e]
    exact ih (fun x hx => n x (by simp [hx]))

/-- R102: bytes that do not complete a frame join the frame being assembled. -/
theorem rigBytes_assembling (l : List Byte) : ∀ (s : State) (got : List Byte), s.seu.rx = .assembling got →
    got.length + l.length < 10 →
    l.foldl rigByte s = { s with seu := { s.seu with rx := .assembling (got ++ l) } } := by
  induction l with
  | nil => intro s got h _; simp [← h]
  | cons b l ih =>
    intro s got h n
    simp at n
    have e : rigByte s b = s.setSeu { s.seu with rx := .assembling (got ++ [b]) } := by
      simp only [rigByte, h]
      rw [if_neg]
      simp
      omega
    rw [List.foldl_cons, e, ih _ (got ++ [b]) rfl (by simp; omega)]
    simp [State.setSeu]

/-! ## Station power -/

theorem selfCheckItems_eq (s : State) : selfCheckItems s = checkItems s := rfl

theorem checkItems_passes (s : State) : (checkItems s).passes = true ↔ checkPasses s := by
  unfold checkPasses SelfCheck.passes checkItems
  cases s.lines.supok <;> cases s.spc.barefoot <;> cases s.lines.ampf <;> cases s.lines.refl <;> cases s.lines.txc <;>
    cases s.lines.amprdy <;> cases senseConfirms s <;> simp

/-- A filter heading nowhere or toward QUIET. -/
theorem filterMoved_quiet (k : Nat) (f : Filter) :
    filterMoved false k f = .quiet ∨ ∃ j, filterMoved false k f = .headingQuiet j := by
  cases f <;> simp [filterMoved]

theorem inputMoved_get (i : Input) (b : Bool) (s : State) : (inputMoved i b s).filters.get i =
    filterMoved b (s.clock + s.ilm.copy.filterTimes.get i) (s.ilm.filters.get i) := by cases i <;> rfl

theorem movesQuietly_again (i : Input) (s t : State) (h : movesQuietly i false s) (m : t.ilm = inputMoved i false s) :
    movesQuietly i false t := by
  unfold movesQuietly inputActive at *
  rw [m, inputMoved_get]
  rcases h with h | ⟨h, _⟩
  · exact .inl h
  · right
    cases f : s.ilm.filters.get i <;> simp [f, filterMoved, Filter.isActive] at h ⊢

/-- R148, R149: the self-check, with the turn FREE. -/
theorem makeSelfCheck_eq (s : State) (free : s.tar.turn = .free) (h : movesQuietly .supok false s) :
    makeSelfCheck s = selfChecked s := by
  unfold makeSelfCheck selfChecked
  dsimp only
  rw [selfCheckItems_eq]
  have r : recordCheckItems (checkItems s) s = checkRecorded (checkItems s) s := rfl
  rw [r]
  by_cases p : checkPasses s
  · rw [if_pos ((checkItems_passes s).2 p), if_pos p, changePower_eq]
    have o : turnOpen (powerChanged .ready (some (checkItems s)) (checkRecorded (checkItems s) s)) = false := by
      simp [turnOpen, powerChanged, checkRecorded, free]
    rw [claimInterval, if_neg (by simp [o])]
  · rw [if_neg (by simpa [checkItems_passes] using p), if_neg p]
    exact enterOff_eq _ _ (by exact h)

/-- R147, R148: the supply is confirmed. -/
theorem confirmSupply_eq (s : State) (free : s.tar.turn = .free) (ok : s.lines.supok = true)
    (h : movesQuietly .supok false s) : confirmSupply s = supplyConfirmed s := by
  unfold confirmSupply supplyConfirmed
  dsimp only
  have fault : faultCondition .supok (s.setSpc { s.spc with power := .warmUp (afterSeconds s.spc.copy.warmUp s) }) = false := by
    simp [faultCondition, ok]
  rw [senseInput_inputMoved _ _ (by rw [fault]; exact h), fault]
  have e : ({ s.setSpc { s.spc with power := .warmUp (afterSeconds s.spc.copy.warmUp s) } with
      ilm := inputMoved .supok false (s.setSpc { s.spc with power := .warmUp (afterSeconds s.spc.copy.warmUp s) }) } : State) =
      { s with
        spc := { s.spc with power := .warmUp (s.clock + 1000 * s.spc.copy.warmUp) }
        ilm := inputMoved .supok false s } := rfl
  rw [e]
  by_cases b : s.spc.barefoot = true ∨ s.spc.copy.warmUp = 0
  · rw [if_pos (by simpa using b), if_pos b]
    exact makeSelfCheck_eq _ (by exact free) (movesQuietly_again .supok s _ h rfl)
  · rw [if_neg (by simpa using b), if_neg b]

theorem offEntered_supok (summary : Option SelfCheck) (s : State) : (offEntered summary s).lines = s.lines ∧
    (offEntered summary s).ilm = inputMoved .supok false s := by
  unfold offEntered
  dsimp only
  split <;> simp [identMissed, powerChanged, requestCleared]

theorem selfChecked_supok (s : State) : (selfChecked s).lines = s.lines ∧
    ((selfChecked s).ilm = s.ilm ∨ (selfChecked s).ilm = inputMoved .supok false s) := by
  unfold selfChecked
  dsimp only
  split
  · simp [powerChanged, checkRecorded]
  · have := offEntered_supok (some (checkItems s)) (checkRecorded (checkItems s) s)
    exact ⟨this.1, .inr this.2⟩

theorem supplyConfirmed_supok (s : State) : (supplyConfirmed s).lines = s.lines ∧
    (supplyConfirmed s).ilm.arisen = s.ilm.arisen ∧
    ((supplyConfirmed s).ilm.filters.get .supok = .quiet ∨ ∃ k, (supplyConfirmed s).ilm.filters.get .supok = .headingQuiet k) := by
  unfold supplyConfirmed
  dsimp only
  split
  · have := selfChecked_supok { s with
      spc := { s.spc with power := .warmUp (s.clock + 1000 * s.spc.copy.warmUp) }
      ilm := inputMoved .supok false s }
    refine ⟨this.1, ?_, ?_⟩
    · rcases this.2 with e | e <;> (rw [e]; rfl)
    · rcases this.2 with e | e
      · rw [e, inputMoved_get]; exact filterMoved_quiet _ _
      · rw [e, inputMoved_get]; exact filterMoved_quiet _ _
  · exact ⟨rfl, rfl, by rw [inputMoved_get]; exact filterMoved_quiet _ _⟩

theorem senseInput_settled (i : Input) (s : State) (fine : faultCondition i s = false)
    (q : s.ilm.filters.get i = .quiet ∨ ∃ k, s.ilm.filters.get i = .headingQuiet k) : senseInput i s = s := by
  unfold senseInput
  rcases q with q | ⟨k, q⟩ <;> rw [q] <;> simp [fine]

theorem selfChecked_arisen (s : State) : (selfChecked s).ilm.arisen = s.ilm.arisen := by
  rcases (selfChecked_supok s).2 with e | e
  · rw [e]
  · rw [e]; rfl

/-- R147: SUPOK becomes active in SUPPLY_WAIT. -/
theorem supokChanged_confirms (k : Nat) (s : State) (p : s.spc.power = .supplyWait k) (free : s.tar.turn = .free)
    (ok : s.lines.supok = true) (h : movesQuietly .supok false s) : supokChanged true s = supplyConfirmed s := by
  simp only [supokChanged, p]
  rw [confirmSupply_eq s free ok h]
  obtain ⟨l, _, q⟩ := supplyConfirmed_supok s
  exact senseInput_settled _ _ (by simp [faultCondition, l, ok]) q

/-! ## The antenna sense -/

/-- R92, R129: a sense change without a SWITCHING selection that it confirms. -/
theorem antennaLinesChanged_moved (s : State) (sw : (∀ r k, s.seu.retune ≠ .switching r k) ∨ senseConfirms s = false)
    (h : movesQuietly .ants (!chainAtRest s && !senseConfirms s) s) :
    antennaLinesChanged s = { s with ilm := inputMoved .ants (!chainAtRest s && !senseConfirms s) s } := by
  have e : senseChanged s = s := by
    unfold senseChanged
    split
    · rename_i r k q
      rcases sw with sw | sw
      · exact absurd q (sw r k)
      · rw [if_neg (by simp [sw])]
    · rfl
  unfold antennaLinesChanged
  rw [e]
  exact senseInput_inputMoved .ants s h

/-- R92, R93, R129: a sense change that confirms a SWITCHING selection. -/
theorem antennaLinesChanged_confirms (r : Requested) (k : Nat) (s : State) (sw : s.seu.retune = .switching r k)
    (c : senseConfirms s = true) (h : movesQuietly .ants false s) :
    antennaLinesChanged s = awaitingFor r { s with ilm := inputMoved .ants false s } := by
  have e : senseChanged s = awaitingFor r s := by
    simp only [senseChanged, sw, c, if_true]
    rfl
  unfold antennaLinesChanged
  rw [e]
  have fault : faultCondition .ants (awaitingFor r s) = false := by
    have : senseConfirms (awaitingFor r s) = true := c
    simp [faultCondition, this]
  rw [senseInput_inputMoved _ _ (by rw [fault]; exact h), fault]
  rfl

end Sys2Proof.Machine
end

