-- ==== Sys2Proof/Tests/Slice0.lean ====
section
/-! SUPPORT. Tests on fixed values: the well-formedness smoke, a few steps worked out from the spec, and for every
statement with hypotheses a state and operands that meet them, clause by clause. -/

set_option maxRecDepth 20000

namespace Sys2Proof.Tests

open Sys2Proof.Machine

/-! ## Ill-formed terms are refused -/

theorem test_callsign_length : (Instr.mwr 1 0 1 [65, 66, 67] 1 0 0 0).wf = false := by decide
theorem test_segment_slots : (Instr.pfw 1 0 1 [⟨1800000, 2000000, 1, 100⟩]).wf = false := by decide
theorem test_range_slots : (Instr.anw 1 0 1 1 [⟨1800000, 2000000⟩] 100).wf = false := by decide
theorem test_parameter_bytes : (Instr.prw 1 (List.replicate 42 0)).wf = false := by decide
theorem test_pattern_slots : (Instr.idw 1 1 [1]).wf = false := by decide
theorem test_kind_of_the_catalogue : (Instr.unknownKindRequest 0x48 1 0 []).wf = false := by decide
/-- The checks above are done before those below begin. -/
def memberOne : Fin 32 := ⟨1, by decide +kernel⟩

theorem test_body_too_long : (Instr.unknownKindRequest 0x49 1 0 (List.replicate 241 0)).wf = false := by decide
theorem test_frame_incomplete : (Instr.requestFrameArrival [3, 0x10, 1, 255, 0]).wf = false := by decide
theorem test_frame_length_byte : (Instr.requestFrameArrival [2, 0x10, 1, 0, 0]).wf = false := by decide
theorem test_entry_member : (Instr.entryExpiry 32).wf = false := by decide
theorem test_length_in_range : (Instr.requestLengthOutOfRange 243).wf = false := by decide
theorem test_well_formed : (Instr.requestFrameArrival [3, 0x10, 1, 255, 0, 0]).wf = true ∧
    (Instr.entryExpiry 31).wf = true ∧ (Instr.requestLengthOutOfRange 244).wf = true ∧
    (Instr.unknownKindRequest 0x2B 1 0 []).wf = true := by decide

/-! ## States -/

/-- The checks above are done before those below begin. -/
def memberTwo : Fin 32 := ⟨2, by decide +kernel⟩

/-- A CONTROL, a MEMBER and a SUPERVISED member with 3600 s, and a CONTROL member without limit on a narrow profile. -/
def slot (c : Standing) (profile allowance : Nat) : MemberSlot :=
  ⟨.enrolled ⟨[88, 89, 90], c, profile, allowance, true⟩, false, 10 * allowance⟩

/-- The station in RUN, READY and quiet, with four members, two profiles, three antennas and a pattern. -/
def ready : State := { State.reset with
  lines := { State.reset.lines with supok := true, antv := true }
  mrg := { State.reset.mrg with
    members := (((State.reset.mrg.members.set 0 (slot .control 0 3600)).set 1 (slot .member 0 3600)).set 2
      (slot .supervised 0 3600)).set 3 (slot .control 1 0)
    profiles := (State.reset.mrg.profiles.set 0 (.valid [⟨1800000, 54000000, 0xF, 1500⟩])).set 1
      (.valid [⟨7000000, 7300000, 1, 5⟩]) }
  seu := { State.reset.seu with
    confirmed := ⟨some ⟨14200000, .voice, 100⟩, true⟩
    antennas := ((State.reset.seu.antennas.set 0 (.present ⟨[⟨1800000, 54000000⟩], 1500⟩)).set 2
      (.present ⟨[⟨7000000, 7300000⟩], 4⟩)).set 3 .damaged }
  ids := { State.reset.ids with pattern := .valid [.dit, .dah] }
  spc := { State.reset.spc with power := .ready }
  ntu := ⟨0, 0, false, false, false⟩
  cst := { State.reset.cst with phase := .run } }

/-- The same in SETUP. -/
def inSetup : State := ready.setCst { ready.cst with phase := .setup }

/-- A store write in flight. -/
def writing (w : StoreWrite) : State := inSetup.setCst { inSetup.cst with writing := some ⟨w, 12⟩ }

def opened (m : Nat) (c : TurnClass) : OpenTurn := ⟨m, c, 0, 0, 12000, none, 0⟩
def offered (m : Nat) (c : TurnClass) : OfferedTurn := ⟨m, c, 0, none, 150, 0⟩
def closing (m : Nat) (c : TurnClass) : ClosingTurn := ⟨m, c, 0, 0, 0, .released⟩
def control : TurnClass := .standing .control

def isOpen : State := ready.setTurn (.opened (opened 0 control))
def isOffered : State := ready.setTurn (.offered (offered 0 control))
def isClosing : State := ready.setTurn (.closing (closing 0 control))

/-- The chain in a state for a claimant, its stage begun at 0 and due at 0. -/
def chainIn (x : ChainState) (c : Claimant) (s : State) : State :=
  s.setKch { s.kch with state := x, claimant := c, stageStart := some 0, stageTimer := some 0 }

/-- The turn is OPEN for a member of a class. -/
def openFor (m : Nat) (c : TurnClass) : State := ready.setTurn (.opened (opened m c))

/-- The holder on the air, with amplifier and transmitter confirmed. -/
def airborne : State := (chainIn .onAir .holder isOpen).setLines { isOpen.lines with amprdy := true, txc := true }

def entry (m : Nat) (c : TurnClass) : Entry := ⟨m, c, .normal, 0, none, none⟩
def queued (l : List Entry) (s : State) : State := s.setQueue l

/-- Twelve entries, the queue full. -/
def fullQueue (c : TurnClass) : List Entry := (List.range 12).map fun k => entry (k + 4) c

def sending (s : State) : State := s.setTransmitter (.notifying ⟨0, 0⟩)
def replying (s : State) : State := s.setTransmitter (.replying ⟨0x90, 7, .ok, 0, [], 0⟩)
def waitingFrames (n : Nat) (s : State) : State := s.setLp { s.lp with queue := List.replicate n ⟨1, 255, .qrd⟩ }
def receiving (l : List Byte) (s : State) : State := s.setLp { s.lp with rx := .assembling l }
def journalOf (n : Nat) : State := ready.setJournal (List.replicate n ⟨.link, false, 0⟩)
def withPower (p : Power) (s : State) : State := s.setSpc { s.spc with power := p }
def barefoot (s : State) : State := s.setSpc { s.spc with barefoot := true }
def filtering (i : Input) (f : Filter) (s : State) : State := setFilter i f s
def latching (l : PerInput Bool) (s : State) : State := s.setIlm { s.ilm with latched := l }
def at' (n : Nat) (s : State) : State := s.setClock n
def recorded (r : IdRecord) (s : State) : State := setRecord r s
def watched (m : Nat) (s : State) : State := s.setWatch (.active m 0 0)
def retuning (r : Retune) (s : State) : State := s.setSeu { s.seu with retune := r }
def noAmpHold (s : State) : State := s.setKch { s.kch with copy := { s.kch.copy with ampHold := 0 } }
def noCoolDown (s : State) : State := s.setSpc { s.spc with copy := { s.spc.copy with coolDown := 0 } }
def noWarmUp (s : State) : State := s.setSpc { s.spc with copy := { s.spc.copy with warmUp := 0 } }
def withTxc (s : State) : State := s.setLines { s.lines with txc := true }
def withAmprdy (s : State) : State := s.setLines { s.lines with amprdy := true }
def asked (s : State) : State := s.setSpc { s.spc with downRequested := true }
def wanted : Requested := ⟨⟨14200000, .voice, 100⟩, 0, 0, 0⟩

/-! ## Steps worked out from the spec -/

def after (c : Instr) (s : State) : State :=
  match exec c s with
  | .next t => t
  | _ => s

/-- The turn of the example evening (R6, R8): asked for, offered and accepted. -/
theorem test_req_is_offered : (after (.req 1 0 0 0 0) ready).tar.turn = .offered ⟨0, control, 0, none, 150, 0⟩ := by
  decide +kernel
theorem test_hld_accepts : (after (.hld 1 0) isOffered).tar.turn = .opened ⟨0, control, 0, 0, 12000, some 1200, 0⟩ := by
  decide +kernel
/-- R80, R62: key-up from AMP_UP to ON_AIR within the windows. -/
theorem test_key_begins : (after (.key 1 0) isOpen).kch.state = .ampUp := by decide +kernel
theorem test_ready_goes_to_tx_up :
    (after (.amprdyChange true) (at' 5 (chainIn .ampUp .holder isOpen))).kch.state = .txUp := by decide +kernel
theorem test_confirmed_goes_on_air : (after (.txcChange true)
    (at' 2 ((chainIn .txUp .holder isOpen).setLines { isOpen.lines with amprdy := true }))).kch.state = .onAir := by
  decide +kernel
theorem test_early_ready_is_a_fault : ((after (.amprdyChange true)
    (at' 4 (chainIn .ampUp .holder isOpen))).kch.fault.map (·.kind)) = some .ampEarly := by decide +kernel
/-- The checks above are done before those below begin. -/
def memberThree : Fin 32 := ⟨3, by decide +kernel⟩

/-- R132, R131: an emergency stop on the air. -/
theorem test_estop_trips : let t := after (.filterTimerExpiry .estop) (filtering .estop (.headingActive 0) airborne)
    t.kch.state = .idle ∧ t.ilm.latched.estop = true ∧ (outputs t).ptt = false := by decide +kernel
/-- R161: a suspended or unknown member, a wrong source. -/
theorem test_unknown_member : (after (.hld 1 31) ready).lp.tx =
    .replying (replyOf ⟨1, 31, .hld⟩ .unknownMember [] false ready) := by decide +kernel
/-- R166, R165: the link is lost, and the turn is not offered. -/
theorem test_lost_link_holds : (after .linkSupervisionExpiry
    (ready.setLp { ready.lp with supervision := some 0 })).lp.lost = true := by decide +kernel
/-- R95, R97: a retune's result has its requester as owner in the turn in which it asked, and none in a new OPEN turn. -/
theorem test_ended_turn_owns_no_result :
    let s := retuning (.awaiting wanted 1 0) isOpen
    (after .readbackTimeout s).seu.lastResult.owner = some 0 ∧
      (after .readbackTimeout (s.setTar { s.tar with acceptances := 1 })).seu.lastResult.owner = none := by decide +kernel
/-- R8: an accepted offer is another turn than the one before. -/
theorem test_acceptance_begins_a_turn : (after (.hld 1 0) isOffered).tar.acceptances = 1 := by decide +kernel
/-- R189: power-on reset and its end. -/
theorem test_power_on : after .powerOnResetEnd (after .powerOnReset airborne) = { State.reset with
    lines := airborne.lines } := by decide +kernel
/-- A step with nothing waiting is a millisecond. -/
theorem test_step_passes_time : tick ready = at' 1 ready := by decide +kernel

/-! ## The hypotheses of the statements are met -/

/-- A bound that the kernel checks here and now: the checks of the theorems above are done before those below begin. -/
def firstMember : Fin 32 := ⟨0, by decide +kernel⟩


theorem takes_at_once (s : State) (h : (inReset s = false ∧ s.lp.tx = .idle ∧ s.lp.queue = [] ∧ s.lp.lost = false ∧
    s.ilm.arisen = [])) : takesAtOnce s := h

theorem may_ask (m : Byte) (s : State) (h : ((enrolment m.toNat s).isSome = true ∧ s.cst.phase = .run ∧
    isSuspended m.toNat s = false)) : mayAsk m s := h

theorem falls_due (c : Instr) (s : State) (t : Nat)
    (h : (inReset s = false ∧ s.ilm.arisen = [] ∧ dueMoment c s = some t ∧ t ≤ s.clock)) : fallsDue c s :=
  ⟨h.1, h.2.1, t, h.2.2⟩

theorem on_the_air (o : OpenTurn) (s : State) (h : (inReset s = false ∧ s.ilm.arisen = [] ∧ s.tar.turn = .opened o ∧
    s.kch.state = .onAir ∧ s.kch.claimant = .holder ∧ s.lines.txc = true ∧ s.ilm.blanking = none)) : onTheAir o s :=
  ⟨h.1, h.2.1, h.2.2.1, h.2.2.2.1, h.2.2.2.2.1, h.2.2.2.2.2.1, .inl h.2.2.2.2.2.2⟩

theorem rests_quietly (s : State) (h : (0 < s.ilm.copy.filterTimes.refl ∧ 0 < s.ilm.copy.filterTimes.ants)) :
    restsQuietly s := ⟨.inr (.inl h.1), .inl h.2⟩

/-- The filter times of REFL, ANTS and SUPOK are above 0. -/
abbrev filtered (s : State) : Prop :=
  0 < s.ilm.copy.filterTimes.refl ∧ 0 < s.ilm.copy.filterTimes.ants ∧ 0 < s.ilm.copy.filterTimes.supok

theorem cools_quietly (s : State) (h : filtered s) : coolsQuietly s := fun _ _ => .inl h.2.2

theorem keys_up_quietly (s : State) (h : filtered s) : keysUpQuietly s :=
  ⟨.inl h.1, .inl h.2.1, fun _ => ⟨.inl h.1, cools_quietly s h⟩⟩

/-- A turn's end is quiet with filter times above 0 and the lines as the chain should find them. -/
theorem ends_quietly (s : State) (h : filtered s ∧ (s.kch.state = .onAir → s.lines.txc = true) ∧
    (s.kch.state = .txUp → s.lines.txc = false)) : endsQuietly s :=
  ⟨cools_quietly s h.1, fun _ => ⟨.inr (.inl h.1.1), h.2.1, h.2.2, fun _ =>
    ⟨rests_quietly s ⟨h.1.1, h.1.2.1⟩, fun _ => keys_up_quietly s h.1⟩⟩, fun _ => keys_up_quietly s h.1⟩

/-- The laws between the blocks with the turn OPEN in READY and no SUPERVISED turn. -/
theorem chain_lawful_open (o : OpenTurn) (s : State) (turn : s.tar.turn = .opened o) (h :
    ((s.kch.claimant = .ident ↔ idSending s = true) ∧ (s.kch.claimant = .none ↔ chainAtRest s = true) ∧
    (chainAtRest s = true → s.kch.onAirStart = none) ∧ (s.kch.state = .onAir → s.kch.onAirStart ≠ none) ∧
    (s.kch.claimant = .holder → s.kch.onAirStart ≠ none → idOwed s = true) ∧ s.spc.power = .ready ∧
    turnClass s ≠ some (.standing .supervised))) : chainLawful s := by
  obtain ⟨a, b, c, d, e, f, g⟩ := h
  refine ⟨a, ⟨b, c⟩, ⟨fun x => ?_, fun _ x => ?_⟩, ⟨d, e⟩, fun x => absurd f x, fun _ x => absurd x g⟩
  · rw [turnOpen, turn] at x; cases x
  · rw [turn] at x; cases x

theorem ready_takes : takesAtOnce ready := takes_at_once _ (by decide +kernel)
theorem setup_takes : takesAtOnce inSetup := takes_at_once _ (by decide +kernel)
/-- The checks above are done before those below begin. -/
def memberFour : Fin 32 := ⟨4, by decide +kernel⟩

theorem open_takes : takesAtOnce isOpen := takes_at_once _ (by decide +kernel)
theorem control_may_ask : mayAsk 0 ready := may_ask _ _ (by decide +kernel)

theorem meets_StepTakesTheFrontCommand : ({ ready with pending := [.tst 0] } : State).pending = .tst 0 :: [] := rfl

theorem meets_EmptyQueueLetsTimePass : ready.pending = [] ∧ inReset ready = false ∧
    ({ ready with powerHeld := true } : State).pending = [] ∧ inReset { ready with powerHeld := true } = true := by
  decide +kernel

theorem meets_TimeCountsTheHoldersAir : let last := setMember 0 { slot .control 0 3600 with remaining := 1 } airborne
    0 ≤ ready.clock ∧ ready.clock < 1 ∧ holderOnAir ready = false ∧ airborne.clock < 100 ∧ holderOnAir airborne = true ∧
    airborne.tar.turn = .opened (opened 0 control) ∧ 99 / 100 - airborne.clock / 100 = 0 ∧ isLimited 0 airborne = true ∧
    0 < 100 / 100 - airborne.clock / 100 ∧ 100 / 100 - airborne.clock / 100 < (memberSlot 0 airborne).remaining ∧
    holderOnAir last = true ∧ last.tar.turn = .opened (opened 0 control) ∧ isLimited 0 last = true ∧
    (memberSlot 0 last).remaining ≤ 100 / 100 - last.clock / 100 ∧
    holderOnAir (airborne.setTurn (.opened (opened 3 control))) = true ∧
    isLimited 3 (airborne.setTurn (.opened (opened 3 control))) = false := by decide +kernel

theorem meets_ExpiriesPassAtTheirMoment : dueMoment .offerDeadline isOffered = some 15000 ∧ isOffered.clock < 15000 ∧
    dueMoment .offerDeadline ready = none ∧ ∃ u, dueMoment .offerDeadline u ≠ none :=
  ⟨by decide +kernel, by decide +kernel, by decide +kernel, isOffered, by decide +kernel⟩

/-- The checks above are done before those below begin. -/
def memberFive : Fin 32 := ⟨5, by decide +kernel⟩

theorem meets_EveryStepKeepsTheLaws :
    let s := queued [entry 1 (.standing .member)] isOpen
    step s = .next (tick s) ∧ recordsLawful s ∧ turnsLawful s ∧ settled s := by
  refine ⟨rfl, ?_, ⟨?_, ?_, ?_, ?_, ?_⟩, ?_⟩
  · unfold recordsLawful journalBounded receiveBounded heldIsEmpty causesNamed localUnlatched; decide +kernel
  · unfold queueLawful; decide +kernel
  · unfold queuedMayWait; decide +kernel
  · intro m h
    have e : holder (queued [entry 1 (.standing .member)] isOpen) = some 0 := by decide +kernel
    rw [e, Option.some.injEq] at h
    subst h
    decide +kernel
  · unfold setupIsQuiet; decide +kernel
  · unfold writesInSetup; decide +kernel
  · unfold settled; decide +kernel

/-- The holder on the air as a run reaches it: an on-air start, and an identification OWED. -/
def owing : State := recorded (.owed 0 600000) (airborne.setKch { airborne.kch with onAirStart := some 0 })

theorem owing_lawful : chainLawful owing := chain_lawful_open (opened 0 control) _ (by decide +kernel) (by decide +kernel)

theorem meets_EveryStepKeepsTheLaws_chain : step owing = .next (tick owing) ∧ chainLawful owing ∧
    allowanceBounded owing := by
  refine ⟨rfl, owing_lawful, fun m => ?_⟩
  have small : ∀ k : Fin 32, (memberSlot k.val owing).remaining ≤ (match enrolment k.val owing with
      | some e => 10 * e.allowance
      | none => 0) := by decide +kernel
  by_cases h : m < 32
  · exact small ⟨m, h⟩
  · have e : memberSlot m owing = noMember := by
      unfold memberSlot
      rw [Vector.getElem?_eq_none (by omega)]
      rfl
    rw [e]
    exact Nat.zero_le _

theorem meets_ParameterRecordIsReadBack : Params.default.inRange = true ∧
    ({ Params.default with deadManWindow := 10, transmissionLimit := 600 } : Params).inRange = true := by decide +kernel

theorem meets_RaisedCausesJoin : State.reset.ntu.held = true ∧
    hasCause (ready.setNtu { ready.ntu with pending := 1 }).ntu.pending .grant = true ∧ ready.ntu.held = false ∧
    hasCause ready.ntu.pending .setting = false := by decide +kernel

theorem meets_JournalIsARingOf48 : (journalOf 47).journal.length < 48 ∧ (journalOf 47).journal.length ≠ 23 ∧
    (journalOf 23).journal.length = 23 ∧ (journalOf 48).journal.length = 48 ∧
    (journalOf 48).journal = ⟨.link, false, 0⟩ :: ⟨.link, false, 0⟩ :: List.replicate 46 ⟨.link, false, 0⟩ := by
  decide +kernel

theorem meets_EntriesAreRanked : (entry 0 .emergency).cls = .emergency ∧
    ({ entry 0 control with placement := .brk 3 } : Entry).cls = .standing .control ∧
    ({ entry 0 control with placement := .brk 3 } : Entry).placement = .brk 3 ∧
    (entry 0 control).cls = .standing .control ∧ (entry 0 control).placement = .normal := by decide

theorem meets_SelectionOffersTheFirstEligible :
    let q := [entry 2 (.standing .supervised), entry 1 (.standing .member)]
    isOpen.tar.turn ≠ .free ∧ selectionHeld State.reset = true ∧ ready.tar.turn = .free ∧ selectionHeld ready = false ∧
    (∀ e ∈ (queued [entry 2 (.standing .supervised)] ready).tar.queue, e.cls = .standing .supervised ∧
      ready.mrg.watch = .inactive) ∧
    rankedQueue (queued (q ++ [entry 0 control]) ready) =
      [] ++ entry 0 control :: [entry 1 (.standing .member), entry 2 (.standing .supervised)] ∧
    eligible (queued (q ++ [entry 0 control]) ready) (entry 0 control) = true ∧
    rankedQueue (ready.setTar { ready.tar with queue := q, copy := { ready.tar.copy with ranking := 5 } }) =
      [entry 2 (.standing .supervised)] ++ entry 1 (.standing .member) :: [] ∧
    eligible ready (entry 2 (.standing .supervised)) = false ∧ eligible ready (entry 1 (.standing .member)) = true := by
  decide +kernel

/-- The checks above are done before those below begin. -/
def memberSix : Fin 32 := ⟨6, by decide +kernel⟩

theorem meets_AntennaIsChosen :
    (⟨[⟨1800000, 54000000⟩], 1500⟩ : AntennaData).covers 54000000 = true ∧
    antennaData 0 ready = some ⟨[⟨1800000, 54000000⟩], 1500⟩ ∧
    (⟨[⟨1800000, 54000000⟩], 1500⟩ : AntennaData).covers 54000001 = false ∧ antennaData 1 ready = none ∧
    antennaData 3 ready = none ∧ takesAtOnce isOpen ∧ mayAsk 0 isOpen ∧ isOpen.tar.turn = .opened (opened 0 control) ∧
    modeOf 3 = some .fm ∧ antennaChoiceOf 3 = some (some 3) ∧ isOpen.kch.state = .idle ∧
    isOpen.spc.power.state ≠ .off ∧ isOpen.spc.power.state ≠ .cooling ∧
    chooseAntenna (some 3) 1800000 1500 isOpen = none ∧ antennaChoiceOf 255 = some none ∧
    chooseAntenna none 1799999 1 isOpen = none := by
  refine ⟨?_, ?_, ?_, ?_, ?_, open_takes, may_ask _ _ ?_, ?_⟩ <;> decide +kernel

theorem meets_PrivilegeIsChecked :
    let wide : Segment := ⟨1800000, 54000000, 0xF, 1500⟩
    let narrow : Segment := ⟨7000000, 7300000, 1, 5⟩
    enrolment 31 ready = none ∧ (enrolment 3 ready).map (·.profile) = some (1 : Fin 8).val ∧
    ready.mrg.profiles[1] = .valid [narrow] ∧ isSuspended 3 ready = false ∧ memberSegments 3 ready = [narrow] ∧
    memberSegments 31 ready = [] ∧ (6999999 < narrow.lower ∨ narrow.upper < 6999999) ∧
    (narrow.lower ≤ 7300000 ∧ 7300000 ≤ narrow.upper) ∧ narrow.permits .fm = false ∧ narrow.permits .cw = true ∧
    narrow.ceiling < 6 ∧ 5 ≤ narrow.ceiling ∧ antennaData 1 ready = none ∧
    antennaData 2 ready = some ⟨[⟨7000000, 7300000⟩], 4⟩ ∧ 4 < 5 ∧
    memberSegments 0 (barefoot ready) = [wide] ∧ (barefoot ready).spc.barefoot = true ∧
    ready.mrg.copy.barefootCeiling < 101 ∧ 100 ≤ ready.mrg.copy.barefootCeiling ∧ 101 ≤ wide.ceiling ∧
    ready.spc.barefoot = false ∧
    (ready.setMrg { ready.mrg with profiles := ready.mrg.profiles.set 0 .damaged }).mrg.profiles[0] = .damaged := by
  decide +kernel

theorem meets_GeneralChecksRefuse :
    carries (.unknownKindRequest 0x49 1 0 []) = some (1, 0, .unknownKind 0x49 []) ∧ takesAtOnce ready ∧
    kindUnknown (.unknownKind 0x49 []) = true ∧ carries (.hld 1 32) = some (1, 32, .hld) ∧ kindUnknown .hld = false ∧
    sourceSuits .hld 32 = false ∧ sourceSuits .hld 31 = true ∧
    carries (.mwr 1 0 1 [65] 1 0 0 0) = some (1, authority, .mwr 0 1 [65] 1 0 0 0) ∧
    (Request.mwr 0 1 [65] 1 0 0 0).shaped = false ∧ Request.hld.shaped = true ∧ memberKind .hld = true ∧
    (memberSlot 31 ready).entry = .empty ∧
    (memberSlot 0 (setMember 0 ⟨.damaged, false, 0⟩ ready)).entry = .damaged ∧
    (enrolment 0 inSetup).isSome = true ∧ phaseSuits .hld inSetup.cst.phase = false ∧ catalogueKind 0x2B = false := by
  refine ⟨?_, ready_takes, ?_⟩ <;> decide +kernel

theorem meets_EveryRequestIsReplied : carries (.jrd 9) = some (9, authority, .jrd) ∧ takesAtOnce ready ∧
    ready.lp.corruptNext = false ∧ takesAtOnce (ready.setLp { ready.lp with corruptNext := true }) := by
  refine ⟨?_, ready_takes, ?_, takes_at_once _ ?_⟩ <;> decide +kernel

theorem meets_RequestsThatWait : carries (.jrd 9) = some (9, authority, .jrd) ∧
    let lost := fun s : State => s.setLp { s.lp with lost := true }
    let s := waitingFrames 3 (sending ready)
    inReset s = false ∧ s.ilm.arisen = [] ∧ s.lp.tx ≠ .idle ∧ s.lp.queue.length < 4 ∧ s.lp.lost = false ∧
    4 ≤ (waitingFrames 4 (sending ready)).lp.queue.length ∧
    (∀ u ∈ [lost s, lost (waitingFrames 3 (sending inSetup))], u.lp.lost = true ∧ u.lp.tx ≠ .idle ∧
      u.lp.queue.length < 4 ∧ inReset u = false ∧ u.ilm.arisen = []) ∧
    (∀ u ∈ [lost (waitingFrames 3 ready), lost (waitingFrames 3 inSetup)], u.lp.lost = true ∧ u.lp.tx = .idle ∧
      u.lp.queue.length < 4 ∧ inReset u = false ∧ u.ilm.arisen = []) := by decide +kernel

theorem meets_FramesArriveOrAreDiscarded : inReset ready = false ∧ ready.ilm.arisen = [] ∧
    (waitingFrames 3 ready).lp.queue.length < 4 ∧ 4 ≤ (waitingFrames 4 ready).lp.queue.length ∧
    (let b : List Byte := [3, 0x10, 1, 255] ++ bytes2 (checkCode [3, 0x10, 1, 255]).toNat
    checkCode (b.take (b.length - 2)) = at16 b (b.length - 2)) ∧
    (let b : List Byte := [3, 0x10, 1, 255, 0, 0]
    checkCode (b.take (b.length - 2)) ≠ at16 b (b.length - 2)) ∧
    (receiving [3, 0x10] ready).lp.rx = .assembling [3, 0x10] ∧ ready.lp.rx = .hunting ∧
    (∀ b ∈ ([0xC2, 0x00] : List Byte), b ≠ 0xC3) ∧ (2 : Byte).toNat < 3 ∧ 243 < (244 : Byte).toNat := by
  decide +kernel

theorem meets_FramesArriveOrAreDiscarded_part : framePart [] ∧ framePart [243] ∧
    framePart ([3, 0x10] ++ [1, 255, 0]) ∧ (receiving [3, 0x10] ready).lp.rx = .assembling [3, 0x10] :=
  ⟨.inl rfl, .inr ⟨243, [], rfl, by decide, by decide, by decide⟩,
    .inr ⟨3, [0x10, 1, 255, 0], rfl, by decide, by decide, by decide⟩, rfl⟩

/-- The checks above are done before those below begin. -/
def memberSeven : Fin 32 := ⟨7, by decide +kernel⟩

theorem meets_SendingEnds : (replying ready).lp.tx = .replying ⟨0x90, 7, .ok, 0, [], 0⟩ ∧
    (replying ready).cst.softReset = false ∧ inReset (replying ready) = false ∧ (replying ready).ilm.arisen = [] ∧
    ((replying ready).setNtu { ready.ntu with waiting := true }).ntu.waiting = true ∧ ready.ntu.waiting = false ∧
    (replying ready).lp.queue = [] ∧ (waitingFrames 1 (replying ready)).lp.queue = ⟨1, 255, .qrd⟩ :: [] ∧
    (sending ready).lp.tx = .notifying ⟨0, 0⟩ ∧ (waitingFrames 1 (sending ready)).lp.queue = ⟨1, 255, .qrd⟩ :: [] := by
  decide +kernel

theorem meets_LinkIsLost : let t := fun s : State => s.setLp { s.lp with supervision := some 0 }
    fallsDue .linkSupervisionExpiry (t ready) ∧ endsQuietly (t ready) ∧ fallsDue .linkSupervisionExpiry (t isClosing) ∧
    endsQuietly (t isClosing) ∧ fallsDue .linkSupervisionExpiry (t (watched 0 isOffered)) ∧
    endsQuietly (t (watched 0 isOffered)) ∧ fallsDue .linkSupervisionExpiry (t owing) ∧ endsQuietly (t owing) ∧
    ready.mrg.watch = .inactive ∧ (t ready).tar.turn = .free ∧ (t isClosing).tar.turn = .closing (closing 0 control) ∧
    (t isOffered).tar.turn = .offered (offered 0 control) ∧ (t (watched 0 isOffered)).mrg.watch = .active 0 0 0 :=
  ⟨falls_due _ _ 0 (by decide +kernel), ends_quietly _ (by decide +kernel), falls_due _ _ 0 (by decide +kernel),
    ends_quietly _ (by decide +kernel), falls_due _ _ 0 (by decide +kernel), ends_quietly _ (by decide +kernel),
    falls_due _ _ 0 (by decide +kernel), ends_quietly _ (by decide +kernel), by decide +kernel⟩

theorem meets_StaAndTst : takesAtOnce ready ∧ ready.lp.corruptNext = false ∧
    takesAtOnce (ready.setLp { ready.lp with corruptNext := true }) := by
  refine ⟨ready_takes, ?_, takes_at_once _ ?_⟩ <;> decide +kernel

theorem meets_NenEnablesNclClears : takesAtOnce ready ∧ (0x1000 : Half) &&& 0xF000 ≠ 0 ∧
    (0x0FFF : Half) &&& 0xF000 = 0 ∧ ready.ntu.held = false ∧ takesAtOnce State.reset ∧ State.reset.ntu.held = true ∧
    State.reset.ntu.pending = 0 := by
  refine ⟨ready_takes, ?_, ?_, ?_, takes_at_once _ ?_, ?_⟩ <;> decide +kernel

theorem meets_JrdReadsTheOldest : takesAtOnce ready ∧ ready.journal = [] ∧ takesAtOnce (journalOf 48) ∧
    (journalOf 48).journal = ⟨.link, false, 0⟩ :: List.replicate 47 ⟨.link, false, 0⟩ := by
  refine ⟨ready_takes, ?_, takes_at_once _ ?_, ?_⟩ <;> decide +kernel

/-- A bound that the kernel checks here and now: the checks of the theorems above are done before those below begin. -/
def middleMember : Fin 32 := ⟨15, by decide +kernel⟩

theorem meets_ReadsChangeNothing : takesAtOnce inSetup ∧ inSetup.cst.writing = none ∧
    takesAtOnce (writing (.pattern [])) ∧ (writing (.pattern [])).cst.writing ≠ none ∧ (31 : Byte).toNat ≤ 31 ∧
    31 < (32 : Byte).toNat ∧ (7 : Byte).toNat ≤ 7 ∧ 7 < (8 : Byte).toNat ∧ (3 : Byte).toNat ≤ 3 ∧
    3 < (4 : Byte).toNat ∧ (enrolment (2 : Byte).toNat inSetup).isSome = true := by
  refine ⟨setup_takes, ?_, takes_at_once _ ?_, ?_⟩ <;> decide +kernel

theorem meets_WritesStartOneAtATime_members : takesAtOnce inSetup ∧ inSetup.cst.phase = .setup ∧
    inSetup.cst.writing = none ∧ (31 : Byte).toNat ≤ 31 ∧ ([65, 47, 57, 0, 0, 0, 0, 0, 0, 0] : List Byte).length = 10 ∧
    standingOf 3 = some .supervised ∧ 3 ≤ (callsignOf [65, 47, 57, 0, 0, 0, 0, 0, 0, 0]).length ∧
    (∀ b ∈ callsignOf [65, 47, 57, 0, 0, 0, 0, 0, 0, 0],
      (65 ≤ b.toNat ∧ b.toNat ≤ 90) ∨ (48 ≤ b.toNat ∧ b.toNat ≤ 57) ∨ b = 47) ∧
    (7 : Byte).toNat ≤ 7 ∧ (36000 : Half).toNat ≤ 36000 ∧
    (∀ k < 32, k ≠ 31 → ∀ e ∈ enrolment k inSetup, e.callsign ≠ [65, 47, 57]) ∧ (6 : Byte).toNat ≤ 6 ∧
    (let g : SegmentSlot := ⟨1800000, 54000000, 1, 1500⟩
    g.lower.toNat < g.upper.toNat ∧ 1800000 ≤ g.lower.toNat ∧ g.upper.toNat ≤ 54000000 ∧ g.modes &&& 0x0F ≠ 0 ∧
      1 ≤ g.ceiling.toNat ∧ g.ceiling.toNat ≤ 1500 ∧ (List.replicate 6 g).length = 6) := by
  refine ⟨setup_takes, ?_⟩
  decide +kernel

theorem meets_WritesStartOneAtATime_station :
    (let r : RangeSlot := ⟨1800000, 54000000⟩
    r.lower.toNat < r.upper.toNat ∧ 1800000 ≤ r.lower.toNat ∧ r.upper.toNat ≤ 54000000 ∧
      (List.replicate 4 r).length = 4) ∧
    (3 : Byte).toNat ≤ 3 ∧ (4 : Byte).toNat ≤ 4 ∧ 1 ≤ (1 : Half).toNat ∧ (1500 : Half).toNat ≤ 1500 ∧
    (let l : List Byte := 2 :: List.replicate 95 4
    l.length = 96 ∧ (96 : Byte).toNat ≤ 96 ∧ (∀ b ∈ l.take 96, 1 ≤ b.toNat ∧ b.toNat ≤ 4) ∧
      (∃ b ∈ l.take 96, b.toNat ≤ 2)) ∧
    (paramsBytes Params.default).length = 43 ∧ (paramsOf (paramsBytes Params.default)).inRange = true ∧
    byteAt (paramsBytes Params.default) 34 < 4 ∧
    (paramsOf (paramsBytes Params.default)).windowsOrdered = true ∧
    (5 : Byte).toNat ≤ 5 ∧ inSetup.cst.paramsDamaged = false ∧
    inSetup.cst.records.params.contents.classRanking ≠ (5 : Byte).toNat ∧
    (patternOf 1 (2 :: List.replicate 95 0)).isSome = true ∧
    takesAtOnce (writing (.pattern [])) ∧ (writing (.pattern [])).cst.writing ≠ none ∧
    (writing (.pattern [])).cst.phase = .setup := by
  refine ⟨?_, ?_, ?_, ?_, ?_, ?_, ?_, ?_, ?_, ?_, ?_, ?_, ?_, ?_, takes_at_once _ ?_, ?_⟩ <;> decide +kernel

/-- The checks above are done before those below begin. -/
def memberThirteen : Fin 32 := ⟨13, by decide +kernel⟩

theorem meets_WritesStartOneAtATime_refused_members : takesAtOnce inSetup ∧ inSetup.cst.phase = .setup ∧
    31 < (32 : Byte).toNat ∧ ((2 : Byte) ≠ 0 ∧ (2 : Byte) ≠ 1) ∧
    (∀ l ∈ ([[65, 66, 0, 67, 0, 0, 0, 0, 0, 0], [65, 66, 67, 68, 0, 0, 0, 0, 0, 0]] : List (List Byte)), l.length = 10) ∧
    (callsignOf [65, 66, 0, 67, 0, 0, 0, 0, 0, 0]).length < 3 ∧
    (∀ b ∈ ([46, 58, 64, 91] : List Byte),
      ¬ ((65 ≤ b.toNat ∧ b.toNat ≤ 90) ∨ (48 ≤ b.toNat ∧ b.toNat ≤ 57) ∨ b = 47)) ∧
    (46 : Byte) ∈ callsignOf [65, 66, 67, 46, 0, 0, 0, 0, 0, 0] ∧ standingOf 0 = none ∧ standingOf 4 = none ∧
    7 < (8 : Byte).toNat ∧ 36000 < (36001 : Half).toNat ∧
    (enrolment 0 inSetup).map (·.callsign) = some (callsignOf [88, 89, 90, 0, 0, 0, 0, 0, 0, 0]) ∧ 6 < (7 : Byte).toNat ∧
    (let g : SegmentSlot := ⟨1800000, 1800000, 0xF0, 0⟩
    (List.replicate 6 g).length = 6 ∧ g ∈ (List.replicate 6 g).take (1 : Byte).toNat ∧ g.upper.toNat ≤ g.lower.toNat ∧
      g.modes &&& 0x0F = 0 ∧ g.ceiling.toNat < 1) ∧
    (1799999 : Word).toNat < 1800000 ∧ 54000000 < (54000001 : Word).toNat ∧ 1500 < (1501 : Half).toNat := by
  exact ⟨setup_takes, by decide +kernel⟩

theorem meets_WritesStartOneAtATime_refused_station :
    3 < (4 : Byte).toNat ∧ (0 : Byte).toNat < 1 ∧ 4 < (5 : Byte).toNat ∧ (0 : Half).toNat < 1 ∧
    1500 < (1501 : Half).toNat ∧
    (let r : RangeSlot := ⟨54000000, 54000000⟩
    (List.replicate 4 r).length = 4 ∧ r ∈ (List.replicate 4 r).take (1 : Byte).toNat ∧ r.upper.toNat ≤ r.lower.toNat) ∧
    96 < (97 : Byte).toNat ∧
    (let l : List Byte := List.replicate 95 3 ++ [5]
    l.length = 96 ∧ (∃ b ∈ l.take (96 : Byte).toNat, b.toNat < 1 ∨ 4 < b.toNat) ∧
      (∀ b ∈ l.take (95 : Byte).toNat, 3 ≤ b.toNat)) ∧
    (∀ p ∈ [{ Params.default with deadManWindow := 9 },
        { Params.default with ampReadyEarliest := 60, ampReadyLatest := 60 },
        { Params.default with txConfirmEarliest := 40, txConfirmLatest := 40 }],
      (paramsBytes p).length = 43 ∧ ((paramsOf (paramsBytes p)).inRange = false ∨
        (paramsOf (paramsBytes p)).ampReadyLatest ≤ (paramsOf (paramsBytes p)).ampReadyEarliest ∨
        (paramsOf (paramsBytes p)).txConfirmLatest ≤ (paramsOf (paramsBytes p)).txConfirmEarliest)) ∧
    5 < (6 : Byte).toNat ∧
    (inSetup.setCst { inSetup.cst with paramsDamaged := true }).cst.paramsDamaged = true ∧
    inSetup.cst.records.params.contents.classRanking = (0 : Byte).toNat ∧ inSetup.cst.writing = none := by
  decide +kernel

theorem meets_StoreWriteCompletes : ∀ w ∈ ([.member 31 none, .member 31 (some ⟨[65, 66, 67], .member, 7, 36000, false⟩),
    .profile 7 [], .antenna 3 none, .antenna 3 (some ⟨[], 1⟩), .pattern [.dit], .params Params.default,
    .ranking Params.default] : List StoreWrite),
    inReset (writing w) = false ∧ (writing w).ilm.arisen = [] ∧ (writing w).cst.writing = some ⟨w, 12⟩ := by
  decide +kernel

theorem meets_ReqJoinsOrIsOffered : takesAtOnce ready ∧ mayAsk 0 ready ∧ holder ready ≠ some 0 ∧
    entryOf 0 ready = none ∧ allowanceZero 0 ready = false ∧ 10 ≤ (10 : Half).toNat ∧ (3600 : Half).toNat ≤ 3600 ∧
    60 ≤ (60 : Half).toNat ∧ emergencyPermitted 0 ready = true ∧ ready.tar.queue.length < 12 ∧
    selectionHeld ready = false ∧ ready.tar.turn = .free ∧ ready.tar.queue = [] ∧
    turnRunning ready = false ∧ selectionHeld (withPower (.off none) ready) = true ∧
    standing 2 (watched 0 ready) = some .supervised ∧ (watched 0 ready).mrg.watch ≠ .inactive := by
  exact ⟨ready_takes, control_may_ask, by decide +kernel⟩

theorem meets_ReqJoinsOrIsOffered_preempting :
    let member : TurnClass := .standing .member
    let s := isOffered.setTurn (.offered (offered 1 member))
    let t := owing.setTurn (.opened (opened 1 member))
    let u := queued (fullQueue control) (openFor 1 .emergency)
    let v := queued (fullQueue control) ready
    takesAtOnce s ∧ mayAsk 0 s ∧ endsQuietly s ∧ takesAtOnce t ∧ mayAsk 0 t ∧ endsQuietly t ∧ takesAtOnce u ∧
    mayAsk 0 u ∧ takesAtOnce v ∧ mayAsk 0 v ∧
    turnRunning s = true ∧ turnClass s ≠ some .emergency ∧ s.tar.queue.length < 12 ∧ turnRunning t = true ∧
    turnClass t ≠ some .emergency ∧ holder t ≠ some 0 ∧ holder u ≠ some 0 ∧ entryOf 0 u = none ∧
    12 ≤ u.tar.queue.length ∧ rankedQueue u = (fullQueue control).dropLast ++ [entry 15 control] ∧
    (entry 15 control).cls ≠ .emergency ∧ u.tar.turn ≠ .free ∧ turnClass u = some .emergency ∧
    v.tar.turn = .free ∧ 12 ≤ v.tar.queue.length ∧ rankedQueue v = (fullQueue control).dropLast ++ [entry 15 control] ∧
    turnRunning isClosing = false ∧ isClosing.tar.turn ≠ .free := by
  refine ⟨takes_at_once _ ?_, may_ask _ _ ?_, ends_quietly _ ?_, takes_at_once _ ?_, may_ask _ _ ?_, ends_quietly _ ?_,
    takes_at_once _ ?_, may_ask _ _ ?_, takes_at_once _ ?_, may_ask _ _ ?_, ?_⟩ <;> decide +kernel

/-- The checks above are done before those below begin. -/
def memberEight : Fin 32 := ⟨8, by decide +kernel⟩

/-- A member that is suspended, one whose entry permits no emergency, one with nothing left. -/
def suspended (m : Nat) (s : State) : State := setSuspended m true s
def spent : State := setMember 0 { slot .control 0 3600 with remaining := 0 } ready

theorem meets_ReqJoinsOrIsOffered_refused : takesAtOnce (suspended 0 ready) ∧ ready.cst.phase = .run ∧
    (enrolment 0 (suspended 0 ready)).isSome = true ∧ isSuspended 0 (suspended 0 ready) = true ∧
    ¬ ((9 : Half) = 0 ∨ (10 ≤ (9 : Half).toNat ∧ (9 : Half).toNat ≤ 3600)) ∧
    ¬ ((3601 : Half) = 0 ∨ (60 ≤ (3601 : Half).toNat ∧ (3601 : Half).toNat ≤ 3600)) ∧ holder isOpen = some 0 ∧
    (entryOf 0 (queued [entry 0 control] ready)).isSome = true ∧
    (let s := setMember 0 ⟨.enrolled ⟨[88, 89, 90], .control, 0, 0, false⟩, false, 0⟩ ready
    emergencyPermitted 0 s = false ∧ (enrolment 0 s).isSome = true ∧ allowanceZero 0 s = false) ∧
    allowanceZero 0 spent = true ∧ (enrolment 0 spent).isSome = true ∧
    12 ≤ (queued (fullQueue .emergency) ready).tar.queue.length ∧
    (∀ y ∈ (queued (fullQueue .emergency) ready).tar.queue, y.cls = .emergency) := by
  refine ⟨takes_at_once _ ?_, ?_⟩ <;> decide +kernel

theorem meets_RelByPlace : takesAtOnce ready ∧ mayAsk 0 ready ∧ takesAtOnce isOffered ∧ mayAsk 0 isOffered ∧
    endsQuietly isOffered ∧ takesAtOnce isOpen ∧ mayAsk 0 isOpen ∧ endsQuietly isOpen ∧ takesAtOnce owing ∧
    mayAsk 0 owing ∧ endsQuietly owing ∧ takesAtOnce isClosing ∧ mayAsk 0 isClosing ∧ holder ready ≠ some 0 ∧
    (entryOf 0 (queued [entry 0 control] ready)).isSome = true ∧ entryOf 0 ready = none ∧
    isOffered.tar.turn = .offered (offered 0 control) ∧ isOpen.tar.turn = .opened (opened 0 control) ∧
    owing.tar.turn = .opened (opened 0 control) ∧ isClosing.tar.turn = .closing (closing 0 control) := by
  refine ⟨ready_takes, control_may_ask, takes_at_once _ ?_, may_ask _ _ ?_, ends_quietly _ ?_, open_takes, may_ask _ _ ?_,
    ends_quietly _ ?_, takes_at_once _ ?_, may_ask _ _ ?_, ends_quietly _ ?_, takes_at_once _ ?_, may_ask _ _ ?_, ?_⟩ <;>
    decide +kernel

/-- The checks above are done before those below begin. -/
def memberFourteen : Fin 32 := ⟨14, by decide +kernel⟩

theorem meets_BrkEndsAndPlaces : takesAtOnce isOpen ∧ mayAsk 3 isOpen ∧ endsQuietly isOpen ∧ takesAtOnce isClosing ∧
    mayAsk 3 isClosing ∧ takesAtOnce owing ∧ endsQuietly owing ∧ turnRunning isOpen = true ∧
    standing 3 isOpen = some .control ∧ holder isOpen ≠ some 3 ∧ turnClass isOpen ≠ some .emergency ∧
    turnRunning owing = true ∧ isClosing.tar.turn = .closing (closing 0 control) ∧ ready.tar.turn = .free ∧
    allowanceZero 3 isClosing = false ∧ entryOf 3 isClosing = none ∧ isClosing.tar.queue.length < 12 ∧
    entryOf 3 (queued [entry 3 control] isClosing) = some (entry 3 control) ∧
    (entry 3 control).placement ≠ .brk 0 ∧
    entryOf 3 (queued [{ entry 3 control with placement := .brk 0 }] isClosing) =
      some { entry 3 control with placement := .brk 0 } := by
  refine ⟨open_takes, may_ask _ _ ?_, ends_quietly _ ?_, takes_at_once _ ?_, may_ask _ _ ?_, takes_at_once _ ?_,
    ends_quietly _ ?_, ?_⟩ <;> decide +kernel

theorem meets_BrkEndsAndPlaces_refused : takesAtOnce isOffered ∧ endsQuietly isOffered ∧ isOffered.cst.phase = .run ∧
    turnRunning isOffered = true ∧ isSuspended 3 (suspended 3 ready) = true ∧ standing 1 ready ≠ some .control ∧
    holder isOpen = some 0 ∧
    (let s := openFor 1 .emergency
    turnRunning s = true ∧ turnClass s = some .emergency ∧ holder s ≠ some 0 ∧ standing 0 s = some .control) ∧
    allowanceZero 0 spent = true ∧ standing 0 spent = some .control ∧ turnRunning spent = false ∧
    entryOf 0 (queued (fullQueue control) ready) = none ∧ allowanceZero 0 ready = false ∧
    12 ≤ (queued (fullQueue control) ready).tar.queue.length := by
  refine ⟨takes_at_once _ ?_, ends_quietly _ ?_, ?_⟩ <;> decide +kernel

theorem meets_TurnAndQueueDeadlinesPass :
    let s := at' 15000 isOffered
    let t := isOpen.setTurn (.opened { opened 0 control with idleDeadline := some 0 })
    let u := at' 1200000 isOpen
    let v := queued [entry 1 (.standing .member)] (at' 1200000 owing)
    let w := queued [{ entry 1 (.standing .member) with expiry := some 0 }] ready
    fallsDue .offerDeadline s ∧ endsQuietly s ∧ fallsDue .idleDeadline t ∧ endsQuietly t ∧ fallsDue .turnDeadline u ∧
    fallsDue .turnDeadline v ∧ endsQuietly v ∧ fallsDue (.entryExpiry 1) w ∧ holderKeyed t = false ∧
    u.tar.turn = .opened (opened 0 control) ∧ (∀ e ∈ u.tar.queue, eligible u e = false) ∧
    v.tar.turn = .opened (opened 0 control) ∧ (∃ e ∈ v.tar.queue, eligible v e = true) := by
  refine ⟨falls_due _ _ 15000 ?_, ends_quietly _ ?_, falls_due _ _ 0 ?_, ends_quietly _ ?_, falls_due _ _ 1200000 ?_,
    falls_due _ _ 1200000 ?_, ends_quietly _ ?_, falls_due _ _ 0 ?_, ?_⟩ <;> decide +kernel

/-- A bound that the kernel checks here and now: the checks of the theorems above are done before those below begin. -/
def upperMember : Fin 32 := ⟨16, by decide +kernel⟩

theorem meets_SusSuspendsAndReinstates : takesAtOnce ready ∧ takesAtOnce (watched 0 owing) ∧
    endsQuietly (watched 0 owing) ∧ takesAtOnce (suspended 1 ready) ∧ endsQuietly isOffered ∧ ready.cst.phase = .run ∧
    (enrolment 1 ready).isSome = true ∧ isSuspended 1 ready = false ∧ holder ready ≠ some 1 ∧
    ready.mrg.watch = .inactive ∧ holder (watched 0 owing) = some 0 ∧ (watched 0 owing).mrg.watch = .active 0 0 0 ∧
    isSuspended 0 (watched 0 owing) = false ∧ holder isOffered = some 0 ∧ isSuspended 1 (suspended 1 ready) = true ∧
    31 < (32 : Byte).toNat ∧ (31 : Byte).toNat ≤ 31 ∧ (memberSlot 31 ready).entry = .empty ∧
    (memberSlot 31 (setMember 31 ⟨.damaged, false, 0⟩ ready)).entry = .damaged := by
  refine ⟨ready_takes, takes_at_once _ ?_, ends_quietly _ ?_, takes_at_once _ ?_, ends_quietly _ ?_, ?_⟩ <;>
    decide +kernel

theorem meets_QrfRefills : takesAtOnce ready ∧ ready.cst.phase = .run ∧ 31 < (32 : Byte).toNat ∧ (32 : Byte) ≠ 255 ∧
    (31 : Byte).toNat ≤ 31 ∧ (memberSlot 31 ready).entry = .empty ∧
    (memberSlot 31 (setMember 31 ⟨.damaged, false, 0⟩ ready)).entry = .damaged ∧
    enrolment 3 ready = some ⟨[88, 89, 90], .control, 1, 0, true⟩ ∧
    enrolment 0 spent = some ⟨[88, 89, 90], .control, 0, 3600, true⟩ ∧ (memberSlot 0 spent).remaining ≠ 36000 ∧
    (memberSlot 0 ready).remaining = 36000 ∧
    memberSlot 0 (refillAll spent) ≠ memberSlot 0 spent ∧ refillAll ready = ready := by
  refine ⟨ready_takes, ?_⟩; decide +kernel

theorem meets_WatchBeginsAndEnds : let s := watched 0 (openFor 2 (.standing .supervised))
    takesAtOnce ready ∧ mayAsk 0 ready ∧ takesAtOnce s ∧ mayAsk 0 s ∧ endsQuietly s ∧ fallsDue .watchExpiry s ∧
    mayAsk 1 ready ∧ standing 0 ready = some .control ∧ ready.mrg.watch = .inactive ∧
    (watched 0 ready).mrg.watch = .active 0 0 0 ∧ (watched 3 ready).mrg.watch = .active 3 0 0 ∧
    s.mrg.watch = .active 0 0 0 ∧ standing 0 s = some .control ∧ turnRunning s = true ∧
    turnClass s = some (.standing .supervised) ∧ standing 1 ready ≠ some .control := by
  refine ⟨ready_takes, control_may_ask, takes_at_once _ ?_, may_ask _ _ ?_, ends_quietly _ ?_, falls_due _ _ 0 ?_,
    may_ask _ _ ?_, ?_⟩ <;> decide +kernel

theorem meets_KeyBeginsKeyUp : takesAtOnce isOpen ∧ mayAsk 0 isOpen ∧ keysUpQuietly isOpen ∧
    keysUpQuietly (barefoot isOpen) ∧ takesAtOnce isOffered ∧ mayAsk 0 isOffered ∧ keysUpQuietly isOffered ∧
    turnRunning isOffered = true ∧ holder isOffered = some 0 ∧ turnRunning isOpen = true ∧ holder isOpen = some 0 ∧
    localActive isOpen = false ∧ anyLatched isOpen = false ∧ isOpen.kch.state = .idle ∧ isOpen.spc.power = .ready ∧
    isOpen.seu.retune = .steady ∧ idSending isOpen = false ∧ isOpen.kch.holdoff = none ∧
    isOpen.seu.confirmed = ⟨some ⟨14200000, .voice, 100⟩, true⟩ ∧
    (privilege 0 ⟨14200000, .voice, 100⟩ isOpen.seu.selected isOpen).toOption = some 1500 ∧
    isOpen.lines.antv = true ∧ isOpen.lines.code = isOpen.seu.selected ∧ allowanceZero 0 isOpen = false ∧
    turnClass isOpen ≠ some (.standing .supervised) ∧ (barefoot isOpen).spc.barefoot = true ∧
    (privilege 0 ⟨14200000, .voice, 100⟩ 0 (barefoot isOpen)).toOption = some 100 := by
  refine ⟨open_takes, may_ask _ _ ?_, keys_up_quietly _ ?_, keys_up_quietly _ ?_, takes_at_once _ ?_, may_ask _ _ ?_,
    keys_up_quietly _ ?_, ?_⟩ <;> decide +kernel

/-- R63, R64: a confirmation that is active already. -/
theorem meets_KeyBeginsKeyUp_early : let s := withAmprdy isOpen
    let t := withTxc (barefoot isOpen)
    takesAtOnce s ∧ mayAsk 0 s ∧ keysUpQuietly s ∧ takesAtOnce t ∧ mayAsk 0 t ∧ keysUpQuietly t ∧
    s.lines.amprdy = true ∧ s.kch.copy.ampReadyEarliest ≠ 0 ∧ t.lines.txc = true ∧ t.kch.copy.txConfirmEarliest ≠ 0 ∧
    (after (.key 1 0) s).kch.fault.map (·.kind) = some .ampEarly ∧
    (after (.key 1 0) t).kch.fault.map (·.kind) = some .txEarly := by
  refine ⟨takes_at_once _ ?_, may_ask _ _ ?_, keys_up_quietly _ ?_, takes_at_once _ ?_, may_ask _ _ ?_,
    keys_up_quietly _ ?_, ?_⟩ <;> decide +kernel

theorem meets_KeyIsRefusedInOrder : takesAtOnce isOpen ∧ mayAsk 0 isOpen ∧ takesAtOnce isOffered ∧
    mayAsk 0 isOffered ∧ (turnRunning isOffered = true ∧ holder isOffered = some 0) ∧
    localActive (filtering .localKey .active isOpen) = true ∧ localActive isOpen = false ∧
    anyLatched (latching ⟨true, false, false, false, false, false⟩ isOpen) = true ∧
    (chainIn .faulted .none isOpen).kch.state = .faulted ∧ (withPower (.off none) isOpen).spc.power ≠ .ready ∧
    airborne.kch.state ≠ .idle ∧ (retuning (.switching wanted 0) isOpen).seu.retune ≠ .steady ∧
    idSending (recorded (.sending 0 .interval .notBegun) isOpen) = true ∧
    (isOpen.setKch { isOpen.kch with holdoff := some 9 }).kch.holdoff ≠ none ∧
    (isOpen.setSeu { isOpen.seu with confirmed := ⟨none, false⟩ }).seu.confirmed.fresh = false ∧
    privilege 0 ⟨14200000, .voice, 1501⟩ 0 isOpen = .error .power ∧
    (privilege 0 ⟨14200000, .voice, 1500⟩ 0 isOpen).toOption = some 1500 ∧
    senseConfirms (isOpen.setLines { isOpen.lines with antv := false }) = false ∧ senseConfirms isOpen = true ∧
    allowanceZero 0 (spent.setTurn isOpen.tar.turn) = true ∧ isOpen.mrg.watch = .inactive ∧
    turnClass (openFor 2 (.standing .supervised)) = some (.standing .supervised) := by
  refine ⟨open_takes, may_ask _ _ ?_, takes_at_once _ ?_, may_ask _ _ ?_, ?_, ?_, ?_, ?_, ?_, ?_, ?_, ?_, ?_, ?_, ?_, ?_⟩
  all_goals first
    | rfl
    | decide +kernel

theorem meets_UnkKeysDown :
    (∀ x ∈ [ChainState.ampUp, .txUp], let s := chainIn x .holder isOpen
      holderKeyed s = true ∧ ¬ downAtOnce s ∧ s.lines.txc = false ∧ s.kch.state ≠ .onAir) ∧
    takesAtOnce airborne ∧ mayAsk 0 airborne ∧ unblanksQuietly airborne ∧ unblanksQuietly (chainIn .txUp .holder isOpen) ∧
    takesAtOnce isOffered ∧ mayAsk 0 isOffered ∧ holderKeyed airborne = true ∧ ¬ downAtOnce airborne ∧
    airborne.tar.turn = .opened (opened 0 control) ∧ airborne.kch.state = .onAir ∧ airborne.lines.txc = true ∧
    isOpen.kch.state = .idle ∧ (chainIn .ampDown .holder isOpen).kch.state = .ampDown ∧
    (chainIn .onAir .ident isOpen).kch.claimant = .ident ∧ (chainIn .onAir .ident isOpen).kch.state ≠ .idle ∧
    isOffered.tar.turn = .offered (offered 0 control) ∧ isOffered.kch.state = .idle := by
  refine ⟨by decide +kernel, takes_at_once _ ?_, may_ask _ _ ?_, .inl ?_, .inl ?_, takes_at_once _ ?_, may_ask _ _ ?_, ?_⟩ <;>
    decide +kernel

/-- R68, R69: a key-down that comes to rest at once, with an identification DUE. -/
theorem meets_UnkKeysDown_at_once : let s := noAmpHold (chainIn .ampUp .holder (recorded (.due 0 none) isOpen))
    let t := barefoot (chainIn .txUp .holder (recorded (.due 0 none) isOpen))
    unblanksQuietly s ∧ restsQuietly s ∧ keysUpQuietly s ∧ unblanksQuietly t ∧ restsQuietly t ∧ keysUpQuietly t ∧
    downAtOnce s ∧ downAtOnce t ∧ holderKeyed s = true ∧ holderKeyed t = true ∧ t.lines.txc = false ∧
    idOwed s = true := by
  refine ⟨.inl ?_, rests_quietly _ ?_, keys_up_quietly _ ?_, .inl ?_, rests_quietly _ ?_, keys_up_quietly _ ?_, ?_⟩ <;>
    decide +kernel

/-- The checks above are done before those below begin. -/
def memberNine : Fin 32 := ⟨9, by decide +kernel⟩

theorem meets_HldHoldsTheTurn : takesAtOnce isOpen ∧ mayAsk 0 isOpen ∧ isOpen.tar.turn = .opened (opened 0 control) ∧
    isOpen.kch.deadMan = none ∧ (airborne.setKch { airborne.kch with deadMan := some 1 }).kch.deadMan ≠ none ∧
    takesAtOnce isOffered ∧ mayAsk 0 isOffered ∧ isOffered.tar.turn = .offered (offered 0 control) ∧
    isOffered.kch.deadMan = none := by
  refine ⟨open_takes, may_ask _ _ ?_, ?_, ?_, ?_, takes_at_once _ ?_, may_ask _ _ ?_, ?_⟩ <;> decide +kernel

theorem meets_HolderTestAnswers : takesAtOnce isOpen ∧ mayAsk 1 isOpen ∧ holder isOpen ≠ some 1 ∧ takesAtOnce isClosing ∧
    mayAsk 0 isClosing ∧ isClosing.tar.turn = .closing (closing 0 control) ∧ takesAtOnce (suspended 0 ready) ∧
    (enrolment 0 (suspended 0 ready)).isSome = true ∧ isSuspended 0 (suspended 0 ready) = true := by
  refine ⟨open_takes, may_ask _ _ ?_, ?_, takes_at_once _ ?_, may_ask _ _ ?_, ?_, takes_at_once _ ?_, ?_⟩ <;>
    decide +kernel

theorem meets_FclClearsAFault : let f := chainIn .faulted .none isOpen
    takesAtOnce ready ∧ ready.kch.state ≠ .faulted ∧ takesAtOnce f ∧ f.kch.state = .faulted ∧
    (f.setLines { f.lines with txc := true }).lines.txc = true ∧ f.lines.amprdy = false ∧ f.lines.txc = false ∧
    f.tar.turn = .opened (opened 0 control) ∧ (chainIn .faulted .none ready).tar.turn = .free := by
  refine ⟨ready_takes, ?_, takes_at_once _ ?_, ?_⟩ <;> decide +kernel

/-- R72, R113, R118: the FAULTED chain of an OPEN turn, its identification DUE again; the claim is taken or held back. -/
theorem meets_FclClearsAFault_due : let f := chainIn .faulted .none (recorded (.due 0 (some 60000)) isOpen)
    let cleared (s : State) : State := { heard s with kch := { s.kch with state := .idle, fault := none } }
    takesAtOnce f ∧ keysUpQuietly f ∧ f.kch.state = .faulted ∧ f.tar.turn = .opened (opened 0 control) ∧ idDue f = true ∧
    claimIsTaken (cleared f) ∧ ¬ claimIsTaken (cleared (retuning (.switching wanted 0) f)) := by
  refine ⟨takes_at_once _ ?_, keys_up_quietly _ ?_, ?_⟩ <;> decide +kernel

theorem meets_TunBeginsARetune : takesAtOnce isOpen ∧ mayAsk 0 isOpen ∧ takesAtOnce isOffered ∧ mayAsk 0 isOffered ∧
    (turnRunning isOffered = true ∧ holder isOffered = some 0 ∧ turnRunning isOpen = true ∧ holder isOpen = some 0) ∧
    modeOf 1 = some .voice ∧
    antennaChoiceOf 0 = some (some 0) ∧ 1 ≤ (1500 : Half).toNat ∧ (1500 : Half).toNat ≤ 1500 ∧
    isOpen.kch.state = .idle ∧ isOpen.spc.power.state ≠ .off ∧ isOpen.spc.power.state ≠ .cooling ∧
    chooseAntenna (some 0) 54000000 1500 isOpen = some 0 ∧
    (privilege 0 ⟨54000000, .voice, 1500⟩ 0 isOpen).toOption = some 1500 ∧ isOpen.seu.retune = .steady ∧
    requested (retuning (.switching wanted 9) isOpen) = some (wanted, none) ∧ (0 : BitVec 2) = isOpen.seu.selected ∧
    senseConfirms isOpen = true ∧ chooseAntenna (some 2) 7000000 4 isOpen = some 2 ∧
    (privilege 0 ⟨7000000, .cw, 4⟩ 2 isOpen).toOption = some 4 ∧ (2 : BitVec 2) ≠ isOpen.seu.selected ∧
    (isOpen.setLines { isOpen.lines with code := 2 }).lines.code = 2 ∧ isOpen.lines.code ≠ 2 ∧
    modeOf 4 = none ∧ antennaChoiceOf 4 = none ∧ (0 : Half).toNat < 1 ∧ 1500 < (1501 : Half).toNat ∧
    airborne.kch.state ≠ .idle ∧ (withPower (.cooling 9 true) isOpen).spc.power.state = .cooling ∧
    privilege 0 ⟨7000000, .cw, 5⟩ 2 isOpen = .error .antenna ∧ chooseAntenna (some 2) 7000000 5 isOpen = some 2 ∧
    chooseAntenna (some 3) 1800000 1500 isOffered = none ∧ chooseAntenna none 1799999 1 isOffered = none := by
  refine ⟨open_takes, may_ask _ _ ?_, takes_at_once _ ?_, may_ask _ _ ?_, ?_, ?_, ?_, ?_, ?_, ?_, ?_, ?_, ?_, ?_, ?_, ?_,
    ?_, ?_, ?_, ?_, ?_, ?_, ?_, ?_, ?_, ?_, ?_, ?_, ?_, ?_, ?_, ?_, ?_⟩
  all_goals first
    | rfl
    | decide +kernel

theorem meets_IclRemovesQuietTrips : let one := latching ⟨true, false, false, false, false, false⟩ ready
    takesAtOnce ready ∧ ready.ilm.latched = PerInput.all false ∧ takesAtOnce one ∧ one.ilm.latched.get .refl = true ∧
    one.ilm.filters.get .refl = .quiet ∧ idDue one = false ∧ (filtering .refl .active one).ilm.filters.get .refl ≠ .quiet ∧
    (let two := filtering .estop .active (latching ⟨true, false, false, true, false, false⟩ ready)
    two.ilm.latched.get .refl = true ∧ two.ilm.filters.get .refl = .quiet ∧ two.ilm.latched.get .estop = true ∧
      two.ilm.filters.get .estop ≠ .quiet) := by
  refine ⟨ready_takes, ?_, takes_at_once _ ?_, ?_⟩ <;> decide +kernel

theorem meets_SpwAndBftSetThePower : let off := withPower (.off none) ready
    takesAtOnce ready ∧ takesAtOnce owing ∧ endsQuietly (asked owing) ∧ takesAtOnce isClosing ∧
    takesAtOnce (filtering .localKey .active ready) ∧ localActive ready = false ∧ ready.ilm.latched.estop = false ∧
    (latching ⟨false, false, false, true, false, false⟩ ready).ilm.latched.estop = true ∧ off.spc.power = .off none ∧
    (off.setLines { off.lines with supok := false }).lines.supok = false ∧ off.lines.supok = true ∧
    off.tar.turn = .free ∧
    (withPower (.off (some 9)) ready).spc.power = .off (some 9) ∧
    (withPower (.warmUp 9) ready).spc.power.state = .warming ∧
    (withPower (.cooling 9 true) ready).spc.power.state = .cooling ∧ ready.spc.power = .ready ∧
    ready.spc.downRequested = false ∧ (asked isOpen).spc.downRequested = true ∧ 0 < ready.spc.copy.coolDown ∧
    ready.tar.turn = .free ∧ localActive owing = false ∧ owing.spc.power = .ready ∧ turnRunning owing = true ∧
    owing.spc.downRequested = false ∧ isClosing.tar.turn = .closing (closing 0 control) ∧ isClosing.spc.power = .ready ∧
    isClosing.spc.downRequested = false ∧ (asked isOpen).tar.turn ≠ .free ∧
    localActive (filtering .localKey .active ready) = true ∧ airborne.kch.state ≠ .idle ∧
    (barefoot ready).spc.barefoot = true := by
  refine ⟨ready_takes, takes_at_once _ ?_, ends_quietly _ ?_, takes_at_once _ ?_, takes_at_once _ ?_, ?_⟩ <;>
    decide +kernel

/-- R148, R151, R155: a cool-down and a warm-up of 0, barefoot mode, and AMPF's line active. -/
theorem meets_SpwAndBftSetThePower_at_once : let off := noWarmUp (withPower (.off none) ready)
    let faulty := barefoot (ready.setLines { ready.lines with ampf := true })
    turnsNeedPower off ∧ movesQuietly .supok false off ∧ movesQuietly .supok false (noCoolDown ready) ∧
    movesQuietly .ampf faulty.lines.ampf faulty ∧ movesQuietly .ampf false ready ∧
    off.spc.power = .off none ∧ off.lines.supok = true ∧ off.spc.copy.warmUp = 0 ∧
    (barefoot off).spc.barefoot = true ∧ (noCoolDown ready).spc.copy.coolDown = 0 ∧ faulty.lines.ampf = true ∧
    faulty.kch.state = .idle ∧ faulty.spc.power.state ≠ .warming := by
  refine ⟨fun _ => ?_, .inl ?_, .inl ?_, .inl ?_, .inl ?_, ?_⟩ <;> decide +kernel

/-- The checks above are done before those below begin. -/
def memberSeventeen : Fin 32 := ⟨17, by decide +kernel⟩

/-- The checks above are done before those below begin. -/
def memberTen : Fin 32 := ⟨10, by decide +kernel⟩

theorem meets_RunAndSetChangeThePhase : takesAtOnce inSetup ∧ inSetup.cst.phase = .setup ∧ inSetup.cst.writing = none ∧
    (inSetup.setCst { inSetup.cst with paramsDamaged := true }).cst.paramsDamaged = true ∧
    inSetup.cst.paramsDamaged = false ∧ State.reset.ids.pattern = .valid [] ∧
    inSetup.ids.pattern = .valid (.dit :: [.dah]) ∧ inSetup.tar.queue = [] ∧ ready.cst.phase = .run ∧
    isOpen.tar.turn ≠ .free ∧ ready.tar.turn = .free ∧ ready.kch.state = .idle ∧ idSending ready = false ∧
    ready.mrg.watch = .inactive ∧ (watched 3 ready).mrg.watch = .active 3 0 0 := by
  refine ⟨setup_takes, ?_⟩; decide +kernel

theorem meets_RstResetsAfterItsReply : takesAtOnce ready ∧ ready.cst.writing = none ∧
    (let s := (replying ready).setCst { ready.cst with softReset := true }
    inReset s = false ∧ s.ilm.arisen = [] ∧ s.lp.tx = .replying ⟨0x90, 7, .ok, 0, [], 0⟩ ∧ s.cst.softReset = true ∧
      filterTimesPositive s) := by
  refine ⟨ready_takes, ?_, ?_, ?_, ?_, ?_, fun i => ?_⟩
  all_goals first
    | (cases i <;> decide +kernel)
    | decide +kernel

theorem airborne_on_the_air : onTheAir (opened 0 control) airborne := on_the_air _ _ (by decide +kernel)

theorem meets_TimersEndATransmissionOrRunOut :
    (let s := (setMember 0 { slot .control 0 3600 with remaining := 1 } airborne).setUnitOwed true
    onTheAir (opened 0 control) s ∧ fallsDue .allowanceExhausted s) ∧
    (let s := airborne.setKch { airborne.kch with deadMan := some 0, txLimit := some 0 }
    onTheAir (opened 0 control) s ∧ fallsDue .deadManExpiry s ∧ fallsDue .transmissionLimitExpiry s) ∧
    (let s := recorded (.due 0 (some 0)) airborne
    onTheAir (opened 0 control) s ∧ s.ids.record = .due 0 (some 0) ∧ fallsDue .graceTimerExpiry s) ∧
    (let s := airborne.setSeu { airborne.seu with rigSilence := some 0 }
    onTheAir (opened 0 control) s ∧ s.seu.confirmed.fresh = true ∧ fallsDue .rigSilenceExpiry s) := by
  refine ⟨⟨on_the_air _ _ ?_, falls_due _ _ 0 ?_⟩, ⟨on_the_air _ _ ?_, falls_due _ _ 0 ?_, falls_due _ _ 0 ?_⟩,
    ⟨on_the_air _ _ ?_, ?_, falls_due _ _ 0 ?_⟩, on_the_air _ _ ?_, ?_, falls_due _ _ 0 ?_⟩ <;> decide +kernel

theorem meets_TimersEndATransmissionOrRunOut_at_rest :
    fallsDue .reKeyHoldoffExpiry (ready.setKch { ready.kch with holdoff := some 0 }) ∧
    fallsDue .restartHoldoffExpiry (withPower (.off (some 0)) ready) ∧
    (let s := ready.setIlm { ready.ilm with blanking := some 0 }
    fallsDue .reflBlankingExpiry s ∧ unblanksQuietly s ∧ fallsDue .reflBlankingExpiry (filtering .refl (.headingQuiet 9) s) ∧
      unblanksQuietly (filtering .refl (.headingQuiet 9) s) ∧ s.ilm.filters.refl = .quiet) ∧
    (let s := recorded (.due 0 (some 0)) ready
    s.ids.record = .due 0 (some 0) ∧ fallsDue .graceTimerExpiry s ∧ holderKeyed s = false) ∧
    (let s := ready.setSeu { ready.seu with rigSilence := some 0 }
    fallsDue .rigSilenceExpiry s ∧ holderOnAir s = false ∧ s.seu.confirmed.fresh = true ∧
      (staleSetting s).seu.confirmed.fresh = false) := by
  refine ⟨falls_due _ _ 0 ?_, falls_due _ _ 0 ?_,
    ⟨falls_due _ _ 0 ?_, .inr (.inl ?_), falls_due _ _ 0 ?_, .inr (.inl ?_), ?_⟩, ⟨?_, falls_due _ _ 0 ?_, ?_⟩,
    falls_due _ _ 0 ?_, ?_⟩ <;> decide +kernel

/-- R115: the grace timer expires in AMP_UP and in TX_UP, with and without an amp hold. -/
theorem meets_TimersEndATransmissionOrRunOut_keyed :
    ∀ s ∈ [chainIn .ampUp .holder isOpen, chainIn .txUp .holder isOpen, noAmpHold (chainIn .ampUp .holder isOpen)],
      let u := recorded (.due 0 (some 0)) s
      fallsDue .graceTimerExpiry u ∧ unblanksQuietly u ∧ restsQuietly u ∧ keysUpQuietly u := by
  have h : ∀ s ∈ [chainIn .ampUp .holder isOpen, chainIn .txUp .holder isOpen, noAmpHold (chainIn .ampUp .holder isOpen)],
      let u := recorded (.due 0 (some 0)) s
      (inReset u = false ∧ u.ilm.arisen = [] ∧ dueMoment .graceTimerExpiry u = some 0 ∧ 0 ≤ u.clock) ∧
        u.ilm.blanking = none ∧ filtered u ∧ u.tar.turn = .opened (opened 0 control) ∧ u.kch.claimant = .holder ∧
        u.ids.record = .due 0 (some 0) ∧
        (u.kch.state = .ampUp ∨ (u.kch.state = .txUp ∧ u.lines.txc = false)) := by decide +kernel
  intro s m
  obtain ⟨d, b, f, _⟩ := h s m
  exact ⟨falls_due _ _ 0 d, .inl b, rests_quietly _ ⟨f.1, f.2.1⟩, keys_up_quietly _ f⟩

/-- R67, R75: the dead-man timer's clause in AMP_UP and TX_UP, going down in stages and coming to rest at once. -/
theorem meets_TimersEndATransmissionOrRunOut_dead_man :
    ∀ s ∈ [chainIn .ampUp .holder isOpen, chainIn .txUp .holder isOpen, noAmpHold (chainIn .ampUp .holder isOpen)],
      let t := s.setKch { s.kch with deadMan := some 0 }
      let u : State := if downAtOnce t then idleAgain (opened 0 control) (keyDownDone .deadman t)
        else keyDownBegun .deadman t
      fallsDue .deadManExpiry t ∧ endsQuietly u := by
  have h : ∀ s ∈ [chainIn .ampUp .holder isOpen, chainIn .txUp .holder isOpen, noAmpHold (chainIn .ampUp .holder isOpen)],
      let t := s.setKch { s.kch with deadMan := some 0 }
      let u : State := if downAtOnce t then idleAgain (opened 0 control) (keyDownDone .deadman t)
        else keyDownBegun .deadman t
      (inReset t = false ∧ t.ilm.arisen = [] ∧ dueMoment .deadManExpiry t = some 0 ∧ 0 ≤ t.clock) ∧
        u.spc.downRequested = false ∧ holderKeyed u = false ∧ filtered u := by decide +kernel
  intro s m
  obtain ⟨d, c, k, f⟩ := h s m
  exact ⟨falls_due _ _ 0 d, fun x => absurd (c.symm.trans x) (by simp), fun x => absurd (k.symm.trans x) (by simp),
    fun _ => keys_up_quietly _ f⟩

/-- A bound that the kernel checks here and now: the checks of the theorems above are done before those below begin. -/
def lastMember : Fin 32 := ⟨31, by decide +kernel⟩

theorem meets_ChainAdvances :
    (let s := at' 5 ((chainIn .ampUp .holder isOpen).setKch { (chainIn .ampUp .holder isOpen).kch with
      stageTimer := some 5 })
    inReset s = false ∧ s.ilm.arisen = [] ∧ s.kch.state = .ampUp ∧ s.kch.stageStart = some 0 ∧
      s.kch.copy.ampReadyEarliest ≤ s.clock - 0 ∧ s.kch.stageTimer = some 5 ∧ s.clock ≤ 5 ∧ s.spc.barefoot = false ∧
      s.lines.amprdy = false ∧ s.lines.txc = false ∧ 0 < s.ilm.copy.filterTimes.refl ∧
      0 < s.ilm.copy.filterTimes.ants) ∧
    (let s := at' 2 ((chainIn .txUp .holder isOpen).setKch { (chainIn .txUp .holder isOpen).kch with
      stageTimer := some 2 })
    s.kch.state = .txUp ∧ s.kch.claimant = .holder ∧ s.kch.stageStart = some 0 ∧
      s.kch.copy.txConfirmEarliest ≤ s.clock - 0 ∧ s.kch.stageTimer = some 2 ∧ s.clock ≤ 2 ∧ s.lines.txc = false ∧
      s.seu.confirmed.fresh = true ∧ (staleSetting s).seu.confirmed.fresh = false ∧
      0 < s.ilm.copy.filterTimes.refl) ∧
    (let s := chainIn .txDown .holder (withTxc isOpen)
    s.kch.state = .txDown ∧ s.lines.txc = true ∧ s.spc.barefoot = false ∧ 0 < s.kch.copy.ampHold ∧
      (barefoot s).spc.barefoot = true) := by decide +kernel

/-- R64: TXC is active already at the entry to TX_UP. -/
theorem meets_ChainAdvances_early : let s := at' 5 (chainIn .ampUp .holder (withTxc isOpen))
    chainLawful s ∧ faultsQuietly s ∧ s.kch.state = .ampUp ∧ s.kch.copy.ampReadyEarliest ≤ s.clock - 0 ∧
    s.lines.txc = true ∧ s.lines.amprdy = false ∧ s.kch.copy.txConfirmEarliest ≠ 0 := by
  refine ⟨chain_lawful_open (opened 0 control) _ ?_ ?_, ⟨.inl ?_, cools_quietly _ ?_⟩, ?_⟩ <;> decide +kernel

theorem meets_ChainAdvances_at_rest :
    let s := chainIn .ampDown .holder isOpen
    let t := chainIn .ampDown .holder (recorded (.due 0 none) isOpen)
    let u := chainIn .txDown .holder (barefoot (recorded (.owed 0 0) (isClosing.setLines { isClosing.lines with txc := true })))
    fallsDue .ampHoldExpiry s ∧ restsQuietly s ∧ fallsDue .ampHoldExpiry t ∧ restsQuietly t ∧
    keysUpQuietly { t with kch := restedChain t, ilm := restMonitor t } ∧ restsQuietly u ∧
    keysUpQuietly { u with lines := { u.lines with txc := false }, kch := restedChain u, ilm := restMonitor u } ∧
    coolsQuietly u ∧ idOwed s = false ∧ s.kch.claimant = .holder ∧ s.kch.state = .ampDown ∧ s.tar.turn = .opened (opened 0 control) ∧
    t.kch.claimant = .holder ∧ t.tar.turn = .opened (opened 0 control) ∧ idDue t = true ∧ u.kch.claimant = .holder ∧
    u.kch.state = .txDown ∧ u.lines.txc = true ∧ u.spc.barefoot = true ∧ u.tar.turn = .closing (closing 0 control) ∧
    (noAmpHold (chainIn .txDown .holder (withTxc isOpen))).kch.copy.ampHold = 0 := by
  refine ⟨falls_due _ _ 0 ?_, rests_quietly _ ?_, falls_due _ _ 0 ?_, rests_quietly _ ?_, keys_up_quietly _ ?_,
    rests_quietly _ ?_, keys_up_quietly _ ?_, cools_quietly _ ?_, ?_⟩ <;> decide +kernel

theorem meets_FaultsReleaseTheChain : let s := at' 4 (chainIn .ampUp .holder isOpen)
    let t := at' 1 (chainIn .txUp .holder isOpen)
    let d := owing.setKch { owing.kch with state := .txDown, stageTimer := some 0 }
    chainLawful s ∧ restsQuietly s ∧ fallsDue .ampReadyLatestBound s ∧ chainLawful t ∧ restsQuietly t ∧
    fallsDue .txConfirmLatestBound t ∧ restsQuietly owing ∧ chainLawful d ∧ restsQuietly d ∧ fallsDue .txDropLimit d ∧
    coolsQuietly (asked (noCoolDown s)) ∧ inReset s = false ∧ s.ilm.arisen = [] ∧ s.kch.state = .ampUp ∧ s.spc.downRequested = false ∧ s.spc.barefoot = false ∧
    s.lines.amprdy = false ∧ s.kch.stageStart = some 0 ∧ s.clock - 0 < s.kch.copy.ampReadyEarliest ∧
    t.kch.state = .txUp ∧ t.kch.stageStart = some 0 ∧ t.clock - 0 < t.kch.copy.txConfirmEarliest ∧
    t.lines.txc = false ∧ owing.kch.state = .onAir ∧ idOwed owing = true ∧ owing.lines.amprdy = true ∧
    owing.lines.txc = true ∧ d.kch.state = .txDown ∧ idOwed d = true := by
  refine ⟨chain_lawful_open (opened 0 control) _ ?_ ?_, rests_quietly _ ?_, falls_due _ _ 0 ?_,
    chain_lawful_open (opened 0 control) _ ?_ ?_, rests_quietly _ ?_, falls_due _ _ 0 ?_, rests_quietly _ ?_,
    chain_lawful_open (opened 0 control) _ ?_ ?_, rests_quietly _ ?_, falls_due _ _ 0 ?_, cools_quietly _ ?_, ?_⟩ <;>
    decide +kernel

theorem meets_FaultsReleaseTheChain_sending :
    let s := recorded (.sending 0 .interval .notBegun) (chainIn .ampUp .ident isOpen)
    chainLawful s ∧ restsQuietly s ∧ fallsDue .ampReadyLatestBound s ∧ s.kch.state = .ampUp ∧
    s.kch.claimant = .ident := by
  refine ⟨chain_lawful_open (opened 0 control) _ ?_ ?_, rests_quietly _ ?_, falls_due _ _ 0 ?_, ?_⟩ <;> decide +kernel

/-- The checks above are done before those below begin. -/
def memberEighteen : Fin 32 := ⟨18, by decide +kernel⟩

theorem meets_IdentificationFallsDue : let s := recorded (.owed 0 0) ready
    let t := recorded (.owed 0 0) isOpen
    s.ids.record = .owed 0 0 ∧ fallsDue .intervalTimerExpiry s ∧ turnOpen s = false ∧ fallsDue .intervalTimerExpiry t ∧
    keysUpQuietly t ∧ keysUpQuietly (barefoot t) ∧ keysUpQuietly (withAmprdy t) ∧ turnOpen t = true ∧ claimIsTaken t ∧
    claimIsTaken (barefoot t) ∧ claimIsTaken (withAmprdy t) ∧ ¬ claimIsTaken (chainIn .onAir .holder t) ∧
    ¬ claimIsTaken (retuning (.switching wanted 0) t) := by
  refine ⟨?_, falls_due _ _ 0 ?_, ?_, falls_due _ _ 0 ?_, keys_up_quietly _ ?_, keys_up_quietly _ ?_,
    keys_up_quietly _ ?_, ?_⟩ <;> decide +kernel

theorem meets_IdentificationIsSent :
    (let s := at' 2 ((recorded (.sending 0 .interval .notBegun) (chainIn .txUp .ident isOpen)).setKch
      { (chainIn .txUp .ident isOpen).kch with stageTimer := some 2 })
    inReset s = false ∧ s.ilm.arisen = [] ∧ s.kch.claimant = .ident ∧ s.ids.pattern = .valid [.dit, .dah] ∧
      s.ids.record = .sending 0 .interval .notBegun ∧ s.kch.state = .txUp ∧ s.kch.stageStart = some 0 ∧
      s.kch.copy.txConfirmEarliest ≤ s.clock - 0 ∧ s.kch.stageTimer = some 2 ∧ s.clock ≤ 2 ∧ s.lines.txc = false ∧
      [Element.dit, .dah][0]? = some .dit) ∧
    (let s := at' 60 (recorded (.sending 0 .interval (.running 0 0 0)) airborne)
    dueMoment .idElementEnd (s.setTone true) = some 60 ∧ (s.setTone true).ids.tone = true) ∧
    (let s := at' 120 (recorded (.sending 0 .interval (.running 0 0 0)) airborne)
    dueMoment .idElementEnd s = some 120 ∧ s.ids.tone = false ∧ [Element.dit, .dah][0 + 1]? = some .dah) ∧
    (let s := at' 360 (recorded (.sending 0 .interval (.running 0 1 120)) (chainIn .onAir .ident airborne))
    dueMoment .idElementEnd s = some 360 ∧ s.ids.tone = false ∧ [Element.dit, .dah].length ≤ 1 + 1 ∧
      s.kch.state = .onAir ∧ s.kch.claimant = .ident ∧ s.lines.txc = true ∧ s.ilm.blanking = none) ∧
    (let s := recorded (.sending 0 .closing (.ended 0)) (chainIn .ampDown .ident isClosing)
    fallsDue .ampHoldExpiry s ∧ restsQuietly s ∧ s.tar.turn = .closing (closing 0 control) ∧
      s.ids.record = .sending 0 .closing (.ended 0) ∧ s.kch.claimant = .ident ∧ coolsQuietly s) ∧
    (let s := recorded (.sending 0 .interval (.ended 0)) (chainIn .ampDown .ident isOpen)
    fallsDue .ampHoldExpiry s ∧ restsQuietly s ∧ s.tar.turn = .opened (opened 0 control) ∧
      s.ids.record = .sending 0 .interval (.ended 0) ∧ s.kch.claimant = .ident) ∧
    (let s := recorded (.sending 0 .interval (.ended 0)) (chainIn .txDown .ident (withTxc isOpen))
    restsQuietly s ∧ inReset s = false ∧ s.ilm.arisen = [] ∧ s.kch.state = .txDown ∧ s.lines.txc = true ∧
      (barefoot s).spc.barefoot = true ∧ (noAmpHold s).kch.copy.ampHold = 0) := by
  refine ⟨?_, ?_, ?_, ?_, ⟨falls_due _ _ 0 ?_, rests_quietly _ ?_, ?_, ?_, ?_, cools_quietly _ ?_⟩,
    ⟨falls_due _ _ 0 ?_, rests_quietly _ ?_, ?_⟩, rests_quietly _ ?_, ?_⟩ <;> decide +kernel

/-- The checks above are done before those below begin. -/
def memberNineteen : Fin 32 := ⟨19, by decide +kernel⟩

theorem meets_RetunesWaitAndEnd : inReset ready = false ∧ ready.ilm.arisen = [] ∧ ready.lines.antv ≠ false ∧
    movesQuietly .ants true (filtering .ants (.headingQuiet 9) airborne) ∧ movesQuietly .ants false ready ∧
    fallsDue .settleLimit (retuning (.switching wanted 0) ready) ∧
    fallsDue .readbackTimeout (retuning (.awaiting wanted 1 0) ready) ∧
    (retuning (.switching wanted 0) ready).seu.retune = .switching wanted 0 ∧
    (let s := ready.setLines { ready.lines with antv := false }
    s.lines.antv ≠ true ∧ (0 : BitVec 2) = s.seu.selected) ∧
    chainAtRest ready = true ∧ chainAtRest airborne = false ∧ (1 : BitVec 2) ≠ airborne.seu.selected ∧
    (retuning (.awaiting wanted 1 0) ready).seu.retune = .awaiting wanted 1 0 := by
  refine ⟨?_, ?_, ?_, .inl ?_, .inl ?_, falls_due _ _ 0 ?_, falls_due _ _ 0 ?_, ?_⟩ <;> decide +kernel

/-- R95 step 4: the interval claim and the closing claim that a retune held back. -/
theorem meets_RetunesWaitAndEnd_held : let s := retuning (.switching wanted 0) (recorded (.due 0 none) isOpen)
    let t := retuning (.switching wanted 0) (recorded (.owed 0 9) isClosing)
    fallsDue .settleLimit s ∧ fallsDue .settleLimit t ∧ keysUpQuietly s ∧ keysUpQuietly t ∧ coolsQuietly s ∧
    coolsQuietly t ∧ claimIsTaken (retuneEnded .antennaFault wanted none s) ∧ idDue s = true ∧
    claimIsTaken (retuneEnded .antennaFault wanted none t) ∧ t.tar.turn = .closing (closing 0 control) ∧
    chainAtRest t = true := by
  refine ⟨falls_due _ _ 0 ?_, falls_due _ _ 0 ?_, keys_up_quietly _ ?_, keys_up_quietly _ ?_, cools_quietly _ ?_,
    cools_quietly _ ?_, ?_⟩ <;> decide +kernel

theorem meets_ReadbacksAreTaken : let right (t : Byte) (f : Word) (m : Byte) (p : Half) := checkCode (rigBytes t f m p)
    inReset ready = false ∧ ready.ilm.arisen = [] ∧ (0 : Half) ≠ right 1 14200000 1 100 ∧ modeOf 4 = none ∧
    1500 < (1501 : Half).toNat ∧ (1500 : Half).toNat ≤ 1500 ∧ modeOf 1 = some .voice ∧
    (retuning (.awaiting wanted 1 0) ready).seu.retune = .awaiting wanted 1 0 ∧ holderOnAir ready = false ∧
    keysUpQuietly ready ∧ coolsQuietly ready ∧
    (wanted.setting.frequency ≤ (14199990 : Word).toNat + 10 ∧ (14200010 : Word).toNat ≤ wanted.setting.frequency + 10 ∧
      (100 : Half).toNat ≤ wanted.setting.power) ∧
    ¬ (14200011 : Word).toNat ≤ wanted.setting.frequency + 10 ∧ ready.seu.retune = .steady ∧
    ready.seu.confirmed = ⟨some ⟨14200000, .voice, 100⟩, true⟩ ∧
    ready.seu.confirmed ≠ ⟨some ⟨14200000, .voice, 1500⟩, true⟩ ∧ onTheAir (opened 0 control) airborne ∧
    privilege 0 ⟨1799999, .voice, 100⟩ airborne.seu.selected airborne = .error .frequency ∧
    airborne.seu.confirmed = ⟨some ⟨14200000, .voice, 100⟩, true⟩ ∧
    (privilege 0 ⟨1800000, .voice, 100⟩ airborne.seu.selected airborne).toOption = some 1500 := by
  refine ⟨?_, ?_, ?_, ?_, ?_, ?_, ?_, ?_, ?_, keys_up_quietly _ ?_, cools_quietly _ ?_, ?_, ?_, ?_, ?_, ?_,
    airborne_on_the_air, ?_, ?_, ?_⟩
  all_goals first
    | rfl
    | decide +kernel

/-- The checks above are done before those below begin. -/
def memberEleven : Fin 32 := ⟨11, by decide +kernel⟩

theorem meets_RigPortReceivesAndSends : inReset ready = false ∧ ready.ilm.arisen = [] ∧ ready.seu.rx = .hunting ∧
    (∀ b ∈ ([0x68, 0x6A] : List Byte), b ≠ 0x69) ∧
    (∃ before part : List Byte, ([0x68, 0x69, 1, 2, 3, 4, 5, 6, 7, 8, 9] : List Byte) = before ++ 0x69 :: part ∧
      (∀ b ∈ before, b ≠ 0x69) ∧ part.length < 10) ∧
    (ready.setSeu { ready.seu with rx := .assembling [1, 2, 3, 4] }).seu.rx = .assembling [1, 2, 3, 4] ∧
    ([1, 2, 3, 4] : List Byte).length + ([5, 6, 7, 8, 9] : List Byte).length < 10 ∧
    (ready.setSeu { ready.seu with tx := ⟨some ⟨1, wanted.setting⟩, none⟩ }).seu.tx.sending =
      some ⟨1, wanted.setting⟩ ∧
    ready.seu.tx.sending = none :=
  ⟨by decide +kernel, by decide +kernel, by decide +kernel, by decide, ⟨[0x68], [1, 2, 3, 4, 5, 6, 7, 8, 9], rfl, by decide,
    by decide⟩, by decide +kernel⟩

theorem meets_FiltersFollowTheLines : inReset ready = false ∧ ready.ilm.arisen = [] ∧
    (∀ l ∈ [InterlockLine.refl, .ampf, .estop, .localKey], setInterlock l true ready.lines ≠ ready.lines ∧
      0 < ready.ilm.copy.filterTimes.get (lineInput l)) ∧
    fallsDue (.filterTimerExpiry .estop) (filtering .estop (.headingQuiet 0) ready) ∧
    fallsDue (.filterTimerExpiry .localKey) (filtering .localKey (.headingQuiet 0) ready) ∧ idDue ready = false ∧
    (let s := filtering .refl (.headingActive 0) (ready.setIlm { ready.ilm with
      copy := { ready.ilm.copy with reflReport := true, ampfReport := true } })
    fallsDue (.filterTimerExpiry .refl) s ∧ s.ilm.copy.reflReport = true ∧ s.ilm.copy.ampfReport = true) ∧
    (let s := filtering .localKey (.headingActive 0) owing
    fallsDue (.filterTimerExpiry .localKey) s ∧ restsQuietly s ∧ s.ilm.filters.get .localKey = .headingActive 0 ∧
      coolsQuietly (asked (noCoolDown s)) ∧ chainAtRest s = false) ∧
    chainAtRest ready = true := by
  refine ⟨?_, ?_, ?_, falls_due _ _ 0 ?_, falls_due _ _ 0 ?_, ?_, ⟨falls_due _ _ 0 ?_, ?_⟩,
    ⟨falls_due _ _ 0 ?_, rests_quietly _ ?_, ?_, cools_quietly _ ?_, ?_⟩, ?_⟩ <;> decide +kernel

theorem meets_TripsBringTheStationDown :
    (let s := filtering .refl (.headingActive 0) ready
    fallsDue (.filterTimerExpiry .refl) s ∧ s.ilm.filters.get .refl = .headingActive 0 ∧
      s.ilm.copy.reflReport = false ∧ s.ilm.copy.ampfReport = false ∧ chainAtRest s = true) ∧
    (let s := filtering .supok (.headingActive 0) owing
    fallsDue (.filterTimerExpiry .supok) s ∧ s.spc.power.state ≠ .off ∧
      0 < s.ilm.copy.filterTimes.supok ∧ 0 < s.ilm.copy.filterTimes.refl ∧ 0 < s.ilm.copy.filterTimes.ants) ∧
    (let s := asked (noCoolDown (filtering .supok (.headingActive 0) isOffered))
    coolsQuietly (filtering .supok .active s) ∧ fallsDue (.filterTimerExpiry .supok) s ∧
      s.spc.downRequested = true ∧ s.spc.copy.coolDown = 0) ∧
    (let s := filtering .estop (.headingActive 0) owing
    fallsDue (.filterTimerExpiry .estop) s ∧ s.ilm.filters.get .estop = .headingActive 0 ∧ s.ilm.blanking = none ∧
      inputActive .ants s = false) := by
  refine ⟨⟨falls_due _ _ 0 ?_, ?_⟩, ⟨falls_due _ _ 0 ?_, ?_⟩, ⟨cools_quietly _ ?_, falls_due _ _ 0 ?_, ?_⟩,
    falls_due _ _ 0 ?_, ?_⟩ <;> decide +kernel

theorem meets_PowerAdvances :
    (let s := withPower (.supplyWait 0) (ready.setLines { ready.lines with supok := false })
    turnsNeedPower s ∧ movesQuietly .supok false s ∧ fallsDue .supplyConfirmExpiry s ∧ inReset s = false ∧
      s.ilm.arisen = [] ∧ s.spc.power = .supplyWait 0 ∧ s.lines.supok = false ∧ (barefoot s).spc.barefoot = true ∧
      (noWarmUp s).spc.copy.warmUp = 0) ∧
    (let s := withPower (.warmUp 0) ready
    turnsNeedPower s ∧ movesQuietly .supok false s ∧ fallsDue .warmUpExpiry s ∧ s.spc.power = .warmUp 0 ∧
      checkPasses s ∧ ¬ checkPasses (withTxc s)) ∧
    (let s := withPower (.cooling 0 true) ready
    movesQuietly .supok false s ∧ fallsDue .coolDownExpiry s) := by
  refine ⟨⟨fun _ => ?_, .inl ?_, falls_due _ _ 0 ?_, ?_⟩, ⟨fun _ => ?_, .inl ?_, falls_due _ _ 0 ?_, ?_⟩, .inl ?_,
    falls_due _ _ 0 ?_⟩ <;> decide +kernel

/-- R125: SUPOK's filter from every state, with the supply confirmed and gone or back. -/
theorem meets_PowerAdvances_supok : ∀ f ∈ [Filter.quiet, .headingActive 9, .active, .headingQuiet 9],
    let s := filtering .supok f ready
    let t := s.setLines { s.lines with supok := false }
    movesQuietly .supok s.spc.power.confirmed s ∧ movesQuietly .supok false t ∧ s.lines.supok = true ∧
      t.lines.supok = false ∧ t.spc.power = .ready ∧ s.spc.power.confirmed = true := by
  have h : ∀ f ∈ [Filter.quiet, .headingActive 9, .active, .headingQuiet 9],
      0 < (filtering .supok f ready).ilm.copy.filterTimes.get .supok := by decide +kernel
  intro f m
  exact ⟨.inl (h f m), .inl (h f m), rfl, rfl, rfl, rfl⟩

theorem meets_OutputsFollowTheBlocks : inReset ready = false ∧ inReset { ready with powerHeld := true } = true := by
  decide +kernel

/-- R143: every input open, and the serial inputs at each level and with bytes. -/
theorem test_inputs_at_the_pins :
    let pins (l r : Option SerialPin) : InputPins := ⟨none, none, none, none, none, none, none, none, none, none, none, l, r⟩
    sensed (pins none (some (.idle .low))) =
      ⟨⟨false, false, false, false, false, false, 0, true, false, false⟩, .idle, .heldLow⟩ ∧
    (sensed (pins (some (.idle .high)) (some (.carries [0x69])))).lrxd = .idle ∧
    (sensed (pins (some (.idle .high)) (some (.carries [0x69])))).rrxd = .hears [0x69] := by decide

theorem meets_ResetsTakeHold : ready.cst.writing = none ∧
    (∀ w ∈ ([.member 31 none, .profile 7 [], .antenna 3 none, .pattern [.dit], .params Params.default,
      .ranking Params.default] : List StoreWrite), (writing w).cst.writing = some ⟨w, 12⟩) ∧ (carries (.sta 1)).isSome = true ∧
    inReset { ready with clockGood := false } = true := by decide +kernel

/-- The checks above are done before those below begin. -/
def memberTwelve : Fin 32 := ⟨12, by decide +kernel⟩

theorem meets_ResetsEnd : let s := { ready with span := some .powerOn, powerHeld := true }
    s.span = some .powerOn ∧ filterTimesPositive s ∧ inReset { s with powerHeld := false } = false ∧
    inReset { s with clockGood := true } = true := by
  refine ⟨?_, fun i => ?_, ?_⟩
  all_goals first
    | (cases i <;> decide +kernel)
    | decide +kernel

theorem meets_EveryBlockIsReset :
    storedSound paramsBytes ready.cst.records.params = true ∧
    (let s := takeHold .pin (writing (.params Params.default))
    storedSound paramsBytes s.cst.records.params = false) ∧ ResetKind.soft ≠ .powerOn := by decide +kernel

end Sys2Proof.Tests
end

section
/-! SUPPORT. The privilege check (R39, R40): the segments that contain and permit a setting, and each step of the check. -/

namespace Sys2Proof.Machine

/-! ## Segments -/

theorem Segment.contains_eq_true_iff (g : Segment) (f : Nat) : g.contains f = true ↔ g.lower ≤ f ∧ f ≤ g.upper := by
  simp [Segment.contains, within]

theorem memberSegments_of_not_enrolled {m : Nat} {s : State} (h : enrolment m s = none) : memberSegments m s = [] := by
  simp [memberSegments, h]

theorem profile_at {s : State} {n : Nat} (i : Fin 8) (h : i.val = n) : s.mrg.profiles[n]? = some s.mrg.profiles[i] := by
  subst h
  exact Vector.getElem?_eq_getElem i.isLt

theorem memberSegments_of_damaged {m : Nat} {s : State} {e : Enrolment} (enrolled : enrolment m s = some e) (i : Fin 8)
    (h : i.val = e.profile) (p : s.mrg.profiles[i] = .damaged) : memberSegments m s = [] := by
  simp only [memberSegments, enrolled, profile_at i h, p]

theorem memberSegments_of_valid {m : Nat} {s : State} {e : Enrolment} (enrolled : enrolment m s = some e) (i : Fin 8)
    (h : i.val = e.profile) {l : List Segment} (p : s.mrg.profiles[i] = .valid l) : memberSegments m s = l := by
  simp only [memberSegments, enrolled, profile_at i h, p]

/-- The segment ceiling is the least bound of the ceilings. -/
theorem segmentCeiling_le_iff (l : List Segment) (n : Nat) : segmentCeiling l ≤ n ↔ ∀ g ∈ l, g.ceiling ≤ n := by
  have start : ∀ (l : List Nat) (b : Nat), l.foldl max b ≤ n ↔ b ≤ n ∧ ∀ c ∈ l, c ≤ n := by
    intro l
    induction l with
    | nil => simp
    | cons c l ih => intro b; simp [ih, and_assoc]
  simp [segmentCeiling, start]

/-- R39 step 4: the segment ceiling is the ceiling of a highest segment. -/
theorem segmentCeiling_eq {l : List Segment} {g : Segment} (mem : g ∈ l) (highest : ∀ k ∈ l, k.ceiling ≤ g.ceiling) :
    segmentCeiling l = g.ceiling :=
  le_antisymm ((segmentCeiling_le_iff l _).2 highest) ((segmentCeiling_le_iff l _).1 le_rfl g mem)

/-- R39 steps 2 and 3: a member's segments that contain the frequency of a setting. -/
def containingSegments (m : Nat) (x : Setting) (s : State) : List Segment :=
  (memberSegments m s).filter (·.contains x.frequency)

/-- R39 steps 3 and 4: those of them that permit its mode. -/
def permittingSegments (m : Nat) (x : Setting) (s : State) : List Segment :=
  (containingSegments m x s).filter (·.permits x.mode)

theorem mem_containingSegments {m : Nat} {x : Setting} {s : State} {g : Segment} :
    g ∈ containingSegments m x s ↔ g ∈ memberSegments m s ∧ g.lower ≤ x.frequency ∧ x.frequency ≤ g.upper := by
  simp [containingSegments, Segment.contains_eq_true_iff]

theorem mem_permittingSegments {m : Nat} {x : Setting} {s : State} {g : Segment} :
    g ∈ permittingSegments m x s ↔
      (g ∈ memberSegments m s ∧ g.lower ≤ x.frequency ∧ x.frequency ≤ g.upper) ∧ g.permits x.mode = true := by
  simp [permittingSegments, mem_containingSegments]

/-! ## The steps of the privilege check -/

/-- R39 steps 4 to 7: the bounds on the power of a setting, under a segment ceiling. -/
def powerCheck (ceiling : Nat) (x : Setting) (a : BitVec 2) (s : State) : Except Reason Nat :=
  if ceiling < x.power then .error .power
  else
    match antennaData a s with
    | none => .error .antenna
    | some d =>
      if d.rating < x.power then .error .antenna
      else if s.spc.barefoot && s.mrg.copy.barefootCeiling < x.power then .error .power
      else .ok (min (min ceiling d.rating) (if s.spc.barefoot then s.mrg.copy.barefootCeiling else d.rating))

/-- R39: steps 1 to 3, and then the bounds. -/
theorem privilege_eq (m : Nat) (x : Setting) (a : BitVec 2) (s : State) :
    privilege m x a s =
      if isSuspended m s || (memberSegments m s).isEmpty then .error .frequency
      else if (containingSegments m x s).isEmpty then .error .frequency
      else if (permittingSegments m x s).isEmpty then .error .mode
      else powerCheck (segmentCeiling (permittingSegments m x s)) x a s := rfl

section
variable {m : Nat} {x : Setting} {a : BitVec 2} {s : State}

/-- R39 step 1. -/
theorem privilege_of_no_profile (h : isSuspended m s = true ∨ memberSegments m s = []) :
    privilege m x a s = .error .frequency := by
  rw [privilege_eq, if_pos (by simpa using h)]

/-- R39 step 2. -/
theorem privilege_of_not_contained
    (h : ∀ g ∈ memberSegments m s, x.frequency < g.lower ∨ g.upper < x.frequency) :
    privilege m x a s = .error .frequency := by
  have empty : containingSegments m x s = [] := List.eq_nil_iff_forall_not_mem.2 fun g mem => by
    obtain ⟨mem, lower, upper⟩ := mem_containingSegments.1 mem
    have := h g mem
    omega
  simp [privilege_eq, empty]

/-- R39 step 3. -/
theorem privilege_of_not_permitted (active : isSuspended m s = false) {g : Segment}
    (contained : g ∈ containingSegments m x s) (h : permittingSegments m x s = []) :
    privilege m x a s = .error .mode := by
  have profiled := List.ne_nil_of_mem (mem_containingSegments.1 contained).1
  simp [privilege_eq, active, profiled, List.ne_nil_of_mem contained, h]

/-- R39 step 4: a setting that a segment contains and permits is checked against the highest of these. -/
theorem privilege_of_permitted (active : isSuspended m s = false) {g : Segment}
    (permitted : g ∈ permittingSegments m x s) (highest : ∀ k ∈ permittingSegments m x s, k.ceiling ≤ g.ceiling) :
    privilege m x a s = powerCheck g.ceiling x a s := by
  have contained : g ∈ containingSegments m x s := List.mem_of_mem_filter permitted
  have profiled := List.ne_nil_of_mem (mem_containingSegments.1 contained).1
  simp [privilege_eq, active, profiled, List.ne_nil_of_mem contained, List.ne_nil_of_mem permitted,
    segmentCeiling_eq permitted highest]

variable {ceiling : Nat}

theorem powerCheck_of_ceiling_lt (h : ceiling < x.power) : powerCheck ceiling x a s = .error .power := if_pos h

theorem powerCheck_of_no_antenna (h : x.power ≤ ceiling) (absent : antennaData a s = none) :
    powerCheck ceiling x a s = .error .antenna := by
  simp [powerCheck, h.not_gt, absent]

variable {d : AntennaData}

theorem powerCheck_of_rating_lt (h : x.power ≤ ceiling) (present : antennaData a s = some d) (low : d.rating < x.power) :
    powerCheck ceiling x a s = .error .antenna := by
  simp [powerCheck, h.not_gt, present, low]

theorem powerCheck_of_barefoot_lt (h : x.power ≤ ceiling) (present : antennaData a s = some d)
    (rated : x.power ≤ d.rating) (barefoot : s.spc.barefoot = true) (low : s.mrg.copy.barefootCeiling < x.power) :
    powerCheck ceiling x a s = .error .power := by
  simp [powerCheck, h.not_gt, present, rated.not_gt, barefoot, low]

/-- R40: the effective ceiling in barefoot mode. -/
theorem powerCheck_of_barefoot (h : x.power ≤ ceiling) (present : antennaData a s = some d)
    (rated : x.power ≤ d.rating) (barefoot : s.spc.barefoot = true) (enough : x.power ≤ s.mrg.copy.barefootCeiling) :
    powerCheck ceiling x a s = .ok (min (min ceiling d.rating) s.mrg.copy.barefootCeiling) := by
  simp [powerCheck, h.not_gt, present, rated.not_gt, barefoot, enough.not_gt]

/-- R40: the effective ceiling outside barefoot mode. -/
theorem powerCheck_of_not_barefoot (h : x.power ≤ ceiling) (present : antennaData a s = some d)
    (rated : x.power ≤ d.rating) (amplified : s.spc.barefoot = false) :
    powerCheck ceiling x a s = .ok (min ceiling d.rating) := by
  simp [powerCheck, h.not_gt, present, rated.not_gt, amplified]

end

/-- Settles O15: the first three steps by the segments that contain and permit the setting, the others by `powerCheck`
under the highest of these. -/
theorem privilegeIsChecked : Obligations.PrivilegeIsChecked := by
  intro m x a s
  refine ⟨memberSegments_of_not_enrolled, fun e enrolled i h =>
    ⟨memberSegments_of_damaged enrolled i h, fun l => memberSegments_of_valid enrolled i h⟩,
    privilege_of_no_profile, fun active _ => ⟨privilege_of_not_contained, ?_⟩⟩
  rintro ⟨c, contained⟩
  refine ⟨fun unpermitted => ?mode, fun g mem lower upper permits highest => ?bounds⟩
  case mode =>
    refine privilege_of_not_permitted active (mem_containingSegments.2 contained)
      (List.eq_nil_iff_forall_not_mem.2 fun g permitted => ?_)
    obtain ⟨⟨mem, lower, upper⟩, permits⟩ := mem_permittingSegments.1 permitted
    simp [unpermitted g mem lower upper] at permits
  case bounds =>
    have bounded : privilege m x a s = powerCheck g.ceiling x a s := by
      have permitted : g ∈ permittingSegments m x s := mem_permittingSegments.2 ⟨⟨mem, lower, upper⟩, permits⟩
      refine privilege_of_permitted active permitted fun k permitted => ?_
      obtain ⟨⟨mem, lower, upper⟩, permits⟩ := mem_permittingSegments.1 permitted
      exact highest k mem lower upper permits
    rw [bounded]
    exact ⟨powerCheck_of_ceiling_lt, fun enough => ⟨powerCheck_of_no_antenna enough, fun d present =>
      ⟨powerCheck_of_rating_lt enough present, fun rated =>
        ⟨powerCheck_of_barefoot_lt enough present rated, powerCheck_of_barefoot enough present rated,
          powerCheck_of_not_barefoot enough present rated⟩⟩⟩⟩

end Sys2Proof.Machine
end

section
/-! SUPPORT. Refilling allowances (R45): what a refill does to the member table, and the answers of `qrf`. -/

namespace Sys2Proof.Machine

/-! ## Refills -/

theorem memberSlot_of_large {m : Nat} (s : State) (h : 31 < m) : memberSlot m s = noMember := by
  rw [memberSlot, Vector.getElem?_eq_none (by omega), Option.getD_none]

theorem entry_of_enrolment {m : Nat} {s : State} {e : Enrolment} (h : enrolment m s = some e) :
    (memberSlot m s).entry = .enrolled e := by
  unfold enrolment at h
  split at h
  · next entry => rw [entry, Option.some.inj h]
  · cases h

/-- R45: a slot after a refill. -/
def MemberSlot.filled (x : MemberSlot) : MemberSlot :=
  match x.entry with
  | .enrolled e => if e.allowance = 0 then x else { x with remaining := 10 * e.allowance }
  | _ => x

theorem MemberSlot.filled_filled (x : MemberSlot) : x.filled.filled = x.filled := by
  obtain ⟨entry, _, _⟩ := x
  cases entry with
  | empty => rfl
  | damaged => rfl
  | enrolled e => by_cases z : e.allowance = 0 <;> simp [filled, z]

theorem isLimited_of_enrolled {m : Nat} {s : State} {e : Enrolment} (h : enrolment m s = some e) :
    isLimited m s = (e.allowance != 0) := by
  simp [isLimited, h]

theorem isLimited_of_not_enrolled {m : Nat} {s : State} (h : enrolment m s = none) : isLimited m s = false := by
  simp [isLimited, h]

theorem isLimited_of_large {m : Nat} (s : State) (h : 31 < m) : isLimited m s = false := by
  simp [isLimited, enrolment, memberSlot_of_large s h, noMember]

theorem fullAllowance_of_enrolled {m : Nat} {s : State} {e : Enrolment} (h : enrolment m s = some e) :
    fullAllowance m s = 10 * e.allowance := by
  simp [fullAllowance, h]

theorem filled_of_enrolled {m : Nat} {s : State} {e : Enrolment} (h : enrolment m s = some e) :
    (memberSlot m s).filled =
      if e.allowance = 0 then memberSlot m s else { memberSlot m s with remaining := 10 * e.allowance } := by
  simp only [MemberSlot.filled, entry_of_enrolment h]

theorem filled_of_not_enrolled {m : Nat} {s : State} (h : enrolment m s = none) :
    (memberSlot m s).filled = memberSlot m s := by
  unfold enrolment at h
  unfold MemberSlot.filled
  split
  · next entry => simp [entry] at h
  · rfl

/-- R37, R45: a filled slot is what the model writes at a refill of a limited member; other slots stay as they are. -/
theorem filled_memberSlot (m : Nat) (s : State) : (memberSlot m s).filled =
    if isLimited m s then { memberSlot m s with remaining := fullAllowance m s } else memberSlot m s := by
  cases h : enrolment m s with
  | none => simp [filled_of_not_enrolled h, isLimited_of_not_enrolled h]
  | some e =>
    rw [filled_of_enrolled h, isLimited_of_enrolled h, fullAllowance_of_enrolled h]
    by_cases z : e.allowance = 0 <;> simp [z]

theorem MemberSlot.with_remaining_eq_iff (x : MemberSlot) (n : Nat) :
    { x with remaining := n } = x ↔ x.remaining = n := by
  cases x
  simp [eq_comm]

/-- R45: a refill would change the count just where it would change the slot. -/
theorem refillChanges_eq_true_iff (m : Nat) (s : State) :
    refillChanges m s = true ↔ (memberSlot m s).filled ≠ memberSlot m s := by
  rw [filled_memberSlot, refillChanges]
  cases isLimited m s with
  | false => simp
  | true => simp [MemberSlot.with_remaining_eq_iff]

/-- R45: a refill changes the slot of its member and no other. -/
theorem memberSlot_refill (m k : Nat) (s : State) :
    memberSlot k (refill m s) = if k = m then (memberSlot k s).filled else memberSlot k s := by
  cases l : isLimited m s with
  | false =>
    rw [refill, if_neg (by simp [l])]
    split
    · next same => rw [same, filled_memberSlot, if_neg (by simp [l])]
    · rfl
  | true =>
    have small : m < 32 := by
      by_contra large
      simp [isLimited_of_large s (by omega : 31 < m)] at l
    rw [refill, if_pos l, memberSlot_setMember]
    by_cases same : k = m
    · rw [same, if_pos ⟨rfl, small⟩, if_pos rfl, filled_memberSlot, if_pos l]
    · rw [if_neg fun h => same h.1.symm, if_neg same]

/-- A state that differs from another in nothing but the member table. -/
def onlyMembersDiffer (s t : State) : Prop := t = { s with mrg := { s.mrg with members := t.mrg.members } }

theorem onlyMembersDiffer.trans {s t u : State} (h : onlyMembersDiffer s t) (k : onlyMembersDiffer t u) :
    onlyMembersDiffer s u := by
  unfold onlyMembersDiffer at h k ⊢
  rw [h] at k
  exact k

theorem onlyMembersDiffer.ilm_arisen {s t : State} (h : onlyMembersDiffer s t) : t.ilm.arisen = s.ilm.arisen := by
  rw [h]

theorem refill_onlyMembers (m : Nat) (s : State) : onlyMembersDiffer s (refill m s) := by
  unfold refill
  split
  · rfl
  · rfl

/-- R45, R187: the refills of a list of members change the slots of these. -/
theorem memberSlot_refills (k : Nat) (l : List Nat) (s : State) :
    memberSlot k (l.foldl (fun s m => refill m s) s) = if k ∈ l then (memberSlot k s).filled else memberSlot k s := by
  induction l generalizing s with
  | nil => simp
  | cons m l ih =>
    rw [List.foldl_cons, ih, memberSlot_refill]
    by_cases first : k = m <;> by_cases later : k ∈ l <;> simp [first, later, MemberSlot.filled_filled]

theorem refills_onlyMembers (l : List Nat) (s : State) :
    onlyMembersDiffer s (l.foldl (fun s m => refill m s) s) := by
  induction l generalizing s with
  | nil => rfl
  | cons m l ih => exact (refill_onlyMembers m s).trans (ih (refill m s))

theorem refillAll_onlyMembers (s : State) : onlyMembersDiffer s (refillAll s) := refills_onlyMembers memberNumbers s

theorem filled_of_large {m : Nat} (s : State) (h : 31 < m) : (memberSlot m s).filled = memberSlot m s := by
  rw [memberSlot_of_large s h]
  rfl

theorem memberSlot_refillAll (k : Nat) (s : State) : memberSlot k (refillAll s) = (memberSlot k s).filled := by
  rw [refillAll, memberSlot_refills]
  split
  · rfl
  · next other =>
    refine (filled_of_large s ?_).symm
    simp only [memberNumbers, List.mem_range] at other
    omega

/-- R45: the reply to `qrf` of all members tells whether a slot changed. -/
theorem any_refillChanges_iff (s : State) : memberNumbers.any (fun k => refillChanges k s) = true ↔
    ∃ k, memberSlot k (refillAll s) ≠ memberSlot k s := by
  simp only [List.any_eq_true, refillChanges_eq_true_iff, memberSlot_refillAll]
  constructor
  · exact fun ⟨k, _, changed⟩ => ⟨k, changed⟩
  · rintro ⟨k, changed⟩
    refine ⟨k, List.mem_range.2 ?_, changed⟩
    by_contra large
    exact changed (filled_of_large s (by omega))

/-! ## The answers of `qrf` -/

section
variable {m : Nat} {s : State}

theorem answerQrf_of_large (large : 31 < m) (notAll : m ≠ 255) : answerQrf m s = answer .range s := by
  rw [answerQrf, if_neg notAll, if_pos large]

theorem answerQrf_of_refused {o : ReplyOutcome} (small : m ≤ 31) (h : entryRefusal m s = some o) :
    answerQrf m s = answer o s := by
  rw [answerQrf, if_neg (by omega), if_neg (by omega), h]

theorem answerQrf_of_admitted (small : m ≤ 31) (h : entryRefusal m s = none) :
    answerQrf m s = if refillChanges m s then answer .ok (refill m s) else answer .noChange s := by
  rw [answerQrf, if_neg (by omega), if_neg (by omega), h]

theorem entryRefusal_of_empty (h : (memberSlot m s).entry = .empty) : entryRefusal m s = some .unknownMember := by
  simp [entryRefusal, h]

theorem entryRefusal_of_damaged (h : (memberSlot m s).entry = .damaged) : entryRefusal m s = some .damaged := by
  simp [entryRefusal, h]

theorem entryRefusal_of_enrolled {e : Enrolment} (h : enrolment m s = some e) : entryRefusal m s = none := by
  simp [entryRefusal, entry_of_enrolment h]

theorem answerQrf_of_all_changed (all : m = 255) (changed : ∃ k, memberSlot k (refillAll s) ≠ memberSlot k s) :
    answerQrf m s = answer .ok (refillAll s) := by
  rw [answerQrf, if_pos all, if_pos ((any_refillChanges_iff s).2 changed)]

theorem answerQrf_of_all_full (all : m = 255) (full : ∀ k, memberSlot k (refillAll s) = memberSlot k s) :
    answerQrf m s = answer .noChange (refillAll s) := by
  rw [answerQrf, if_pos all, if_neg]
  rw [any_refillChanges_iff]
  exact fun ⟨k, changed⟩ => changed (full k)

variable {e : Enrolment}

theorem answerQrf_of_full (small : m ≤ 31) (h : enrolment m s = some e)
    (full : e.allowance = 0 ∨ (memberSlot m s).remaining = 10 * e.allowance) : answerQrf m s = answer .noChange s := by
  have unchanged : refillChanges m s = false := by
    simpa [refillChanges, isLimited_of_enrolled h, fullAllowance_of_enrolled h, or_iff_not_imp_left] using full
  rw [answerQrf_of_admitted small (entryRefusal_of_enrolled h), unchanged, if_neg Bool.false_ne_true]

theorem answerQrf_of_spent (small : m ≤ 31) (h : enrolment m s = some e) (limited : e.allowance ≠ 0)
    (spent : (memberSlot m s).remaining ≠ 10 * e.allowance) :
    answerQrf m s = answer .ok (setMember m { memberSlot m s with remaining := 10 * e.allowance } s) := by
  have l : isLimited m s = true := by simp [isLimited_of_enrolled h, limited]
  have changes : refillChanges m s = true := by simp [refillChanges, l, fullAllowance_of_enrolled h, spent]
  rw [answerQrf_of_admitted small (entryRefusal_of_enrolled h), if_pos changes, refill, if_pos l,
    fullAllowance_of_enrolled h]

end

/-- R45: `qrf` in RUN is answered by the Member Register. -/
theorem exec_qrf {tag m : Byte} {s : State} (h : takesAtOnce s) (run : s.cst.phase = .run) {o : ReplyOutcome} {t : State}
    (a : answerQrf m.toNat (heard s) = answer o t) (done : t.ilm.arisen = []) :
    exec (.qrf tag m) s = .next (replied tag authority (.qrf m) o [] s t) := by
  have owner : ownerAnswer (.qrf m) authority s.lp.corruptNext (heard s) = answerQrf m.toNat (heard s) := rfl
  have phase : phaseSuits (.qrf m) s.cst.phase = true := by rw [run]; rfl
  rw [exec_carries (.qrf tag m) tag authority (.qrf m) s rfl]
  exact next_authority tag (.qrf m) s h o [] t (owner.trans a) rfl rfl rfl phase done

/-- Settles O33, by the answer of the Member Register in each case; for all members by the slots that `refillAll` leaves. -/
theorem qrfRefills : Obligations.QrfRefills := by
  intro tag m s h run answered
  have ⟨_, _, _, _, done⟩ := h
  refine ⟨fun large notAll => ?_, fun small empty => ?_, fun small damaged => ?_,
    fun e small enrolled => ⟨fun full => ?_, fun limited spent => ?_⟩, fun all => ?_⟩
  · exact exec_qrf h run (answerQrf_of_large large fun x => notAll (BitVec.eq_of_toNat_eq x)) done
  · exact exec_qrf h run (answerQrf_of_refused small (entryRefusal_of_empty empty)) done
  · exact exec_qrf h run (answerQrf_of_refused small (entryRefusal_of_damaged damaged)) done
  · exact exec_qrf h run (answerQrf_of_full small enrolled full) done
  · exact exec_qrf h run (answerQrf_of_spent small enrolled limited spent) done
  · have others : onlyMembersDiffer (heard s) (refillAll (heard s)) := refillAll_onlyMembers (heard s)
    have done : (refillAll (heard s)).ilm.arisen = [] := others.ilm_arisen.trans done
    have number : m.toNat = 255 := congrArg BitVec.toNat all
    refine ⟨refillAll (heard s), others, fun k => ?_, fun changed => ?_, fun full => ?_⟩
    · rw [memberSlot_refillAll, memberSlot_heard]
      cases enrolled : enrolment k s with
      | none => exact filled_of_not_enrolled enrolled
      | some e => exact filled_of_enrolled enrolled
    · exact exec_qrf h run (answerQrf_of_all_changed number changed) done
    · exact exec_qrf h run (answerQrf_of_all_full number full) done

end Sys2Proof.Machine
end

section
/-! SUPPORT. The choice of the antenna (R89): which antennas suit AUTO and how the lowest of them is found; and the
answers to a `tun` of the holder of an OPEN turn (R12, R90). -/

namespace Sys2Proof.Machine

/-! ## The choice of the antenna -/

section
variable {a : BitVec 2} {frequency power : Nat} {s : State} {d : AntennaData}

theorem chooseAntenna_of_present (present : antennaData a s = some d) :
    chooseAntenna (some a) frequency power s = if d.covers frequency then some a else none := by
  simp only [chooseAntenna, present]

theorem chooseAntenna_of_absent (absent : antennaData a s = none) :
    chooseAntenna (some a) frequency power s = none := by
  simp only [chooseAntenna, absent]

/-- R89: AUTO may choose the antenna. -/
def suitsAuto (frequency power : Nat) (s : State) (a : BitVec 2) : Bool :=
  (antennaData a s).any fun d => d.covers frequency && power ≤ d.rating

theorem suitsAuto_eq_true_iff : suitsAuto frequency power s a = true ↔
    ∃ d, antennaData a s = some d ∧ d.covers frequency = true ∧ power ≤ d.rating := by
  simp [suitsAuto, Option.any_eq_true]

/-- The antennas in the order in which AUTO tries them. -/
def antennaNumbers : List (BitVec 2) := [0#2, 1#2, 2#2, 3#2]

theorem chooseAntenna_auto (frequency power : Nat) (s : State) :
    chooseAntenna none frequency power s = antennaNumbers.find? (suitsAuto frequency power s) := by
  simp only [chooseAntenna, antennaNumbers]
  congr 1
  funext a
  unfold suitsAuto
  cases antennaData a s <;> rfl

theorem antennaNumbers_getElem :
    ∀ (i : Nat) (h : i < antennaNumbers.length), antennaNumbers[i].toNat = i := by decide

/-- The antennas are tried in rising order, so the first that passes a test is the lowest that does. -/
theorem find?_antennaNumbers_eq_some_iff (p : BitVec 2 → Bool) : antennaNumbers.find? p = some a ↔
    p a = true ∧ ∀ b : BitVec 2, b.toNat < a.toNat → p b = false := by
  rw [List.find?_eq_some_iff_getElem]
  refine and_congr_right fun _ => ⟨?_, fun lower => ?_⟩
  · rintro ⟨i, hi, rfl, before⟩ b below
    rw [antennaNumbers_getElem] at below
    have place : antennaNumbers[b.toNat] = b := BitVec.eq_of_toNat_eq (antennaNumbers_getElem _ (below.trans hi))
    simpa [place] using before b.toNat below
  · refine ⟨a.toNat, a.isLt, BitVec.eq_of_toNat_eq (antennaNumbers_getElem _ a.isLt), fun j below => ?_⟩
    rw [lower _ (by rwa [antennaNumbers_getElem]), Bool.not_false]

/-- R89: AUTO chooses the lowest-numbered antenna that suits it. -/
theorem chooseAntenna_auto_eq_some_iff : chooseAntenna none frequency power s = some a ↔
    suitsAuto frequency power s a = true ∧
      ∀ b : BitVec 2, b.toNat < a.toNat → ¬ suitsAuto frequency power s b = true := by
  simp only [chooseAntenna_auto, find?_antennaNumbers_eq_some_iff, Bool.not_eq_true]

end

@[simp] theorem chooseAntenna_heardFrom (n : Option (BitVec 2)) (f p : Nat) (m : Byte) (s : State) :
    chooseAntenna n f p (heardFrom m s) = chooseAntenna n f p s := by
  simp only [chooseAntenna, antennaData, heardFrom_seu]

/-! ## The answers of `tun` -/

/-- R12: the holder of an OPEN turn passes the holder test. -/
theorem holderTest_of_opened {accepts : Bool} {closed : ReplyOutcome} {m : Nat} {owner : State → Answer} {s : State}
    {o : OpenTurn} (active : isSuspended m s = false) (opened : s.tar.turn = .opened o) (holds : o.holder = m) :
    holderTest accepts closed m owner s = owner s := by
  simp [holderTest, active, holder, opened, holds]

/-- R90 step 1: a `tun` with its fields in range. -/
theorem tuneOwner_of_inRange {m : Nat} {f : Word} {mode a : Byte} {p : Half} {md : Mode} {named : Option (BitVec 2)}
    (hmode : modeOf mode = some md) (hantenna : antennaChoiceOf a = some named) (lower : 1 ≤ p.toNat)
    (upper : p.toNat ≤ 1500) (s : State) :
    tuneOwner m f mode p a s = tuneStep m ⟨f.toNat, md, p.toNat⟩ named s := by
  simp [tuneOwner, hmode, hantenna, within, lower, upper]

/-- R90 steps 2 to 4: a retune for which no antenna is chosen. -/
theorem tuneStep_of_no_antenna {m : Nat} {x : Setting} {named : Option (BitVec 2)} {s : State}
    (idle : s.kch.state = .idle) (notOff : s.spc.power.state ≠ .off) (notCooling : s.spc.power.state ≠ .cooling)
    (unchosen : chooseAntenna named x.frequency x.power s = none) : tuneStep m x named s = deny .antenna s := by
  simp [tuneStep, chainIdle, idle, notOff, notCooling, unchosen]

/-- R90: `tun` of a member that may ask is answered by the Setting Unit. -/
theorem exec_tun {tag m mode a : Byte} {f : Word} {p : Half} {s : State} (h : takesAtOnce s) (asks : mayAsk m s)
    {o : ReplyOutcome} {b : List Byte} {t : State}
    (answered : answerTun m.toNat f mode p a (heardFrom m s) = ⟨o, .bytes b, t⟩) (done : t.ilm.arisen = []) :
    exec (.tun tag m f mode p a) s = .next (replied tag m (.tun f mode p a) o b s t) := by
  obtain ⟨enrolled, run, -⟩ := asks
  have phase : phaseSuits (.tun f mode p a) s.cst.phase = true := by rw [run]; rfl
  rw [exec_carries (.tun tag m f mode p a) tag m (.tun f mode p a) s rfl]
  exact next_member tag m (.tun f mode p a) s h enrolled o b t answered rfl rfl rfl phase done

/-- R89, R90: the Setting Unit's answer to the holder of an OPEN turn where no antenna is chosen. -/
theorem answerTun_of_no_antenna {m mode a : Byte} {f : Word} {p : Half} {s : State} {o : OpenTurn} {md : Mode}
    {named : Option (BitVec 2)} (active : isSuspended m.toNat s = false) (opened : s.tar.turn = .opened o)
    (holds : o.holder = m.toNat) (hmode : modeOf mode = some md) (hantenna : antennaChoiceOf a = some named)
    (lower : 1 ≤ p.toNat) (upper : p.toNat ≤ 1500) (idle : s.kch.state = .idle)
    (notOff : s.spc.power.state ≠ .off) (notCooling : s.spc.power.state ≠ .cooling)
    (unchosen : chooseAntenna named f.toNat p.toNat s = none) :
    answerTun m.toNat f mode p a s = deny .antenna s := by
  rw [answerTun, holderTest_of_opened active opened holds, tuneOwner_of_inRange hmode hantenna lower upper]
  exact tuneStep_of_no_antenna idle notOff notCooling unchosen

/-- Settles O14: a named antenna by its entry, AUTO by the order in which the antennas are tried, and the refusal by the
checks of `tun` in their order. -/
theorem antennaIsChosen : Obligations.AntennaIsChosen := by
  refine ⟨fun frequency power s => ⟨fun a => ⟨fun d present covers => ?covered, fun d present misses => ?missed,
    chooseAntenna_of_absent⟩, fun a => ?auto⟩, ?refused⟩
  case covered => rw [chooseAntenna_of_present present, if_pos covers]
  case missed => rw [chooseAntenna_of_present present, if_neg (by simp [misses])]
  case auto => simpa only [suitsAuto_eq_true_iff] using chooseAntenna_auto_eq_some_iff
  case refused =>
    intro tag m a o f mode md p named s h asks opened holds hmode hantenna lower upper idle notOff notCooling unchosen
    have ⟨_, _, _, _, done⟩ := h
    have ⟨_, _, active⟩ := asks
    have stillOpen : (heardFrom m s).tar.turn = .opened (reloaded o s) := by
      rw [heardFrom_opened m s o opened holds]
      rfl
    refine exec_tun h asks ?_ (by rwa [heardFrom_ilm])
    exact answerTun_of_no_antenna (by rwa [isSuspended_heardFrom]) stillOpen (by rwa [reloaded_holder]) hmode hantenna
      lower upper (by rwa [heardFrom_kch]) (by rwa [heardFrom_spc]) (by rwa [heardFrom_spc])
      (by rwa [chooseAntenna_heardFrom])

end Sys2Proof.Machine
end

section
/-! SUPPORT. The journal's request (R179): what `jrd` answers for an empty journal and for one that holds records. -/

namespace Sys2Proof.Machine

@[simp] theorem journal_heard (s : State) : (heard s).journal = s.journal := rfl

/-- R179: the empty record and the count 0 are 23 zero bytes. -/
theorem answerJrd_of_empty {s : State} (empty : s.journal = []) :
    answerJrd s = answerWith .ok (List.replicate 23 0) s := by
  have zeroed : emptyJournalBody = List.replicate 23 0 := rfl
  simp only [answerJrd, empty, zeroed]

theorem answerJrd_of_oldest {s : State} {r : JournalRecord} {rest : List JournalRecord} (holds : s.journal = r :: rest) :
    answerJrd s = answerWith .ok (journalBytes r ++ bytes1 rest.length) (s.setJournal rest) := by
  simp only [answerJrd, holds]

/-- R179: `jrd` is answered by the Journal in either phase. -/
theorem exec_jrd {tag : Byte} {s : State} (h : takesAtOnce s) {o : ReplyOutcome} {b : List Byte} {t : State}
    (answered : answerJrd (heard s) = answerWith o b t) (done : t.ilm.arisen = []) :
    exec (.jrd tag) s = .next (replied tag authority .jrd o b s t) := by
  have owner : ownerAnswer .jrd authority s.lp.corruptNext (heard s) = answerJrd (heard s) := rfl
  have anyPhase : phaseSuits .jrd s.cst.phase = true := rfl
  rw [exec_carries (.jrd tag) tag authority .jrd s rfl]
  exact next_authority tag .jrd s h o b t (owner.trans answered) rfl rfl rfl anyPhase done

/-- Settles O24, by the Journal's answer to an empty journal and to one with an oldest record; neither leaves an input to
act on. -/
theorem jrdReadsTheOldest : Obligations.JrdReadsTheOldest := by
  intro tag s h
  have ⟨_, _, _, _, done⟩ := h
  refine ⟨fun empty => ?_, fun r rest holds => ?_⟩
  · exact exec_jrd h (answerJrd_of_empty ((journal_heard s).trans empty)) done
  · have unarisen : ((heard s).setJournal rest).ilm.arisen = [] := by rw [setJournal_ilm]; exact done
    exact exec_jrd h (answerJrd_of_oldest ((journal_heard s).trans holds)) unarisen

end Sys2Proof.Machine
end

section
/-! SUPPORT. One step (log entries 1 to 3): what it can do, what the passing of time counts and queues, and the laws that it
keeps from reset on. -/

namespace Sys2Proof.Machine

/-! ## The laws that every step keeps -/

/-- A step is a millisecond of time, or the command at the front of the queue. -/
theorem step_cases {s t : State} (h : step s = .next t) :
    (s.pending = [] ∧ t = tick s) ∨ ∃ c rest, s.pending = c :: rest ∧ exec c (s.setPending rest) = .next t := by
  unfold step at h
  split at h
  case h_1 empty => exact .inl ⟨empty, (Host.Outcome.next.inj h).symm⟩
  case h_2 c rest waits => exact .inr ⟨c, rest, waits, h⟩

/-- What time and every command keep, and what does not look at the queue of commands, every step keeps. -/
theorem step_keeps {P : State → Prop} (time : ∀ s, P s → P (tick s))
    (command : ∀ c s t, exec c s = .next t → P s → P t) (unqueued : ∀ l s, P s → P (s.setPending l)) {s t : State}
    (h : step s = .next t) (holds : P s) : P t := by
  obtain ⟨-, rfl⟩ | ⟨c, rest, -, taken⟩ := step_cases h
  · exact time s holds
  · exact command c _ t taken (unqueued rest s holds)

theorem tick_ilm (s : State) : (tick s).ilm = s.ilm := by
  unfold tick
  split
  · rfl
  · simp only [setChoices_ilm, setPending_ilm, passTo_ilm]

theorem setPending_ordered (l : List Instr) (s : State) (h : ordered s) : ordered (s.setPending l) :=
  ordered_congr rfl rfl rfl rfl rfl h

/-- Settles O7: time, every command and the taking of a command from the queue keep each group of laws. -/
theorem everyStepKeepsTheLaws : Obligations.EveryStepKeepsTheLaws := by
  intro s t h
  refine ⟨fun records turns => ?_, fun chain allowances => ?_, fun nothingLeft => ?_⟩
  · exact step_keeps tick_lawful exec_lawful setPending_lawful h ⟨records, turns⟩
  · exact step_keeps tick_ordered exec_ordered setPending_ordered h ⟨chain, allowances⟩
  · exact step_keeps (P := settled) (fun s x => (congrArg Monitor.arisen (tick_ilm s)).trans x) exec_settled
      (fun _ _ x => x) h nothingLeft

/-! ## The state after reset -/

theorem storedSound_fresh {α : Type} (bytes : α → List Byte) (c : α) : storedSound bytes (storedFresh bytes c) = true :=
  beq_self_eq_true _

theorem loadedParams_factory : loadedParams factoryRecords = Params.default :=
  if_pos (storedSound_fresh paramsBytes Params.default)

/-- The state that the model starts in is what a POWER-ON reset makes of it. -/
theorem resetBlocks_reset : resetBlocks .powerOn State.reset = State.reset := by
  have params : loadedParams State.reset.cst.records = Params.default := loadedParams_factory
  simp only [resetBlocks, params]
  rfl

/-- Settles O6: the laws of the chain and the allowances hold after every reset; the others, as journal, queues and causes
are empty. -/
theorem lawsHoldAtReset : Obligations.LawsHoldAtReset := by
  have ordered : ordered State.reset := by
    rw [← resetBlocks_reset]
    exact resetBlocks_ordered .powerOn State.reset
  have records : recordsLawful State.reset :=
    ⟨Nat.zero_le 48, Nat.zero_le 4, fun _ => rfl, rfl, rfl⟩
  have turns : turnsLawful State.reset := by
    refine ⟨⟨Nat.zero_le 12, List.nodup_nil⟩, fun e h => ?_, fun m h => ?_, fun _ => ⟨rfl, rfl⟩, fun _ => rfl⟩
    · cases h
    · cases h
  exact ⟨records, turns, ordered.1, ordered.2, rfl⟩

theorem members_reset : State.reset.mrg.members = Vector.replicate 32 ⟨.empty, false, 0⟩ := by
  have empty : loadMember (storedFresh memberBytes none) = .empty := if_pos (storedSound_fresh memberBytes none)
  simp only [State.reset, registerAfterReset, factoryRecords, Vector.map_replicate, empty]

theorem profiles_reset : State.reset.mrg.profiles = Vector.replicate 8 (.valid []) := by
  have valid : loadProfile (storedFresh profileBytes []) = .valid [] := if_pos (storedSound_fresh profileBytes [])
  simp only [State.reset, registerAfterReset, factoryRecords, Vector.map_replicate, valid]

theorem antennas_reset : State.reset.seu.antennas = Vector.replicate 4 .absent := by
  have absent : loadAntenna (storedFresh antennaBytes none) = .absent := if_pos (storedSound_fresh antennaBytes none)
  simp only [State.reset, settingAfterReset, factoryRecords, Vector.map_replicate, absent]

theorem pattern_reset : State.reset.ids.pattern = .valid [] := by
  have valid : loadPattern (storedFresh patternBytes []) = .valid [] := if_pos (storedSound_fresh patternBytes [])
  simp only [State.reset, senderAfterReset, factoryRecords, valid]

theorem paramsDamaged_reset : State.reset.cst.paramsDamaged = false := by
  simp only [State.reset, storeAfterReset, factoryRecords, storedSound_fresh, Bool.not_true]

/-- Settles O5: the loads of the factory records, whose checks match, and every other field as written. -/
theorem resetIsFactoryPowerOn : Obligations.ResetIsFactoryPowerOn := by
  have register : State.reset.mrg = { State.reset.mrg with
      members := Vector.replicate 32 ⟨.empty, false, 0⟩, profiles := Vector.replicate 8 (.valid []) } := by
    rw [← members_reset, ← profiles_reset]
  have setting : State.reset.seu = { State.reset.seu with antennas := Vector.replicate 4 .absent } := by
    rw [← antennas_reset]
  have sender : State.reset.ids = { State.reset.ids with pattern := .valid [] } := by rw [← pattern_reset]
  have store : State.reset.cst = { State.reset.cst with paramsDamaged := false } := by rw [← paramsDamaged_reset]
  refine ⟨⟨rfl, rfl, rfl, rfl, rfl, rfl, rfl, rfl⟩, rfl, register, rfl, setting, sender, rfl, rfl, rfl, rfl,
    ⟨Params.default, store, rfl, rfl, rfl, rfl, rfl, rfl, rfl, rfl⟩, rfl, rfl⟩

/-! ## A step -/

/-- Settles O1, by the front of the queue. -/
theorem stepTakesTheFrontCommand : Obligations.StepTakesTheFrontCommand := by
  intro c rest s front
  simp only [step, front, State.setPending]

/-! ## The passing of time -/

theorem passTo_of_le {t : Nat} {s : State} (h : t ≤ s.clock) : passTo t s = s := if_neg (Nat.not_lt.mpr h)

theorem passTo_of_lt {t : Nat} {s : State} (h : s.clock < t) :
    passTo t s = countAir (t / 100 - s.clock / 100) (s.setClock t) := if_pos h

section
variable {n : Nat} {s : State} {m : Nat}

theorem spendAllowance_of_unlimited (holds : holder s = some m) (h : isLimited m s = false ∨ n = 0) :
    spendAllowance n s = s := by
  obtain unlimited | rfl := h
  · simp [spendAllowance, holds, unlimited]
  · simp [spendAllowance, holds]

theorem spendAllowance_of_lt (holds : holder s = some m) (limited : isLimited m s = true) (pos : 0 < n)
    (enough : n < (memberSlot m s).remaining) : spendAllowance n s =
      (setMember m { memberSlot m s with remaining := (memberSlot m s).remaining - n } s).setUnitOwed false := by
  simp [spendAllowance, holds, limited, pos.ne', enough]

theorem spendAllowance_of_le (holds : holder s = some m) (limited : isLimited m s = true) (pos : 0 < n)
    (spent : (memberSlot m s).remaining ≤ n) : spendAllowance n s =
      (setMember m { memberSlot m s with remaining := min (memberSlot m s).remaining 1 } s).setUnitOwed true := by
  simp [spendAllowance, holds, limited, pos.ne', Nat.not_lt.mpr spent]

end

/-- Settles O3: by what the holder's allowance spends in the units that pass. -/
theorem timeCountsTheHoldersAir : Obligations.TimeCountsTheHoldersAir := by
  refine fun t s => ⟨passTo_of_le, fun later silent => ?silent, fun later airs o opened => ?airs⟩
  case silent =>
    have silent' : holderOnAir (s.setClock t) = false := silent
    rw [passTo_of_lt later, countAir, silent']
    rfl
  case airs =>
    have airs' : holderOnAir (s.setClock t) = true := airs
    have holds : holder (s.setClock t) = some o.holder := by simp [holder, opened]
    have counts : passTo t s = (spendAllowance (t / 100 - s.clock / 100) (s.setClock t)).setTurn
        (.opened { o with onAirTotal := o.onAirTotal + (t / 100 - s.clock / 100) }) := by
      rw [passTo_of_lt later, countAir, if_pos airs', setClock_tar, opened, addOnAir]
    refine ⟨fun free => ?_, fun limited pos => ⟨fun enough => ?_, fun spent => ?_⟩⟩
    · rw [counts, spendAllowance_of_unlimited holds free]
      rfl
    · rw [counts, spendAllowance_of_lt holds limited pos enough]
      rfl
    · rw [counts, spendAllowance_of_le holds limited pos spent]
      rfl

/-! ## Expiries -/

/-- Log entry 2: the command of a timer or deadline is the expiry of its moment. -/
theorem exec_expiry (c : Instr) (h : ∃ u, dueMoment c u ≠ none) :
    ∃ f : State → State → State, ∀ s, exec c s = .next (expiry (dueMoment c s) (f s) s) := by
  obtain ⟨u, present⟩ := h
  cases c <;> first | exact absurd rfl present | exact ⟨_, fun s => rfl⟩

theorem expiry_of_absent {moment : Option Nat} {f : State → State} {s : State} (h : moment = none) :
    expiry moment f s = s := by rw [h]; rfl

theorem expiry_of_future {moment : Option Nat} {f : State → State} {s : State} {t : Nat} (h : moment = some t)
    (future : s.clock < t) : expiry moment f s = s := by
  rw [h]
  exact if_neg (Nat.not_le.mpr future)

/-- Settles O4: each such command is an expiry, and an expiry that is absent or still to come changes nothing. -/
theorem expiriesPassAtTheirMoment : Obligations.ExpiriesPassAtTheirMoment := by
  refine ⟨fun c s t moment future => ?_, fun c s isExpiry absent => ?_⟩
  · obtain ⟨f, expires⟩ := exec_expiry c ⟨s, by simp [moment]⟩
    rw [expires, expiry_of_future moment future]
  · obtain ⟨f, expires⟩ := exec_expiry c isExpiry
    rw [expires, expiry_of_absent absent]

/-! ## What falls due -/

/-- The expiries of queue entries, by member. -/
def entryCommands : List Instr := (List.range 32).map fun m => .entryExpiry (BitVec.ofNat 8 m)

/-- The expiries of filter timers, by input. -/
def filterCommands : List Instr := [Input.refl, .ampf, .supok, .estop, .localKey, .ants].map .filterTimerExpiry

/-- The expiries of the keying chain, the Setting Unit and the identification, with those of allowance and watch. -/
def chainCommands : List Instr :=
  [.allowanceExhausted, .watchExpiry, .ampReadyLatestBound, .txConfirmLatestBound, .txDropLimit, .ampHoldExpiry,
    .deadManExpiry, .transmissionLimitExpiry, .reKeyHoldoffExpiry, .settleLimit, .readbackTimeout, .rigSilenceExpiry,
    .intervalTimerExpiry, .graceTimerExpiry, .idElementEnd]

/-- The commands that a step of time can queue, in the order in which `dueCommands` lists them. -/
def timedCommands : List Instr :=
  [Instr.linkSupervisionExpiry, .offerDeadline, .turnDeadline, .idleDeadline] ++ (entryCommands ++ (chainCommands
    ++ (filterCommands ++ [Instr.reflBlankingExpiry, .supplyConfirmExpiry, .warmUpExpiry, .coolDownExpiry,
      .restartHoldoffExpiry, .storeWriteCompletion])))

theorem timedCommands_nodup : timedCommands.Nodup := by decide +kernel

/-- The moment of such a command: that of its timer or deadline, or the latest one of the store write in flight. -/
def timedMoment (c : Instr) (s : State) : Option Nat :=
  match c with
  | .storeWriteCompletion => s.cst.writing.map (·.latest)
  | c => dueMoment c s

/-- The command's moment has come. -/
def hasCome (s : State) (c : Instr) : Bool := (timedMoment c s).any (· ≤ s.clock)

theorem hasCome_eq_true_iff (s : State) (c : Instr) :
    hasCome s c = true ↔ ∃ t, timedMoment c s = some t ∧ t ≤ s.clock := by
  simp [hasCome, Option.any_eq_true]

theorem dueAt_eq_filter (c : Instr) (s : State) : dueAt (timedMoment c s) c s = [c].filter (hasCome s) := by
  unfold dueAt
  cases moment : timedMoment c s with
  | none => simp [hasCome, moment]
  | some t => by_cases come : t ≤ s.clock <;> simp [hasCome, moment, come]

theorem flatMap_dueAt_eq_filter {α : Type} (l : List α) (c : α → Instr) (s : State) :
    l.flatMap (fun x => dueAt (timedMoment (c x) s) (c x) s) = (l.map c).filter (hasCome s) := by
  induction l with
  | nil => rfl
  | cons x l ih => rw [List.flatMap_cons, ih, dueAt_eq_filter, List.map_cons, ← List.filter_append, List.singleton_append]

theorem entryExpiry_dueAt (s : State) :
    (List.range 32).flatMap (fun m => dueAt (entryMoment m s) (.entryExpiry (BitVec.ofNat 8 m)) s) =
      entryCommands.filter (hasCome s) := by
  rw [entryCommands, ← flatMap_dueAt_eq_filter]
  refine List.flatMap_congr fun m mem => ?_
  have small : m < 32 := List.mem_range.mp mem
  have number : (BitVec.ofNat 8 m).toNat = m := by simp; omega
  simp only [timedMoment, dueMoment, number]

theorem filterExpiry_dueAt (s : State) :
    [Input.refl, .ampf, .supok, .estop, .localKey, .ants].flatMap
      (fun i => dueAt (filterMoment i s) (.filterTimerExpiry i) s) = filterCommands.filter (hasCome s) :=
  flatMap_dueAt_eq_filter _ Instr.filterTimerExpiry s

theorem cons_filter_hasCome (c : Instr) (l : List Instr) (s : State) :
    (c :: l).filter (hasCome s) = dueAt (timedMoment c s) c s ++ l.filter (hasCome s) := by
  rw [dueAt_eq_filter, ← List.filter_append, List.singleton_append]

/-- Log entry 1: what falls due is what has come among the commands that time can queue. -/
theorem dueCommands_eq_filter (s : State) : dueCommands s = timedCommands.filter (hasCome s) := by
  unfold dueCommands timedCommands chainCommands
  rw [entryExpiry_dueAt, filterExpiry_dueAt]
  simp only [List.filter_append, cons_filter_hasCome, List.filter_nil, List.append_nil, List.append_assoc]
  rfl

theorem mem_timedCommands {c : Instr} {s : State} {t : Nat} (moment : timedMoment c s = some t) :
    c ∈ timedCommands ↔ c.wf = true ∨ c = .storeWriteCompletion := by
  cases c
  case entryExpiry m =>
    have number : (∃ a < 32, BitVec.ofNat 8 a = m) ↔ m.toNat < 32 :=
      ⟨fun ⟨a, small, h⟩ => by subst h; simp; omega, fun small => ⟨m.toNat, small, by simp⟩⟩
    simpa [timedCommands, entryCommands, chainCommands, filterCommands, Instr.wf] using number
  case filterTimerExpiry i => cases i <;> simp [timedCommands, entryCommands, chainCommands, filterCommands, Instr.wf]
  all_goals first
    | (simp [timedMoment, dueMoment] at moment; done)
    | simp [timedCommands, entryCommands, chainCommands, filterCommands, Instr.wf]

theorem mem_dueCommands (c : Instr) (s : State) : c ∈ dueCommands s ↔
    (c.wf = true ∧ ∃ t, dueMoment c s = some t ∧ t ≤ s.clock) ∨
      (c = .storeWriteCompletion ∧ ∃ w, s.cst.writing = some w ∧ w.latest ≤ s.clock) := by
  rw [dueCommands_eq_filter, List.mem_filter, hasCome_eq_true_iff]
  by_cases store : c = .storeWriteCompletion
  · subst store
    have listed : Instr.storeWriteCompletion ∈ timedCommands := by simp [timedCommands]
    simp [listed, timedMoment, dueMoment]
  · have same : timedMoment c s = dueMoment c s := by cases c <;> first | rfl | exact absurd rfl store
    rw [same]
    constructor
    · rintro ⟨listed, t, moment, come⟩
      exact .inl ⟨((mem_timedCommands (same.trans moment)).mp listed).resolve_right store, t, moment, come⟩
    · rintro (⟨formed, t, moment, come⟩ | ⟨h, -⟩)
      · exact ⟨(mem_timedCommands (same.trans moment)).mpr (.inl formed), t, moment, come⟩
      · exact absurd h store

/-- Log entry 3: the chosen order is an order of what falls due, and counts the choices up. -/
theorem chosenOrder_perm (n k : Nat) (l : List Instr) : (chosenOrder n k l).1.Perm l ∧ k ≤ (chosenOrder n k l).2 := by
  induction n generalizing k l with
  | zero => exact ⟨.refl l, Nat.le_refl k⟩
  | succ n ih =>
    match l with
    | [] => exact ⟨.refl _, Nat.le_refl k⟩
    | [c] => exact ⟨.refl _, Nat.le_refl k⟩
    | c :: d :: rest =>
      have inside : Config.choice k % (c :: d :: rest).length < (c :: d :: rest).length := Nat.mod_lt _ (by simp)
      obtain ⟨perm, counts⟩ := ih (k + 1) ((c :: d :: rest).eraseIdx (Config.choice k % (c :: d :: rest).length))
      refine ⟨?_, by simp only [chosenOrder]; omega⟩
      simp only [chosenOrder, List.getD_eq_getElem _ _ inside]
      exact (perm.cons _).trans (List.getElem_cons_eraseIdx_perm inside)

/-- What falls due in the millisecond that `s` has reached, in the order that the free choices give, with the choices
consumed. -/
def queuedOrder (s : State) : List Instr × Nat := chosenOrder (dueCommands s).length s.choices (dueCommands s)

theorem tick_of_running {s : State} (running : inReset s = false) : tick s =
    ((passTo (s.clock + 1) s).setPending (queuedOrder (passTo (s.clock + 1) s)).1).setChoices
      (queuedOrder (passTo (s.clock + 1) s)).2 := by
  unfold tick
  rw [running]
  rfl

/-- Settles O2: nothing passes in reset, and otherwise what falls due in the millisecond joins the queue in the chosen
order. -/
theorem emptyQueueLetsTimePass : Obligations.EmptyQueueLetsTimePass := by
  intro s empty
  have ticks : step s = .next (tick s) := by simp only [step, empty]
  refine ⟨fun reset => ?_, fun running => ?_⟩
  · rw [ticks, tick, if_pos reset]
  · have unmoved : (passTo (s.clock + 1) s).choices = s.choices := passTo_choices _ s
    rw [ticks, tick_of_running running]
    generalize passTo (s.clock + 1) s = u at unmoved
    obtain ⟨perm, counts⟩ := chosenOrder_perm (dueCommands u).length u.choices (dueCommands u)
    have nodup : (dueCommands u).Nodup := by
      rw [dueCommands_eq_filter]
      exact timedCommands_nodup.filter _
    refine ⟨(queuedOrder u).1, (queuedOrder u).2, perm.nodup_iff.mpr nodup,
      fun c => perm.mem_iff.trans (mem_dueCommands c u), ?_, ?_⟩
    · exact unmoved.symm.trans_le counts
    · simp only [State.setPending, State.setChoices]

end Sys2Proof.Machine
end

section
/-! SUPPORT. Check codes, parameter records, causes, the journal, rank and selection: what each operation on them gives. -/

namespace Sys2Proof.Machine

/-! ## The check code (R2) -/

theorem crcEight_eq_iterate {w : Nat} (poly c : BitVec w) : crcEight poly c = (crcBit poly)^[8] c := rfl

/-- While no bit leaves at the top, the cyclic code only shifts. -/
theorem crcBit_iterate {w : Nat} (poly c : BitVec w) (k : Nat) (h : c.toNat * 2 ^ k < 2 ^ w) :
    (crcBit poly)^[k] c = c <<< k := by
  induction k with
  | zero => simp
  | succ k ih =>
    have double : c.toNat * 2 ^ (k + 1) = 2 * (c.toNat * 2 ^ k) := by ring
    have shifted : (c <<< k).toNat = c.toNat * 2 ^ k := by
      rw [BitVec.toNat_shiftLeft, Nat.shiftLeft_eq, Nat.mod_eq_of_lt (by omega)]
    have stays : (c <<< k).msb = false := by
      rw [BitVec.msb_eq_false_iff_two_mul_lt, shifted]
      omega
    rw [Function.iterate_succ_apply', ih (by omega), crcBit, stays, BitVec.shiftLeft_add]
    rfl

/-- The high byte of a check code, added to its top, leaves its low byte. -/
theorem add_high_byte (c : Half) :
    c ^^^ ((BitVec.ofNat 8 (c.toNat / 256)).setWidth 16 <<< 8) = (BitVec.ofNat 8 c.toNat).setWidth 16 := by
  have high : BitVec.ofNat 8 (c.toNat / 256) = c.extractLsb' 8 8 := by
    apply BitVec.eq_of_toNat_eq
    simp [BitVec.extractLsb'_toNat, Nat.shiftRight_eq_div_pow]
  have low : BitVec.ofNat 8 c.toNat = c.setWidth 8 := by
    apply BitVec.eq_of_toNat_eq
    simp
  rw [high, low]
  ext i hi
  by_cases h : i < 8
  · simp [h, BitVec.getLsbD_eq_getElem hi]
  · have back : 8 + (i - 8) = i := by omega
    have top : i - 8 < 8 := by omega
    simp [h, back, top, BitVec.getLsbD_eq_getElem hi]

/-- The two bytes of a check code take it to 0. -/
theorem checkCodeByte_own_bytes (c : Half) : (bytes2 c.toNat).foldl checkCodeByte c = 0 := by
  have low : checkCodeByte c (BitVec.ofNat 8 (c.toNat / 256)) = (BitVec.ofNat 8 c.toNat).setWidth 16 <<< 8 := by
    rw [checkCodeByte, add_high_byte, crcEight_eq_iterate, crcBit_iterate]
    simp
    omega
  simp only [bytes2, List.foldl_cons, List.foldl_nil, low]
  rw [checkCodeByte, BitVec.xor_self]
  rfl

/-- Settles O8: the code of the bytes before is taken to 0 by its own two bytes; the rest is computed. -/
theorem framesCheckThemselves : Obligations.FramesCheckThemselves := by
  refine ⟨rfl, fun l => ?_, by decide +kernel⟩
  rw [checkCode, List.foldl_append]
  exact checkCodeByte_own_bytes (checkCode l)

/-! ## The parameter record (R198) -/

/-- A number as one byte holds it. -/
def sentByte (n : Nat) : Nat := (BitVec.ofNat 8 n).toNat

/-- A number as two bytes hold it. -/
def sentHalf (n : Nat) : Nat := sentByte (n / 256) * 256 + sentByte n

theorem sentByte_eq {n : Nat} (h : n ≤ 255) : sentByte n = n := by
  rw [sentByte, BitVec.toNat_ofNat]
  omega

theorem sentHalf_eq {n : Nat} (h : n ≤ 65535) : sentHalf n = n := by
  rw [sentHalf, sentByte, sentByte, BitVec.toNat_ofNat, BitVec.toNat_ofNat]
  omega

/-- The options byte (R198). -/
def Params.options (p : Params) : Nat := sentByte (bitOf 0 p.reflReport + bitOf 1 p.ampfReport)

theorem options_read (p : Params) : p.options < 4 ∧ (p.options % 2 == 1) = p.reflReport ∧
    (p.options / 2 % 2 == 1) = p.ampfReport := by
  unfold Params.options
  cases p.reflReport <;> cases p.ampfReport <;> decide

/-- A parameter record with each field as its bytes in the layout hold it. -/
def Params.sent (p : Params) : Params where
  deadManWindow := sentByte p.deadManWindow
  transmissionLimit := sentHalf p.transmissionLimit
  reKeyHoldoff := sentByte p.reKeyHoldoff
  turnLimit := sentHalf p.turnLimit
  idleLimit := sentHalf p.idleLimit
  offerWindow := sentByte p.offerWindow
  idInterval := sentHalf p.idInterval
  idGrace := sentByte p.idGrace
  idSpeed := sentByte p.idSpeed
  linkSupervision := sentHalf p.linkSupervision
  readbackTimeout := sentHalf p.readbackTimeout
  rigSilenceLimit := sentByte p.rigSilenceLimit
  watchPeriod := sentByte p.watchPeriod
  ampReadyEarliest := sentByte p.ampReadyEarliest
  ampReadyLatest := sentByte p.ampReadyLatest
  txConfirmEarliest := sentByte p.txConfirmEarliest
  txConfirmLatest := sentByte p.txConfirmLatest
  txDropLimit := sentByte p.txDropLimit
  ampHold := sentByte p.ampHold
  settleLimit := sentHalf p.settleLimit
  reflBlanking := sentByte p.reflBlanking
  filterTimes := ⟨sentByte p.filterTimes.refl, sentByte p.filterTimes.ampf, sentByte p.filterTimes.supok,
    sentByte p.filterTimes.estop, sentByte p.filterTimes.localKey, sentByte p.filterTimes.ants⟩
  reflReport := p.options % 2 == 1
  ampfReport := p.options / 2 % 2 == 1
  warmUp := sentHalf p.warmUp
  coolDown := sentHalf p.coolDown
  restartHoldoff := sentHalf p.restartHoldoff
  barefootCeiling := sentByte p.barefootCeiling
  classRanking := sentByte p.classRanking

/-- The layout, byte by byte. -/
theorem paramsBytes_eq (p : Params) : paramsBytes p =
    bytes1 p.deadManWindow ++ (bytes2 p.transmissionLimit ++ (bytes1 p.reKeyHoldoff ++ (bytes2 p.turnLimit ++
      (bytes2 p.idleLimit ++ (bytes1 p.offerWindow ++ (bytes2 p.idInterval ++ (bytes1 p.idGrace ++ (bytes1 p.idSpeed ++
      (bytes2 p.linkSupervision ++ (bytes2 p.readbackTimeout ++ (bytes1 p.rigSilenceLimit ++ (bytes1 p.watchPeriod ++
      (bytes1 p.ampReadyEarliest ++ (bytes1 p.ampReadyLatest ++ (bytes1 p.txConfirmEarliest ++
      (bytes1 p.txConfirmLatest ++ (bytes1 p.txDropLimit ++ (bytes1 p.ampHold ++ (bytes2 p.settleLimit ++
      (bytes1 p.reflBlanking ++ (p.filterTimes.toList.flatMap bytes1 ++
      (bytes1 (bitOf 0 p.reflReport + bitOf 1 p.ampfReport) ++ (bytes2 p.warmUp ++ (bytes2 p.coolDown ++
      (bytes2 p.restartHoldoff ++ (bytes1 p.barefootCeiling ++ bytes1 p.classRanking)))))))))))))))))))))))))) := by
  unfold paramsBytes
  simp only [List.append_assoc]

theorem paramsBytes_length (p : Params) : (paramsBytes p).length = 43 := by
  rw [paramsBytes_eq]
  rfl

theorem byteAt_zero (b : Byte) (l : List Byte) : byteAt (b :: l) 0 = b.toNat := rfl

theorem byteAt_succ (b : Byte) (l : List Byte) (i : Nat) : byteAt (b :: l) (i + 1) = byteAt l i := rfl

theorem paramsOf_paramsBytes (p : Params) : paramsOf (paramsBytes p) = p.sent := by
  rw [paramsBytes_eq]
  simp only [bytes1, bytes2, PerInput.toList, List.flatMap_cons, List.flatMap_nil, List.cons_append, List.nil_append]
  simp only [paramsOf, halfAt, byteAt_zero, byteAt_succ]
  simp only [Params.sent, Params.options, sentHalf, sentByte]

theorem within_eq_true_iff (lo hi n : Nat) : within lo hi n = true ↔ lo ≤ n ∧ n ≤ hi := by simp [within]

/-- Each field in range fits the bytes that hold it. -/
theorem sent_of_inRange {p : Params} (h : p.inRange = true) : p.sent = p := by
  obtain ⟨-, reflReads, ampfReads⟩ := options_read p
  simp only [Params.inRange, within_eq_true_iff, Bool.and_eq_true, PerInput.toList, List.all_cons, List.all_nil,
    and_true] at h
  simp (disch := omega) only [Params.sent, sentByte_eq, sentHalf_eq, reflReads, ampfReads]

/-- Settles O9: the layout holds each field as its bytes do, and a field in range fits them. -/
theorem parameterRecordIsReadBack : Obligations.ParameterRecordIsReadBack := by
  intro p inRange
  refine ⟨paramsBytes_length p, (paramsOf_paramsBytes p).trans (sent_of_inRange inRange), ?_⟩
  rw [paramsBytes_eq]
  exact decide_eq_true (options_read p).1

/-! ## Causes (R171 to R173) -/

theorem hasCause_or (a b : Half) (c : Cause) : hasCause (a ||| b) c = (hasCause a c || hasCause b c) := by
  have zero : (a ||| b) &&& c.mask = 0 ↔ a &&& c.mask = 0 ∧ b &&& c.mask = 0 := by
    rw [BitVec.and_comm, BitVec.and_or_distrib_left, BitVec.and_comm _ a, BitVec.and_comm _ b]
    exact BitVec.or_eq_zero_iff
  rw [Bool.eq_iff_iff, Bool.or_eq_true]
  simp only [hasCause, bne_iff_ne, ne_eq, zero]
  exact not_and_or

theorem hasCause_mask (c d : Cause) : hasCause c.mask d = (d == c) := by
  cases c <;> cases d <;> rfl

section
variable {c : Cause} {s : State}

theorem raise_of_held (held : s.ntu.held = true) : raise c s = s := by
  rw [raise, if_pos (by simp [held])]

theorem raise_of_pending (pending : hasCause s.ntu.pending c = true) : raise c s = s := by
  rw [raise, if_pos (by simp [pending])]

theorem raise_of_new (recording : s.ntu.held = false) (new : hasCause s.ntu.pending c = false) :
    raise c s = s.setNtu { s.ntu with
      pending := s.ntu.pending ||| c.mask
      waiting := s.ntu.waiting || hasCause s.ntu.enabled c } := by
  rw [raise, if_neg (by simp [recording, new])]

end

/-- Settles O10. -/
theorem raisedCausesJoin : Obligations.RaisedCausesJoin := by
  refine fun c s => ⟨raise_of_held, raise_of_pending, fun recording new => ⟨raise_of_new recording new, fun d => ?_⟩⟩
  rw [raise_of_new recording new, setNtu_ntu, hasCause_or, hasCause_mask]

/-! ## The journal (R177, R180) -/

section
variable {b : JournalBody} {s : State}

theorem writeJournal_of_ne (h : s.journal.length ≠ 23) :
    writeJournal b s = s.setJournal (ringAdd { body := b, gap := false, time := now s } s.journal) := if_neg h

theorem writeJournal_of_eq (h : s.journal.length = 23) : writeJournal b s =
    raise .journal (s.setJournal (ringAdd { body := b, gap := false, time := now s } s.journal)) := if_pos h

end

theorem ringAdd_of_lt (r : JournalRecord) {j : List JournalRecord} (h : j.length < 48) : ringAdd r j = j ++ [r] :=
  if_pos h

theorem ringAdd_of_full (r oldest second : JournalRecord) (rest : List JournalRecord)
    (h : (oldest :: second :: rest).length = 48) :
    ringAdd r (oldest :: second :: rest) = { second with gap := true } :: rest ++ [r] := by
  rw [ringAdd, if_neg (by omega)]
  rfl

/-- Settles O11, by the length of the journal. -/
theorem journalIsARingOf48 : Obligations.JournalIsARingOf48 := by
  intro b s r
  refine ⟨fun short other => ?_, fun full => ?_, fun oldest second rest journal length => ?_⟩
  · rw [writeJournal_of_ne other, ringAdd_of_lt r short]
    rfl
  · rw [writeJournal_of_eq full, ringAdd_of_lt r (by omega)]
    rfl
  · rw [writeJournal_of_ne (by omega), journal, ringAdd_of_full r oldest second rest (journal ▸ length)]
    rfl

/-! ## Rank (R21) -/

theorem keyBefore_eq_true_iff (a b : Nat × Nat) : keyBefore a b = true ↔ a.1 < b.1 ∨ a.1 = b.1 ∧ a.2 < b.2 := by
  simp [keyBefore]

theorem keyBefore_eq_false_iff (a b : Nat × Nat) : keyBefore a b = false ↔ b.1 ≤ a.1 ∧ (a.1 = b.1 → b.2 ≤ a.2) := by
  rw [Bool.eq_false_iff, ne_eq, keyBefore_eq_true_iff]
  omega

theorem keyBefore_of_before {a b c : Nat × Nat} (ab : keyBefore a b = true) (cb : keyBefore c b = false) :
    keyBefore a c = true := by
  rw [keyBefore_eq_true_iff] at *
  rw [keyBefore_eq_false_iff] at cb
  omega

theorem keyBefore_asymm {a b : Nat × Nat} (ab : keyBefore a b = true) : keyBefore b a = false := by
  rw [keyBefore_eq_true_iff] at ab
  rw [keyBefore_eq_false_iff]
  omega

theorem keyBefore_ne {a b : Nat × Nat} (ab : keyBefore a b = true) : b ≠ a := by
  rintro rfl
  rw [keyBefore_asymm ab] at ab
  cases ab

/-- R21: no entry of the list ranks before one that stands in front of it. -/
def inRankOrder (order : Nat) (l : List Entry) : Prop :=
  l.Pairwise fun a b => keyBefore (rankKey order b) (rankKey order a) = false

/-- The entries of one key. -/
def withKey (order : Nat) (k : Nat × Nat) (l : List Entry) : List Entry := l.filter fun e => rankKey order e == k

theorem insertRanked_perm (order : Nat) (e : Entry) (l : List Entry) : (insertRanked order e l).Perm (e :: l) := by
  induction l with
  | nil => exact .refl _
  | cons x rest ih =>
    unfold insertRanked
    split
    · exact .refl _
    · exact (ih.cons x).trans (.swap e x rest)

/-- An entry that ranks before the first of a list in rank order ranks before all of it. -/
theorem before_all {order : Nat} {e x : Entry} {rest : List Entry} (h : inRankOrder order (x :: rest))
    (before : keyBefore (rankKey order e) (rankKey order x) = true) :
    ∀ y ∈ x :: rest, keyBefore (rankKey order e) (rankKey order y) = true := by
  intro y mem
  obtain rfl | mem := List.mem_cons.mp mem
  · exact before
  · exact keyBefore_of_before before ((List.pairwise_cons.mp h).1 y mem)

theorem insertRanked_inRankOrder (order : Nat) (e : Entry) (l : List Entry) (h : inRankOrder order l) :
    inRankOrder order (insertRanked order e l) := by
  induction l with
  | nil => exact List.pairwise_singleton _ _
  | cons x rest ih =>
    obtain ⟨first, others⟩ := List.pairwise_cons.mp h
    unfold insertRanked
    split
    case isTrue before => exact List.pairwise_cons.mpr ⟨fun y mem => keyBefore_asymm (before_all h before y mem), h⟩
    case isFalse after =>
      refine List.pairwise_cons.mpr ⟨fun y mem => ?_, ih others⟩
      obtain rfl | mem := (mem_insertRanked order e y rest).mp mem
      · exact eq_false_of_ne_true after
      · exact first y mem

/-- An entry joins the others of its key as the last of them. -/
theorem insertRanked_withKey (order : Nat) (k : Nat × Nat) (e : Entry) (l : List Entry) (h : inRankOrder order l) :
    withKey order k (insertRanked order e l) = withKey order k (l ++ [e]) := by
  induction l with
  | nil => rfl
  | cons x rest ih =>
    obtain ⟨first, others⟩ := List.pairwise_cons.mp h
    unfold insertRanked
    split
    case isTrue before =>
      have split : withKey order k ((x :: rest) ++ [e]) = withKey order k (x :: rest) ++ withKey order k [e] :=
        List.filter_append _ _
      rw [split, ← List.singleton_append, withKey, List.filter_append, ← withKey, ← withKey]
      by_cases key : rankKey order e = k
      · have none : withKey order k (x :: rest) = [] :=
          List.filter_eq_nil_iff.mpr fun y mem => by
            simpa [← key] using keyBefore_ne (before_all h before y mem)
        rw [none, List.append_nil, List.nil_append]
      · have absent : withKey order k [e] = [] := by simp [withKey, key]
        rw [absent, List.append_nil, List.nil_append]
    case isFalse after =>
      have tail := ih others
      simp only [withKey, List.cons_append, List.filter_cons] at tail ⊢
      rw [tail]

theorem ranked_append (order : Nat) (q : List Entry) (e : Entry) :
    ranked order (q ++ [e]) = insertRanked order e (ranked order q) := by simp [ranked]

theorem ranked_inRankOrder (order : Nat) (q : List Entry) : inRankOrder order (ranked order q) := by
  induction q using List.reverseRecOn with
  | nil => exact List.Pairwise.nil
  | append_singleton q e ih =>
    rw [ranked_append]
    exact insertRanked_inRankOrder order e _ ih

theorem ranked_perm (order : Nat) (q : List Entry) : (ranked order q).Perm q := by
  induction q using List.reverseRecOn with
  | nil => exact .refl _
  | append_singleton q e ih =>
    rw [ranked_append]
    exact (insertRanked_perm order e _).trans ((ih.cons e).trans (List.perm_append_singleton e q).symm)

/-- R21: entries of one key keep their order of joining. -/
theorem ranked_withKey (order : Nat) (k : Nat × Nat) (q : List Entry) :
    withKey order k (ranked order q) = withKey order k q := by
  induction q using List.reverseRecOn with
  | nil => rfl
  | append_singleton q e ih =>
    rw [ranked_append, insertRanked_withKey order k e _ (ranked_inRankOrder order q)]
    simp only [withKey, List.filter_append] at ih ⊢
    rw [ih]

/-- Settles O12, by induction on the joining of the entries. -/
theorem entriesAreRanked : Obligations.EntriesAreRanked := by
  refine fun s => ⟨ranked_perm _ _, ranked_inRankOrder _ _, fun k => ranked_withKey _ k _, fun o e emergency => ?_,
    fun o e c n standing placed => ?_, fun o e c standing placed => ?_⟩
  · simp only [rankKey, emergency]
  · simp only [rankKey, standing, placed]
  · simp only [rankKey, standing, placed]

/-! ## Selection (R6) -/

theorem runSelection_of_none {s : State} (none : firstEligible s = none) : runSelection s = s := by
  unfold runSelection
  split
  · simp only [none]
  · rfl

theorem runSelection_of_first {s : State} {e : Entry} (free : s.tar.turn = .free) (selects : selectionHeld s = false)
    (first : firstEligible s = some e) :
    runSelection s = raise .grant ((removeEntry e.member s).setTurn (.offered (offerTo e s))) := by
  rw [runSelection, if_pos (by simp [free, selects])]
  simp only [first]

theorem firstEligible_eq_none_iff (s : State) : firstEligible s = none ↔ ∀ e ∈ s.tar.queue, eligible s e = false := by
  simp [firstEligible, List.find?_eq_none, rankedQueue, mem_ranked]

/-- Settles O13: where selection may run it offers the turn to the first eligible entry of the ranked queue. -/
theorem selectionOffersTheFirstEligible : Obligations.SelectionOffersTheFirstEligible := by
  refine fun s => ⟨fun taken => runSelection_noop s (.inl taken), fun held => runSelection_noop s (.inr held),
    fun free selects => ⟨fun unwatched => ?_, fun before after e ranks ineligible first => ?_⟩⟩
  · refine runSelection_of_none ((firstEligible_eq_none_iff s).mpr fun e mem => ?_)
    obtain ⟨supervised, inactive⟩ := unwatched e mem
    simp [eligible, supervised, inactive]
  · have found : firstEligible s = some e := by
      rw [firstEligible, ranks, List.find?_append, List.find?_eq_none.mpr (by simpa using ineligible), Option.none_or,
        List.find?_cons_of_pos first]
    rw [runSelection_of_first free selects found]
    rfl

end Sys2Proof.Machine
end

section
/-! SUPPORT. The station link (R157 to R169): how a request row is answered, the general checks, frames that wait or are
discarded, and the ends of replies and notices. -/

namespace Sys2Proof.Machine

/-! ## Requests that are taken at once -/

/-- What a row carries, with what the general checks look for in it (R161): its kind is known, and is a member's or the
authority's, and its body is whole. -/
structure Carried (own : Bool) (c : Instr) (tag m : Byte) (r : Request) : Prop where
  carried : carries c = some (tag, m, r)
  known : kindUnknown r = false
  kind : memberKind r = own
  shaped : r.shaped = true

/-- A row of the station authority is answered by its owner. -/
theorem exec_authority {c : Instr} {tag : Byte} {r : Request} {s : State} {o : ReplyOutcome} {b : List Byte} {t : State}
    (row : Carried false c tag authority r) (h : takesAtOnce s) (a : ownerAnswer r authority s.lp.corruptNext (heard s) = ⟨o, .bytes b, t⟩)
    (done : t.ilm.arisen = []) (phase : phaseSuits r s.cst.phase = true) :
    exec c s = .next (replied tag authority r o b s t) := by
  rw [exec_carries c tag authority r s row.carried]
  exact next_authority tag r s h o b t a row.known row.kind row.shaped phase done

/-- A row of an ENROLLED member is answered by its owner. -/
theorem exec_member {c : Instr} {tag m : Byte} {r : Request} {s : State} {o : ReplyOutcome} {b : List Byte} {t : State}
    (row : Carried true c tag m r) (h : takesAtOnce s) (enrolled : (enrolment m.toNat s).isSome = true)
    (a : ownerAnswer r m s.lp.corruptNext (heardFrom m s) = ⟨o, .bytes b, t⟩)
    (done : t.ilm.arisen = []) (phase : phaseSuits r s.cst.phase = true) :
    exec c s = .next (replied tag m r o b s t) := by
  rw [exec_carries c tag m r s row.carried]
  exact next_member tag m r s h enrolled o b t a row.known row.kind row.shaped phase done

/-- A row that a general check refuses reaches no owner. -/
theorem exec_refused {c : Instr} {tag m : Byte} {r : Request} {s : State} {o : ReplyOutcome}
    (row : carries c = some (tag, m, r)) (h : takesAtOnce s)
    (refused : generalRefusal ⟨tag, m, r⟩ (heard s) = some o) :
    exec c s = .next (replied tag m r o [] s (heard s)) := by
  rw [exec_carries c tag m r s row, arrive, arrive_refused tag m r s h o refused]

/-! ## The general checks (R161) -/

section
variable {tag m : Byte} {r : Request} {s : State}

theorem generalRefusal_of_unknown (unknown : kindUnknown r = true) :
    generalRefusal ⟨tag, m, r⟩ s = some .unknownKind := if_pos unknown

variable (known : kindUnknown r = false)
include known

theorem generalRefusal_of_source (wrong : sourceSuits r m = false) :
    generalRefusal ⟨tag, m, r⟩ s = some .wrongSource := by
  simp [generalRefusal, known, wrong]

variable (source : sourceSuits r m = true)
include source

theorem generalRefusal_of_shape (malformed : r.shaped = false) : generalRefusal ⟨tag, m, r⟩ s = some .malformed := by
  simp [generalRefusal, known, source, malformed]

variable (shaped : r.shaped = true)
include shaped

theorem generalRefusal_of_member {o : ReplyOutcome} (refused : memberRefusal r m s = some o) :
    generalRefusal ⟨tag, m, r⟩ s = some o := by
  simp [generalRefusal, known, source, shaped, refused]

theorem generalRefusal_of_phase (admitted : memberRefusal r m s = none) (wrong : phaseSuits r s.cst.phase = false) :
    generalRefusal ⟨tag, m, r⟩ s = some .wrongPhase := by
  simp [generalRefusal, known, source, shaped, admitted, wrong]

end

theorem entryRefusal_of_isSome {m : Nat} {s : State} (h : (enrolment m s).isSome = true) : entryRefusal m s = none := by
  obtain ⟨e, enrolled⟩ := Option.isSome_iff_exists.mp h
  exact entryRefusal_of_enrolled enrolled

theorem memberRefusal_of_enrolled {r : Request} {m : Byte} {s : State}
    (h : memberKind r = true → (enrolment m.toNat s).isSome = true) : memberRefusal r m s = none := by
  unfold memberRefusal
  split
  case isTrue kind => exact entryRefusal_of_isSome (h kind)
  case isFalse => rfl

theorem catalogueEntry_of_unknown {kind : Byte} (h : catalogueKind kind = false) (b : List Byte) :
    catalogueEntry kind b = none := by
  have outside (k : Byte) (listed : catalogueKind k = true) : kind ≠ k := by
    rintro rfl
    rw [h] at listed
    cases listed
  simp only [catalogueEntry]
  iterate 36 rw [if_neg (outside _ rfl)]

theorem requestOf_of_unknown {kind : Byte} (h : catalogueKind kind = false) (body : List Byte) :
    requestOf kind body = .unknownKind kind body := by
  simp only [requestOf, catalogueEntry_of_unknown h]

/-- Settles O16, by the first general check that fails. -/
theorem generalChecksRefuse : Obligations.GeneralChecksRefuse := by
  refine ⟨fun c tag m r s row h => ⟨fun unknown => ?_, fun known => ⟨fun wrong => ?_, fun source =>
    ⟨fun malformed => ?_, fun shaped => ⟨fun kind empty => ?_, fun kind damaged => ?_, fun enrolled wrong => ?_⟩⟩⟩⟩,
    fun kind tag m body s outside h => ?_⟩
  · exact exec_refused row h (generalRefusal_of_unknown unknown)
  · exact exec_refused row h (generalRefusal_of_source known wrong)
  · exact exec_refused row h (generalRefusal_of_shape known source malformed)
  · exact exec_refused row h (generalRefusal_of_member known source shaped
      ((if_pos kind).trans (entryRefusal_of_empty empty)))
  · exact exec_refused row h (generalRefusal_of_member known source shaped
      ((if_pos kind).trans (entryRefusal_of_damaged damaged)))
  · exact exec_refused row h (generalRefusal_of_phase known source shaped (memberRefusal_of_enrolled enrolled) wrong)
  · have row : carries (.unknownKindRequest kind tag m body) = some (tag, m, .unknownKind kind body) := by
      rw [carries, requestOf_of_unknown outside]
    exact exec_refused row h (generalRefusal_of_unknown rfl)

/-! ## Replies (R160) -/

/-- The reply to a request shows the summary of the state it left, and that summary does not look at the transmitter. -/
theorem statusSummary_setTransmitter (x : LinkTransmitter) (s : State) :
    statusSummary (s.setTransmitter x) = statusSummary s := rfl

/-- Settles O17: what a request that is taken at once leaves is its owner's state with the reply on the transmitter. -/
theorem everyRequestIsReplied : Obligations.EveryRequestIsReplied := by
  intro c tag m r s row h
  rw [exec_carries c tag m r s row, arrive, arrive_taken ⟨tag, m, r⟩ s h]
  generalize settle (answerFrame ⟨tag, m, r⟩ s.lp.corruptNext (heard s)).state = u
  refine ⟨_, _, rfl, rfl, rfl, rfl, (statusSummary_setTransmitter _ u).symm, fun sound => ?_, fun corrupt => ?_⟩
  · simp only [replyOf, sound, Bool.false_eq_true, if_false]
  · simp only [replyOf, corrupt, if_true]
    rfl

/-! ## Frames that wait (R158, R164, R166) -/

theorem event_congr {f g : State → State} {s : State} (h : f s = g s) : event f s = event g s := by
  simp only [event, h]

theorem pumpNotice_of_sending {s : State} (h : s.lp.tx ≠ .idle) : pumpNotice s = s := by
  simp [pumpNotice, h]

theorem pumpNotice_of_none {s : State} (h : s.ntu.waiting = false) : pumpNotice s = s := by
  simp [pumpNotice, h]

theorem discardFrame_eq (s : State) :
    discardFrame s = raise .frame { s with lp := { s.lp with rx := .hunting } } := rfl

theorem event_discardFrame {f : State → State} {s : State} (running : inReset s = false) (done : s.ilm.arisen = [])
    (h : f s = discardFrame s) :
    event f s = pumpNotice (raise .frame { s with lp := { s.lp with rx := .hunting } }) := by
  rw [event_congr h, event_now discardFrame s running (by simpa [discardFrame] using done), discardFrame_eq]

/-- R164: the supervision timer of a link that is UP, reloaded if it is running. -/
theorem validArrival_of_up {s : State} (up : s.lp.lost = false) : validArrival s = s.setLp { s.lp with
    supervision := if s.lp.supervision.isSome then some (s.clock + 100 * s.lp.supervisionTime) else none } := by
  unfold validArrival
  rw [if_neg (by simp [up])]
  split
  · rfl
  case isFalse stopped =>
    have none : s.lp.supervision = none := by simpa using stopped
    rw [← none]
    rfl

/-- R166: the link recovered, before selection runs. -/
def recovered (s : State) : State := raise .link { s with lp := { s.lp with
    rx := .hunting
    lost := false
    supervision := if s.cst.phase = .run ∨ s.lp.supervision.isSome = true then
        some (s.clock + 100 * s.lp.supervisionTime)
      else none } }

theorem validArrival_of_lost {s : State} (lost : s.lp.lost = true) :
    validArrival (s.setLp { s.lp with rx := .hunting }) = runSelection (recovered s) := by
  have loads : recoverLink (s.setLp { s.lp with rx := .hunting }) = runSelection (recovered s) := by
    unfold recoverLink recovered
    simp only [raise_eq, State.setLp, Bool.or_eq_true, beq_iff_eq]
    split
    · rfl
    case isFalse stopped =>
      have none : s.lp.supervision = none := by simpa using (not_or.mp stopped).2
      rw [← none]
  have still : (s.setLp { s.lp with rx := .hunting }).lp.lost = true := lost
  rw [validArrival, if_pos still, loads]

/-- R158: a frame that finds room in the receive queue. -/
theorem frameArrives_of_room {f : Frame} {s : State} {l : Link} {u : State} (room : s.lp.queue.length < 4)
    (arrived : validArrival (s.setLp { s.lp with rx := .hunting }) = u) (link : u.lp = l) : frameArrives f s =
      if l.tx = .idle then takeOldest (u.setLp { l with queue := l.queue ++ [f] })
      else u.setLp { l with queue := l.queue ++ [f] } := by
  subst link
  simp only [frameArrives, if_neg (Nat.not_le.mpr room), arrived, setLp_lp, beq_iff_eq]

/-- A frame that waits leaves nothing to act on and finds the transmitter sending. -/
theorem arrive_waits {tag m : Byte} {r : Request} {s u : State} (running : inReset s = false)
    (room : s.lp.queue.length < 4) (arrived : validArrival (s.setLp { s.lp with rx := .hunting }) = u)
    (sending : u.lp.tx ≠ .idle) (done : u.ilm.arisen = []) :
    arrive tag m r s = u.setLp { u.lp with queue := u.lp.queue ++ [⟨tag, m, r⟩] } := by
  have waits : frameArrives ⟨tag, m, r⟩ s = u.setLp { u.lp with queue := u.lp.queue ++ [⟨tag, m, r⟩] } := by
    rw [frameArrives_of_room room arrived rfl, if_neg sending]
  rw [arrive, event_now _ _ running (by rw [waits]; exact done), waits]
  exact pumpNotice_of_sending sending

theorem recovered_reloaded (s : State) :
    validArrival ((runSelection (recovered s)).setLp { (runSelection (recovered s)).lp with rx := .hunting }) =
      runSelection (recovered s) := by
  have link : (runSelection (recovered s)).lp = { s.lp with
      rx := .hunting
      lost := false
      supervision := if s.cst.phase = .run ∨ s.lp.supervision.isSome = true then
          some (s.clock + 100 * s.lp.supervisionTime)
        else none } := by simp only [runSelection_lp, recovered, raise_lp]
  have clock : (runSelection (recovered s)).clock = s.clock := by simp only [runSelection_clock, recovered, raise_clock]
  rw [validArrival_of_up (by rw [setLp_lp, link])]
  generalize runSelection (recovered s) = u at link clock
  obtain ⟨⟩ := u
  subst link clock
  simp only [State.setLp]
  split <;> simp_all

/-- Settles O18: by room in the receive queue, the link's state and the transmitter. -/
theorem requestsThatWait : Obligations.RequestsThatWait := by
  refine ⟨fun c tag m r s row running done => ⟨fun sending room up => ?_, fun full => ?_⟩,
    fun c tag m r s row running done lost room => ⟨fun sending => ?_, fun idle => ?_⟩⟩
  · rw [exec_carries c tag m r s row, arrive_waits running room (validArrival_of_up up) sending done]
    rfl
  · have discards : frameArrives ⟨tag, m, r⟩ s = discardFrame s := if_pos full
    rw [exec_carries c tag m r s row, arrive, event_discardFrame running done discards]
  · have link : (runSelection (recovered s)).lp.tx = s.lp.tx := by
      simp only [runSelection_lp, recovered, raise_lp]
    rw [exec_carries c tag m r s row, arrive_waits running room (validArrival_of_lost lost) (link ▸ sending)
      (by simpa [recovered] using done)]
    rfl
  · have tx : (runSelection (recovered s)).lp.tx = .idle := by
      simpa only [runSelection_lp, recovered, raise_lp] using idle
    have queue : (runSelection (recovered s)).lp.queue = s.lp.queue := by
      simp only [runSelection_lp, recovered, raise_lp]
    have reset : inReset (runSelection (recovered s)) = inReset s := by simp [inReset, recovered]
    refine ⟨?_, tx, by simp, by simpa [recovered] using done,
      reset.trans running, queue⟩
    have same : frameArrives ⟨tag, m, r⟩ s = frameArrives ⟨tag, m, r⟩ (runSelection (recovered s)) := by
      rw [frameArrives_of_room room (validArrival_of_lost lost) rfl,
        frameArrives_of_room (by rwa [queue]) (recovered_reloaded s) rfl]
    change exec c s = exec c (runSelection (recovered s))
    rw [exec_carries c tag m r s row, exec_carries c tag m r _ row, arrive, arrive, event, event, reset, same]
    simp [running]

end Sys2Proof.Machine
end

section
/-! SUPPORT. The Link Port beyond its requests: frames that are discarded, the end of a sending, and the loss of the
link. -/

namespace Sys2Proof.Machine

/-! ## Bytes at the receiver (R157) -/

/-- R157: what begins a part of a frame is a part of it. -/
theorem framePart_of_append {l m : List Byte} (h : framePart (l ++ m)) : framePart l := by
  rcases h with none | ⟨n, rest, whole, low, high, short⟩
  · exact .inl (List.append_eq_nil_iff.mp none).1
  · cases l with
    | nil => exact .inl rfl
    | cons b l =>
      obtain ⟨rfl, rfl⟩ := List.cons.inj whole
      refine .inr ⟨b, l, rfl, low, high, ?_⟩
      rw [List.append_eq, List.length_append] at short
      omega

/-- R157: a byte that leaves its frame short of its whole is assembled. -/
theorem linkByte_of_part {got : List Byte} {b : Byte} {s : State} (assembling : s.lp.rx = .assembling got)
    (part : framePart (got ++ [b])) : linkByte s b = s.setLp { s.lp with rx := .assembling (got ++ [b]) } := by
  rcases part with none | ⟨n, rest, whole, low, high, short⟩
  · exact absurd none (by simp)
  · have length : (got ++ [b]).length = rest.length + 1 := by rw [whole]; rfl
    have first : at8 (got ++ [b]) 0 = n := by rw [whole]; rfl
    simp only [linkByte, assembling, first]
    rw [if_neg (by simp [lengthInRange, low, high]), if_neg (by omega)]

theorem foldl_linkByte_of_part (received : List Byte) {got : List Byte} {s : State}
    (assembling : s.lp.rx = .assembling got) (part : framePart (got ++ received)) :
    received.foldl linkByte s = s.setLp { s.lp with rx := .assembling (got ++ received) } := by
  induction received generalizing got s with
  | nil =>
    rw [List.append_nil, ← assembling]
    rfl
  | cons b rest ih =>
    have split : got ++ b :: rest = (got ++ [b]) ++ rest := by simp
    rw [split] at part ⊢
    rw [List.foldl_cons, linkByte_of_part assembling (framePart_of_append part), ih rfl part]
    rfl

/-- R157: a gap discards the part of a frame that was being assembled. -/
theorem linkBreak_of_part {received got : List Byte} {s : State} (assembling : s.lp.rx = .assembling got)
    (part : framePart (got ++ received)) : linkBreak received s = discardFrame s := by
  simp only [linkBreak, foldl_linkByte_of_part received assembling part]
  rfl

theorem linkByte_of_hunting {b : Byte} {s : State} (hunting : s.lp.rx = .hunting) (other : b ≠ 0xC3) :
    linkByte s b = s := by
  simp only [linkByte, hunting, if_neg other]

/-- R157: a receiver that hunts takes in nothing before a sync byte. -/
theorem foldl_linkByte_of_hunting {received : List Byte} {s : State} (hunting : s.lp.rx = .hunting)
    (other : ∀ b ∈ received, b ≠ 0xC3) : received.foldl linkByte s = s := by
  induction received with
  | nil => rfl
  | cons b rest ih =>
    rw [List.foldl_cons, linkByte_of_hunting hunting (other b List.mem_cons_self)]
    exact ih fun x mem => other x (List.mem_cons_of_mem b mem)

theorem linkBreak_of_hunting {received : List Byte} {s : State} (hunting : s.lp.rx = .hunting)
    (other : ∀ b ∈ received, b ≠ 0xC3) : linkBreak received s = s := by
  simp only [linkBreak, foldl_linkByte_of_hunting hunting other, hunting]

/-- R157: a gap discards a frame whose sync byte came with the bytes before the gap. -/
theorem linkBreak_of_sync {before part : List Byte} {s : State} (hunting : s.lp.rx = .hunting)
    (other : ∀ b ∈ before, b ≠ 0xC3) (h : framePart part) : linkBreak (before ++ 0xC3 :: part) s = discardFrame s := by
  have synced : linkByte s 0xC3 = s.setLp { s.lp with rx := .assembling [] } := by simp only [linkByte, hunting, if_true]
  have same : linkBreak (before ++ 0xC3 :: part) s = linkBreak part (s.setLp { s.lp with rx := .assembling [] }) := by
    simp only [linkBreak, List.foldl_append, List.foldl_cons, foldl_linkByte_of_hunting hunting other, synced]
  rw [same, linkBreak_of_part (got := []) rfl h]
  rfl

theorem lengthArrives_of_outside {length : Byte} {s : State} (outside : length.toNat < 3 ∨ 243 < length.toNat) :
    lengthArrives length s = discardFrame s := by
  have first : at8 ([] ++ [length]) 0 = length := rfl
  simp only [lengthArrives, linkByte, setLp_lp, first]
  rw [if_pos (by simp only [lengthInRange, Bool.not_eq_true', Bool.and_eq_false_iff, decide_eq_false_iff_not]; omega)]
  rfl

/-- Settles O19, by what the receiver makes of the bytes. -/
theorem framesArriveOrAreDiscarded : Obligations.FramesArriveOrAreDiscarded := by
  refine ⟨fun bytes s running done => ⟨fun room sound => ?_, fun bad => ?_⟩, fun s running done => ?_⟩
  · have arrives : frameComplete bytes s = frameArrives (frameOf bytes) s := by
      rw [frameComplete, if_neg (Nat.not_le.mpr room), if_pos (by simpa [frameChecks] using sound)]
    change Host.Outcome.next (event (frameComplete bytes) s) = _
    rw [event_congr arrives]
    rfl
  · have discards : frameComplete bytes s = discardFrame s := by
      rcases bad with full | unsound
      · exact if_pos full
      · rw [frameComplete, if_neg (c := frameChecks bytes = true) (by simpa [frameChecks] using unsound), ite_self]
    exact congrArg _ (event_discardFrame running done discards)
  · intro discarded
    have drops {f : State → State} (h : f s = discardFrame s) : (Host.Outcome.next (event f s) : Result) = .next discarded :=
      congrArg _ (event_discardFrame running done h)
    have waits {f : State → State} (h : f s = s) : (Host.Outcome.next (event f s) : Result) = .next (pumpNotice s) := by
      rw [event_now f s running (by rwa [h]), h]
    refine ⟨fun got assembling => ?_, fun got received assembling part => ?_, fun hunting received other => ?_,
      fun hunting before part other h => ?_, fun length outside => ?_⟩
    · have gap : linkBreak [] s = discardFrame s := by
        simp only [linkBreak, List.foldl_nil, assembling]
      exact ⟨drops gap, drops gap⟩
    · exact ⟨drops (linkBreak_of_part assembling part), drops (linkBreak_of_part assembling part)⟩
    · exact ⟨waits (linkBreak_of_hunting hunting other), waits (linkBreak_of_hunting hunting other)⟩
    · exact ⟨drops (linkBreak_of_sync hunting other h), drops (linkBreak_of_sync hunting other h)⟩
    · exact drops (lengthArrives_of_outside outside)

/-! ## What the owners leave of the Link Port -/

@[simp] theorem endTurn_lp (c : EndCause) (s : State) : (endTurn c s).lp = s.lp := (endTurn_moves c s).lp
@[simp] theorem endHeld_lp (m : Nat) (s : State) : (endHeld m s).lp = s.lp := (endHeld_moves m s).lp
@[simp] theorem endWatch_lp (s : State) : (endWatch s).lp = s.lp := (endWatch_moves s).lp
@[simp] theorem endWatchOf_lp (m : Nat) (s : State) : (endWatchOf m s).lp = s.lp := (endWatchOf_moves m s).lp
@[simp] theorem beginWatch_lp (m : Nat) (s : State) : (beginWatch m s).lp = s.lp := (beginWatch_moves m s).lp
@[simp] theorem requestKeyDown_lp (k : KeyDownCause) (c : Claimant) (s : State) : (requestKeyDown k c s).lp = s.lp :=
  (requestKeyDown_moves k c s).lp
@[simp] theorem keyUpHolder_lp (s : State) : (keyUpHolder s).lp = s.lp := (keyUpHolder_moves s).lp
@[simp] theorem clearFault_lp (s : State) : (clearFault s).lp = s.lp := (clearFault_moves s).lp
@[simp] theorem clearTrips_lp (s : State) : (clearTrips s).lp = s.lp := (clearTrips_moves s).lp
@[simp] theorem enterWarming_lp (s : State) : (enterWarming s).lp = s.lp := (enterWarming_moves s).lp
@[simp] theorem clearDownRequest_lp (s : State) : (clearDownRequest s).lp = s.lp := (clearDownRequest_moves s).lp
@[simp] theorem preempt_lp (s : State) : (preempt s).lp = s.lp := (preempt_moves s).lp
@[simp] theorem settle_lp (s : State) : (settle s).lp = s.lp := (settle_moves s).lp

@[simp] theorem refill_lp (m : Nat) (s : State) : (refill m s).lp = s.lp := by
  unfold refill
  split <;> simp

@[simp] theorem refillAll_lp (s : State) : (refillAll s).lp = s.lp := by
  have main : ∀ (n : List Nat) (s : State), (n.foldl (fun s m => refill m s) s).lp = s.lp := by
    intro n
    induction n with
    | nil => exact fun _ => rfl
    | cons m n ih => exact fun s => (ih _).trans (refill_lp m s)
  exact main _ s

@[simp] theorem takeReq_lp (m : Nat) (e : Bool) (x n : Nat) (s : State) : (takeReq m e x n s).lp = s.lp := by
  unfold takeReq
  split <;> split <;> simp

@[simp] theorem placeBreak_lp (m : Nat) (s : State) : (placeBreak m s).lp = s.lp := by
  unfold placeBreak
  split
  · simp
  · split <;> simp

@[simp] theorem takeBrk_lp (placed : Option Nat) (s : State) : (takeBrk placed s).lp = s.lp := by
  cases placed <;> simp [takeBrk]

theorem holderTest_lp {accepts : Bool} {closing : ReplyOutcome} {m : Nat} {owner : State → Answer}
    (keeps : ∀ s, (owner s).state.lp = s.lp) (s : State) : (holderTest accepts closing m owner s).state.lp = s.lp := by
  unfold holderTest
  repeat' split
  all_goals simp [keeps]

@[simp] theorem writeUnlessBusy_lp (w : StoreWrite) (s : State) : (writeUnlessBusy w s).state.lp = s.lp := by
  unfold writeUnlessBusy
  split <;> simp

/-- R159: no owner touches the receive queue. -/
theorem ownerAnswer_queue (r : Request) (m : Byte) (was : Bool) (s : State) :
    (ownerAnswer r m was s).state.lp.queue = s.lp.queue := by
  cases r with
  | mwr | pfw | anw | prw | idw | cls =>
    simp only [ownerAnswer, answerMwr, answerPfw, answerAnw, answerPrw, answerIdw, answerCls]
    repeat' split
    all_goals simp
  | mrd | pfr | anr | prr | idr =>
    simp only [ownerAnswer, answerMrd, answerPfr, answerAnr, answerPrr, answerIdr]
    repeat' split
    all_goals simp [readUnlessBusy_state]
  | run | set | rst =>
    simp only [ownerAnswer, answerRun, enterRun, loadSupervision, answerSet, enterSetup, answerRst]
    repeat' split
    all_goals simp
  | spw | bft | icl | fcl =>
    simp only [ownerAnswer, answerSpw, powerUp, powerDown, requestDown, answerBft, answerIcl, answerFcl]
    repeat' split
    all_goals simp
  | sus | qrf | wch =>
    simp only [ownerAnswer, answerSus, suspend, answerQrf, answerWch, watchOn, watchOff]
    repeat' split
    all_goals simp
  | nen | ncl | jrd | tst =>
    simp only [ownerAnswer, answerNen, answerNcl, answerJrd, answerTst]
    repeat' split
    all_goals simp
  | req | rel | brkAuthority | brkMember =>
    simp only [ownerAnswer, answerReq, answerRel, answerBrkAuthority, answerBrkMember, acceptBrk]
    repeat' split
    all_goals simp
  | key | unk | hld | tun =>
    refine congrArg Link.queue (holderTest_lp (fun t => ?_) s)
    simp only [keyStep, unkeyStep, holdStep, tuneOwner, tuneStep]
    repeat' split
    all_goals simp
  | _ => rfl

theorem answerFrame_queue (f : Frame) (was : Bool) (s : State) : (answerFrame f was s).state.lp.queue = s.lp.queue := by
  unfold answerFrame
  split
  · rfl
  · rw [ownerAnswer_queue, reloadIdle_lp]

/-! ## The end of a sending (R159, R173) -/

/-- R160: the reply to a request taken from the queue. -/
theorem takeFrame_replies (f : Frame) (s : State) : ∃ q : Reply, (takeFrame f s).lp.tx = .replying q ∧ q.tag = f.tag ∧
    q.kind = kindCode f.request + 0x80 :=
  ⟨_, rfl, rfl, rfl⟩

@[simp] theorem takeFrame_queue (f : Frame) (s : State) : (takeFrame f s).lp.queue = s.lp.queue := by
  simp only [takeFrame, State.setTransmitter, setLp_lp, settle_lp, answerFrame_queue]

theorem takeFrame_arisen (f : Frame) (s : State) : (takeFrame f s).ilm.arisen = [] := settle_arisen _

theorem takeOldest_of_cons {f : Frame} {rest : List Frame} {s : State} (h : s.lp.queue = f :: rest) :
    takeOldest s = takeFrame f (s.setLp { s.lp with queue := rest, tx := .idle }) := by
  simp only [takeOldest, h]

/-- R159: an event that takes the oldest request begins its reply. -/
theorem event_takes {g : State → State} {f : Frame} {rest : List Frame} {s : State} (running : inReset s = false)
    (takes : g s = takeOldest s) (queue : s.lp.queue = f :: rest) : ∃ (t : State) (q : Reply),
      event g s = t ∧ t.lp.tx = .replying q ∧ q.tag = f.tag ∧ q.kind = kindCode f.request + 0x80 ∧ t.lp.queue = rest := by
  rw [takeOldest_of_cons queue] at takes
  obtain ⟨q, sending, tag, kind⟩ := takeFrame_replies f (s.setLp { s.lp with queue := rest, tx := .idle })
  refine ⟨_, q, rfl, ?_⟩
  rw [event_now g s running (by rw [takes, takeFrame_arisen]), takes,
    pumpNotice_of_sending (by rw [sending]; exact fun h => by cases h)]
  exact ⟨sending, tag, kind, takeFrame_queue ..⟩

/-- R159: an event that finds no request to take leaves the transmitter IDLE. -/
theorem event_idles {g : State → State} {s : State} (running : inReset s = false) (done : s.ilm.arisen = [])
    (takes : g s = takeOldest s) (queue : s.lp.queue = []) : event g s = pumpNotice (s.setTransmitter .idle) := by
  have idles : g s = s.setTransmitter .idle := by
    rw [takes]
    simp only [takeOldest, queue]
  rw [event_now g s running (by rw [idles]; exact done), idles]

theorem sendNotice_eq (s : State) : sendNotice s = { s with
    ntu := { s.ntu with waiting := false }
    lp := { s.lp with tx := .notifying ⟨s.ntu.pending, statusSummary s⟩ } } := rfl

/-- R173: a waiting notice follows as soon as the transmitter is IDLE. -/
theorem pumpNotice_idle_of_waiting {s : State} (h : s.ntu.waiting = true) :
    pumpNotice (s.setTransmitter .idle) = sendNotice s := by
  rw [pumpNotice, if_pos (by simp [State.setTransmitter, h])]
  rfl

/-- Settles O20, by the frame whose sending ends and what waits behind it. -/
theorem sendingEnds : Obligations.SendingEnds := by
  refine ⟨fun p s running done sending soft => ?_, fun n s running done sending => ?_⟩
  · have ends : replyEnds s = if s.ntu.waiting then sendNotice s else takeOldest s := by
      simp only [replyEnds, sending, soft, Bool.false_eq_true, if_false]
    refine ⟨fun waiting => ?_, fun silent empty => ?_, fun f rest silent queue => ?_⟩
    · rw [if_pos waiting] at ends
      change Host.Outcome.next (event replyEnds s) = _
      rw [event_now replyEnds s running (by rw [ends]; exact done), ends, sendNotice_eq]
      exact congrArg _ (pumpNotice_of_none rfl)
    · rw [if_neg (by simp [silent])] at ends
      exact congrArg _ ((event_idles running done ends empty).trans (pumpNotice_of_none silent))
    · rw [if_neg (by simp [silent])] at ends
      obtain ⟨t, q, ends, reply⟩ := event_takes running ends queue
      exact ⟨t, q, congrArg _ ends, reply⟩
  · have ends : noticeEnds s = takeOldest s := by simp only [noticeEnds, sending]
    refine ⟨fun empty silent => ?_, fun empty waiting => ?_, fun f rest queue => ?_⟩
    · exact congrArg _ ((event_idles running done ends empty).trans (pumpNotice_of_none silent))
    · exact congrArg _ ((event_idles running done ends empty).trans (pumpNotice_idle_of_waiting waiting))
    · obtain ⟨t, q, ends, reply⟩ := event_takes running ends queue
      exact ⟨t, q, congrArg _ ends, reply⟩

end Sys2Proof.Machine
end

section
/-! SUPPORT. Turns, the queue and the watch: what the end of a turn leaves, and the requests and deadlines that end
turns. -/

namespace Sys2Proof.Machine

/-! ## What the end of a turn leaves -/

/-- A turn has ended: it is not OPEN; if it is OFFERED, selection has just offered it, which no power-down request and no
loss of the link hold back; and selection has nothing more to do. -/
structure TurnOver (s : State) : Prop where
  notOpen : ∀ o, s.tar.turn ≠ .opened o
  offered : ∀ o, s.tar.turn = .offered o → s.spc.downRequested = false ∧ s.lp.lost = false
  selected : runSelection s = s

theorem turnOver_of_closing {s : State} {c : ClosingTurn} (h : s.tar.turn = .closing c) : TurnOver s where
  notOpen o := by rw [h]; exact fun e => by cases e
  offered o e := by rw [h] at e; cases e
  selected := runSelection_noop s (.inl (by rw [h]; exact fun e => by cases e))

theorem turnOver_of_held {s : State} (free : s.tar.turn = .free) (held : selectionHeld s = true) : TurnOver s where
  notOpen o := by rw [free]; exact fun e => by cases e
  offered o e := by rw [free] at e; cases e
  selected := runSelection_noop s (.inr held)

theorem runSelection_turnOver {s : State} (free : s.tar.turn = .free) : TurnOver (runSelection s) := by
  by_cases held : selectionHeld s = true
  · rw [runSelection_noop s (.inr held)]
    exact turnOver_of_held free held
  · have open_ : s.spc.downRequested = false ∧ s.lp.lost = false := by
      simp only [selectionHeld, Bool.or_eq_true, not_or, Bool.not_eq_true] at held
      exact ⟨held.1.2, held.2⟩
    refine ⟨fun o e => ?_, fun _ _ => by rw [runSelection_spc, runSelection_lp]; exact open_, runSelection_idem s⟩
    unfold runSelection at e
    split at e
    · split at e
      · rw [free] at e; cases e
      · rw [raise_tar] at e
        cases e
    · rw [free] at e; cases e

@[simp] theorem offEntered_tar (summary : Option SelfCheck) (s : State) : (offEntered summary s).tar = s.tar := by
  unfold offEntered
  dsimp only
  split <;> simp [identMissed, powerChanged, requestCleared]

@[simp] theorem coolingEntered_tar (s : State) : (coolingEntered s).tar = s.tar := by
  unfold coolingEntered
  dsimp only
  split <;> simp [powerChanged, requestCleared]

theorem offEntered_not_ready (summary : Option SelfCheck) (s : State) : stationReady (offEntered summary s) = false := by
  unfold offEntered
  dsimp only
  split <;> simp [stationReady, identMissed, powerChanged]

theorem coolingEntered_not_ready (s : State) : stationReady (coolingEntered s) = false := by
  unfold coolingEntered
  dsimp only
  split
  · exact offEntered_not_ready _ _
  · simp [stationReady, powerChanged]

theorem selectionHeld_of_not_ready {s : State} (h : stationReady s = false) : selectionHeld s = true := by
  simp [selectionHeld, h]

@[simp] theorem turnFreed_turn (r : JournalBody) (s : State) : (turnFreed r s).tar.turn = .free := rfl

theorem freedTo_turnOver (r : JournalBody) (s : State) : TurnOver (freedTo r s) := by
  unfold freedTo
  split
  · exact turnOver_of_held (by simp) (selectionHeld_of_not_ready (coolingEntered_not_ready _))
  · exact runSelection_turnOver rfl

theorem turnReleased_turnOver (cause : EndCause) {s : State} (h : s.tar.turn ≠ .free) :
    TurnOver (turnReleased cause s) := by
  unfold turnReleased
  split
  case h_1 free => exact absurd free h
  all_goals exact freedTo_turnOver _ _

@[simp] theorem sendAbandoned_tar (s : State) : (sendAbandoned s).tar = s.tar := by
  unfold sendAbandoned
  split
  · split <;> simp
  · rfl

section
variable {s : State} {c : ClosingTurn}

theorem faulted_turnOver (kind : FaultKind) (x : Lines) (h : s.tar.turn = .closing c) :
    TurnOver (faulted kind x s) := by
  unfold faulted
  dsimp only
  split
  · exact turnOver_of_closing (c := c) (by simp [h])
  · exact turnReleased_turnOver _ (by simp [h])

theorem aired_tar (s : State) : (aired s).tar = s.tar := by
  unfold aired identAired holderAired keyedDown
  split
  · rfl
  · dsimp only
    split <;> rfl

theorem txUpEntered_turnOver (h : s.tar.turn = .closing c) : TurnOver (txUpEntered s) := by
  unfold txUpEntered
  dsimp only
  split
  · split
    · exact turnOver_of_closing ((congrArg Arbiter.turn (aired_tar _)).trans h)
    · exact faulted_turnOver _ _ h
  · exact turnOver_of_closing h

theorem ampUpEntered_turnOver (h : s.tar.turn = .closing c) : TurnOver (ampUpEntered s) := by
  unfold ampUpEntered
  dsimp only
  split
  · split
    · exact txUpEntered_turnOver h
    · exact faulted_turnOver _ _ h
  · exact turnOver_of_closing h

theorem keyedUp_turnOver (x : Claimant) (h : s.tar.turn = .closing c) : TurnOver (keyedUp x s) := by
  have closing : idleRemoved s.tar.turn = .closing c := by rw [h]; rfl
  unfold keyedUp
  dsimp only
  split
  · exact txUpEntered_turnOver closing
  · exact ampUpEntered_turnOver closing

theorem closingEnds_turnOver (h : s.tar.turn = .closing c) : TurnOver (closingEnds c s) := by
  unfold closingEnds
  split
  · exact keyedUp_turnOver _ h
  · split
    · exact turnOver_of_closing h
    · exact freedTo_turnOver _ _

theorem keyDownBegun_tar (cause : KeyDownCause) (s : State) : (keyDownBegun cause s).tar = s.tar := by
  unfold keyDownBegun
  split <;> rfl

end

theorem openEnded_turnOver (cause : EndCause) (o : OpenTurn) (s : State) : TurnOver (openEnded cause o s) := by
  unfold openEnded
  dsimp only
  split
  · split
    · exact closingEnds_turnOver rfl
    · exact turnOver_of_closing (congrArg Arbiter.turn (keyDownBegun_tar _ _))
  · split
    · exact closingEnds_turnOver rfl
    · exact turnOver_of_closing rfl

/-- R13, R14, R17: once an OFFERED or OPEN turn has ended, selection has run. -/
theorem turnEnded_turnOver (cause : EndCause) {s : State} (h : s.tar.turn ≠ .free) : TurnOver (turnEnded cause s) := by
  unfold turnEnded
  split
  · exact freedTo_turnOver _ _
  · exact openEnded_turnOver _ _ _
  case h_3 notOffered notOpened =>
    cases turn : s.tar.turn with
    | free => exact absurd turn h
    | offered o => exact absurd turn (notOffered o)
    | opened o => exact absurd turn (notOpened o)
    | closing c => exact turnOver_of_closing turn

theorem turnEnded_of_free {cause : EndCause} {s : State} (h : s.tar.turn = .free) : turnEnded cause s = s := by
  simp only [turnEnded, h]

theorem turnEnded_of_closing {cause : EndCause} {s : State} {c : ClosingTurn} (h : s.tar.turn = .closing c) :
    turnEnded cause s = s := by
  simp only [turnEnded, h]

/-! ## The watch outlasts the end of a turn -/

@[simp] theorem identMissed_mrg (t : Trigger) (s : State) : (identMissed t s).mrg = s.mrg := by simp [identMissed]
@[simp] theorem powerChanged_mrg (p : Power) (c : Option SelfCheck) (s : State) : (powerChanged p c s).mrg = s.mrg := by
  simp [powerChanged]

@[simp] theorem offEntered_mrg (summary : Option SelfCheck) (s : State) : (offEntered summary s).mrg = s.mrg := by
  unfold offEntered
  dsimp only
  split <;> simp [requestCleared]

@[simp] theorem coolingEntered_mrg (s : State) : (coolingEntered s).mrg = s.mrg := by
  unfold coolingEntered
  dsimp only
  split <;> simp [requestCleared]

@[simp] theorem freedTo_mrg (r : JournalBody) (s : State) : (freedTo r s).mrg = s.mrg := by
  unfold freedTo
  split <;> simp [turnFreed]

@[simp] theorem missedThenFreed_mrg (r : JournalBody) (s : State) : (missedThenFreed r s).mrg = s.mrg := by
  unfold missedThenFreed
  split <;> simp

@[simp] theorem turnReleased_mrg (cause : EndCause) (s : State) : (turnReleased cause s).mrg = s.mrg := by
  unfold turnReleased
  split <;> simp

@[simp] theorem sendAbandoned_mrg (s : State) : (sendAbandoned s).mrg = s.mrg := by
  unfold sendAbandoned
  split
  · split <;> simp
  · rfl

@[simp] theorem faulted_mrg (kind : FaultKind) (x : Lines) (s : State) : (faulted kind x s).mrg = s.mrg := by
  unfold faulted
  dsimp only
  split <;> simp

theorem aired_watch (s : State) : (aired s).mrg.watch = s.mrg.watch := by
  unfold aired identAired holderAired keyedDown
  split
  · rfl
  · dsimp only
    split <;> rfl

theorem txUpEntered_watch (s : State) : (txUpEntered s).mrg.watch = s.mrg.watch := by
  unfold txUpEntered
  dsimp only
  split
  · split
    · exact aired_watch _
    · rw [faulted_mrg]
  · rfl

theorem ampUpEntered_watch (s : State) : (ampUpEntered s).mrg.watch = s.mrg.watch := by
  unfold ampUpEntered
  dsimp only
  split
  · split
    · exact txUpEntered_watch _
    · rw [faulted_mrg]
  · rfl

theorem closingEnds_watch (c : ClosingTurn) (s : State) : (closingEnds c s).mrg.watch = s.mrg.watch := by
  unfold closingEnds
  split
  · unfold identClaimed keyedUp
    dsimp only
    split
    · exact txUpEntered_watch _
    · exact ampUpEntered_watch _
  · split
    · rfl
    · rw [missedThenFreed_mrg]

/-- R51: the end of a turn leaves the watch. -/
theorem turnEnded_watch (cause : EndCause) (s : State) : (turnEnded cause s).mrg.watch = s.mrg.watch := by
  unfold turnEnded
  split
  · rw [freedTo_mrg]
  · unfold openEnded
    dsimp only
    split
    · split
      · exact closingEnds_watch _ _
      · unfold keyDownBegun keyedDown
        split <;> rfl
    · split
      · exact closingEnds_watch _ _
      · rfl
  · rfl

end Sys2Proof.Machine
end

section
/-! SUPPORT. The loss of the link, deadlines, `rel` and the watch: each ends a turn as `turnEnded` says. -/

namespace Sys2Proof.Machine

/-! ## The model's ends are the ends of `Safety` -/

/-- R13: the end of a turn that is not OPEN; an OFFERED one becomes FREE, which cools quietly. -/
theorem endTurn_of_not_opened {cause : EndCause} {s : State} (notOpen : ∀ o, s.tar.turn ≠ .opened o)
    (cools : ∀ o, s.tar.turn = .offered o → coolsQuietly s) : endTurn cause s = turnEnded cause s := by
  cases turn : s.tar.turn with
  | opened o => exact absurd turn (notOpen o)
  | offered o =>
    simp only [endTurn, turnEnded, turn]
    exact becomeFree_freedTo _ s (cools o turn)
  | _ => simp only [endTurn, turnEnded, turn]

theorem coolsQuietly_of_not_requested {s : State} (h : s.spc.downRequested = false) : coolsQuietly s := fun requested => by
  rw [h] at requested
  cases requested

theorem watchLeft_turn (w : Nat) (s : State) : (watchLeft w s).tar = s.tar := by simp [watchLeft]

/-- R51: the watch that ends, by the end of the turn that it may bring. -/
theorem endWatch_of_active {w b x : Nat} {s : State} (watch : s.mrg.watch = .active w b x)
    (ends : turnRunning s = true → endTurn .noWatch (watchLeft w s) = turnEnded .noWatch (watchLeft w s)) :
    endWatch s = watchEnds w s := by
  have left : endWatch s = endSupervised (watchLeft w s) := by
    simp only [endWatch, watch]
    rfl
  have running : turnRunning (watchLeft w s) = turnRunning s := by simp only [turnRunning, watchLeft_turn]
  have cls : turnClass (watchLeft w s) = turnClass s := by simp only [turnClass, watchLeft_turn]
  rw [left, endSupervised, watchEnds, running, cls]
  by_cases supervised : turnRunning s = true ∧ turnClass s = some (.standing .supervised)
  · rw [if_pos (by simp [supervised]), if_pos supervised, ends supervised.1]
  · rw [if_neg (by simpa using supervised), if_neg supervised]

/-- R51: the end of the watch after a turn has ended. -/
theorem endWatch_of_turnOver {w b x : Nat} {s : State} (watch : s.mrg.watch = .active w b x) (h : TurnOver s) :
    endWatch s = watchEnds w s := by
  have tar : (watchLeft w s).tar = s.tar := watchLeft_turn w s
  have spc : (watchLeft w s).spc = s.spc := by simp [watchLeft]
  exact endWatch_of_active watch fun _ => endTurn_of_not_opened (fun o => by rw [tar]; exact h.notOpen o)
    fun o offered => coolsQuietly_of_not_requested (by rw [spc]; exact (h.offered o (tar ▸ offered)).1)

theorem watchEnds_of_not_running {w : Nat} {s : State} (h : turnRunning s = false) : watchEnds w s = watchLeft w s := by
  rw [watchEnds, if_neg (by simp [h])]

/-- A turn that is over with the link LOST is neither OFFERED nor OPEN. -/
theorem TurnOver.not_running_of_lost {s : State} (h : TurnOver s) (lost : s.lp.lost = true) : turnRunning s = false := by
  cases turn : s.tar.turn with
  | opened o => exact absurd turn (h.notOpen o)
  | offered o => exact absurd (h.offered o turn).2 (by simp [lost])
  | _ => simp only [turnRunning, turn]

/-- What ends quietly does so after any change but to the chain, the identification, the inputs, the lines, the setting and
the power. -/
theorem endsQuietly_of_same {s t : State} (h : endsQuietly s) (kch : t.kch = s.kch) (ids : t.ids = s.ids)
    (ilm : t.ilm = s.ilm) (lines : t.lines = s.lines) (seu : t.seu = s.seu) (spc : t.spc = s.spc) : endsQuietly t := by
  refine endsQuietly_congr h kch ids ilm lines seu (by rw [spc]) (by rw [spc]) ?_
  unfold coolsQuietly movesQuietly inputActive
  rw [spc, ilm]
  exact h.1

theorem endsQuietly_heardFrom {m : Byte} {s : State} (h : endsQuietly s) : endsQuietly (heardFrom m s) := by
  refine endsQuietly_of_same h ?_ ?_ ?_ ?_ ?_ ?_ <;> simp

theorem endsQuietly_heard {s : State} (h : endsQuietly s) : endsQuietly (heard s) :=
  endsQuietly_of_same h rfl rfl rfl rfl rfl rfl

/-! ## Expiries that fall due -/

/-- What a command of expiry does in the present moment. -/
theorem exec_due {c : Instr} {f : State → State} {s : State} (h : fallsDue c s) (row : exec c s = .next (expiry (dueMoment c s) f s))
    (done : (f s).ilm.arisen = []) : exec c s = .next (pumpNotice (f s)) := by
  obtain ⟨running, _, t, moment, come⟩ := h
  rw [row, expiry_now _ f s t moment come running done]

theorem fallsDue.settled {c : Instr} {s : State} (h : fallsDue c s) : s.ilm.arisen = [] := h.2.1

/-! ## The loss of the link (R165) -/

/-- R165: the link is LOST, with its record. -/
def linkGone (s : State) : State :=
  writeJournal .link { s with lp := { s.lp with lost := true, corruptNext := false, supervision := none } }

theorem linkGone_lost (s : State) : (linkGone s).lp.lost = true := by simp [linkGone]

theorem endsQuietly_linkGone {s : State} (h : endsQuietly s) : endsQuietly (linkGone s) := by
  refine endsQuietly_of_same h ?_ ?_ ?_ ?_ ?_ ?_ <;> simp [linkGone]

/-- R165: the turn that the loss of the link ends. -/
theorem endTurn_linkGone {s : State} (h : endsQuietly s) :
    endTurn .linkLost (linkGone s) = turnEnded .linkLost (linkGone s) :=
  endTurn_eq _ _ (endsQuietly_linkGone h) fun _ => rfl

theorem turnEnded_linkGone_lost {s : State} (h : endsQuietly s) :
    (turnEnded .linkLost (linkGone s)).lp.lost = true := by
  rw [← endTurn_linkGone h, endTurn_lp, linkGone_lost]

theorem turnEnded_linkGone_watch (s : State) : (turnEnded .linkLost (linkGone s)).mrg.watch = s.mrg.watch := by
  rw [turnEnded_watch]
  simp [linkGone]

theorem selectionHeld_of_lost {s : State} (h : s.lp.lost = true) : selectionHeld s = true := by simp [selectionHeld, h]

/-- R165: no turn is offered as the link is lost. -/
theorem freedTo_of_lost (r : JournalBody) {s : State} (lost : s.lp.lost = true) : (freedTo r s).tar.turn = .free := by
  unfold freedTo
  split
  · rw [coolingEntered_tar, turnFreed_turn]
  · rw [runSelection_noop _ (.inr (selectionHeld_of_lost (by simpa [turnFreed] using lost))), turnFreed_turn]

theorem turnEnded_linkGone_turnOver (s : State) : TurnOver (turnEnded .linkLost (linkGone s)) := by
  by_cases free : (linkGone s).tar.turn = .free
  · rw [turnEnded_of_free free]
    exact turnOver_of_held free (selectionHeld_of_lost (linkGone_lost s))
  · exact turnEnded_turnOver _ free

theorem TurnOver.emptyQueue {s : State} (h : TurnOver s) : TurnOver (emptyQueue s) where
  notOpen := h.notOpen
  offered := h.offered
  selected := runSelection_empty _ rfl

/-- Settles O21: the turn that ends is not offered again, as the loss holds selection; so the watch that ends finds no
turn to end. -/
theorem linkIsLost : Obligations.LinkIsLost := by
  intro s due plain lost ended emptied
  have tar : (linkGone s).tar = s.tar := by simp [linkGone]
  have lose : loseLink s = endWatch emptied := congrArg (endWatch ∘ emptyQueue) (endTurn_linkGone plain)
  have settled : emptied.ilm.arisen = [] := by
    have same : emptied.ilm.arisen = (linkGone s).ilm.arisen := turnEnded_arisen .linkLost (linkGone s)
    rw [same]
    simpa [linkGone] using due.settled
  have isOver : TurnOver emptied := (turnEnded_linkGone_turnOver s).emptyQueue
  have watch : emptied.mrg.watch = s.mrg.watch := turnEnded_linkGone_watch s
  have loses {t : State} (ends : endWatch emptied = t) (done : t.ilm.arisen = []) :
      exec .linkSupervisionExpiry s = .next (pumpNotice t) := by
    rw [exec_due (f := loseLink) due rfl (by rw [lose, ends]; exact done), lose, ends]
  refine ⟨fun free => turnEnded_of_free (tar ▸ free), fun c closing => turnEnded_of_closing (tar ▸ closing),
    fun o offered => ?_, fun inactive => ?_, fun w b x active => ?_⟩
  · have released : ended = freedTo (offeredRecord o .linkLost) (linkGone s) := by
      have offered : (linkGone s).tar.turn = .offered o := tar ▸ offered
      change turnEnded .linkLost (linkGone s) = _
      simp only [turnEnded, offered]
    rw [released]
    exact freedTo_of_lost _ (linkGone_lost s)
  · exact loses (by simp only [endWatch, watch, inactive]) settled
  · refine loses ?_ (by rw [watchLeft_ilm]; exact settled)
    rw [endWatch_of_turnOver (watch.trans active) isOver,
      watchEnds_of_not_running (isOver.not_running_of_lost (turnEnded_linkGone_lost plain))]

/-! ## Deadlines (R7, R9, R10, R23) -/

theorem offerMoment_isSome {s : State} {t : Nat} (h : offerMoment s = some t) : ∃ o, s.tar.turn = .offered o := by
  unfold offerMoment at h
  split at h
  case h_1 o offered => exact ⟨o, offered⟩
  case h_2 => cases h

/-- Settles O31, by the deadline that passes. -/
theorem turnAndQueueDeadlinesPass : Obligations.TurnAndQueueDeadlinesPass := by
  refine ⟨fun s plain => ⟨fun due => ?_, fun due unkeyed => ?_⟩, fun o s opened due => ⟨fun alone => ?_, fun waits plain => ?_⟩,
    fun m s due => ?_⟩
  · obtain ⟨_, _, t, moment, _⟩ := id due
    obtain ⟨o, offered⟩ := offerMoment_isSome moment
    have ends : endTurn .noAnswer s = turnEnded .noAnswer s :=
      endTurn_of_not_opened (fun o => by rw [offered]; exact fun e => by cases e) fun _ _ => plain.1
    rw [exec_due (f := endTurn .noAnswer) due rfl (by rw [ends, turnEnded_arisen, due.settled]), ends]
  · have ends : endTurn .idleLimit s = turnEnded .idleLimit s :=
      endTurn_eq _ _ plain fun keyed => by rw [unkeyed] at keyed; cases keyed
    rw [exec_due (f := endTurn .idleLimit) due rfl (by rw [ends, turnEnded_arisen, due.settled]), ends]
  · have renews : turnDeadlinePasses s = { s with tar := { s.tar with
        turn := .opened { o with turnDeadline := o.turnDeadline + 10 * s.tar.copy.turnLimit } } } := by
      simp only [turnDeadlinePasses, opened]
      rw [if_neg (by simpa using alone)]
      rfl
    rw [exec_due (f := turnDeadlinePasses) due rfl (by rw [renews]; exact due.settled), renews]
  · have ends : turnDeadlinePasses s = turnEnded .turnLimit s := by
      rw [← endTurn_eq _ _ plain fun _ => rfl]
      simp only [turnDeadlinePasses, opened]
      rw [if_pos (by simpa using waits)]
    rw [exec_due (f := turnDeadlinePasses) due rfl (by rw [ends, turnEnded_arisen, due.settled]), ends]
  · exact exec_due (f := removeEntry m.toNat) due rfl due.settled

/-! ## `rel` (R29) -/

/-- R47, R161: what a member's request needs of its member and of the phase. -/
theorem mayAsk.enrolled {m : Byte} {s : State} (h : mayAsk m s) : (enrolment m.toNat s).isSome = true := h.1
theorem mayAsk.run {m : Byte} {s : State} (h : mayAsk m s) : s.cst.phase = .run := h.2.1
theorem mayAsk.active {m : Byte} {s : State} (h : mayAsk m s) : isSuspended m.toNat s = false := h.2.2

theorem takesAtOnce.settled {s : State} (h : takesAtOnce s) : s.ilm.arisen = [] := h.2.2.2.2

theorem heardFrom_of_not_holder {m : Byte} {s : State} (h : holder s ≠ some m.toNat) : heardFrom m s = heard s :=
  heardFrom_of_not_opened m s fun o opened holds => h (by simp [holder, opened, holds])

theorem heardFrom_of_offered {m : Byte} {s : State} {o : OfferedTurn} (h : s.tar.turn = .offered o) :
    heardFrom m s = heard s :=
  heardFrom_of_not_opened m s fun p e => by rw [h] at e; cases e

theorem heardFrom_of_closing {m : Byte} {s : State} {c : ClosingTurn} (h : s.tar.turn = .closing c) :
    heardFrom m s = heard s :=
  heardFrom_of_not_opened m s fun p e => by rw [h] at e; cases e

/-- R14: an idle deadline that the last request reloaded ends with its turn. -/
theorem turnEnded_reloaded {cause : EndCause} {m : Byte} {s : State} {o : OpenTurn} (opened : s.tar.turn = .opened o)
    (holds : o.holder = m.toNat) : turnEnded cause (heardFrom m s) = turnEnded cause (heard s) := by
  have same : closingFrom (reloaded o s) cause = closingFrom o cause := by simp [closingFrom]
  have turn : (heard s).tar.turn = .opened o := opened
  rw [heardFrom_opened m s o opened holds]
  simp only [turnEnded, turn, State.setTurn, State.setTar]
  simp only [openEnded, closedBy, same]
  rfl

theorem exec_rel {tag m : Byte} {s : State} (h : takesAtOnce s) (may : mayAsk m s) {o : ReplyOutcome} {t : State}
    (a : answerRel m.toNat (heardFrom m s) = answer o t) (done : t.ilm.arisen = []) :
    exec (.rel tag m) s = .next (replied tag m .rel o [] s t) :=
  exec_member ⟨rfl, rfl, rfl, rfl⟩ h may.enrolled a done (by rw [may.run]; rfl)

theorem answerRel_of_waiting {m : Nat} {s : State} (active : isSuspended m s = false) (other : holder s ≠ some m) :
    answerRel m s = if (entryOf m s).isSome then answer .ok (removeEntry m s) else answer .notHolder s := by
  rw [answerRel, if_neg (by simp [active]), if_neg (by simp [other])]

section
variable {m : Nat} {s : State}

theorem answerRel_of_offered {o : OfferedTurn} (active : isSuspended m s = false) (turn : s.tar.turn = .offered o)
    (holds : o.holder = m) : answerRel m s = answer .ok (endTurn .declined s) := by
  simp [answerRel, active, holder, turn, holds]

theorem answerRel_of_opened {o : OpenTurn} (active : isSuspended m s = false) (turn : s.tar.turn = .opened o)
    (holds : o.holder = m) : answerRel m s = answer .ok (endTurn .released s) := by
  simp [answerRel, active, holder, turn, holds]

theorem answerRel_of_closing {c : ClosingTurn} (active : isSuspended m s = false) (turn : s.tar.turn = .closing c)
    (holds : c.holder = m) : answerRel m s = answer .noChange s := by
  simp [answerRel, active, holder, turn, holds]

end

/-- Settles O29, by the member's place: in the queue, or the holder of a turn in one of its states. -/
theorem relByPlace : Obligations.RelByPlace := by
  intro tag m s h may
  have active : isSuspended m.toNat (heardFrom m s) = false := by rw [isSuspended_heardFrom]; exact may.active
  refine ⟨fun other waits => ?_, fun other absent => ?_, fun o offered holds plain => ?_, fun o opened holds plain => ?_,
    fun c closing holds => ?_⟩
  · refine exec_rel h may ?_ h.settled
    rw [answerRel_of_waiting active (by rwa [holder_heardFrom]), if_pos (by rwa [entryOf_heardFrom]),
      heardFrom_of_not_holder other]
    rfl
  · refine exec_rel h may ?_ h.settled
    rw [answerRel_of_waiting active (by rwa [holder_heardFrom]), if_neg (by simp [absent]), heardFrom_of_not_holder other]
  · have turn : (heard s).tar.turn = .offered o := offered
    rw [heardFrom_of_offered offered] at active
    refine exec_rel h may ?_ (by rw [turnEnded_arisen]; exact h.settled)
    rw [heardFrom_of_offered offered, answerRel_of_offered active turn holds,
      endTurn_of_not_opened (fun p => by rw [turn]; exact fun e => by cases e) fun _ _ => (endsQuietly_heard plain).1]
  · have turn : (heardFrom m s).tar.turn = .opened (reloaded o s) := by rw [heardFrom_opened m s o opened holds]; rfl
    refine exec_rel h may ?_ (by rw [turnEnded_arisen]; exact h.settled)
    rw [answerRel_of_opened active turn (by rw [reloaded_holder, holds]),
      endTurn_eq _ _ (endsQuietly_heardFrom plain) fun _ => rfl, turnEnded_reloaded opened holds]
  · have turn : (heard s).tar.turn = .closing c := closing
    rw [heardFrom_of_closing closing] at active
    refine exec_rel h may ?_ h.settled
    rw [heardFrom_of_closing closing, answerRel_of_closing active turn holds]

/-! ## The watch (R48 to R52) -/

theorem exec_wch {c : Instr} {tag m setting : Byte} {s : State} (row : Carried true c tag m (.wch setting))
    (h : takesAtOnce s) (may : mayAsk m s)
    {o : ReplyOutcome} {b : List Byte} {t : State} (a : answerWch m.toNat setting (heardFrom m s) = ⟨o, .bytes b, t⟩)
    (done : t.ilm.arisen = []) :
    exec c s = .next (replied tag m (.wch setting) o b s t) :=
  exec_member row h may.enrolled a done (by rw [may.run]; rfl)

section
variable {m : Byte} {s : State}

theorem answerWch_on (may : mayAsk m s) (control : standing m.toNat s = some .control) :
    answerWch m.toNat 1 (heardFrom m s) = watchOn m.toNat (heardFrom m s) := by
  have active := may.active
  simp [answerWch, active, control]

theorem answerWch_off (may : mayAsk m s) (control : standing m.toNat s = some .control) :
    answerWch m.toNat 2 (heardFrom m s) = watchOff m.toNat (heardFrom m s) := by
  have active := may.active
  simp [answerWch, active, control]

theorem answerWch_denied (may : mayAsk m s) (other : standing m.toNat s ≠ some .control) {setting : Byte}
    (named : setting = 1 ∨ setting = 2) : answerWch m.toNat setting (heardFrom m s) = deny .cls (heardFrom m s) := by
  have active := may.active
  rcases named with rfl | rfl <;> simp [answerWch, active, other]

end

theorem beginWatch_eq (m : Nat) (s : State) : beginWatch m s = runSelection (raise .watch (writeJournal (.watch m true)
    { s with mrg := { s.mrg with watch := .active m (now s) (now s + 600 * s.mrg.copy.watchPeriod) } })) := rfl

/-- Settles O34, by the watch that the request or the expiry finds. -/
theorem watchBeginsAndEnds : Obligations.WatchBeginsAndEnds := by
  refine ⟨fun tag m s h may control => ⟨fun inactive => ?_, fun b x active => ?_, fun w b x active other => ?_⟩,
    fun tag m b x s active plain => ⟨fun h may control => ?_, fun due => ?_⟩,
    fun tag m s h may => ⟨fun other => ⟨?_, ?_⟩, fun control unwatched => ?_⟩⟩
  all_goals have settled : (heardFrom m s).ilm.arisen = s.ilm.arisen := by rw [heardFrom_ilm]
  · refine exec_wch ⟨rfl, rfl, rfl, rfl⟩ h may ?_ (by simpa using h.settled)
    rw [answerWch_on may control, watchOn, heardFrom_mrg, inactive, beginWatch_eq, heardFrom_now, heardFrom_mrg]
    rfl
  · refine exec_wch ⟨rfl, rfl, rfl, rfl⟩ h may ?_ (settled.trans h.settled)
    rw [answerWch_on may control, watchOn, heardFrom_mrg, active]
    simp only [if_true, watchExpiryFrom, heardFrom_now, heardFrom_mrg, State.setWatch]
    rfl
  · refine exec_wch ⟨rfl, rfl, rfl, rfl⟩ h may ?_ (settled.trans h.settled)
    rw [answerWch_on may control, watchOn, heardFrom_mrg, active]
    simp only [if_neg other]
    rfl
  · have ends := endWatch_eq m.toNat b x (heardFrom m s) (by rw [heardFrom_mrg]; exact active) (endsQuietly_heardFrom plain)
    refine exec_wch ⟨rfl, rfl, rfl, rfl⟩ h may ?_ (by rw [watchEnds_arisen, settled, h.settled])
    rw [answerWch_off may control, watchOff, heardFrom_mrg, active]
    simp only [if_true, ends]
    rfl
  · have ends := endWatch_eq m.toNat b x s active plain
    rw [exec_due (f := endWatch) due rfl (by rw [ends, watchEnds_arisen, due.settled]), ends]
  · exact exec_wch ⟨rfl, rfl, rfl, rfl⟩ h may (answerWch_denied may other (.inl rfl)) (settled.trans h.settled)
  · exact exec_wch ⟨rfl, rfl, rfl, rfl⟩ h may (answerWch_denied may other (.inr rfl)) (settled.trans h.settled)
  · refine exec_wch ⟨rfl, rfl, rfl, rfl⟩ h may ?_ (settled.trans h.settled)
    rw [answerWch_off may control, watchOff, heardFrom_mrg]
    cases watch : s.mrg.watch with
    | inactive => rfl
    | active w b x =>
      have other : w ≠ m.toNat := fun same => unwatched b x (same ▸ watch)
      simp only [if_neg other]
      rfl

end Sys2Proof.Machine
end

section
/-! SUPPORT. The requests `req`, `brk` and `sus`: their checks in order, and what an accepted one leaves. -/

namespace Sys2Proof.Machine

/-! ## What owners read after an arrival or a change of the queue -/

@[simp] theorem turnRunning_heardFrom (m : Byte) (s : State) : turnRunning (heardFrom m s) = turnRunning s := by
  unfold heardFrom
  split
  · next o opened => split <;> simp [turnRunning, opened]
  · rfl

@[simp] theorem turnClass_heardFrom (m : Byte) (s : State) : turnClass (heardFrom m s) = turnClass s := by
  unfold heardFrom
  split
  · next o opened => split <;> simp [turnClass, opened]
  · rfl

@[simp] theorem queueFull_heardFrom (m : Byte) (s : State) : queueFull (heardFrom m s) = queueFull s := by
  simp [queueFull]

@[simp] theorem mayDisplace_heardFrom (m : Byte) (s : State) : mayDisplace (heardFrom m s) = mayDisplace s := by
  simp [mayDisplace]

@[simp] theorem emergencyPermitted_heardFrom (k : Nat) (m : Byte) (s : State) :
    emergencyPermitted k (heardFrom m s) = emergencyPermitted k s := by simp [emergencyPermitted]

theorem positionBody_heardFrom (k : Nat) (m : Byte) (s : State) :
    positionBody k (heardFrom m s) = positionBody k s := by
  simp [positionBody, rankOf, rankedQueue, eligible]

theorem queueFull_eq_true_iff (s : State) : queueFull s = true ↔ 12 ≤ s.tar.queue.length := by simp [queueFull]

theorem flagSet_eq_true_iff (b : Byte) : flagSet b = true ↔ b ≠ 0 := by simp [flagSet]

theorem zeroOr_eq_true_iff (lo hi : Nat) (x : Half) :
    zeroOr lo hi x.toNat = true ↔ x = 0 ∨ (lo ≤ x.toNat ∧ x.toNat ≤ hi) := by
  simp [zeroOr, within_eq_true_iff, BitVec.toNat_eq]

/-- A row of an ENROLLED member whose reply's body is fixed with the reply. -/
theorem exec_member_body {c : Instr} {tag m : Byte} {r : Request} {s : State} {o : ReplyOutcome} {b : ReplyBody}
    {t : State} (row : Carried true c tag m r) (h : takesAtOnce s) (enrolled : (enrolment m.toNat s).isSome = true)
    (a : ownerAnswer r m s.lp.corruptNext (heardFrom m s) = ⟨o, b, t⟩)
    (done : t.ilm.arisen = []) (phase : phaseSuits r s.cst.phase = true) :
    exec c s = .next (replied tag m r o (bodyBytes b t) s t) := by
  rw [exec_carries c tag m r s row.carried, arrive,
    arrive_member tag m r s h o b t row.known row.kind row.shaped enrolled phase a done]

/-! ## `req` (R26 to R28) -/

theorem exec_req {tag m e : Byte} {x n : Half} {s : State} (h : takesAtOnce s)
    (enrolled : (enrolment m.toNat s).isSome = true) (run : s.cst.phase = .run) {o : ReplyOutcome} {b : ReplyBody} {t : State}
    (a : answerReq m.toNat (flagSet e) x.toNat n.toNat (heardFrom m s) = ⟨o, b, t⟩) (done : t.ilm.arisen = []) :
    exec (.req tag m e x n) s = .next (replied tag m (.req e x n) o (bodyBytes b t) s t) :=
  exec_member_body ⟨rfl, rfl, rfl, rfl⟩ h enrolled a done (by rw [run]; rfl)

/-- R28: the entry that a `req` joins with. -/
def reqEntry (m e : Byte) (x n : Half) (s : State) : Entry where
  member := m.toNat
  cls := if e = 0 then .standing ((standing m.toNat s).getD .member) else .emergency
  placement := .normal
  arrival := now s
  expiry := if x = 0 then none else some (now s + 10 * x.toNat)
  length := if n = 0 then none else some n.toNat

theorem newEntry_heard (m e : Byte) (x n : Half) (s : State) :
    newEntry m.toNat (requestClass m.toNat (flagSet e) (heard s)) x.toNat n.toNat (heard s) = reqEntry m e x n s := by
  have zero (y : Half) : y.toNat = 0 ↔ y = 0 := by simp [BitVec.toNat_eq]
  have cls : requestClass m.toNat (flagSet e) (heard s) = (reqEntry m e x n s).cls := by
    by_cases plain : e = 0 <;> simp [requestClass, reqEntry, flagSet, plain]
  simp only [newEntry, cls, zero, heard_now]
  rfl

/-- R28: the state in which the entry has joined the queue `q`. -/
def reqJoined (m e : Byte) (x n : Half) (q : List Entry) (s : State) : State :=
  { heard s with tar := { s.tar with queue := q ++ [reqEntry m e x n s] } }

/-- R25: the queue that an accepted `req` joins: with room, as it is; or without the entry that an EMERGENCY one
displaces. -/
def reqQueue (e : Byte) (s : State) (q : List Entry) : Prop :=
  (s.tar.queue.length < 12 ∧ q = s.tar.queue) ∨
    (12 ≤ s.tar.queue.length ∧ e ≠ 0 ∧ ∃ (before : List Entry) (y : Entry), rankedQueue s = before ++ [y] ∧
      y.cls ≠ .emergency ∧ q = s.tar.queue.filter fun z => z.member != y.member)

theorem displaceLowest_of_last {before : List Entry} {y : Entry} {s : State} (ranks : rankedQueue s = before ++ [y]) :
    displaceLowest s = removeEntry y.member s := by
  simp [displaceLowest, lowestRanked, ranks]

theorem mayDisplace_of_last {before : List Entry} {y : Entry} {s : State} (ranks : rankedQueue s = before ++ [y])
    (other : y.cls ≠ .emergency) : mayDisplace s = true := by
  have mem : y ∈ s.tar.queue := (mem_ranked s.tar.copy.ranking y _).mp (by
    change y ∈ rankedQueue s
    simp [ranks])
  simp only [mayDisplace, List.any_eq_true]
  exact ⟨y, mem, by simpa using other⟩

/-- R25, R28: the queue has made room, and the entry joins it. -/
theorem joinQueue_reqEntry {m e : Byte} {x n : Half} {s : State} {q : List Entry} (makes : reqQueue e s q) :
    joinQueue (reqEntry m e x n s) (if queueFull (heard s) then displaceLowest (heard s) else heard s) =
      reqJoined m e x n q s := by
  rcases makes with ⟨room, rfl⟩ | ⟨full, _, before, y, ranks, _, rfl⟩
  · rw [if_neg (by rw [queueFull_eq_true_iff]; exact Nat.not_le.mpr room)]
    rfl
  · rw [if_pos (by rw [queueFull_eq_true_iff]; exact full), displaceLowest_of_last (by rwa [rankedQueue_heard])]
    rfl

section
variable {tag m e : Byte} {x n : Half} {s : State} {q : List Entry}

/-- R27: what an accepted `req` asks of its fields and of its member. -/
def reqAccepted (m e : Byte) (x n : Half) (s : State) : Prop :=
  holder s ≠ some m.toNat ∧ entryOf m.toNat s = none ∧ allowanceZero m.toNat s = false ∧
    (x = 0 ∨ (10 ≤ x.toNat ∧ x.toNat ≤ 3600)) ∧ (n = 0 ∨ (60 ≤ n.toNat ∧ n.toNat ≤ 3600)) ∧
    (e ≠ 0 → emergencyPermitted m.toNat s = true)

theorem answerReq_of_accepted (may : mayAsk m s) (accepted : reqAccepted m e x n s) (makes : reqQueue e s q) :
    answerReq m.toNat (flagSet e) x.toNat n.toNat (heardFrom m s) = ⟨.ok, .position m.toNat,
      runSelection (if flagSet e then preempt (reqJoined m e x n q s) else reqJoined m e x n q s)⟩ := by
  obtain ⟨other, absent, allowed, expiry, length, permitted⟩ := accepted
  have active := may.active
  have mayJoin : (queueFull (heard s) && !(flagSet e && mayDisplace (heard s))) = false := by
    rcases makes with ⟨room, _⟩ | ⟨_, emergency, before, y, ranks, cls, _⟩
    · have notFull : queueFull (heard s) = false := by
        rw [← Bool.not_eq_true, queueFull_eq_true_iff]
        exact Nat.not_le.mpr room
      rw [notFull, Bool.false_and]
    · rw [(flagSet_eq_true_iff e).mpr emergency, mayDisplace_of_last (by rwa [rankedQueue_heard]) cls]
      simp
  have allowedClass : (flagSet e && !emergencyPermitted m.toNat (heard s)) = false := by
    by_cases emergency : e = 0
    · simp [flagSet, emergency]
    · have permits : emergencyPermitted m.toNat (heard s) = true := permitted emergency
      simp [permits]
  rw [heardFrom_of_not_holder other, answerReq, if_neg (by simp [active]),
    if_neg (by simp [(zeroOr_eq_true_iff 10 3600 x).mpr expiry, (zeroOr_eq_true_iff 60 3600 n).mpr length]),
    if_neg (by simp [other, absent]), allowedClass, if_neg (by simp), if_neg (by simp [allowed]), mayJoin,
    if_neg (by simp), takeReq, newEntry_heard, joinQueue_reqEntry makes]

/-- R26: what an accepted `req` leaves, where an EMERGENCY one that finds a turn of another class ends it. -/
theorem exec_req_accepted (h : takesAtOnce s) (may : mayAsk m s) (accepted : reqAccepted m e x n s)
    (makes : reqQueue e s q) {t : State}
    (leaves : runSelection (if flagSet e then preempt (reqJoined m e x n q s) else reqJoined m e x n q s) = t)
    (done : t.ilm.arisen = []) :
    exec (.req tag m e x n) s = .next (replied tag m (.req e x n) .ok (positionBody m.toNat t) s t) := by
  have answers := answerReq_of_accepted may accepted makes
  rw [leaves] at answers
  exact exec_req h may.enrolled may.run answers done

theorem preempt_of_not_running {u : State} (h : turnRunning u = true → turnClass u = some .emergency) : preempt u = u := by
  rw [preempt, if_neg]
  simp only [Bool.and_eq_true, bne_iff_ne, ne_eq, not_and, not_not]
  exact h

/-- R26: no turn ends. -/
theorem req_leaves (calm : e = 0 ∨ turnRunning s = false ∨ turnClass s = some .emergency) :
    runSelection (if flagSet e then preempt (reqJoined m e x n q s) else reqJoined m e x n q s) =
      runSelection (reqJoined m e x n q s) := by
  by_cases emergency : e = 0
  · rw [if_neg (by simp [flagSet, emergency])]
  · have calm : turnRunning s = true → turnClass s = some .emergency := fun running => by
      rcases calm with plain | stopped | cls
      · exact absurd plain emergency
      · rw [running] at stopped; cases stopped
      · exact cls
    rw [if_pos ((flagSet_eq_true_iff e).mpr emergency), preempt_of_not_running (by exact calm)]

theorem endsQuietly_reqJoined (h : endsQuietly s) : endsQuietly (reqJoined m e x n q s) :=
  endsQuietly_of_same h rfl rfl rfl rfl rfl rfl

/-- R26: an EMERGENCY `req` ends the turn it finds. -/
theorem req_preempts (emergency : e ≠ 0) (running : turnRunning s = true) (cls : turnClass s ≠ some .emergency)
    (plain : endsQuietly s) :
    runSelection (if flagSet e then preempt (reqJoined m e x n q s) else reqJoined m e x n q s) =
      turnEnded .preempted (reqJoined m e x n q s) := by
  have runs : turnRunning (reqJoined m e x n q s) = true := running
  have other : turnClass (reqJoined m e x n q s) ≠ some .emergency := cls
  rw [if_pos ((flagSet_eq_true_iff e).mpr emergency), preempt, if_pos (by simp [runs, other]),
    endTurn_eq _ _ (endsQuietly_reqJoined plain) fun _ => rfl]
  refine (turnEnded_turnOver _ fun free => ?_).selected
  simp [turnRunning, free] at runs

/-- R28: the place of an entry that waits. -/
theorem positionBody_reqJoined (other : holder s ≠ some m.toNat) (absent : entryOf m.toNat s = none) :
    positionBody m.toNat (reqJoined m e x n s.tar.queue s) =
      bytes1 (rankOf m.toNat (reqJoined m e x n s.tar.queue s)) ++
        bytes1 (if eligible (reqJoined m e x n s.tar.queue s) (reqEntry m e x n s) then 2 else 0) := by
  have holds : holder (reqJoined m e x n s.tar.queue s) ≠ some m.toNat := other
  have entry : entryOf m.toNat (reqJoined m e x n s.tar.queue s) = some (reqEntry m e x n s) := by
    have absent : s.tar.queue.find? (fun e => e.member == m.toNat) = none := absent
    simp only [entryOf, reqJoined, List.find?_append, absent, Option.none_or]
    exact List.find?_cons_of_pos (by simp [reqEntry])
  rw [positionBody, if_neg (by simpa using holds), entry]
  rfl

end

/-- R6, R27: the turn is offered at once to the first to ask. -/
theorem runSelection_reqJoined {m e : Byte} {x n : Half} {s : State} (free : s.tar.turn = .free)
    (empty : s.tar.queue = []) (selects : selectionHeld s = false)
    (watched : e = 0 → standing m.toNat s = some .supervised → s.mrg.watch ≠ .inactive) :
    runSelection (reqJoined m e x n s.tar.queue s) = raise .grant { heard s with tar := { s.tar with
      turn := .offered
        { holder := m.toNat
          cls := if e = 0 then .standing ((standing m.toNat s).getD .member) else .emergency
          offeredAt := now s
          length := if n = 0 then none else some n.toNat
          offerDeadline := now s + 10 * s.tar.copy.offerWindow
          onAirTotal := 0 } } } := by
  have first : firstEligible (reqJoined m e x n s.tar.queue s) = some (reqEntry m e x n s) := by
    have fits : eligible (reqJoined m e x n s.tar.queue s) (reqEntry m e x n s) = true := by
      have watch : (reqJoined m e x n s.tar.queue s).mrg.watch = s.mrg.watch := rfl
      by_cases emergency : e = 0
      · cases cls : standing m.toNat s with
        | none => simp [eligible, reqEntry, emergency, cls]
        | some k =>
          have watched := watched emergency
          rw [cls] at watched
          cases k <;> simp_all [eligible, reqEntry]
      · have cls : (reqEntry m e x n s).cls = .emergency := if_neg emergency
        simp [eligible, cls]
    have queue : rankedQueue (reqJoined m e x n s.tar.queue s) = [reqEntry m e x n s] := by
      simp [rankedQueue, reqJoined, empty, ranked, insertRanked]
    rw [firstEligible, queue, List.find?_cons_of_pos fits]
  rw [runSelection_of_first (s := reqJoined m e x n s.tar.queue s) free selects first]
  simp only [removeEntry, reqJoined, empty, offerTo]
  congr 1
  simp [State.setTurn, State.setTar, State.setQueue, reqEntry]
  rfl

section
variable {m e : Byte} {x n : Half} {s : State}

/-- R27: the last of the six conditions needs a full queue that has nothing to displace. -/
theorem queueFull_of_blocked (full : 12 ≤ s.tar.queue.length) (blocked : e = 0 ∨ ∀ y ∈ s.tar.queue, y.cls = .emergency) :
    (queueFull s && !(flagSet e && mayDisplace s)) = true := by
  rw [(queueFull_eq_true_iff s).mpr full, Bool.true_and, Bool.not_eq_true', Bool.and_eq_false_iff]
  rcases blocked with plain | urgent
  · exact .inl (by simp [flagSet, plain])
  · refine .inr ?_
    simp only [mayDisplace, List.any_eq_false, bne_iff_ne, ne_eq, not_not]
    exact urgent

end

/-- Settles O28: an accepted `req` joins, and selection or the end of a turn follows; the first two parts are what that
comes to where nothing follows and where the turn is offered at once. -/
theorem reqJoinsOrIsOffered : Obligations.ReqJoinsOrIsOffered := by
  refine ⟨fun tag m e x n s h may other absent allowed expiry length permitted room held calm => ?_,
    fun tag m e x n s h may free empty selects allowed expiry length permitted watched => ?_,
    fun tag m e x n s h may other absent allowed expiry length permitted => ?_,
    fun tag m e x n s h enrolled run => ?_⟩
  · intro entry t
    have accepted : reqAccepted m e x n s := ⟨other, absent, allowed, expiry, length, permitted⟩
    have calm : e = 0 ∨ turnRunning s = false ∨ turnClass s = some .emergency := by
      by_cases plain : e = 0
      · exact .inl plain
      · by_cases running : turnRunning s = true
        · exact .inr (.inr (calm plain running))
        · exact .inr (.inl (by simpa using running))
    have waits : runSelection t = t := by
      by_cases free : s.tar.turn = .free
      · exact runSelection_noop t (.inr (held free))
      · exact runSelection_noop t (.inl free)
    have done := exec_req_accepted (tag := tag) (t := t) h may accepted (.inl ⟨room, rfl⟩) ((req_leaves calm).trans waits) h.settled
    rw [done]
    exact congrArg (fun b => (Host.Outcome.next (replied tag m (.req e x n) .ok b s t) : Result))
      (positionBody_reqJoined other absent)
  · have other : holder s ≠ some m.toNat := by simp [holder, free]
    have absent : entryOf m.toNat s = none := by simp [entryOf, empty]
    have stopped : turnRunning s = false := by simp [turnRunning, free]
    have offers := runSelection_reqJoined (m := m) (e := e) (x := x) (n := n) free empty selects watched
    have leaves := (req_leaves (m := m) (x := x) (n := n) (q := s.tar.queue) (.inr (.inl stopped))).trans offers
    rw [exec_req_accepted h may ⟨other, absent, allowed, expiry, length, permitted⟩ (.inl ⟨by simp [empty], rfl⟩) leaves
      (by simpa using h.settled)]
    have body : ∀ u : State, u.tar.turn = .offered
        { holder := m.toNat
          cls := if e = 0 then .standing ((standing m.toNat s).getD .member) else .emergency
          offeredAt := now s
          length := if n = 0 then none else some n.toNat
          offerDeadline := now s + 10 * s.tar.copy.offerWindow
          onAirTotal := 0 } → positionBody m.toNat u = [0, 1] := by
      intro u turn
      have holds : holder u = some m.toNat := by simp only [holder, turn]
      rw [positionBody, if_pos (by simpa using holds)]
      rfl
    rw [body _ (by rw [raise_tar])]
  · intro entry joined accepted q makes
    have accepts : reqAccepted m e x n s := ⟨other, absent, allowed, expiry, length, permitted⟩
    refine ⟨fun free => ?_, fun emergency running cls plain => ?_, fun busy calm => ?_⟩
    · have calm : turnRunning s = false := by simp [turnRunning, free]
      exact exec_req_accepted h may accepts makes (req_leaves (.inr (.inl calm))) (by simpa [joined] using h.settled)
    · exact exec_req_accepted h may accepts makes (req_preempts emergency running cls plain)
        (by rw [turnEnded_arisen]; exact h.settled)
    · exact exec_req_accepted h may accepts makes ((req_leaves calm).trans (runSelection_noop _ (.inl busy))) h.settled
  · intro refused c1 c2 c3 c4 c5
    have refuses {o : ReplyOutcome} {b : ReplyBody}
        (a : answerReq m.toNat (flagSet e) x.toNat n.toNat (heardFrom m s) = ⟨o, b, heardFrom m s⟩) :
        refused o (bodyBytes b (heardFrom m s)) :=
      exec_req h enrolled run a (by rw [heardFrom_ilm]; exact h.settled)
    have active (free : ¬ c1) : isSuspended m.toNat s = false := by simpa [c1] using free
    have inRange (fits : ¬ c2) : (zeroOr 10 3600 x.toNat && zeroOr 60 3600 n.toNat) = true := by
      rw [Bool.and_eq_true, zeroOr_eq_true_iff, zeroOr_eq_true_iff]
      exact not_not.mp fits
    have outOfRange (bad : c2) : (zeroOr 10 3600 x.toNat && zeroOr 60 3600 n.toNat) = false := by
      rw [← Bool.not_eq_true, Bool.and_eq_true, zeroOr_eq_true_iff, zeroOr_eq_true_iff]
      exact bad
    have elsewhere (free : ¬ c3) : (holder s == some m.toNat || (entryOf m.toNat s).isSome) = false := by
      simpa [c3] using free
    have permitted (free : ¬ c4) : (flagSet e && !emergencyPermitted m.toNat s) = false := by
      simpa [c4, flagSet] using free
    refine ⟨fun suspended => ?_, fun free bad => ?_, fun free fits known => ?_, fun free fits new denied => ?_,
      fun free fits new allowed spent => ?_, fun free fits new allowed left full blocked => ?_⟩
    · refine refuses (o := .suspended) (b := .bytes []) ?_
      rw [answerReq, if_pos (by rw [isSuspended_heardFrom]; exact suspended)]
      rfl
    · refine refuses (o := .range) (b := .bytes []) ?_
      rw [answerReq, if_neg (by simp [active free]), if_pos (by rw [outOfRange bad]; rfl)]
      rfl
    · have refusal := refuses (o := .noChange) (b := .position m.toNat) (by
        rw [answerReq, if_neg (by simp [active free]), if_neg (by rw [inRange fits]; decide), if_pos (by simpa [c3] using known)])
      rwa [bodyBytes, positionBody_heardFrom] at refusal
    · refine refuses (o := .denied .cls) (b := .bytes (bytes1 Reason.cls.code)) ?_
      rw [answerReq, if_neg (by simp [active free]), if_neg (by rw [inRange fits]; decide), holder_heardFrom,
        entryOf_heardFrom, elsewhere new, if_neg (by decide), if_pos (by simpa [c4, flagSet] using denied)]
      rfl
    · refine refuses (o := .denied .quota) (b := .bytes (bytes1 Reason.quota.code)) ?_
      rw [answerReq, if_neg (by simp [active free]), if_neg (by rw [inRange fits]; decide), holder_heardFrom,
        entryOf_heardFrom, elsewhere new, if_neg (by decide), emergencyPermitted_heardFrom, permitted allowed,
        if_neg (by decide), if_pos (by rw [allowanceZero_heardFrom]; exact spent)]
      rfl
    · refine refuses (o := .full) (b := .bytes []) ?_
      rw [answerReq, if_neg (by simp [active free]), if_neg (by rw [inRange fits]; decide), holder_heardFrom,
        entryOf_heardFrom, elsewhere new, if_neg (by decide), emergencyPermitted_heardFrom, permitted allowed,
        if_neg (by decide), allowanceZero_heardFrom, if_neg left, queueFull_heardFrom, mayDisplace_heardFrom,
        queueFull_of_blocked full blocked, if_pos rfl]
      rfl

end Sys2Proof.Machine
end

section
/-! SUPPORT. The requests `brk` and `sus`. -/

namespace Sys2Proof.Machine

/-! ## `brk` (R30, R31) -/

/-- R31: the breaker's entry, if one is placed. -/
def placedFor (placed : Option Nat) (s : State) : State :=
  match placed with
  | none => s
  | some m => breakPlaced m s

theorem takeBrk_eq (placed : Option Nat) (s : State) :
    takeBrk placed s = runSelection (endTurn .brk (placedFor placed s)) := by
  cases placed with
  | none => rfl
  | some m => rw [takeBrk, placedFor, placeBreak_eq]

/-- R31: the entry that a break places touches the queue and the count of placements alone. -/
theorem breakPlaced_eq (m : Nat) (s : State) : ∃ (n : Nat) (q : List Entry),
    breakPlaced m s = { s with tar := { s.tar with placements := n, queue := q } } := by
  unfold breakPlaced
  split
  · exact ⟨_, _, rfl⟩
  · split
    · exact ⟨_, _, rfl⟩
    · exact ⟨s.tar.placements, s.tar.queue, rfl⟩

section
variable (placed : Option Nat) (s : State)

theorem placedFor_eq : ∃ (n : Nat) (q : List Entry),
    placedFor placed s = { s with tar := { s.tar with placements := n, queue := q } } := by
  cases placed with
  | none => exact ⟨s.tar.placements, s.tar.queue, rfl⟩
  | some m => exact breakPlaced_eq m s

@[simp] theorem placedFor_turn : (placedFor placed s).tar.turn = s.tar.turn := by
  obtain ⟨n, q, eq⟩ := placedFor_eq placed s
  rw [eq]

@[simp] theorem placedFor_ilm : (placedFor placed s).ilm = s.ilm := by
  obtain ⟨n, q, eq⟩ := placedFor_eq placed s
  rw [eq]

theorem endsQuietly_placedFor {s : State} (h : endsQuietly s) : endsQuietly (placedFor placed s) := by
  obtain ⟨n, q, eq⟩ := placedFor_eq placed s
  rw [eq]
  exact endsQuietly_of_same h rfl rfl rfl rfl rfl rfl

end

section
variable {placed : Option Nat} {s : State}

/-- R31: a break ends the turn that runs, and selection has then run. -/
theorem takeBrk_of_running (running : turnRunning s = true) (plain : endsQuietly s) :
    takeBrk placed s = turnEnded .brk (placedFor placed s) := by
  rw [takeBrk_eq, endTurn_eq _ _ (endsQuietly_placedFor placed plain) fun _ => rfl]
  refine (turnEnded_turnOver _ fun free => ?_).selected
  rw [placedFor_turn] at free
  simp [turnRunning, free] at running

theorem takeBrk_of_closing {c : ClosingTurn} (closing : s.tar.turn = .closing c) :
    takeBrk placed s = placedFor placed s := by
  have turn : (placedFor placed s).tar.turn = .closing c := by rw [placedFor_turn, closing]
  rw [takeBrk_eq, endTurn]
  simp only [turn]
  exact runSelection_noop _ (.inl (by rw [turn]; exact fun e => by cases e))

theorem takeBrk_of_free (free : s.tar.turn = .free) : takeBrk placed s = runSelection (placedFor placed s) := by
  have turn : (placedFor placed s).tar.turn = .free := by rw [placedFor_turn, free]
  rw [takeBrk_eq, endTurn]
  simp only [turn]

theorem brkOutcome_of_running (running : turnRunning s = true) : brkOutcome placed s = .ok := by
  simp only [brkOutcome, running, if_true]

theorem brkOutcome_of_stopped (stopped : turnRunning s = false) : brkOutcome none s = .noChange := by
  simp only [brkOutcome, stopped, Bool.false_eq_true, if_false]

/-- R31: with no turn to end, the outcome says whether an entry was placed. -/
theorem brkOutcome_of_placing (stopped : turnRunning s = false) (m : Nat) :
    ((∀ e k, entryOf m s = some e → e.placement ≠ .brk k) → brkOutcome (some m) s = .ok) ∧
      (∀ e k, entryOf m s = some e → e.placement = .brk k → brkOutcome (some m) s = .noChange) := by
  simp only [brkOutcome, stopped, Bool.false_eq_true, if_false]
  refine ⟨fun normal => ?_, fun e k waits placed => ?_⟩
  · split
    · rfl
    case h_2 e waits =>
      cases place : e.placement with
      | normal => rfl
      | brk k => exact absurd place (normal e k waits)
  · simp only [waits, placed]
    rfl

theorem turnRunning_of_closing {c : ClosingTurn} (h : s.tar.turn = .closing c) : turnRunning s = false := by
  simp only [turnRunning, h]

theorem turnRunning_of_free (h : s.tar.turn = .free) : turnRunning s = false := by simp only [turnRunning, h]

end

theorem exec_brkAuthority {tag take : Byte} {s : State} (h : takesAtOnce s) (run : s.cst.phase = .run) {o : ReplyOutcome}
    {t : State} (a : answerBrkAuthority (flagSet take) (heard s) = answer o t) (done : t.ilm.arisen = []) :
    exec (.brkAuthority tag take) s = .next (replied tag authority (.brkAuthority take) o [] s t) :=
  exec_authority ⟨rfl, rfl, rfl, rfl⟩ h a done (by rw [run]; rfl)

theorem exec_brkMember {tag m take : Byte} {s : State} (h : takesAtOnce s) (enrolled : (enrolment m.toNat s).isSome = true)
    (run : s.cst.phase = .run) {o : ReplyOutcome} {b : List Byte} {t : State}
    (a : answerBrkMember m.toNat (flagSet take) (heardFrom m s) = ⟨o, .bytes b, t⟩) (done : t.ilm.arisen = []) :
    exec (.brkMember tag m take) s = .next (replied tag m (.brkMember take) o b s t) :=
  exec_member ⟨rfl, rfl, rfl, rfl⟩ h enrolled a done (by rw [run]; rfl)

/-- R30: a break that is accepted from a member. -/
theorem answerBrkMember_of_accepted {m : Byte} {take : Bool} {s : State} (may : mayAsk m s)
    (control : standing m.toNat s = some .control) (other : holder s ≠ some m.toNat)
    (calm : turnRunning s = true → turnClass s ≠ some .emergency) (allowed : take = true → allowanceZero m.toNat s = false)
    (room : take = true → entryOf m.toNat s = none → s.tar.queue.length < 12) :
    answerBrkMember m.toNat take (heardFrom m s) = acceptBrk (if take then some m.toNat else none) (heard s) := by
  have active := may.active
  have quiet : (turnRunning s && turnClass s == some .emergency) = false := by simpa using calm
  have fits : (take && (entryOf m.toNat s).isNone && queueFull s) = false := by
    cases take with
    | false => rfl
    | true =>
      cases entry : entryOf m.toNat s with
      | some e => rfl
      | none =>
        have room := room rfl entry
        simp [queueFull, room]
  have pays : (take && allowanceZero m.toNat s) = false := by
    cases take with
    | false => rfl
    | true => exact allowed rfl
  rw [answerBrkMember, heardFrom_of_not_holder other, if_neg (by simp [active]), if_neg (by simp [control]),
    if_neg (by simp [other])]
  have fits : (take && (entryOf m.toNat s).isNone && queueFull (heard s)) = false := fits
  simp only [turnRunning_heard, turnClass_heard, quiet, allowanceZero_heard, pays, entryOf_heard, fits,
    Bool.false_eq_true, if_false]

/-- Settles O30: what `takeBrk` comes to in each state of the turn, and the first of the conditions that applies. -/
theorem brkEndsAndPlaces : Obligations.BrkEndsAndPlaces := by
  refine ⟨fun tag s h run => ?_, fun tag m s h may control other calm => ?_, fun tag m take s h enrolled run => ?_⟩
  · intro answered
    have accepts {t : State} {o : ReplyOutcome} (outcome : brkOutcome none (heard s) = o)
        (leaves : takeBrk none (heard s) = t) (done : t.ilm.arisen = []) : answered 0 o t :=
      exec_brkAuthority h run (by rw [← outcome, ← leaves]; rfl) done
    refine ⟨fun take named => ?_, fun running plain => ?_, fun c closing => ?_, fun free => ?_⟩
    · refine exec_brkAuthority h run ?_ h.settled
      rw [answerBrkAuthority, if_pos ((flagSet_eq_true_iff take).mpr named)]
    · exact accepts (brkOutcome_of_running running) (takeBrk_of_running running (endsQuietly_heard plain))
        (by rw [turnEnded_arisen]; exact h.settled)
    · exact accepts (brkOutcome_of_stopped (turnRunning_of_closing closing)) (takeBrk_of_closing closing) h.settled
    · exact accepts (brkOutcome_of_stopped (turnRunning_of_free free)) (takeBrk_of_free free) (by simpa using h.settled)
  · intro answered
    have accepts {take : Byte} {t : State} {o : ReplyOutcome} (allowed : flagSet take = true → allowanceZero m.toNat s = false)
        (room : flagSet take = true → entryOf m.toNat s = none → s.tar.queue.length < 12)
        (outcome : brkOutcome (if flagSet take then some m.toNat else none) (heard s) = o)
        (leaves : takeBrk (if flagSet take then some m.toNat else none) (heard s) = t) (done : t.ilm.arisen = []) :
        answered take o t := by
      refine exec_brkMember h may.enrolled may.run ?_ done
      rw [answerBrkMember_of_accepted may control other calm allowed room, ← outcome, ← leaves]
      rfl
    refine ⟨fun running plain => ?_, fun c closing => ?_, fun free => ?_, fun take named allowed room => ?_⟩
    · exact accepts (fun e => by cases e) (fun e => by cases e) (brkOutcome_of_running running)
        (takeBrk_of_running running (endsQuietly_heard plain)) (by rw [turnEnded_arisen]; exact h.settled)
    · exact accepts (fun e => by cases e) (fun e => by cases e) (brkOutcome_of_stopped (turnRunning_of_closing closing))
        (takeBrk_of_closing closing) h.settled
    · exact accepts (fun e => by cases e) (fun e => by cases e) (brkOutcome_of_stopped (turnRunning_of_free free))
        (takeBrk_of_free free) (by simpa using h.settled)
    · intro placed
      have places : (if flagSet take then some m.toNat else none) = some m.toNat :=
        if_pos ((flagSet_eq_true_iff take).mpr named)
      have settled : placed.ilm.arisen = [] := by
        have same : placed.ilm = (heard s).ilm := placedFor_ilm (some m.toNat) (heard s)
        rw [same]
        exact h.settled
      refine ⟨fun running plain => ?_, fun c closing => ?_, fun free => ?_⟩
      · refine accepts (fun _ => allowed) (fun _ => room) (by rw [places]; exact brkOutcome_of_running running)
          (by rw [places]; exact takeBrk_of_running running (endsQuietly_heard plain)) ?_
        rw [turnEnded_arisen]
        exact settled
      · have stopped : turnRunning (heard s) = false := turnRunning_of_closing closing
        exact ⟨_, accepts (fun _ => allowed) (fun _ => room) (by rw [places])
          (by rw [places]; exact takeBrk_of_closing closing) settled, brkOutcome_of_placing stopped m.toNat⟩
      · have stopped : turnRunning (heard s) = false := turnRunning_of_free free
        refine ⟨_, accepts (fun _ => allowed) (fun _ => room) (by rw [places])
          (by rw [places]; exact takeBrk_of_free free) ?_, brkOutcome_of_placing stopped m.toNat⟩
        rw [runSelection_ilm]
        exact settled
  · intro refused c2 c3 c4 c5 c6 c7
    have refuses {o : ReplyOutcome} {b : List Byte}
        (a : answerBrkMember m.toNat (flagSet take) (heardFrom m s) = ⟨o, .bytes b, heardFrom m s⟩) : refused o b :=
      exec_brkMember h enrolled run a (by rw [heardFrom_ilm]; exact h.settled)
    have active (free : ¬ c2) : isSuspended m.toNat s = false := by simpa [c2] using free
    have control (free : ¬ c3) : standing m.toNat s = some .control := not_not.mp free
    have calm (free : ¬ c5) : (turnRunning s && turnClass s == some .emergency) = false := by simpa [c5] using free
    have pays (free : ¬ c6) : (flagSet take && allowanceZero m.toNat s) = false := by simpa [c6, flagSet] using free
    refine ⟨fun suspended => ?_, fun a b => ?_, fun a b c => ?_, fun a b c d => ?_, fun a b c d e => ?_,
      fun a b c d e f => ?_⟩
    · refine refuses ?_
      rw [answerBrkMember, if_pos (by rw [isSuspended_heardFrom]; exact suspended)]
      rfl
    · refine refuses ?_
      rw [answerBrkMember, if_neg (by simp [active a]), if_pos (by simpa [c3] using b)]
      rfl
    · refine refuses ?_
      rw [answerBrkMember, if_neg (by simp [active a]), if_neg (by simp [control b]), if_pos (by simpa [c4] using c)]
      rfl
    · refine refuses ?_
      rw [answerBrkMember, if_neg (by simp [active a]), if_neg (by simp [control b]), if_neg (by simpa [c4] using c),
        if_pos (by simpa [c5] using d)]
      rfl
    · refine refuses ?_
      rw [answerBrkMember, if_neg (by simp [active a]), if_neg (by simp [control b]), if_neg (by simpa [c4] using c),
        turnRunning_heardFrom, turnClass_heardFrom, calm d, if_neg (by decide), if_pos (by simpa [c6, flagSet] using e)]
      rfl
    · refine refuses ?_
      rw [answerBrkMember, if_neg (by simp [active a]), if_neg (by simp [control b]), if_neg (by simpa [c4] using c),
        turnRunning_heardFrom, turnClass_heardFrom, calm d, if_neg (by decide), allowanceZero_heardFrom, pays e,
        if_neg (by decide), if_pos (by simpa [c7, flagSet, queueFull, and_assoc] using f)]
      rfl

/-! ## `sus` (R46) -/

theorem exec_sus {c : Instr} {tag m setting : Byte} {s : State} (row : Carried false c tag authority (.sus m setting))
    (h : takesAtOnce s) (run : s.cst.phase = .run)
    {o : ReplyOutcome} {t : State} (a : answerSus m.toNat setting (heard s) = answer o t) (done : t.ilm.arisen = []) :
    exec c s = .next (replied tag authority (.sus m setting) o [] s t) :=
  exec_authority row h a done (by rw [run]; rfl)

section
variable {m : Nat} {s : State}

theorem lt_of_enrolled (enrolled : (enrolment m s).isSome = true) : ¬ 31 < m := fun large => by
  simp [enrolment, memberSlot_of_large s large, noMember] at enrolled

theorem answerSus_of_enrolled (enrolled : (enrolment m s).isSome = true) :
    answerSus m 1 s = (if isSuspended m s then answer .noChange s else answer .ok (suspend m s)) ∧
      answerSus m 2 s = (if isSuspended m s then answer .ok (setSuspended m false s) else answer .noChange s) := by
  obtain ⟨e, entry⟩ := Option.isSome_iff_exists.mp enrolled
  have small := lt_of_enrolled enrolled
  constructor <;> simp [answerSus, small, entryRefusal_of_enrolled entry]

theorem answerSus_of_large {setting : Byte} (large : 31 < m) : answerSus m setting s = answer .range s := by
  simp [answerSus, large]

theorem answerSus_of_refused {o : ReplyOutcome} {setting : Byte} (named : setting = 1 ∨ setting = 2) (small : m ≤ 31)
    (h : entryRefusal m s = some o) : answerSus m setting s = answer o s := by
  rcases named with rfl | rfl <;> simp [answerSus, h, Nat.not_lt.mpr small]

/-- R46 steps 1 and 2: the member is suspended, and its entry has left the queue. -/
def suspendedFrom (m : Nat) (s : State) : State := removeEntry m (setSuspended m true s)

/-- R46 step 3: the turn that the member holds, if any, has ended. -/
def suspensionEnded (m : Nat) (s : State) : State :=
  if holder s = some m then turnEnded .suspended (suspendedFrom m s) else suspendedFrom m s

theorem endsQuietly_suspendedFrom (h : endsQuietly s) : endsQuietly (suspendedFrom m s) :=
  endsQuietly_of_same h rfl rfl rfl rfl rfl rfl

theorem endHeld_suspendedFrom (h : endsQuietly s) : endHeld m (suspendedFrom m s) = suspensionEnded m s := by
  have holds : holder (suspendedFrom m s) = holder s := rfl
  rw [endHeld, suspensionEnded, holds, endTurn_eq _ _ (endsQuietly_suspendedFrom h) fun _ => rfl]
  simp only [beq_iff_eq]

theorem suspensionEnded_watch (m : Nat) (s : State) : (suspensionEnded m s).mrg.watch = s.mrg.watch := by
  unfold suspensionEnded
  split
  · rw [turnEnded_watch]
    rfl
  · rfl

theorem suspensionEnded_arisen (m : Nat) (s : State) : (suspensionEnded m s).ilm.arisen = s.ilm.arisen := by
  unfold suspensionEnded
  split
  · rw [turnEnded_arisen]
    rfl
  · rfl

theorem suspend_of_unwatched (h : endsQuietly s) (unwatched : ∀ b x, s.mrg.watch ≠ .active m b x) :
    suspend m s = suspensionEnded m s := by
  have ends : suspend m s = endWatchOf m (suspensionEnded m s) := congrArg (endWatchOf m) (endHeld_suspendedFrom h)
  rw [ends, endWatchOf, suspensionEnded_watch]
  cases watch : s.mrg.watch with
  | inactive => rfl
  | active w b x =>
    have other : w ≠ m := fun same => unwatched b x (same ▸ watch)
    simp only [if_neg other]

/-- R46 step 4: the watch ends after the turn. -/
theorem suspend_of_watcher {b x : Nat} (h : endsQuietly s) (watch : s.mrg.watch = .active m b x) :
    suspend m s = watchEnds m (suspensionEnded m s) := by
  have ends : suspend m s = endWatchOf m (suspensionEnded m s) := congrArg (endWatchOf m) (endHeld_suspendedFrom h)
  have active : (suspensionEnded m s).mrg.watch = .active m b x := by rw [suspensionEnded_watch, watch]
  have watchEnd : endWatch (suspensionEnded m s) = watchEnds m (suspensionEnded m s) := by
    by_cases holds : holder s = some m
    · refine endWatch_of_turnOver active ?_
      rw [suspensionEnded, if_pos holds]
      refine turnEnded_turnOver _ fun free => ?_
      have turn : s.tar.turn = .free := free
      simp [holder, turn] at holds
    · refine endWatch_eq m b x _ active ?_
      rw [suspensionEnded, if_neg holds]
      exact endsQuietly_suspendedFrom h
  rw [ends, endWatchOf, active]
  simp only [if_true, watchEnd]

end

/-- Settles O32, by whether the member is suspended already, and whether it keeps the watch. -/
theorem susSuspendsAndReinstates : Obligations.SusSuspendsAndReinstates := by
  refine ⟨fun tag m s h run enrolled => ?_, fun tag m s h run => ?_⟩
  · intro suspended ended suspends
    obtain ⟨suspending, reinstating⟩ := answerSus_of_enrolled (s := heard s) enrolled
    refine ⟨fun active plain => ⟨fun unwatched => ?_, fun b x watch => ?_⟩, fun still => ?_, fun still => ?_, fun active => ?_⟩
    · refine exec_sus ⟨rfl, rfl, rfl, rfl⟩ h run ?_ ((suspensionEnded_arisen m.toNat (heard s)).trans h.settled)
      rw [suspending, if_neg (by simp [active]), suspend_of_unwatched (endsQuietly_heard plain) unwatched]
      rfl
    · refine exec_sus ⟨rfl, rfl, rfl, rfl⟩ h run ?_ ((watchEnds_arisen _ _).trans ((suspensionEnded_arisen m.toNat (heard s)).trans h.settled))
      rw [suspending, if_neg (by simp [active]), suspend_of_watcher (endsQuietly_heard plain) watch]
      rfl
    · exact exec_sus ⟨rfl, rfl, rfl, rfl⟩ h run (by rw [suspending, if_pos (by exact still)]) h.settled
    · refine exec_sus ⟨rfl, rfl, rfl, rfl⟩ h run ?_ h.settled
      rw [reinstating, if_pos (by exact still)]
      rfl
    · exact exec_sus ⟨rfl, rfl, rfl, rfl⟩ h run (by rw [reinstating, if_neg (by simp [active])]) h.settled
  · intro refused
    have refuses {o : ReplyOutcome} (a : ∀ setting, setting = 1 ∨ setting = 2 →
        answerSus m.toNat setting (heard s) = answer o (heard s)) : refused o :=
      ⟨exec_sus ⟨rfl, rfl, rfl, rfl⟩ h run (a 1 (.inl rfl)) h.settled, exec_sus ⟨rfl, rfl, rfl, rfl⟩ h run (a 2 (.inr rfl)) h.settled⟩
    refine ⟨fun large => ?_, fun small empty => ?_, fun small damaged => ?_⟩
    · exact refuses fun _ _ => answerSus_of_large large
    · exact refuses fun _ named => answerSus_of_refused named small (entryRefusal_of_empty empty)
    · exact refuses fun _ named => answerSus_of_refused named small (entryRefusal_of_damaged damaged)

end Sys2Proof.Machine
end

section
/-! SUPPORT. The requests of the link band and the reads (R32, R33, R54, R56, R106, R122, R168, R169, R174, R175, R186), and
the completion of a store write (R183). -/

namespace Sys2Proof.Machine

/-! ## `sta` and `tst` (R168, R169) -/

/-- Settles O22: the owners' answers, by the check-corruption flag. -/
theorem staAndTst : Obligations.StaAndTst := by
  intro tag s h
  refine ⟨⟨if s.lp.corruptNext then Config.statusShowsClearedFlag else (heard s).lp.corruptNext, fun sound => ?_, ?_⟩,
    fun sound => ?_, fun corrupt => ?_⟩
  · rw [if_neg (by simp [sound]), heard_corruptNext]
  · exact exec_authority ⟨rfl, rfl, rfl, rfl⟩ h rfl h.settled rfl
  · refine exec_authority ⟨rfl, rfl, rfl, rfl⟩ h ?_ h.settled rfl
    rw [ownerAnswer, answerTst, if_neg (by simp [sound])]
    rfl
  · refine exec_authority ⟨rfl, rfl, rfl, rfl⟩ h ?_ h.settled rfl
    rw [ownerAnswer, answerTst, if_pos corrupt]
    rfl

/-! ## `nen` and `ncl` (R174, R175) -/

theorem causesInRange_eq_true_iff (m : Half) : causesInRange m = true ↔ m &&& 0xF000#16 = 0#16 := by
  simp [causesInRange]

section
variable {causes : Half}

theorem answerNen_of_outside {s : State} (h : causes &&& 0xF000#16 ≠ 0#16) : answerNen causes s = answer .range s := by
  rw [answerNen, if_pos (by simpa [causesInRange] using h)]

theorem answerNen_of_inside {s : State} (h : causes &&& 0xF000#16 = 0#16) : answerNen causes s =
    answer (if !s.ntu.held && s.ntu.enabled == causes then .noChange else .ok) (s.setNtu (enableCauses causes s.ntu)) := by
  rw [answerNen, if_neg (by simp [causesInRange, h])]

theorem answerNcl_of_outside {s : State} (h : causes &&& 0xF000#16 ≠ 0#16) : answerNcl causes s = answer .range s := by
  rw [answerNcl, if_pos (by simpa [causesInRange] using h)]

theorem answerNcl_of_inside {s : State} (h : causes &&& 0xF000#16 = 0#16) : answerNcl causes s =
    answer (if s.ntu.pending &&& causes == 0 then .noChange else .ok)
      (s.setNtu { s.ntu with pending := s.ntu.pending &&& ~~~causes }) := by
  rw [answerNcl, if_neg (by simp [causesInRange, h])]

/-- R174: with recording going on, the enable set alone changes, and a notice may be triggered. -/
theorem enableCauses_of_recording {n : NoticeUnit} (h : n.held = false) : enableCauses causes n = { n with
    enabled := causes
    waiting := n.waiting || (n.pending &&& causes &&& ~~~(n.pending &&& n.enabled) != 0) } := by
  simp only [enableCauses, endHold, h, Bool.false_eq_true, if_false]

/-- R174 step 1: the hold ends, and a deferred STORE is the one cause that is pending. -/
theorem enableCauses_of_held {n : NoticeUnit} (h : n.held = true) (empty : n.pending = 0) :
    enableCauses causes n =
      { pending := if n.deferredStore then Cause.store.mask else 0
        enabled := causes
        held := false
        deferredStore := false
        waiting := n.waiting || (n.deferredStore && hasCause causes .store) } := by
  simp only [enableCauses, endHold, h, if_true, empty]
  have nothing : ~~~((0 : Half) &&& n.enabled) = BitVec.allOnes 16 := by simp
  cases n.deferredStore
  · simp
  · simp only [if_true, nothing, BitVec.and_allOnes, Bool.true_and, hasCause, BitVec.and_comm causes]
    simp

end

/-- Settles O23, by whether the marks are all causes and whether recording is held. -/
theorem nenEnablesNclClears : Obligations.NenEnablesNclClears := by
  refine ⟨fun tag causes s h => ⟨fun outside => ?_, fun inside recording => ?_, fun inside held empty => ?_⟩,
    fun tag causes s h => ⟨fun outside => ?_, fun inside => ?_⟩⟩
  · exact exec_authority ⟨rfl, rfl, rfl, rfl⟩ h (answerNen_of_outside outside) h.settled rfl
  · refine exec_authority ⟨rfl, rfl, rfl, rfl⟩ h ?_ h.settled rfl
    rw [ownerAnswer, answerNen_of_inside inside, heard_ntu, enableCauses_of_recording recording]
    simp only [recording, Bool.not_false, Bool.true_and, beq_iff_eq]
    rfl
  · refine exec_authority ⟨rfl, rfl, rfl, rfl⟩ h ?_ h.settled rfl
    rw [ownerAnswer, answerNen_of_inside inside, heard_ntu, enableCauses_of_held held empty]
    simp only [held, Bool.not_true, Bool.false_and, Bool.false_eq_true, if_false]
    rfl
  · exact exec_authority ⟨rfl, rfl, rfl, rfl⟩ h (answerNcl_of_outside outside) h.settled rfl
  · refine exec_authority ⟨rfl, rfl, rfl, rfl⟩ h ?_ h.settled rfl
    rw [ownerAnswer, answerNcl_of_inside inside, heard_ntu]
    simp only [beq_iff_eq]
    rfl

/-! ## Reads (R32, R33, R54, R56, R106, R122, R183, R186) -/

theorem storeBusy_eq_true_iff (s : State) : storeBusy s = true ↔ s.cst.writing ≠ none := by
  cases h : s.cst.writing <;> simp [storeBusy, h]

/-- R183: a read of a stored record is answered unless a store write is in flight. -/
theorem exec_read {c : Instr} {tag : Byte} {r : Request} {s : State} {body : List Byte} (row : Carried false c tag authority r) (h : takesAtOnce s)
    (a : ownerAnswer r authority s.lp.corruptNext (heard s) = readUnlessBusy body (heard s))
    (phase : phaseSuits r s.cst.phase = true) :
    (s.cst.writing = none → exec c s = .next (replied tag authority r .ok body s (heard s))) ∧
      (s.cst.writing ≠ none → exec c s = .next (replied tag authority r .busy [] s (heard s))) := by
  refine ⟨fun idle => ?_, fun busy => ?_⟩
  · refine exec_authority row h ?_ h.settled phase
    rw [a, readUnlessBusy, if_neg (by rw [storeBusy_eq_true_iff]; simpa using idle)]
    rfl
  · refine exec_authority row h ?_ h.settled phase
    rw [a, readUnlessBusy, if_pos (by rw [storeBusy_eq_true_iff]; exact busy)]
    rfl

/-- Settles O25, by the range of the number that a read names. -/
theorem readsChangeNothing : Obligations.ReadsChangeNothing := by
  refine ⟨fun tag i s h => ?_, fun tag m s h enrolled => ?_⟩
  · intro read outOfRange
    refine ⟨exec_authority ⟨rfl, rfl, rfl, rfl⟩ h rfl h.settled rfl, fun small => exec_read ⟨rfl, rfl, rfl, rfl⟩ h ?_ rfl, fun large => ?_, fun small => exec_read ⟨rfl, rfl, rfl, rfl⟩ h ?_ rfl,
      fun large => ?_, fun small => exec_read ⟨rfl, rfl, rfl, rfl⟩ h ?_ rfl, fun large => ?_, exec_read ⟨rfl, rfl, rfl, rfl⟩ h rfl rfl, exec_read ⟨rfl, rfl, rfl, rfl⟩ h rfl rfl⟩
    · exact if_neg (Nat.not_lt.mpr small)
    · exact exec_authority ⟨rfl, rfl, rfl, rfl⟩ h (if_pos large) h.settled rfl
    · exact if_neg (Nat.not_lt.mpr small)
    · exact exec_authority ⟨rfl, rfl, rfl, rfl⟩ h (if_pos large) h.settled rfl
    · exact if_neg (Nat.not_lt.mpr small)
    · exact exec_authority ⟨rfl, rfl, rfl, rfl⟩ h (if_pos large) h.settled rfl
  · exact exec_member ⟨rfl, rfl, rfl, rfl⟩ h enrolled rfl (by rw [heardFrom_ilm]; exact h.settled) rfl

/-! ## The completion of a store write (R183) -/

/-- R183: a completion in an event: the owner's new contents `u` and the new records, with STORE raised. -/
theorem exec_completion {w : WriteInFlight} {s u : State} {r : Records} {damaged : Bool} (running : inReset s = false)
    (done : s.ilm.arisen = []) (writing : s.cst.writing = some w)
    (own : ownContents w.write (s.setRecords (storeContents w.write s.cst.records)) =
      { u with cst := { s.cst with records := r, paramsDamaged := damaged } })
    (calm : u.ilm.arisen = s.ilm.arisen) :
    exec .storeWriteCompletion s = .next (pumpNotice (raise .store { u with cst := { s.cst with
      records := r
      writing := none
      paramsDamaged := damaged } })) := by
  have completes : completeWrite s = raise .store { u with cst := { s.cst with
      records := r
      writing := none
      paramsDamaged := damaged } } := by
    simp only [completeWrite, writing, own, raise_eq]
    rfl
  have settled : (completeWrite s).ilm.arisen = [] := by
    rw [completes, raise_ilm]
    exact calm.trans done
  exact congrArg _ ((event_now completeWrite s running settled).trans (congrArg pumpNotice completes))

/-- Settles O27, by the record that was written. -/
theorem storeWriteCompletes : Obligations.StoreWriteCompletes := by
  intro w s running done writing completed
  have completes {u : State} {r : Records} {damaged : Bool}
      (own : ownContents w.write (s.setRecords (storeContents w.write s.cst.records)) =
        { u with cst := { s.cst with records := r, paramsDamaged := damaged } })
      (calm : u.ilm.arisen = s.ilm.arisen) : completed u r damaged := exec_completion running done writing own calm
  refine ⟨fun m e write => ?_, fun m write => ?_, fun i l write => ?_, fun i a write => ?_, fun i write => ?_,
    fun l write => ?_, fun p write => ?_, fun p write => ?_⟩
  all_goals
    refine completes ?_ rfl
    rw [write]
    rfl

end Sys2Proof.Machine
end

section
/-! SUPPORT. The write requests (R34, R53, R55, R105, R121, R183, R185): what each body's fields give, and that an accepted
one starts a store write unless one is in flight. -/

namespace Sys2Proof.Machine

/-! ## Write requests -/

/-- R183: a write request starts its store write, unless one is in flight. -/
def writesOrBusy (c : Instr) (tag : Byte) (r : Request) (w : StoreWrite) (s : State) : Prop :=
  (s.cst.writing = none → exec c s = .next (replied tag authority r .ok [] s (writeStarted w s))) ∧
    (s.cst.writing ≠ none → exec c s = .next (replied tag authority r .busy [] s (heard s)))

/-- R183: what a write request that passes its owner's checks does. -/
theorem exec_write {c : Instr} {tag : Byte} {r : Request} {s : State} {w : StoreWrite} (row : Carried false c tag authority r)
    (h : takesAtOnce s)
    (a : ownerAnswer r authority s.lp.corruptNext (heard s) = writeUnlessBusy w (heard s))
    (phase : phaseSuits r s.cst.phase = true) :
    writesOrBusy c tag r w s := by
  refine ⟨fun idle => ?_, fun busy => ?_⟩
  · refine exec_authority row h ?_ h.settled phase
    rw [a, writeUnlessBusy, if_neg (by rw [storeBusy_eq_true_iff]; simpa using idle)]
    rfl
  · refine exec_authority row h ?_ h.settled phase
    rw [a, writeUnlessBusy, if_pos (by rw [storeBusy_eq_true_iff]; exact busy)]
    rfl

/-! ## The fields of a body -/

/-- R53: the characters that a callsign is made of. -/
def callsignLetter (b : Byte) : Prop :=
  (65 ≤ b.toNat ∧ b.toNat ≤ 90) ∨ (48 ≤ b.toNat ∧ b.toNat ≤ 57) ∨ b = 47

theorem callsignChar_eq_true_iff (b : Byte) : callsignChar b = true ↔ callsignLetter b := by
  have slash : b = 47 ↔ b.toNat = 47 := by simp [BitVec.toNat_eq]
  simp only [callsignChar, callsignLetter, slash, Bool.or_eq_true, Bool.and_eq_true, decide_eq_true_eq]
  omega

theorem callsignOf_length_le (l : List Byte) : (callsignOf l).length ≤ l.length :=
  (List.takeWhile_sublist _).length_le

/-- R53 step 2: the fields of a body are in range. -/
def mwrInRange (callsign : List Byte) (profile : Byte) (allowance : Half) : Prop :=
  3 ≤ (callsignOf callsign).length ∧ (∀ b ∈ callsignOf callsign, callsignLetter b) ∧ profile.toNat ≤ 7 ∧
    allowance.toNat ≤ 36000

section
variable {callsign : List Byte} {standing profile emergency : Byte} {allowance : Half}

theorem mwrInRange_iff (whole : callsign.length = 10) :
    (callsignInRange (callsignOf callsign) && profile.toNat ≤ 7 && allowance.toNat ≤ 36000) = true ↔
      mwrInRange callsign profile allowance := by
  have bound := callsignOf_length_le callsign
  simp only [callsignInRange, Bool.and_eq_true, within_eq_true_iff, List.all_eq_true, callsignChar_eq_true_iff,
    decide_eq_true_eq, mwrInRange]
  constructor
  · rintro ⟨⟨⟨⟨low, _⟩, chars⟩, p⟩, a⟩
    exact ⟨low, chars, p, a⟩
  · rintro ⟨low, chars, p, a⟩
    exact ⟨⟨⟨⟨low, whole ▸ bound⟩, chars⟩, p⟩, a⟩

theorem enrolmentOf_of_inRange (whole : callsign.length = 10) {c : Standing} (cls : standingOf standing = some c)
    (fits : mwrInRange callsign profile allowance) : enrolmentOf callsign standing profile allowance emergency =
      some ⟨callsignOf callsign, c, profile.toNat, allowance.toNat, emergency != 0⟩ := by
  simp only [enrolmentOf, cls, (mwrInRange_iff whole).mpr fits, if_true]
  rfl

theorem enrolmentOf_of_outside (whole : callsign.length = 10)
    (bad : standingOf standing = none ∨ ¬ mwrInRange callsign profile allowance) :
    enrolmentOf callsign standing profile allowance emergency = none := by
  unfold enrolmentOf
  cases cls : standingOf standing with
  | none => rfl
  | some c =>
    rcases bad with missing | outside
    · rw [cls] at missing; cases missing
    · exact if_neg fun fits => outside ((mwrInRange_iff whole).mp fits)

end

theorem callsignTaken_eq_true_iff (m : Nat) (name : List Byte) (s : State) : callsignTaken m name s = true ↔
    ∃ k e, k < 32 ∧ k ≠ m ∧ enrolment k s = some e ∧ e.callsign = name := by
  simp only [callsignTaken, memberNumbers, List.any_eq_true, List.mem_range, Bool.and_eq_true, bne_iff_ne, ne_eq]
  constructor
  · rintro ⟨k, small, other, same⟩
    cases entry : enrolment k s with
    | none => simp [entry] at same
    | some e => exact ⟨k, e, small, other, entry, by simpa [entry] using same⟩
  · rintro ⟨k, e, small, other, entry, same⟩
    exact ⟨k, small, other, by simp [entry, same]⟩

/-- R55, R105: the edges of a segment or a range are out of order or off the part's bands. -/
def badEdges (lower upper : Word) : Prop := upper.toNat ≤ lower.toNat ∨ lower.toNat < 1800000 ∨ 54000000 < upper.toNat

theorem edges_inRange_iff (lower upper : Word) :
    (decide (lower.toNat < upper.toNat) && frequencyInRange lower.toNat && frequencyInRange upper.toNat) = true ↔
      ¬ badEdges lower upper := by
  simp only [frequencyInRange, Bool.and_eq_true, decide_eq_true_eq, within_eq_true_iff, badEdges]
  omega

/-- R55 step 2: a counted segment out of range. -/
def badSegment (g : SegmentSlot) : Prop :=
  badEdges g.lower g.upper ∨ g.modes &&& 0x0F = 0 ∨ g.ceiling.toNat < 1 ∨ 1500 < g.ceiling.toNat

theorem segmentInRange_eq_true_iff (g : SegmentSlot) : segmentInRange g = true ↔ ¬ badSegment g := by
  unfold segmentInRange badSegment
  rw [Bool.and_eq_true, Bool.and_eq_true, edges_inRange_iff, within_eq_true_iff, bne_iff_ne]
  simp only [not_or, Nat.not_lt, and_assoc]
  rfl

theorem rangeInRange_eq_true_iff (r : RangeSlot) : rangeInRange r = true ↔ ¬ badEdges r.lower r.upper :=
  edges_inRange_iff r.lower r.upper

section
variable {count : Byte} {ranges : List RangeSlot} {rating : Half}

/-- R105 step 2: the fields of a PRESENT antenna are in range. -/
def anwInRange (count : Byte) (ranges : List RangeSlot) (rating : Half) : Prop :=
  (1 ≤ count.toNat ∧ count.toNat ≤ 4) ∧ (∀ r ∈ ranges.take count.toNat, ¬ badEdges r.lower r.upper) ∧
    1 ≤ rating.toNat ∧ rating.toNat ≤ 1500

theorem antennaOf_absent : antennaOf 0 count ranges rating = some none := rfl

theorem antennaOf_present (fits : anwInRange count ranges rating) :
    antennaOf 1 count ranges rating = some (some ⟨(ranges.take count.toNat).map rangeOf, rating.toNat⟩) := by
  obtain ⟨counted, edges, rated⟩ := fits
  have all : (ranges.take count.toNat).all rangeInRange = true := by
    simp only [List.all_eq_true, rangeInRange_eq_true_iff]
    exact edges
  unfold antennaOf
  rw [if_neg (by decide), if_pos rfl]
  dsimp only
  rw [if_pos (by simp only [all, Bool.and_eq_true, within_eq_true_iff]; exact ⟨⟨counted, trivial⟩, rated⟩)]

theorem antennaOf_outside (bad : ¬ anwInRange count ranges rating) : antennaOf 1 count ranges rating = none := by
  unfold antennaOf
  rw [if_neg (by decide), if_pos rfl]
  dsimp only
  refine if_neg fun fits => bad ?_
  simp only [Bool.and_eq_true, within_eq_true_iff, List.all_eq_true, rangeInRange_eq_true_iff] at fits
  exact ⟨fits.1.1, fits.1.2, fits.2⟩

theorem antennaOf_unknown {state : Byte} (zero : state ≠ 0) (one : state ≠ 1) :
    antennaOf state count ranges rating = none := by
  rw [antennaOf, if_neg zero, if_neg one]

end

/-! ### The pattern -/

/-- R195: the codes of the elements are 1 to 4, and the tones are 1 and 2. -/
theorem elementOf_eq_some_iff (b : Byte) (e : Element) : elementOf b = some e ↔
    b = 1 ∧ e = .dit ∨ b = 2 ∧ e = .dah ∨ b = 3 ∧ e = .charGap ∨ b = 4 ∧ e = .wordGap := by
  unfold elementOf
  split_ifs with one two three four <;> simp_all [eq_comm]

theorem elementOf_isSome_iff (b : Byte) : (elementOf b).isSome = true ↔ 1 ≤ b.toNat ∧ b.toNat ≤ 4 := by
  have codes : (b = 1 ∨ b = 2 ∨ b = 3 ∨ b = 4) ↔ 1 ≤ b.toNat ∧ b.toNat ≤ 4 := by
    simp only [BitVec.toNat_eq, BitVec.ofNat_eq_ofNat, BitVec.toNat_ofNat]
    omega
  simp [← codes, Option.isSome_iff_exists, elementOf_eq_some_iff, exists_or]

theorem elementOf_tone_iff (b : Byte) : (∃ e, elementOf b = some e ∧ (e == .dit || e == .dah) = true) ↔
    1 ≤ b.toNat ∧ b.toNat ≤ 2 := by
  have codes : (b = 1 ∨ b = 2) ↔ 1 ≤ b.toNat ∧ b.toNat ≤ 2 := by
    simp only [BitVec.toNat_eq, BitVec.ofNat_eq_ofNat, BitVec.toNat_ofNat]
    omega
  rw [← codes]
  constructor
  · rintro ⟨e, code, tone⟩
    rcases (elementOf_eq_some_iff b e).mp code with ⟨rfl, _⟩ | ⟨rfl, _⟩ | ⟨_, rfl⟩ | ⟨_, rfl⟩
    · exact .inl rfl
    · exact .inr rfl
    · cases tone
    · cases tone
  · rintro (rfl | rfl)
    · exact ⟨.dit, rfl, rfl⟩
    · exact ⟨.dah, rfl, rfl⟩

/-- R121 steps 1 to 3: the counted slots are elements, and one of them is a tone. -/
def idwInRange (count : Byte) (slots : List Byte) : Prop :=
  (1 ≤ count.toNat ∧ count.toNat ≤ 96) ∧ (∀ b ∈ slots.take count.toNat, 1 ≤ b.toNat ∧ b.toNat ≤ 4) ∧
    ∃ b ∈ slots.take count.toNat, 1 ≤ b.toNat ∧ b.toNat ≤ 2

section
variable {count : Byte} {slots : List Byte}

theorem counted_inRange_iff :
    (within 1 96 count.toNat && (slots.take count.toNat).all fun b => (elementOf b).isSome) = true ↔
      (1 ≤ count.toNat ∧ count.toNat ≤ 96) ∧ ∀ b ∈ slots.take count.toNat, 1 ≤ b.toNat ∧ b.toNat ≤ 4 := by
  simp only [Bool.and_eq_true, within_eq_true_iff, List.all_eq_true, elementOf_isSome_iff]

theorem any_tone_iff (l : List Byte) :
    ((l.filterMap elementOf).any fun e => e == .dit || e == .dah) = true ↔ ∃ b ∈ l, 1 ≤ b.toNat ∧ b.toNat ≤ 2 := by
  simp only [List.any_eq_true, List.mem_filterMap]
  constructor
  · rintro ⟨e, ⟨b, mem, code⟩, tone⟩
    exact ⟨b, mem, (elementOf_tone_iff b).mp ⟨e, code, tone⟩⟩
  · rintro ⟨b, mem, low⟩
    obtain ⟨e, code, tone⟩ := (elementOf_tone_iff b).mpr low
    exact ⟨e, ⟨b, mem, code⟩, tone⟩

theorem patternOf_of_inRange (fits : idwInRange count slots) :
    patternOf count slots = some ((slots.take count.toNat).filterMap elementOf) := by
  obtain ⟨counted, elements, tone⟩ := fits
  unfold patternOf
  dsimp only
  rw [if_pos (counted_inRange_iff.mpr ⟨counted, elements⟩), if_pos ((any_tone_iff _).mpr tone)]

theorem patternOf_of_outside (bad : ¬ idwInRange count slots) : patternOf count slots = none := by
  unfold patternOf
  dsimp only
  split
  case isTrue fits =>
    obtain ⟨counted, elements⟩ := counted_inRange_iff.mp fits
    exact if_neg fun tone => bad ⟨counted, elements, (any_tone_iff _).mp tone⟩
  case isFalse => rfl

end

/-! ## The owners' answers -/

section
variable {s : State}

theorem answerMwr_empty {m : Byte} (small : m.toNat ≤ 31) (callsign : List Byte) (standing profile : Byte)
    (allowance : Half) (emergency : Byte) : answerMwr m 0 callsign standing profile allowance emergency s =
      writeUnlessBusy (.member m.toNat none) s := by
  rw [answerMwr, if_neg (Nat.not_lt.mpr small), if_pos rfl]

theorem answerMwr_enrolled {m standing profile emergency : Byte} {callsign : List Byte} {allowance : Half} {c : Standing}
    (small : m.toNat ≤ 31) (whole : callsign.length = 10) (cls : standingOf standing = some c)
    (fits : mwrInRange callsign profile allowance)
    (own : ∀ k e, k < 32 → k ≠ m.toNat → enrolment k s = some e → e.callsign ≠ callsignOf callsign) :
    answerMwr m 1 callsign standing profile allowance emergency s = writeUnlessBusy (.member m.toNat
      (some ⟨callsignOf callsign, c, profile.toNat, allowance.toNat, emergency != 0⟩)) s := by
  have free : callsignTaken m.toNat (callsignOf callsign) s = false := by
    rw [← Bool.not_eq_true, callsignTaken_eq_true_iff]
    rintro ⟨k, e, low, other, entry, same⟩
    exact own k e low other entry same
  rw [answerMwr, if_neg (Nat.not_lt.mpr small), if_neg (by decide), if_pos rfl, enrolmentOf_of_inRange whole cls fits]
  simp only [free, Bool.false_eq_true, if_false]

theorem answerMwr_outside {m state standing profile emergency : Byte} {callsign : List Byte} {allowance : Half}
    (whole : callsign.length = 10)
    (bad : 31 < m.toNat ∨ (state ≠ 0 ∧ state ≠ 1) ∨ (state = 1 ∧ (standingOf standing = none ∨
      ¬ mwrInRange callsign profile allowance ∨ callsignTaken m.toNat (callsignOf callsign) s = true))) :
    answerMwr m state callsign standing profile allowance emergency s = answer .range s := by
  unfold answerMwr
  rcases bad with large | ⟨zero, one⟩ | ⟨rfl, bad⟩
  · rw [if_pos large]
  · rw [if_neg zero, if_neg one, ite_self]
  · rw [if_neg (c := (1 : Byte) = 0) (by decide), if_pos rfl]
    split
    · rfl
    · cases given : enrolmentOf callsign standing profile allowance emergency with
      | none => rfl
      | some e =>
        have name : e.callsign = callsignOf callsign := by
          unfold enrolmentOf at given
          split at given
          · cases given
          · split at given
            · cases given; rfl
            · cases given
        rcases bad with missing | outside | taken
        · rw [enrolmentOf_of_outside whole (.inl missing)] at given; cases given
        · rw [enrolmentOf_of_outside whole (.inr outside)] at given; cases given
        · simp only [name, taken, if_true]

theorem answerPfw_of_inRange {index count : Nat} {slots : List SegmentSlot} (small : index ≤ 7) (few : count ≤ 6)
    (fits : ∀ g ∈ slots.take count, ¬ badSegment g) :
    answerPfw index count slots s = writeUnlessBusy (.profile index ((slots.take count).map segmentOf)) s := by
  have all : (slots.take count).all segmentInRange = true := by
    simpa only [List.all_eq_true, segmentInRange_eq_true_iff] using fits
  rw [answerPfw, if_neg (by simp [small, few]), if_neg (by simp [all])]

theorem answerPfw_outside {index count : Nat} {slots : List SegmentSlot}
    (bad : 7 < index ∨ 6 < count ∨ ∃ g ∈ slots.take count, badSegment g) :
    answerPfw index count slots s = answer .range s := by
  rw [answerPfw]
  split
  · rfl
  case isFalse small =>
    refine if_pos ?_
    obtain ⟨g, mem, out⟩ : ∃ g ∈ slots.take count, badSegment g := by
      simpa [not_or] using or_iff_not_imp_left.mp (or_assoc.mpr bad) (by simpa using small)
    rw [Bool.not_eq_true', ← Bool.not_eq_true, List.all_eq_true]
    exact fun all => (segmentInRange_eq_true_iff g).mp (all g mem) out

theorem answerAnw_of_given {index state count : Byte} {ranges : List RangeSlot} {rating : Half} {a : Option AntennaData}
    (small : index.toNat ≤ 3) (given : antennaOf state count ranges rating = some a) :
    answerAnw index state count ranges rating s = writeUnlessBusy (.antenna index.toNat a) s := by
  simp only [answerAnw, given]
  rw [if_neg (Nat.not_lt.mpr small)]

theorem answerAnw_outside {index state count : Byte} {ranges : List RangeSlot} {rating : Half}
    (bad : 3 < index.toNat ∨ antennaOf state count ranges rating = none) :
    answerAnw index state count ranges rating s = answer .range s := by
  rcases bad with large | none
  · rw [answerAnw, if_pos large]
  · simp only [answerAnw, none, ite_self]

theorem answerIdw_of_given {count : Byte} {slots : List Byte} {l : List Element} (given : patternOf count slots = some l) :
    answerIdw count slots s = writeUnlessBusy (.pattern l) s := by
  simp only [answerIdw, given]

theorem answerIdw_outside {count : Byte} {slots : List Byte} (bad : ¬ idwInRange count slots) :
    answerIdw count slots s = answer .range s := by
  simp only [answerIdw, patternOf_of_outside bad]

theorem answerPrw_of_inRange {record : List Byte} (fields : (paramsOf record).inRange = true) (options : byteAt record 34 < 4)
    (ordered : (paramsOf record).windowsOrdered = true) :
    answerPrw record s = writeUnlessBusy (.params (paramsOf record)) s := by
  rw [answerPrw, if_neg (by simp [fields, optionsInRange, options]), if_neg (by simp [ordered])]

theorem answerPrw_outside {record : List Byte}
    (bad : (paramsOf record).inRange = false ∨ 4 ≤ byteAt record 34 ∨ (paramsOf record).windowsOrdered = false) :
    answerPrw record s = answer .range s := by
  rw [answerPrw]
  rcases bad with fields | options | unordered
  · rw [if_pos (by simp [fields])]
  · rw [if_pos (by simp [optionsInRange, Nat.not_lt.mpr options])]
  · rw [if_pos (c := (!(paramsOf record).windowsOrdered) = true) (by simp [unordered]), ite_self]

theorem windowsOrdered_eq_true_iff (p : Params) : p.windowsOrdered = true ↔
    p.ampReadyEarliest < p.ampReadyLatest ∧ p.txConfirmEarliest < p.txConfirmLatest := by
  simp [Params.windowsOrdered]

/-- R34, past the range of the order. -/
theorem answerCls_of_inRange {order : Nat} (small : order ≤ 5) : answerCls order s =
    if storeBusy s then answer .busy s
    else if s.cst.paramsDamaged then answer .damaged s
    else if s.cst.records.params.contents.classRanking = order then answer .noChange s
    else answer .ok (startWrite (.ranking { s.cst.records.params.contents with classRanking := order }) s) := by
  rw [answerCls, if_neg (Nat.not_lt.mpr small)]

end

/-- R34: an order that is not stored already is written. -/
theorem answerCls_of_new {order : Nat} {s : State} (small : order ≤ 5) (sound : s.cst.paramsDamaged = false)
    (other : s.cst.records.params.contents.classRanking ≠ order) : answerCls order s =
      writeUnlessBusy (.ranking { s.cst.records.params.contents with classRanking := order }) s := by
  rw [answerCls_of_inRange small, if_neg (c := s.cst.paramsDamaged = true) (by simp [sound]), if_neg other]
  rfl

/-! ## The rows of the write requests -/

section
variable {tag : Byte} {s : State}

theorem exec_mwr_empty (h : takesAtOnce s) (setup : s.cst.phase = .setup) {m : Byte} {callsign : List Byte}
    {standing profile emergency : Byte} {allowance : Half} (small : m.toNat ≤ 31) (whole : callsign.length = 10) :
    writesOrBusy (.mwr tag m 0 callsign standing profile allowance emergency) tag
      (.mwr m 0 callsign standing profile allowance emergency) (.member m.toNat none) s :=
  exec_write ⟨rfl, rfl, rfl, by simpa [Request.shaped] using whole⟩ h (answerMwr_empty small ..) (by rw [setup]; rfl)

theorem exec_mwr_enrolled (h : takesAtOnce s) (setup : s.cst.phase = .setup) {m : Byte} {callsign : List Byte}
    {standing profile emergency : Byte} {allowance : Half} {c : Standing} (small : m.toNat ≤ 31)
    (whole : callsign.length = 10) (cls : standingOf standing = some c) (fits : mwrInRange callsign profile allowance)
    (own : ∀ k e, k < 32 → k ≠ m.toNat → enrolment k s = some e → e.callsign ≠ callsignOf callsign) :
    writesOrBusy (.mwr tag m 1 callsign standing profile allowance emergency) tag
      (.mwr m 1 callsign standing profile allowance emergency)
      (.member m.toNat (some ⟨callsignOf callsign, c, profile.toNat, allowance.toNat, emergency != 0⟩)) s :=
  exec_write ⟨rfl, rfl, rfl, by simpa [Request.shaped] using whole⟩ h (answerMwr_enrolled small whole cls fits own) (by rw [setup]; rfl)

theorem exec_pfw (h : takesAtOnce s) (setup : s.cst.phase = .setup) {index count : Byte} {slots : List SegmentSlot}
    (small : index.toNat ≤ 7) (few : count.toNat ≤ 6) (whole : slots.length = 6)
    (fits : ∀ g ∈ slots.take count.toNat, ¬ badSegment g) :
    writesOrBusy (.pfw tag index count slots) tag (.pfw index count slots)
      (.profile index.toNat ((slots.take count.toNat).map segmentOf)) s :=
  exec_write ⟨rfl, rfl, rfl, by simpa [Request.shaped] using whole⟩ h (answerPfw_of_inRange small few fits) (by rw [setup]; rfl)

theorem exec_anw (h : takesAtOnce s) (setup : s.cst.phase = .setup) {index state count : Byte} {ranges : List RangeSlot}
    {rating : Half} {a : Option AntennaData} (small : index.toNat ≤ 3) (whole : ranges.length = 4)
    (given : antennaOf state count ranges rating = some a) :
    writesOrBusy (.anw tag index state count ranges rating) tag (.anw index state count ranges rating)
      (.antenna index.toNat a) s :=
  exec_write ⟨rfl, rfl, rfl, by simpa [Request.shaped] using whole⟩ h (answerAnw_of_given small given) (by rw [setup]; rfl)

theorem exec_idw (h : takesAtOnce s) (setup : s.cst.phase = .setup) {count : Byte} {slots : List Byte} {l : List Element}
    (whole : slots.length = 96) (given : patternOf count slots = some l) :
    writesOrBusy (.idw tag count slots) tag (.idw count slots) (.pattern l) s :=
  exec_write ⟨rfl, rfl, rfl, by simpa [Request.shaped] using whole⟩ h (answerIdw_of_given given) (by rw [setup]; rfl)

theorem exec_prw (h : takesAtOnce s) (setup : s.cst.phase = .setup) {record : List Byte} (whole : record.length = 43)
    (fields : (paramsOf record).inRange = true) (options : byteAt record 34 < 4)
    (ordered : (paramsOf record).windowsOrdered = true) :
    writesOrBusy (.prw tag record) tag (.prw record) (.params (paramsOf record)) s :=
  exec_write ⟨rfl, rfl, rfl, by simpa [Request.shaped] using whole⟩ h (answerPrw_of_inRange fields options ordered) (by rw [setup]; rfl)

theorem exec_cls (h : takesAtOnce s) (setup : s.cst.phase = .setup) {order : Byte} (small : order.toNat ≤ 5)
    (sound : s.cst.paramsDamaged = false) (other : s.cst.records.params.contents.classRanking ≠ order.toNat) :
    writesOrBusy (.cls tag order) tag (.cls order)
      (.ranking { s.cst.records.params.contents with classRanking := order.toNat }) s :=
  exec_write ⟨rfl, rfl, rfl, rfl⟩ h (answerCls_of_new (s := heard s) small sound other) (by rw [setup]; rfl)

end

/-- Settles O26: each body in range is a write, which starts or finds one in flight; any other is refused. -/
theorem writesStartOneAtATime : Obligations.WritesStartOneAtATime := by
  have segment {g : SegmentSlot} (fits : g.lower.toNat < g.upper.toNat ∧ 1800000 ≤ g.lower.toNat ∧
      g.upper.toNat ≤ 54000000 ∧ g.modes &&& 0x0F ≠ 0 ∧ 1 ≤ g.ceiling.toNat ∧ g.ceiling.toNat ≤ 1500) : ¬ badSegment g := by
    obtain ⟨ordered, low, high, modes, least, most⟩ := fits
    simp only [badSegment, badEdges, not_or]
    exact ⟨⟨by omega, by omega, by omega⟩, modes, by omega, by omega⟩
  have range {r : RangeSlot} (fits : r.lower.toNat < r.upper.toNat ∧ 1800000 ≤ r.lower.toNat ∧
      r.upper.toNat ≤ 54000000) : ¬ badEdges r.lower r.upper := by
    simp only [badEdges]
    omega
  have present {count : Byte} {ranges : List RangeSlot} {rating : Half} (least : 1 ≤ count.toNat) (most : count.toNat ≤ 4)
      (low : 1 ≤ rating.toNat) (high : rating.toNat ≤ 1500) (fits : ∀ r ∈ ranges.take count.toNat,
        r.lower.toNat < r.upper.toNat ∧ 1800000 ≤ r.lower.toNat ∧ r.upper.toNat ≤ 54000000) :
      antennaOf 1 count ranges rating = some (some ⟨(ranges.take count.toNat).map rangeOf, rating.toNat⟩) :=
    antennaOf_present ⟨⟨least, most⟩, fun r mem => range (fits r mem), low, high⟩
  refine ⟨⟨fun tag s h setup idle => ⟨?_, ?_⟩, fun tag s h setup idle => ⟨?_, ?_, ?_, ?_⟩⟩,
    fun tag s h setup busy => ⟨?_, ?_, ?_, ?_, ?_, ?_, ?_, ?_⟩, fun tag s h setup => ?_⟩
  · exact fun m callsign standing profile allowance emergency small whole =>
      ⟨(exec_mwr_empty h setup small whole).1 idle, fun c cls least chars p a own =>
        (exec_mwr_enrolled h setup small whole cls ⟨least, chars, p, a⟩ own).1 idle⟩
  · exact fun index count slots small few whole fits =>
      (exec_pfw h setup small few whole fun g mem => segment (fits g mem)).1 idle
  · exact fun index count ranges rating small whole => ⟨(exec_anw h setup small whole antennaOf_absent).1 idle,
      fun least most low high fits => (exec_anw h setup small whole (present least most low high fits)).1 idle⟩
  · intro count slots least most whole elements tone
    obtain ⟨b, mem, low⟩ := tone
    exact (exec_idw h setup whole (patternOf_of_inRange ⟨⟨least, most⟩, elements, b, mem, (elements b mem).1, low⟩)).1 idle
  · exact fun record whole fields options amp tx =>
      (exec_prw h setup whole fields options ((windowsOrdered_eq_true_iff _).mpr ⟨amp, tx⟩)).1 idle
  · exact fun order small sound other =>
(exec_cls h setup small sound other).1 idle
  · exact fun m callsign standing profile allowance emergency small whole =>
      ⟨(exec_mwr_empty h setup small whole).2 busy, fun c cls least chars p a own =>
        (exec_mwr_enrolled h setup small whole cls ⟨least, chars, p, a⟩ own).2 busy⟩
  · exact fun index count slots small few whole fits =>
      (exec_pfw h setup small few whole fun g mem => segment (fits g mem)).2 busy
  · exact fun index count ranges rating small whole => ⟨(exec_anw h setup small whole antennaOf_absent).2 busy,
      fun least most low high fits => (exec_anw h setup small whole (present least most low high fits)).2 busy⟩
  · exact fun count slots l whole given => (exec_idw h setup whole given).2 busy
  · exact fun record whole fields options ordered => (exec_prw h setup whole fields options ordered).2 busy
  · refine fun order small => exec_authority ⟨rfl, rfl, rfl, rfl⟩ h ?_ h.settled (by rw [setup]; rfl)
    rw [ownerAnswer, answerCls_of_inRange small, if_pos (by rw [storeBusy_eq_true_iff]; exact busy)]
    rfl
  · refine exec_authority ⟨rfl, rfl, rfl, rfl⟩ h ?_ h.settled (by rw [setup]; rfl)
    rw [ownerAnswer, answerRun, if_pos (by rw [storeBusy_eq_true_iff]; exact busy)]
    rfl
  · refine exec_authority ⟨rfl, rfl, rfl, rfl⟩ h ?_ h.settled rfl
    rw [ownerAnswer, answerRst, if_pos (by rw [storeBusy_eq_true_iff]; exact busy)]
    rfl
  · intro refused badEdges
    refine ⟨fun m state callsign standing profile allowance emergency whole bad => ?_,
      fun index count slots whole bad => ?_, fun index state count ranges rating whole bad => ?_,
      fun count slots whole bad => ?_, fun record whole bad => ?_, fun order => ⟨fun large => ?_, fun small idle => ?_⟩⟩
    · refine exec_authority ⟨rfl, rfl, rfl, by simpa [Request.shaped] using whole⟩ h
        (answerMwr_outside whole ?_) h.settled (by rw [setup]; rfl)
      refine bad.imp_right (Or.imp_right fun ⟨one, bad⟩ => ⟨one, ?_⟩)
      rcases bad with short | ⟨b, mem, char⟩ | missing | profile | allowance | ⟨k, e, low, other, entry, same⟩
      · exact .inr (.inl fun fits => absurd fits.1 (by omega))
      · exact .inr (.inl fun fits => char (fits.2.1 b mem))
      · exact .inl missing
      · exact .inr (.inl fun fits => absurd fits.2.2.1 (by omega))
      · exact .inr (.inl fun fits => absurd fits.2.2.2 (by omega))
      · exact .inr (.inr ((callsignTaken_eq_true_iff ..).mpr ⟨k, e, low, other, entry, same⟩))
    · exact exec_authority ⟨rfl, rfl, rfl, by simpa [Request.shaped] using whole⟩ h
        (answerPfw_outside bad) h.settled (by rw [setup]; rfl)
    · refine exec_authority ⟨rfl, rfl, rfl, by simpa [Request.shaped] using whole⟩ h
        (answerAnw_outside ?_) h.settled (by rw [setup]; rfl)
      refine bad.imp_right fun bad => ?_
      rcases bad with ⟨zero, one⟩ | ⟨rfl, unfit⟩
      · exact antennaOf_unknown zero one
      · refine antennaOf_outside ?_
        rintro ⟨⟨least, most⟩, edges, low, high⟩
        rcases unfit with none | many | weak | strong | ⟨g, mem, edge⟩
        · omega
        · omega
        · omega
        · omega
        · exact edges g mem edge
    · refine exec_authority ⟨rfl, rfl, rfl, by simpa [Request.shaped] using whole⟩ h
        (answerIdw_outside ?_) h.settled (by rw [setup]; rfl)
      rintro ⟨⟨least, most⟩, elements, b, mem, _, low⟩
      rcases bad with none | many | ⟨c, within, code⟩ | gaps
      · omega
      · omega
      · have := elements c within
        omega
      · have := gaps b mem
        omega
    · refine exec_authority ⟨rfl, rfl, rfl, by simpa [Request.shaped] using whole⟩ h
        (answerPrw_outside ?_) h.settled (by rw [setup]; rfl)
      refine bad.imp_right (Or.imp_right fun windows => ?_)
      rw [← Bool.not_eq_true, windowsOrdered_eq_true_iff]
      omega
    · exact exec_authority ⟨rfl, rfl, rfl, rfl⟩ h (if_pos large) h.settled (by rw [setup]; rfl)
    · have free : storeBusy (heard s) = false := by
        rw [← Bool.not_eq_true, storeBusy_eq_true_iff]
        exact not_not.mpr idle
      refine ⟨fun damaged => ?_, fun sound same => ?_⟩
      · refine exec_authority ⟨rfl, rfl, rfl, rfl⟩ h ?_ h.settled (by rw [setup]; rfl)
        rw [ownerAnswer, answerCls_of_inRange small, free, if_neg (by decide), if_pos (by exact damaged)]
        rfl
      · refine exec_authority ⟨rfl, rfl, rfl, rfl⟩ h ?_ h.settled (by rw [setup]; rfl)
        rw [ownerAnswer, answerCls_of_inRange small, free, if_neg (by decide),
          if_neg (c := (heard s).cst.paramsDamaged = true) (by simp [sound]), if_pos (by exact same)]
        rfl

end Sys2Proof.Machine
end

section
/-! SUPPORT. The requests of the turn's holder: the holder test, `key`, `unk`, `hld` and `tun` (R12, R80 to R82, R90 to R93);
and `fcl` (R83). -/

namespace Sys2Proof.Machine

/-! ## The turn that a holder's request finds -/

/-- R8, R10: an acceptance and a reload touch the turn and the count of acceptances alone. -/
theorem turnTaken_eq (m : Byte) (s : State) : ∃ (t : Turn) (n : Nat),
    turnTaken m s = { heard s with tar := { s.tar with turn := t, acceptances := n } } := by
  unfold turnTaken
  split
  · exact ⟨_, _, rfl⟩
  · unfold heardFrom
    split
    · split
      · exact ⟨_, _, rfl⟩
      · exact ⟨s.tar.turn, s.tar.acceptances, rfl⟩
    · exact ⟨s.tar.turn, s.tar.acceptances, rfl⟩

section
variable (m : Byte) (s : State)

@[simp] theorem turnTaken_clock : (turnTaken m s).clock = s.clock := by
  obtain ⟨t, n, eq⟩ := turnTaken_eq m s
  rw [eq, heard_clock]
@[simp] theorem turnTaken_lines : (turnTaken m s).lines = s.lines := by
  obtain ⟨t, n, eq⟩ := turnTaken_eq m s
  rw [eq, heard_lines]
@[simp] theorem turnTaken_mrg : (turnTaken m s).mrg = s.mrg := by
  obtain ⟨t, n, eq⟩ := turnTaken_eq m s
  rw [eq, heard_mrg]
@[simp] theorem turnTaken_kch : (turnTaken m s).kch = s.kch := by
  obtain ⟨t, n, eq⟩ := turnTaken_eq m s
  rw [eq, heard_kch]
@[simp] theorem turnTaken_seu : (turnTaken m s).seu = s.seu := by
  obtain ⟨t, n, eq⟩ := turnTaken_eq m s
  rw [eq, heard_seu]
@[simp] theorem turnTaken_ids : (turnTaken m s).ids = s.ids := by
  obtain ⟨t, n, eq⟩ := turnTaken_eq m s
  rw [eq, heard_ids]
@[simp] theorem turnTaken_ilm : (turnTaken m s).ilm = s.ilm := by
  obtain ⟨t, n, eq⟩ := turnTaken_eq m s
  rw [eq, heard_ilm]
@[simp] theorem turnTaken_spc : (turnTaken m s).spc = s.spc := by
  obtain ⟨t, n, eq⟩ := turnTaken_eq m s
  rw [eq, heard_spc]
@[simp] theorem privilege_turnTaken (k : Nat) (x : Setting) (a : BitVec 2) :
    privilege k x a (turnTaken m s) = privilege k x a s := by
  obtain ⟨t, n, eq⟩ := turnTaken_eq m s
  rw [eq]
  rfl
@[simp] theorem chooseAntenna_turnTaken (named : Option (BitVec 2)) (f p : Nat) :
    chooseAntenna named f p (turnTaken m s) = chooseAntenna named f p s := by
  obtain ⟨t, n, eq⟩ := turnTaken_eq m s
  rw [eq]
  rfl
@[simp] theorem localActive_turnTaken : localActive (turnTaken m s) = localActive s := by
  simp [localActive, inputActive]
@[simp] theorem anyLatched_turnTaken : anyLatched (turnTaken m s) = anyLatched s := by simp [anyLatched]
@[simp] theorem stationReady_turnTaken : stationReady (turnTaken m s) = stationReady s := by simp [stationReady]
@[simp] theorem chainIdle_turnTaken : chainIdle (turnTaken m s) = chainIdle s := by simp [chainIdle]
@[simp] theorem retuneInFlight_turnTaken : retuneInFlight (turnTaken m s) = retuneInFlight s := by
  simp [retuneInFlight]
@[simp] theorem idSending_turnTaken : idSending (turnTaken m s) = idSending s := by simp [idSending]
@[simp] theorem senseConfirms_turnTaken : senseConfirms (turnTaken m s) = senseConfirms s := by simp [senseConfirms]
@[simp] theorem allowanceZero_turnTaken (k : Nat) : allowanceZero k (turnTaken m s) = allowanceZero k s := by
  simp [allowanceZero, isLimited, enrolment, memberSlot]
@[simp] theorem settingRefusal_turnTaken (k : Nat) : settingRefusal k (turnTaken m s) = settingRefusal k s := by
  obtain ⟨t, n, eq⟩ := turnTaken_eq m s
  rw [eq]
  rfl
@[simp] theorem turnClass_turnTaken : turnClass (turnTaken m s) = turnClass s := by
  unfold turnTaken
  split
  case h_1 o offered => simp only [turnClass, offered, openedFrom]
  case h_2 => exact turnClass_heardFrom m s

end

/-- R8: an OFFERED turn that is taken is OPEN, and so is one that was. -/
theorem turnOpen_turnTaken {m : Byte} {s : State} (running : turnRunning s = true) : turnOpen (turnTaken m s) = true := by
  unfold turnTaken
  split
  · rfl
  case h_2 notOffered =>
    unfold heardFrom
    cases turn : s.tar.turn with
    | offered o => exact absurd turn (notOffered o)
    | opened o =>
      dsimp only
      split
      · rfl
      · simp [turnOpen, turn]
    | free => simp [turnRunning, turn] at running
    | closing c => simp [turnRunning, turn] at running

/-! ## The holder test (R12, R47) -/

section
variable {accepts : Bool} {closed : ReplyOutcome} {m : Byte} {owner : State → Answer} {s : State}

/-- R8, R12: the holder of an OFFERED or OPEN turn passes the test of a kind that accepts an offer. -/
theorem holderTest_of_running (active : isSuspended m.toNat s = false) (running : turnRunning s = true)
    (holds : holder s = some m.toNat) :
    holderTest true closed m.toNat owner (heardFrom m s) = owner (turnTaken m s) := by
  have holds' : holder (heardFrom m s) = some m.toNat := by rw [holder_heardFrom, holds]
  rw [holderTest, if_neg (by simp [active]), if_pos (by simp [holds'])]
  cases turn : s.tar.turn with
  | free => simp [turnRunning, turn] at running
  | closing c => simp [turnRunning, turn] at running
  | offered o =>
    have kept : (heard s).tar.turn = .offered o := turn
    simp only [heardFrom_of_offered turn, kept, if_true, turnTaken, turn]
    rfl
  | opened o =>
    have holder : o.holder = m.toNat := by simpa [holder, turn] using holds
    have kept : (heardFrom m s).tar.turn = .opened (reloaded o s) := by rw [heardFrom_opened m s o turn holder]; rfl
    simp only [kept, turnTaken, turn]

theorem holderTest_of_suspended (suspended : isSuspended m.toNat s = true) :
    holderTest accepts closed m.toNat owner (heardFrom m s) = answer .suspended (heardFrom m s) := by
  rw [holderTest, if_pos (by rw [isSuspended_heardFrom]; exact suspended)]

theorem holderTest_of_other (active : isSuspended m.toNat s = false) (other : holder s ≠ some m.toNat) :
    holderTest accepts closed m.toNat owner (heardFrom m s) = answer .notHolder (heard s) := by
  rw [heardFrom_of_not_holder other, holderTest, if_neg (by simp [active]), if_neg (by simp [other])]

theorem holderTest_of_closing {c : ClosingTurn} (active : isSuspended m.toNat s = false)
    (closing : s.tar.turn = .closing c) (holds : c.holder = m.toNat) :
    holderTest accepts closed m.toNat owner (heardFrom m s) = answer closed (heard s) := by
  have holder : holder s = some m.toNat := by simp [holder, closing, holds]
  have kept : (heard s).tar.turn = .closing c := closing
  rw [heardFrom_of_closing closing, holderTest, if_neg (by simp [active]), if_pos (by simp [holder])]
  simp only [kept]

/-- R12: a kind that does not accept an offer leaves it. -/
theorem holderTest_of_offered {o : OfferedTurn} (active : isSuspended m.toNat s = false)
    (offered : s.tar.turn = .offered o) (holds : o.holder = m.toNat) :
    holderTest false closed m.toNat owner (heardFrom m s) = owner (heard s) := by
  have holder : holder s = some m.toNat := by simp [holder, offered, holds]
  have kept : (heard s).tar.turn = .offered o := offered
  rw [heardFrom_of_offered offered, holderTest, if_neg (by simp [active]), if_pos (by simp [holder])]
  simp only [kept, Bool.false_eq_true, if_false]

/-- R12: the holder of an OPEN turn passes every test. -/
theorem holderTest_of_holder {o : OpenTurn} (active : isSuspended m.toNat s = false) (opened : s.tar.turn = .opened o)
    (holds : o.holder = m.toNat) :
    holderTest accepts closed m.toNat owner (heardFrom m s) = owner (heardFrom m s) :=
  holderTest_of_opened (o := reloaded o s) (by rw [isSuspended_heardFrom, active])
    (by rw [heardFrom_opened m s o opened holds]; rfl) (by rw [reloaded_holder, holds])

end

/-- A row of a member in phase RUN, whose owner answers with bytes. -/
theorem exec_holder {c : Instr} {tag m : Byte} {r : Request} {s : State} {o : ReplyOutcome} {b : List Byte} {t : State}
    (row : Carried true c tag m r) (h : takesAtOnce s) (enrolled : (enrolment m.toNat s).isSome = true) (run : s.cst.phase = .run)
    (phase : phaseSuits r .run = true) (a : ownerAnswer r m s.lp.corruptNext (heardFrom m s) = ⟨o, .bytes b, t⟩)
    (done : t.ilm.arisen = s.ilm.arisen) :
    exec c s = .next (replied tag m r o b s t) :=
  exec_member row h enrolled a (done.trans h.settled) (by rw [run]; exact phase)

/-- Settles O39, by who asks: another, the holder of a CLOSING turn, or a suspended member. -/
theorem holderTestAnswers : Obligations.HolderTestAnswers := by
  refine ⟨fun tag m f mode p a s h may => ⟨fun other => ?_, fun c closing holds => ?_⟩,
    fun tag m f mode p a s h enrolled run suspended => ?_⟩
  · have refuses {accepts : Bool} {closed : ReplyOutcome} {owner : State → Answer} :
        holderTest accepts closed m.toNat owner (heardFrom m s) = ⟨.notHolder, .bytes [], heard s⟩ :=
      holderTest_of_other may.active other
    exact ⟨exec_holder ⟨rfl, rfl, rfl, rfl⟩ h may.enrolled may.run rfl refuses rfl, exec_holder ⟨rfl, rfl, rfl, rfl⟩ h may.enrolled may.run rfl refuses rfl,
      exec_holder ⟨rfl, rfl, rfl, rfl⟩ h may.enrolled may.run rfl refuses rfl, exec_holder ⟨rfl, rfl, rfl, rfl⟩ h may.enrolled may.run rfl refuses rfl⟩
  · have answers {accepts : Bool} {closed : ReplyOutcome} {owner : State → Answer} :
        holderTest accepts closed m.toNat owner (heardFrom m s) = ⟨closed, .bytes [], heard s⟩ :=
      holderTest_of_closing may.active closing holds
    exact ⟨exec_holder ⟨rfl, rfl, rfl, rfl⟩ h may.enrolled may.run rfl answers rfl, exec_holder ⟨rfl, rfl, rfl, rfl⟩ h may.enrolled may.run rfl answers rfl,
      exec_holder ⟨rfl, rfl, rfl, rfl⟩ h may.enrolled may.run rfl answers rfl, exec_holder ⟨rfl, rfl, rfl, rfl⟩ h may.enrolled may.run rfl answers rfl⟩
  · intro refused
    have kept : (heardFrom m s).ilm.arisen = s.ilm.arisen := by rw [heardFrom_ilm]
    have refuses {accepts : Bool} {closed : ReplyOutcome} {owner : State → Answer} :
        holderTest accepts closed m.toNat owner (heardFrom m s) = ⟨.suspended, .bytes [], heardFrom m s⟩ :=
      holderTest_of_suspended suspended
    have rel : answerRel m.toNat (heardFrom m s) = ⟨.suspended, .bytes [], heardFrom m s⟩ :=
      if_pos (by rw [isSuspended_heardFrom]; exact suspended)
    have wch {setting : Byte} (named : setting = 1 ∨ setting = 2) :
        answerWch m.toNat setting (heardFrom m s) = ⟨.suspended, .bytes [], heardFrom m s⟩ := by
      have named : (!(setting == 1 || setting == 2)) = false := by rcases named with rfl | rfl <;> rfl
      rw [answerWch, named, if_neg (by decide), if_pos (by rw [isSuspended_heardFrom]; exact suspended)]
      rfl
    exact ⟨exec_holder ⟨rfl, rfl, rfl, rfl⟩ h enrolled run rfl refuses kept, exec_holder ⟨rfl, rfl, rfl, rfl⟩ h enrolled run rfl refuses kept,
      exec_holder ⟨rfl, rfl, rfl, rfl⟩ h enrolled run rfl refuses kept, exec_holder ⟨rfl, rfl, rfl, rfl⟩ h enrolled run rfl refuses kept, exec_holder ⟨rfl, rfl, rfl, rfl⟩ h enrolled run rfl rel kept,
      exec_holder ⟨rfl, rfl, rfl, rfl⟩ h enrolled run rfl (wch (.inl rfl)) kept, exec_holder ⟨rfl, rfl, rfl, rfl⟩ h enrolled run rfl (wch (.inr rfl)) kept⟩

/-! ## `key` (R80) -/

/-- What keys up quietly does so whatever the turn, the members and the chain are. -/
theorem keysUpQuietly_of_same {s t : State} (h : keysUpQuietly s) (ilm : t.ilm = s.ilm) (lines : t.lines = s.lines)
    (seu : t.seu = s.seu) (spc : t.spc = s.spc) : keysUpQuietly t := by
  unfold keysUpQuietly faultsQuietly coolsQuietly movesQuietly inputActive senseConfirms
  rw [ilm, lines, seu, spc]
  exact h

theorem exec_key {tag m : Byte} {s : State} (h : takesAtOnce s) (may : mayAsk m s) (running : turnRunning s = true)
    (holds : holder s = some m.toNat) {o : ReplyOutcome} {b : List Byte} {t : State}
    (a : keyStep m.toNat (turnTaken m s) = ⟨o, .bytes b, t⟩) (done : t.ilm.arisen = s.ilm.arisen) :
    exec (.key tag m) s = .next (replied tag m .key o b s t) :=
  exec_holder ⟨rfl, rfl, rfl, rfl⟩ h may.enrolled may.run rfl ((holderTest_of_running may.active running holds).trans a) done

section
variable {m : Nat} {s : State}

theorem retuneInFlight_eq_true_iff (s : State) : retuneInFlight s = true ↔ s.seu.retune ≠ .steady := by
  unfold retuneInFlight
  split
  case h_1 steady => simp [steady]
  case h_2 other => simpa using other

theorem settingRefusal_of_stale (stale : s.seu.confirmed.fresh = false) : settingRefusal m s = some .setting := by
  simp only [settingRefusal, stale]

/-- R80 steps 7 and 8. -/
theorem settingRefusal_of_fresh {x : Setting} (fresh : s.seu.confirmed = ⟨some x, true⟩) :
    (∀ r, privilege m x s.seu.selected s = .error r → settingRefusal m s = some r) ∧
      (∀ k, privilege m x s.seu.selected s = .ok k →
        settingRefusal m s = if senseConfirms s then none else some .antenna) := by
  constructor
  · intro r refused
    simp only [settingRefusal, fresh, refused]
  · intro k passed
    simp only [settingRefusal, fresh, passed]

/-- R80 step 10: the watch that a SUPERVISED turn needs is not kept. -/
def unwatchedTurn (s : State) : Bool := turnClass s == some (.standing .supervised) && s.mrg.watch == .inactive

/-- R80 steps 1 to 5, and the rest. -/
theorem keyStep_eq (m : Nat) (s : State) : keyStep m s =
    if localActive s then answer .localControl s
    else if anyLatched s || s.kch.state == .faulted then answer .held s
    else if !stationReady s then deny .station s
    else if !chainIdle s || retuneInFlight s || idSending s then answer .busy s
    else if s.kch.holdoff.isSome then answer .tooSoon s
    else (settingRefusal m s).elim
      (if allowanceZero m s then deny .quota s
        else if unwatchedTurn s then deny .noWatch s
        else answer .ok (keyUpHolder s)) (deny · s) := by
  unfold keyStep unwatchedTurn
  cases settingRefusal m s <;> rfl

end

/-- Settles O36, by the first condition of R80 that applies. -/
theorem keyIsRefusedInOrder : Obligations.KeyIsRefusedInOrder := by
  intro tag m s h may running holds refused denied c1 c2 c3 c4 c5
  have refuses {o : ReplyOutcome} {b : List Byte} (a : keyStep m.toNat (turnTaken m s) = ⟨o, .bytes b, turnTaken m s⟩) :
      refused o b := exec_key h may running holds a (by rw [turnTaken_ilm])
  have step1 (n : ¬ c1) : localActive s = false := by simpa [c1] using n
  have step2 (n : ¬ c2) : (anyLatched s || s.kch.state == .faulted) = false := by simpa [c2] using n
  have step3 (n : ¬ c3) : stationReady s = true := by simpa [c3, stationReady] using n
  have step4 (c : Prop) (is : c ↔ c4) [Decidable c] : (!chainIdle s || retuneInFlight s || idSending s) = decide c := by
    rw [Bool.eq_iff_iff, decide_eq_true_iff, is]
    simp [c4, chainIdle, retuneInFlight_eq_true_iff, or_assoc]
  have step5 (n : ¬ c5) : s.kch.holdoff.isSome = false := by simpa [c5] using n
  refine ⟨fun one => ?_, fun a two => ?_, fun a b three => ?_, fun a b c four => ?_, fun a b c d five => ?_,
    fun a b c d e => ?_⟩
  · refine refuses ?_
    rw [keyStep_eq, localActive_turnTaken, if_pos one]
    rfl
  · refine refuses ?_
    rw [keyStep_eq, localActive_turnTaken, step1 a, if_neg (by decide), if_pos (by simpa [c2] using two)]
    rfl
  · refine refuses ?_
    rw [keyStep_eq, localActive_turnTaken, step1 a, if_neg (by decide), anyLatched_turnTaken, turnTaken_kch, step2 b,
      if_neg (by decide), if_pos (by simpa [c3, stationReady] using three)]
    rfl
  · refine refuses ?_
    rw [keyStep_eq, localActive_turnTaken, step1 a, if_neg (by decide), anyLatched_turnTaken, turnTaken_kch, step2 b,
      if_neg (by decide), stationReady_turnTaken, step3 c, if_neg (by decide), chainIdle_turnTaken,
      retuneInFlight_turnTaken, idSending_turnTaken, step4 True (by simpa using four), if_pos (by decide)]
    rfl
  all_goals
    have passes {t : Answer} (rest : (if s.kch.holdoff.isSome then answer .tooSoon (turnTaken m s)
        else (settingRefusal m.toNat s).elim
          (if allowanceZero m.toNat s then deny .quota (turnTaken m s)
            else if unwatchedTurn (turnTaken m s) then deny .noWatch (turnTaken m s)
            else answer .ok (keyUpHolder (turnTaken m s))) (deny · (turnTaken m s))) = t) :
        keyStep m.toNat (turnTaken m s) = t := by
      rw [keyStep_eq, localActive_turnTaken, step1 a, if_neg (by decide), anyLatched_turnTaken, turnTaken_kch, step2 b,
        if_neg (by decide), stationReady_turnTaken, step3 c, if_neg (by decide), chainIdle_turnTaken,
        retuneInFlight_turnTaken, idSending_turnTaken, step4 False (by simpa using d), if_neg (by decide),
        settingRefusal_turnTaken, allowanceZero_turnTaken, rest]
  · exact refuses (passes (if_pos (by simpa [c5, Option.isSome_iff_ne_none] using five)))
  · have denies {r : Reason} (wrong : settingRefusal m.toNat s = some r) : denied r :=
      refuses (passes (by rw [step5 e, if_neg (by decide), wrong]; rfl))
    refine ⟨fun stale => denies (settingRefusal_of_stale stale), fun x fresh => ⟨fun r wrong => ?_, fun k passed => ?_⟩⟩
    · exact denies ((settingRefusal_of_fresh fresh).1 r wrong)
    · have sense := (settingRefusal_of_fresh fresh).2 k passed
      refine ⟨fun unconfirmed => denies (by rw [sense, unconfirmed]; rfl), fun confirmed => ?_⟩
      have fits : settingRefusal m.toNat s = none := by rw [sense, if_pos confirmed]
      refine ⟨fun spent => ?_, fun left cls unwatched => ?_⟩
      · exact refuses (passes (by rw [step5 e, if_neg (by decide), fits, spent]; rfl))
      · have alone : unwatchedTurn (turnTaken m s) = true := by simp [unwatchedTurn, cls, unwatched]
        exact refuses (passes (by rw [step5 e, if_neg (by decide), fits, left, alone]; rfl))

/-- Settles O35: no condition of R80 applies, and the key-up is the one of `keyedUp`. -/
theorem keyBeginsKeyUp : Obligations.KeyBeginsKeyUp := by
  intro tag m x k s h may running holds unlocal unlatched idle ready steady calm rested fresh passed valid code left
    watched quiet
  have sense : senseConfirms s = true := by simp [senseConfirms, valid, code]
  have fits : settingRefusal m.toNat s = none := by rw [(settingRefusal_of_fresh fresh).2 k passed, if_pos sense]
  have kept : unwatchedTurn (turnTaken m s) = false := by simpa [unwatchedTurn] using watched
  have keys : keyUpHolder (turnTaken m s) = keyedUp .holder { turnTaken m s with
      kch := { s.kch with deadMan := some (s.clock + 100 * s.kch.copy.deadManWindow) } } := by
    have loaded : loadDeadMan (turnTaken m s) = { turnTaken m s with
        kch := { s.kch with deadMan := some (s.clock + 100 * s.kch.copy.deadManWindow) } } := by
      rw [loadDeadMan, turnTaken_clock, turnTaken_kch]
      rfl
    have open_ : turnOpen (loadDeadMan (turnTaken m s)) = true := turnOpen_turnTaken running
    have sending : idSending (loadDeadMan (turnTaken m s)) = false := (idSending_turnTaken m s).trans calm
    rw [keyUpHolder, keyUp_eq .holder onAirHolder _ (keysUpQuietly_of_same quiet (by simp) (by simp) (by simp) (by simp))
      (fun t claims => by simp [onAir, claims]) (by simp) (.inl open_) (by simp [sending]), loaded]
  refine exec_key h may running holds ?_ (by rw [keyedUp_arisen, turnTaken_ilm])
  have isReady : stationReady s = true := by simp [stationReady, ready]
  have isIdle : chainIdle s = true := by simp [chainIdle, idle]
  have still : retuneInFlight s = false := by simp [retuneInFlight, steady]
  rw [← keys, keyStep_eq]
  simp only [localActive_turnTaken, unlocal, anyLatched_turnTaken, unlatched, turnTaken_kch, idle, stationReady_turnTaken,
    isReady, chainIdle_turnTaken, isIdle, retuneInFlight_turnTaken, still, idSending_turnTaken, calm, rested,
    settingRefusal_turnTaken, fits, allowanceZero_turnTaken, left, kept]
  rfl

/-! ## `hld` (R82) -/

/-- Settles O38, by the turn and whether the dead-man timer runs. -/
theorem hldHoldsTheTurn : Obligations.HldHoldsTheTurn := by
  refine ⟨fun tag m o s h may opened holds => ?_, fun tag m o s h may offered holds stopped => ?_⟩
  · have answers : answerHld m.toNat (heardFrom m s) = holdStep (heardFrom m s) :=
      holderTest_of_holder may.active opened holds
    refine ⟨fun stopped => ?_, fun runs => ?_⟩
    · refine exec_holder ⟨rfl, rfl, rfl, rfl⟩ h may.enrolled may.run rfl (answers.trans ?_) (by rw [heardFrom_ilm])
      rw [holdStep, if_neg (by simp [stopped])]
      rfl
    · refine exec_holder ⟨rfl, rfl, rfl, rfl⟩ h may.enrolled may.run rfl (answers.trans ?_) (by rw [heardFrom_ilm])
      rw [holdStep, if_pos (by simpa [Option.isSome_iff_ne_none] using runs), loadDeadMan, heardFrom_clock, heardFrom_kch]
      rfl
  · have running : turnRunning s = true := by simp [turnRunning, offered]
    have answers : answerHld m.toNat (heardFrom m s) = holdStep (turnTaken m s) :=
      holderTest_of_running may.active running (by simp [holder, offered, holds])
    have taken : turnTaken m s = { heard s with tar := { s.tar with
        turn := .opened (openedFrom o s)
        acceptances := s.tar.acceptances + 1 } } := by simp only [turnTaken, offered]
    rw [← taken]
    refine exec_holder ⟨rfl, rfl, rfl, rfl⟩ h may.enrolled may.run rfl (answers.trans ?_) (by rw [turnTaken_ilm])
    rw [holdStep, if_neg (by simp [stopped])]
    rfl

/-! ## `unk` (R81) -/

section
variable {s : State}

theorem unkeyStep_of_keyed (keyed : holderKeyed s = true) : unkeyStep s = answer .ok (requestKeyDown .unkey .holder s) := by
  simp only [holderKeyed, Bool.and_eq_true, beq_iff_eq, Bool.or_eq_true] at keyed
  obtain ⟨claims, (up | up) | up⟩ := keyed <;> simp only [unkeyStep, claims, up]

theorem unkeyStep_of_rest (h : s.kch.state = .idle ∨ s.kch.state = .faulted) : unkeyStep s = answer .noChange s := by
  rcases h with rest | rest <;> cases claims : s.kch.claimant <;> simp only [unkeyStep, claims, rest]

theorem unkeyStep_of_keyDown (claims : s.kch.claimant = .holder) (h : s.kch.state = .txDown ∨ s.kch.state = .ampDown) :
    unkeyStep s = answer .noChange s := by
  rcases h with down | down <;> simp only [unkeyStep, claims, down]

theorem unkeyStep_of_ident (claims : s.kch.claimant = .ident) (idle : s.kch.state ≠ .idle)
    (faulted : s.kch.state ≠ .faulted) : unkeyStep s = answer .busy s := by
  cases state : s.kch.state with
  | idle => exact absurd state idle
  | faulted => exact absurd state faulted
  | _ => simp only [unkeyStep, claims, state]

end

/-- R10: the idle deadline is set afresh, whatever the request of the holder made of it. -/
theorem idleAgain_reloaded (o : OpenTurn) (s t : State) : idleAgain (reloaded o s) t = idleAgain o t := by
  unfold reloaded idleAgain
  split <;> rfl

theorem holderKeyed_heardFrom (m : Byte) (s : State) : holderKeyed (heardFrom m s) = holderKeyed s := by
  simp [holderKeyed]

theorem downAtOnce_heardFrom (m : Byte) (s : State) : downAtOnce (heardFrom m s) ↔ downAtOnce s := by
  simp [downAtOnce]

theorem unblanksQuietly_heardFrom {m : Byte} {s : State} (h : unblanksQuietly s) : unblanksQuietly (heardFrom m s) := by
  simpa [unblanksQuietly, inputActive] using h

theorem restsQuietly_heardFrom {m : Byte} {s : State} (h : restsQuietly s) : restsQuietly (heardFrom m s) := by
  simpa [restsQuietly, unblanksQuietly, inputActive] using h

theorem keysUpQuietly_heardFrom {m : Byte} {s : State} (h : keysUpQuietly s) : keysUpQuietly (heardFrom m s) :=
  keysUpQuietly_of_same h (by simp) (by simp) (by simp) (by simp)

/-- R67 to R69, R81: the key-down that the holder of an OPEN turn asks for. -/
theorem requestKeyDown_heardFrom {m : Byte} {o : OpenTurn} {s : State} {cause : KeyDownCause}
    (opened : s.tar.turn = .opened o) (holds : o.holder = m.toNat) (other : cause ≠ .txLimit)
    (keyed : holderKeyed s = true) (quiet : unblanksQuietly s) (air : s.kch.state = .onAir → s.lines.txc = true)
    (up : s.kch.state = .txUp → s.lines.txc = false)
    (once : downAtOnce s → restsQuietly s ∧ (idOwed s = true → keysUpQuietly s)) :
    requestKeyDown cause .holder (heardFrom m s) =
      if downAtOnce s then idleAgain o (keyDownDone cause (heardFrom m s)) else keyDownBegun cause (heardFrom m s) := by
  have turn : (heardFrom m s).tar.turn = .opened (reloaded o s) := by rw [heardFrom_opened m s o opened holds]; rfl
  have rest : turnAtRest (keyDownDone cause (heardFrom m s)) = idleAgain o (keyDownDone cause (heardFrom m s)) := by
    have turn : (keyDownDone cause (heardFrom m s)).tar.turn = .opened (reloaded o s) := turn
    simp only [turnAtRest, turn, idleAgain_reloaded]
  have owed : idOwed (heardFrom m s) = idOwed s := by simp [idOwed]
  rw [requestKeyDown_eq cause (heardFrom m s) (by rwa [holderKeyed_heardFrom]) other (unblanksQuietly_heardFrom quiet)
    (by simpa using air) (by simpa using up) (fun down => ?_) (fun closing => ?_), rest]
  · simp only [downAtOnce_heardFrom]
  · obtain ⟨rests, keysUp⟩ := once ((downAtOnce_heardFrom m s).mp down)
    exact ⟨restsQuietly_heardFrom rests, fun due => keysUpQuietly_heardFrom (keysUp (owed ▸ due))⟩
  · simp [turnClosing, turn] at closing

/-- Settles O37, by the chain's state and claimant. -/
theorem unkKeysDown : Obligations.UnkKeysDown := by
  refine ⟨fun tag m o s h may opened holds => ?_, fun tag m o s h may offered holds idle => ?_⟩
  · have answers : answerUnk m.toNat (heardFrom m s) = unkeyStep (heardFrom m s) :=
      holderTest_of_holder may.active opened holds
    have kept : (heardFrom m s).ilm.arisen = s.ilm.arisen := by rw [heardFrom_ilm]
    refine ⟨fun keyed quiet air up once => ?_, fun rest => ?_, fun claims idle faulted => ?_⟩
    · have downs := requestKeyDown_heardFrom (cause := .unkey) opened holds (by simp) keyed quiet air up once
      refine exec_holder ⟨rfl, rfl, rfl, rfl⟩ h may.enrolled may.run rfl (answers.trans ?_) ?_
      · rw [unkeyStep_of_keyed (by rwa [holderKeyed_heardFrom]), downs]
        rfl
      · split
        · rw [idleAgain_arisen, keyDownDone_arisen, kept]
        · rw [keyDownBegun_arisen, kept]
    · refine exec_holder ⟨rfl, rfl, rfl, rfl⟩ h may.enrolled may.run rfl (answers.trans ?_) kept
      rcases rest with idle | faulted | ⟨claims, down⟩
      · exact unkeyStep_of_rest (.inl (by rwa [heardFrom_kch]))
      · exact unkeyStep_of_rest (.inr (by rwa [heardFrom_kch]))
      · exact unkeyStep_of_keyDown (by rwa [heardFrom_kch]) (by rwa [heardFrom_kch])
    · exact exec_holder ⟨rfl, rfl, rfl, rfl⟩ h may.enrolled may.run rfl (answers.trans (unkeyStep_of_ident (by rwa [heardFrom_kch])
        (by rwa [heardFrom_kch]) (by rwa [heardFrom_kch]))) kept
  · have answers : answerUnk m.toNat (heardFrom m s) = unkeyStep (heard s) :=
      holderTest_of_offered may.active offered holds
    exact exec_holder ⟨rfl, rfl, rfl, rfl⟩ h may.enrolled may.run rfl (answers.trans (unkeyStep_of_rest (.inl idle))) rfl

/-! ## `fcl` (R83) -/

/-- R83: the fault is cleared, before anything follows. -/
def faultCleared (s : State) : State := { s with kch := { s.kch with state := .idle, fault := none } }

theorem clearFault_of_opened {o : OpenTurn} {s : State} (opened : s.tar.turn = .opened o)
    (quiet : claimIsTaken (faultCleared s) → keysUpQuietly s) : clearFault s = idleAgain o (faultCleared s) := by
  have open_ : turnOpen (faultCleared s) = true := by simp [turnOpen, faultCleared, opened]
  have rest := turnAtRest_eq (faultCleared s) rfl (fun taken => keysUpQuietly_of_same (quiet taken) rfl rfl rfl rfl)
    (fun closing => by simp [turnClosing, faultCleared, opened] at closing)
  have turn : (faultCleared s).tar.turn = .opened o := opened
  have ends : turnAtRest (faultCleared s) = idleAgain o (faultCleared s) := by simp only [turnAtRest, turn]
  rw [if_pos open_, ends] at rest
  rw [← rest]
  exact if_pos open_

theorem clearFault_of_free {s : State} (free : s.tar.turn = .free) : clearFault s = runSelection (faultCleared s) := by
  have closed : turnOpen (faultCleared s) = false := by simp [turnOpen, faultCleared, free]
  exact if_neg (by rw [Bool.not_eq_true]; exact closed)

/-- Settles O40, by the chain's state, the confirmation lines and the turn. -/
theorem fclClearsAFault : Obligations.FclClearsAFault := by
  intro tag s h
  refine ⟨fun sound => ?_, fun faulted => ⟨fun confirmed => ?_, fun amp tx => ?_⟩⟩
  · refine exec_authority ⟨rfl, rfl, rfl, rfl⟩ h ?_ h.settled rfl
    rw [ownerAnswer, answerFcl, if_pos (by simpa using sound)]
    rfl
  · refine exec_authority ⟨rfl, rfl, rfl, rfl⟩ h ?_ h.settled rfl
    rw [ownerAnswer, answerFcl, if_neg (by simpa using faulted), if_pos (by simpa using confirmed)]
    rfl
  · intro cleared
    have clears {t : State} (leaves : clearFault (heard s) = t) (done : t.ilm.arisen = s.ilm.arisen) :
        exec (.fcl tag) s = .next (replied tag authority .fcl .ok [] s t) := by
      refine exec_authority ⟨rfl, rfl, rfl, rfl⟩ h ?_ (done.trans h.settled) rfl
      rw [ownerAnswer, answerFcl, if_neg (by simpa using faulted), if_neg (by simp [amp, tx]), leaves]
      rfl
    exact ⟨fun o opened quiet => clears (clearFault_of_opened opened fun taken =>
        keysUpQuietly_of_same (quiet taken) rfl rfl rfl rfl) (idleAgain_arisen o cleared),
      fun free => clears (clearFault_of_free free) (by rw [runSelection_ilm]; rfl)⟩

end Sys2Proof.Machine
end

section
/-! SUPPORT. The requests `tun`, `icl`, `spw`, `bft`, `run`, `set` and `rst` (R89 to R97, R140, R144 to R155, R187 to R190). -/

namespace Sys2Proof.Machine

/-! ## `tun` (R90 to R93, R96) -/

section
variable {tag m a : Byte} {f : Word} {mode : Byte} {p : Half} {s : State}

theorem exec_tun_of_running (h : takesAtOnce s) (may : mayAsk m s) (running : turnRunning s = true)
    (holds : holder s = some m.toNat) {o : ReplyOutcome} {b : List Byte} {t : State}
    (answered : tuneOwner m.toNat f mode p a (turnTaken m s) = ⟨o, .bytes b, t⟩) (done : t.ilm.arisen = s.ilm.arisen) :
    exec (.tun tag m f mode p a) s = .next (replied tag m (.tun f mode p a) o b s t) :=
  exec_holder ⟨rfl, rfl, rfl, rfl⟩ h may.enrolled may.run rfl ((holderTest_of_running may.active running holds).trans answered) done

theorem tuneOwner_of_outside {k : Nat}
    (bad : modeOf mode = none ∨ antennaChoiceOf a = none ∨ p.toNat < 1 ∨ 1500 < p.toNat) :
    tuneOwner k f mode p a s = answer .range s := by
  unfold tuneOwner
  rcases bad with none | none | low | high
  · simp only [none]
  · cases modeOf mode <;> simp only [none]
  · split
    · exact if_neg (by rw [within_eq_true_iff]; omega)
    · rfl
  · split
    · exact if_neg (by rw [within_eq_true_iff]; omega)
    · rfl

variable {k : Nat} {x : Setting} {named : Option (BitVec 2)}

theorem tuneStep_of_busy (busy : s.kch.state ≠ .idle) : tuneStep k x named s = answer .busy s := by
  rw [tuneStep, if_pos (by simpa [chainIdle] using busy)]

theorem tuneStep_of_down (idle : s.kch.state = .idle) (down : s.spc.power.state = .off ∨ s.spc.power.state = .cooling) :
    tuneStep k x named s = deny .station s := by
  rw [tuneStep, if_neg (by simp [chainIdle, idle]), if_pos (by simpa using down)]

theorem tuneStep_of_denied {ant : BitVec 2} {r : Reason} (idle : s.kch.state = .idle) (notOff : s.spc.power.state ≠ .off)
    (notCooling : s.spc.power.state ≠ .cooling) (chosen : chooseAntenna named x.frequency x.power s = some ant)
    (wrong : privilege k x ant s = .error r) : tuneStep k x named s = deny r s := by
  simp [tuneStep, chainIdle, idle, notOff, notCooling, chosen, wrong]

theorem tuneStep_of_allowed {ant : BitVec 2} {c : Nat} (idle : s.kch.state = .idle) (notOff : s.spc.power.state ≠ .off)
    (notCooling : s.spc.power.state ≠ .cooling) (chosen : chooseAntenna named x.frequency x.power s = some ant)
    (passed : privilege k x ant s = .ok c) : tuneStep k x named s =
      answerWith .ok (tuneBody (beginRetune ⟨x, ant, k, s.tar.acceptances⟩ s))
        (beginRetune ⟨x, ant, k, s.tar.acceptances⟩ s) := by
  simp [tuneStep, chainIdle, idle, notOff, notCooling, chosen, passed]

end

/-- R91: a retune in flight is overtaken. -/
def retuneCleared (s u : State) : Prop :=
  (s.seu.retune = .steady ∧ u = s) ∨ ∃ r tag, requested s = some (r, tag) ∧ u = retuneEnded .overtaken r tag s

theorem endRetune_overtaken {s u : State} (h : retuneCleared s u) : endRetune .overtaken s = u := by
  rcases h with ⟨steady, rfl⟩ | ⟨r, tag, inFlight, rfl⟩
  · simp only [endRetune, requested, steady]
  · exact endRetune_eq .overtaken r tag s inFlight

section
variable {s u : State}

theorem retuneCleared_same (h : retuneCleared s u) : u.lines = s.lines ∧ u.seu.selected = s.seu.selected ∧
    u.clock = s.clock ∧ u.seu.copy = s.seu.copy ∧ u.tar = s.tar ∧ u.ilm = s.ilm := by
  rcases h with ⟨_, rfl⟩ | ⟨r, tag, _, rfl⟩
  · exact ⟨rfl, rfl, rfl, rfl, rfl, rfl⟩
  · simp [retuneEnded]

variable {r : Requested}

theorem enterAwaiting_eq (r : Requested) (s : State) : enterAwaiting r s = awaitingFor r s := rfl

/-- R93: the antenna in use stays, and its sense confirms. -/
theorem beginRetune_of_same (h : retuneCleared s u) (same : r.antenna = s.seu.selected) (sense : senseConfirms s = true) :
    beginRetune r s = awaitingFor r u := by
  obtain ⟨lines, selected, _⟩ := retuneCleared_same h
  have confirms : senseConfirms u = true := by rwa [senseConfirms, lines, selected]
  rw [beginRetune, endRetune_overtaken h, if_neg (by simp [same, selected, confirms]), enterAwaiting_eq]

/-- R92: the sense confirms the new selection already. -/
theorem beginRetune_of_confirmed (h : retuneCleared s u) (new : r.antenna ≠ s.seu.selected) (valid : s.lines.antv = true)
    (code : s.lines.code = r.antenna) :
    beginRetune r s = awaitingFor r { u with seu := { u.seu with selected := r.antenna } } := by
  obtain ⟨lines, selected, _⟩ := retuneCleared_same h
  rw [beginRetune, endRetune_overtaken h, if_pos (by simp [selected, new]), enterSwitching,
    if_pos (by simp [senseConfirms, State.setSeu, lines, valid, code]), enterAwaiting_eq]
  rfl

/-- R92: the retune waits for the sense. -/
theorem beginRetune_of_waiting (h : retuneCleared s u) (waits : s.lines.antv = false ∨ s.lines.code ≠ r.antenna) :
    beginRetune r s = { u with seu := { u.seu with
      selected := r.antenna
      retune := .switching r (s.clock + s.seu.copy.settleLimit) } } := by
  obtain ⟨lines, selected, clock, copy, _⟩ := retuneCleared_same h
  have unconfirmed : (u.lines.antv && u.lines.code == r.antenna) = false := by
    rw [lines]
    rcases waits with invalid | other
    · simp [invalid]
    · simp [other]
  have switches : (r.antenna != u.seu.selected || !senseConfirms u) = true := by
    by_cases same : r.antenna = u.seu.selected
    · have : senseConfirms u = false := by rw [senseConfirms, ← same, unconfirmed]
      simp [this]
    · simp [same]
  rw [beginRetune, endRetune_overtaken h, if_pos switches, enterSwitching]
  rw [if_neg (by
    rw [Bool.not_eq_true]
    exact unconfirmed)]
  rw [State.setSeu, clock, copy]

end

/-- Settles O41, by the antenna and its sense, and by the first check of R90 that fails. -/
theorem tunBeginsARetune : Obligations.TunBeginsARetune := by
  refine ⟨fun tag m a f mode md p named ant k s u h may running holds isMode isAntenna low high idle notOff notCooling
    chosen passed clears => ?_, fun tag m a f mode p s h may running holds => ?_⟩
  · intro r answered
    have cleared : retuneCleared (turnTaken m s) u := by
      rcases clears with ⟨steady, eq⟩ | ⟨r0, tag0, inFlight, eq⟩
      · exact .inl ⟨by rwa [turnTaken_seu], eq⟩
      · refine .inr ⟨r0, tag0, ?_, eq⟩
        rwa [requested, turnTaken_seu]
    obtain ⟨_, _, _, _, tar, ilm⟩ := retuneCleared_same cleared
    have begins {t : State} (leaves : beginRetune r (turnTaken m s) = t) (done : t.ilm = u.ilm) : answered t := by
      refine exec_tun_of_running h may running holds ?_ (by rw [done, ilm, turnTaken_ilm])
      rw [tuneOwner_of_inRange isMode isAntenna low high, tuneStep_of_allowed (by rwa [turnTaken_kch])
        (by rwa [turnTaken_spc]) (by rwa [turnTaken_spc]) (by rwa [chooseAntenna_turnTaken])
        (by rwa [privilege_turnTaken]), ← tar]
      rw [show beginRetune ⟨⟨f.toNat, md, p.toNat⟩, ant, m.toNat, u.tar.acceptances⟩ (turnTaken m s) = t from leaves]
      rfl
    refine ⟨fun same sense => begins (beginRetune_of_same cleared (by rwa [turnTaken_seu]) (by rwa [senseConfirms_turnTaken])) rfl,
      fun new valid code => begins (beginRetune_of_confirmed cleared (by rwa [turnTaken_seu]) (by rwa [turnTaken_lines])
        (by rwa [turnTaken_lines])) rfl,
      fun waits => begins ((beginRetune_of_waiting cleared (by rwa [turnTaken_lines])).trans ?_) rfl⟩
    rw [turnTaken_clock, turnTaken_seu]
  · intro refused
    have refuses {o : ReplyOutcome} {b : List Byte}
        (answered : tuneOwner m.toNat f mode p a (turnTaken m s) = ⟨o, .bytes b, turnTaken m s⟩) : refused o b :=
      exec_tun_of_running h may running holds answered (by rw [turnTaken_ilm])
    refine ⟨fun bad => refuses (tuneOwner_of_outside bad), fun md named isMode isAntenna low high => ?_⟩
    have step {o : ReplyOutcome} {b : List Byte}
        (answered : tuneStep m.toNat ⟨f.toNat, md, p.toNat⟩ named (turnTaken m s) = ⟨o, .bytes b, turnTaken m s⟩) :
        refused o b := refuses ((tuneOwner_of_inRange isMode isAntenna low high _).trans answered)
    refine ⟨fun busy => step (tuneStep_of_busy (by rwa [turnTaken_kch])), fun idle down =>
      step (tuneStep_of_down (by rwa [turnTaken_kch]) (by rwa [turnTaken_spc])), fun idle notOff notCooling =>
      ⟨fun unchosen => step (tuneStep_of_no_antenna (by rwa [turnTaken_kch]) (by rwa [turnTaken_spc])
        (by rwa [turnTaken_spc]) (by rwa [chooseAntenna_turnTaken])), fun ant r chosen wrong => ?_⟩⟩
    exact step (tuneStep_of_denied (by rwa [turnTaken_kch]) (by rwa [turnTaken_spc]) (by rwa [turnTaken_spc])
      (by rwa [chooseAntenna_turnTaken]) (by rwa [privilege_turnTaken]))

/-! ## `icl` (R140) -/

theorem anyLatched_eq_true_iff (s : State) : anyLatched s = true ↔ ∃ i, s.ilm.latched.get i = true := by
  simp only [anyLatched, PerInput.toList, List.any_cons, List.any_nil, id_eq, Bool.or_eq_true]
  constructor
  · rintro (l | l | l | l | l | l | l)
    · exact ⟨.refl, l⟩
    · exact ⟨.ampf, l⟩
    · exact ⟨.supok, l⟩
    · exact ⟨.estop, l⟩
    · exact ⟨.localKey, l⟩
    · exact ⟨.ants, l⟩
    · cases l
  · rintro ⟨i, latched⟩
    cases i <;> simp_all [PerInput.get]

theorem anyQuietLatched_eq_true_iff (s : State) :
    anyQuietLatched s = true ↔ ∃ i, s.ilm.latched.get i = true ∧ s.ilm.filters.get i = .quiet := by
  simp only [anyQuietLatched, List.any_eq_true, Bool.and_eq_true, beq_iff_eq]
  constructor
  · rintro ⟨i, _, h⟩
    exact ⟨i, h⟩
  · rintro ⟨i, h⟩
    exact ⟨i, by cases i <;> simp, h⟩

theorem clearQuiet_latched (i : Input) (s : State) :
    (clearQuiet s).ilm.latched.get i = (s.ilm.latched.get i && s.ilm.filters.get i != .quiet) := by
  cases i <;> rfl

theorem claimInterval_of_not_due {s : State} (h : idDue s = false) : claimInterval s = s := by
  simp [claimInterval, h]

theorem latchBody_runSelection (s : State) : latchBody (runSelection s) = latchBody s := by simp [latchBody]

/-- Settles O42, by the latched inputs and their filters. -/
theorem iclRemovesQuietTrips : Obligations.IclRemovesQuietTrips := by
  intro tag s h keep cleared
  have answers {o : ReplyOutcome} {b : List Byte} {t : State} (a : answerIcl (heard s) = ⟨o, .bytes b, t⟩)
      (done : t.ilm.arisen = s.ilm.arisen) : exec (.icl tag) s = .next (replied tag authority .icl o b s t) :=
    exec_authority ⟨rfl, rfl, rfl, rfl⟩ h a (done.trans h.settled) rfl
  refine ⟨fun clear => ?_, fun some => ⟨fun active => ?_, fun quiet => ?_⟩⟩
  · have none : anyLatched (heard s) = false := by
      rw [← Bool.not_eq_true, anyLatched_eq_true_iff]
      simpa using clear
    refine answers ?_ rfl
    rw [answerIcl, none, if_pos (by decide)]
    rfl
  all_goals have latched : anyLatched (heard s) = true := (anyLatched_eq_true_iff (heard s)).mpr some
  · have none : anyQuietLatched (heard s) = false := by
      rw [← Bool.not_eq_true, anyQuietLatched_eq_true_iff]
      simpa using active
    refine answers ?_ rfl
    rw [answerIcl, latched, if_neg (by decide), none, if_pos (by decide)]
    rfl
  · have removes : anyQuietLatched (heard s) = true := (anyQuietLatched_eq_true_iff (heard s)).mpr quiet
    have clears {t : State} (leaves : clearTrips (heard s) = t) (body : latchBody t = latchBody cleared)
        (done : t.ilm.arisen = s.ilm.arisen) :
        exec (.icl tag) s = .next (replied tag authority .icl .ok (latchBody cleared) s t) := by
      refine answers ?_ done
      rw [answerIcl, latched, if_neg (by decide), removes, if_neg (by decide), leaves, body]
      rfl
    refine ⟨fun ⟨i, set, busy⟩ => ?_, fun all calm => ?_⟩
    · have left : anyLatched (clearQuiet (heard s)) = true :=
        (anyLatched_eq_true_iff _).mpr ⟨i, by rw [clearQuiet_latched]; simpa [set] using busy⟩
      exact clears (if_pos left) rfl rfl
    · have empty : ¬ anyLatched (clearQuiet (heard s)) = true := by
        rw [anyLatched_eq_true_iff]
        rintro ⟨i, left⟩
        rw [clearQuiet_latched] at left
        simp only [heard_ilm, Bool.and_eq_true, bne_iff_ne, ne_eq] at left
        exact left.2 (all i left.1)
      have leaves : clearTrips (heard s) = runSelection cleared := by
        refine (if_neg empty).trans (congrArg runSelection ?_)
        exact claimInterval_of_not_due (s := cleared) calm
      exact clears leaves (latchBody_runSelection cleared) (by rw [runSelection_ilm])

end Sys2Proof.Machine
end

section
/-! SUPPORT. The requests `spw`, `bft`, `run`, `set` and `rst` (R144 to R155, R187 to R190). -/

namespace Sys2Proof.Machine

/-! ## `spw` (R146 to R151) -/

theorem exec_spw {c : Instr} {tag setting : Byte} {s : State} {o : ReplyOutcome} {t : State} (row : Carried false c tag authority (.spw setting))
    (h : takesAtOnce s)
    (a : answerSpw setting (heard s) = answer o t) (done : t.ilm.arisen = s.ilm.arisen) :
    exec c s = .next (replied tag authority (.spw setting) o [] s t) :=
  exec_authority row h a (done.trans h.settled) rfl

section
variable {s : State}

theorem answerSpw_up (quiet : localActive s = false) : answerSpw 1 s = powerUp s := by simp [answerSpw, quiet]

theorem answerSpw_down (quiet : localActive s = false) : answerSpw 2 s = powerDown s := by simp [answerSpw, quiet]

theorem powerUp_of_held (held : s.ilm.latched.estop = true) : powerUp s = answer .held s := by simp [powerUp, held]

section
variable (clear : s.ilm.latched.estop = false)
include clear

theorem powerUp_of_off (off : s.spc.power = .off none) : powerUp s = answer .ok (enterWarming s) := by
  simp [powerUp, clear, off]

theorem powerUp_of_holdoff {k : Nat} (off : s.spc.power = .off (some k)) : powerUp s = answer .tooSoon s := by
  simp [powerUp, clear, off]

theorem powerUp_of_warming (warming : s.spc.power.state = .warming) : powerUp s = answer .noChange s := by
  cases power : s.spc.power <;> simp [power, Power.state] at warming <;> simp [powerUp, clear, power]

theorem powerUp_of_cooling (cooling : s.spc.power.state = .cooling) : powerUp s = answer .tooSoon s := by
  cases power : s.spc.power <;> simp [power, Power.state] at cooling
  simp [powerUp, clear, power]

theorem powerUp_of_ready (ready : s.spc.power = .ready) : powerUp s = answer .noChange (clearDownRequest s) := by
  simp [powerUp, clear, ready]

end

/-- R147: with SUPOK inactive the supply is awaited. -/
theorem enterWarming_of_unconfirmed (low : s.lines.supok = false) :
    enterWarming s = powerChanged (.supplyWait (s.clock + 2000)) none s := by
  rw [enterWarming, if_neg (by simp [low]), changePower_eq]
  rfl

/-- R147, R148: SUPOK is active already. -/
theorem enterWarming_of_confirmed (high : s.lines.supok = true) (free : s.tar.turn = .free)
    (quiet : movesQuietly .supok false s) :
    enterWarming s = supplyConfirmed (powerChanged (.supplyWait (s.clock + 2000)) none s) := by
  rw [enterWarming, if_pos high, changePower_eq]
  refine confirmSupply_eq _ (by simpa [powerChanged] using free) (by simpa [powerChanged] using high) ?_
  simpa [movesQuietly, inputActive, powerChanged] using quiet

theorem clearDownRequest_of_not_requested (h : s.spc.downRequested = false) : clearDownRequest s = s := by
  rw [clearDownRequest, if_neg (by simp [h])]

theorem clearDownRequest_of_requested (h : s.spc.downRequested = true) :
    clearDownRequest s = runSelection (requestCleared s) := by
  rw [clearDownRequest, if_pos h]
  rfl

theorem powerDown_of_down (down : s.spc.power.state = .off ∨ s.spc.power.state = .cooling) :
    powerDown s = answer .noChange s := by
  cases power : s.spc.power <;> simp [power, Power.state] at down <;> simp only [powerDown, power]

theorem powerDown_of_warming (warming : s.spc.power.state = .warming) : powerDown s = answer .ok (enterCooling s) := by
  cases power : s.spc.power <;> simp [power, Power.state] at warming <;> simp only [powerDown, power]

theorem powerDown_of_free (ready : s.spc.power = .ready) (free : s.tar.turn = .free) :
    powerDown s = answer .ok (enterCooling s) := by
  simp [powerDown, ready, free]

theorem powerDown_of_taken (ready : s.spc.power = .ready) (taken : s.tar.turn ≠ .free) :
    powerDown s = if s.spc.downRequested then answer .noChange s
      else answer .ok (endTurn .stationDown (s.setSpc { s.spc with downRequested := true })) := by
  simp [powerDown, requestDown, ready, taken]

end

/-! ## `bft` (R154, R155) -/

theorem exec_bft {c : Instr} {tag setting : Byte} {s : State} {o : ReplyOutcome} {t : State} (row : Carried false c tag authority (.bft setting))
    (h : takesAtOnce s)
    (a : answerBft setting (heard s) = answer o t) (done : t.ilm.arisen = s.ilm.arisen) :
    exec c s = .next (replied tag authority (.bft setting) o [] s t) :=
  exec_authority row h a (done.trans h.settled) rfl

section
variable {s : State} {setting : Byte}

theorem answerBft_of_local (named : setting = 1 ∨ setting = 2) (active : localActive s = true) :
    answerBft setting s = answer .localControl s := by
  rcases named with rfl | rfl <;> simp [answerBft, active]

theorem answerBft_of_busy (named : setting = 1 ∨ setting = 2) (quiet : localActive s = false)
    (busy : s.kch.state ≠ .idle ∨ s.spc.power.state = .warming) : answerBft setting s = answer .busy s := by
  rcases named with rfl | rfl <;> rcases busy with busy | busy <;> simp [answerBft, quiet, chainIdle, busy]

/-- R154: `bft` with nothing that holds it back. -/
theorem answerBft_of_taken (named : setting = 1 ∨ setting = 2) (quiet : localActive s = false)
    (idle : s.kch.state = .idle) (cold : s.spc.power.state ≠ .warming) : answerBft setting s =
      if s.spc.barefoot = (setting == 1) then answer .noChange s else answer .ok (setBarefoot (setting == 1) s) := by
  rcases named with rfl | rfl <;> simp [answerBft, quiet, chainIdle, idle, cold]

/-- R154, R155: AMPF is filtered as the new mode has it. -/
theorem setBarefoot_eq (b : Bool) (quiet : movesQuietly .ampf (s.lines.ampf && !b) s) : setBarefoot b s = { s with
    spc := { s.spc with barefoot := b }
    ilm := inputMoved .ampf (s.lines.ampf && !b) s } :=
  senseInput_inputMoved .ampf (s.setSpc { s.spc with barefoot := b }) quiet

end

/-- Settles O43, by LOCAL, the power state, the turn and the barefoot flag. -/
theorem spwAndBftSetThePower : Obligations.SpwAndBftSetThePower := by
  refine ⟨fun tag s h quiet => ?_, fun tag s h active => ⟨?_, ?_⟩, fun tag s h => ?_⟩
  · intro up down asked
    have ups {o : ReplyOutcome} {t : State} (a : powerUp (heard s) = answer o t) (done : t.ilm.arisen = s.ilm.arisen) :
        up o t := exec_spw ⟨rfl, rfl, rfl, rfl⟩ h ((answerSpw_up (s := heard s) quiet).trans a) done
    have downs {o : ReplyOutcome} {t : State} (a : powerDown (heard s) = answer o t) (done : t.ilm.arisen = s.ilm.arisen) :
        down o t := exec_spw ⟨rfl, rfl, rfl, rfl⟩ h ((answerSpw_down (s := heard s) quiet).trans a) done
    have warms (p : Power) : (powerChanged p none (heard s)).ilm.arisen = s.ilm.arisen := by simp [powerChanged]
    have cools (still : s.spc.copy.coolDown = 0 → movesQuietly .supok false s) :
        enterCooling (heard s) = coolingEntered (heard s) := enterCooling_eq (heard s) still
    refine ⟨fun held => ups (powerUp_of_held (s := heard s) held) rfl, fun clear => ⟨fun off => ⟨fun low => ?_, fun high needs still => ?_⟩,
      fun k off => ups (powerUp_of_holdoff (s := heard s) clear off) rfl, fun warming => ups (powerUp_of_warming (s := heard s) clear warming) rfl,
      fun cooling => ups (powerUp_of_cooling (s := heard s) clear cooling) rfl, fun ready => ⟨fun calm => ?_, fun asks => ?_⟩⟩,
      fun off => downs (powerDown_of_down (s := heard s) off) rfl, fun still => ⟨fun warming => ?_, fun ready free => ?_⟩,
      fun ready running calm plain => ?_, fun c ready closing calm => ?_, fun ready taken asks => ?_⟩
    · refine ups ?_ (warms _)
      rw [powerUp_of_off (s := heard s) clear off, enterWarming_of_unconfirmed (s := heard s) low]
      rfl
    · have free : s.tar.turn = .free := needs (by simp [off])
      refine ups ?_ ((supplyConfirmed_supok _).2.1.trans (warms _))
      rw [powerUp_of_off (s := heard s) clear off, enterWarming_of_confirmed (s := heard s) high free still]
      rfl
    · refine ups ?_ rfl
      rw [powerUp_of_ready (s := heard s) clear ready, clearDownRequest_of_not_requested (s := heard s) calm]
    · refine ups ?_ (by rw [runSelection_ilm]; rfl)
      rw [powerUp_of_ready (s := heard s) clear ready, clearDownRequest_of_requested (s := heard s) asks]
    · refine downs ?_ (coolingEntered_arisen (heard s))
      rw [powerDown_of_warming (s := heard s) warming, cools still]
    · refine downs ?_ (coolingEntered_arisen (heard s))
      rw [powerDown_of_free (s := heard s) ready free, cools still]
    · have taken : (heard s).tar.turn ≠ .free := fun free => by
        have free : s.tar.turn = .free := free
        simp [turnRunning, free] at running
      refine downs ?_ (turnEnded_arisen .stationDown asked)
      rw [powerDown_of_taken (s := heard s) ready taken, if_neg (by simp [calm])]
      exact congrArg _ (endTurn_eq .stationDown asked plain fun _ => rfl)
    · have taken : (heard s).tar.turn ≠ .free := fun free => by
        have free : s.tar.turn = .free := free
        rw [free] at closing; cases closing
      refine downs ?_ rfl
      rw [powerDown_of_taken (s := heard s) ready taken, if_neg (by simp [calm])]
      have stays : endTurn .stationDown asked = asked := by
        have turn : asked.tar.turn = .closing c := closing
        simp only [endTurn, turn]
      exact congrArg _ stays
    · refine downs ?_ rfl
      exact (powerDown_of_taken (s := heard s) ready taken).trans (if_pos asks)
  · exact exec_spw ⟨rfl, rfl, rfl, rfl⟩ h (by simp [answerSpw, active]) rfl
  · exact exec_spw ⟨rfl, rfl, rfl, rfl⟩ h (by simp [answerSpw, active]) rfl
  · intro on off moved
    have ons {o : ReplyOutcome} {t : State} (a : answerBft 1 (heard s) = answer o t) (done : t.ilm.arisen = s.ilm.arisen) :
        on o t := exec_bft ⟨rfl, rfl, rfl, rfl⟩ h a done
    have offs {o : ReplyOutcome} {t : State} (a : answerBft 2 (heard s) = answer o t) (done : t.ilm.arisen = s.ilm.arisen) :
        off o t := exec_bft ⟨rfl, rfl, rfl, rfl⟩ h a done
    have sets (b : Bool) (still : movesQuietly .ampf (s.lines.ampf && !b) s) : setBarefoot b (heard s) = moved b :=
      setBarefoot_eq (s := heard s) b still
    refine ⟨fun active => ⟨ons (answerBft_of_local (s := heard s) (.inl rfl) active) rfl, offs (answerBft_of_local (.inr rfl) active) rfl⟩,
      fun quiet busy => ⟨ons (answerBft_of_busy (s := heard s) (.inl rfl) quiet busy) rfl, offs (answerBft_of_busy (.inr rfl) quiet busy) rfl⟩,
      fun quiet idle cold => ?_⟩
    have takesOn := answerBft_of_taken (s := heard s) (setting := 1) (.inl rfl) quiet idle cold
    have takesOff := answerBft_of_taken (s := heard s) (setting := 2) (.inr rfl) quiet idle cold
    refine ⟨fun barefoot => ⟨ons (takesOn.trans (if_pos (by simp [barefoot]))) rfl, fun still => ?_⟩,
      fun amplified => ⟨fun still => ?_, offs (takesOff.trans (if_pos (by simp [amplified]))) rfl⟩⟩
    · refine offs (takesOff.trans ((if_neg (by simp [barefoot])).trans ?_)) (inputMoved_arisen _ _ s)
      exact congrArg _ (sets false (by simpa using still))
    · refine ons (takesOn.trans ((if_neg (by simp [amplified])).trans ?_)) (inputMoved_arisen _ _ s)
      exact congrArg _ (sets true (by simpa using still))

/-! ## `run`, `set` and `rst` (R187, R188, R190) -/

theorem exec_run {tag : Byte} {s : State} {o : ReplyOutcome} {t : State} (h : takesAtOnce s) (setup : s.cst.phase = .setup)
    (a : answerRun (heard s) = answer o t) (done : t.ilm.arisen = s.ilm.arisen) :
    exec (.run tag) s = .next (replied tag authority .run o [] s t) :=
  exec_authority ⟨rfl, rfl, rfl, rfl⟩ h a (done.trans h.settled) (by rw [setup]; rfl)

theorem exec_set {tag : Byte} {s : State} {o : ReplyOutcome} {t : State} (h : takesAtOnce s) (run : s.cst.phase = .run)
    (a : answerSet (heard s) = answer o t) (done : t.ilm.arisen = s.ilm.arisen) :
    exec (.set tag) s = .next (replied tag authority .set o [] s t) :=
  exec_authority ⟨rfl, rfl, rfl, rfl⟩ h a (done.trans h.settled) (by rw [run]; rfl)

section
variable {s : State} (free : s.cst.writing = none)
include free

theorem answerRun_of_damaged (damaged : s.cst.paramsDamaged = true ∨ s.ids.pattern = .damaged) :
    answerRun s = answer .damaged s := by
  rcases damaged with params | pattern
  · simp [answerRun, storeBusy, free, params]
  · simp [answerRun, storeBusy, free, pattern]

theorem answerRun_of_empty (sound : s.cst.paramsDamaged = false) (pattern : s.ids.pattern = .valid []) :
    answerRun s = answer .range s := by
  simp [answerRun, storeBusy, free, sound, pattern, patternElements]

theorem answerRun_of_pattern {e : Element} {l : List Element} (sound : s.cst.paramsDamaged = false)
    (pattern : s.ids.pattern = .valid (e :: l)) : answerRun s = answer .ok (enterRun s) := by
  simp [answerRun, storeBusy, free, sound, pattern, patternElements]

end

theorem onlyMembersDiffer.tar {s t : State} (h : onlyMembersDiffer s t) : t.tar = s.tar := by rw [h]

/-- R164, R187: the phase is RUN, the allowances are filled, and supervision runs. -/
theorem enterRun_of_empty {s : State} (empty : s.tar.queue = []) :
    enterRun s = loadSupervision (refillAll (s.setPhase .run)) := by
  have tar : (refillAll (s.setPhase .run)).tar = s.tar := (refillAll_onlyMembers (s.setPhase .run)).tar
  rw [enterRun]
  generalize refillAll (s.setPhase .run) = t at tar ⊢
  exact runSelection_empty _ ((congrArg Arbiter.queue tar).trans empty)

theorem loadSupervision_of_filled {s t : State} (others : onlyMembersDiffer ((heard s).setPhase .run) t) :
    loadSupervision t = { heard s with
      cst := { s.cst with phase := .run }
      lp := { (heard s).lp with supervision := some (s.clock + 100 * s.lp.supervisionTime) }
      mrg := { s.mrg with members := t.mrg.members } } := by
  unfold onlyMembersDiffer at others
  rw [others]
  rfl

theorem answerSet_of_busy {s : State} (busy : s.tar.turn ≠ .free ∨ s.kch.state ≠ .idle ∨ idSending s = true) :
    answerSet s = answer .busy s := by
  refine if_neg fun rest => ?_
  simp only [Bool.and_eq_true, beq_iff_eq, chainIdle, Bool.not_eq_true'] at rest
  obtain ⟨⟨free, idle⟩, calm⟩ := rest
  rcases busy with taken | moves | sends
  · exact taken free
  · exact moves idle
  · rw [calm] at sends; cases sends

theorem answerSet_of_rest {s : State} (free : s.tar.turn = .free) (idle : s.kch.state = .idle)
    (calm : idSending s = false) : answerSet s = answer .ok (enterSetup s) :=
  if_pos (by simp [free, chainIdle, idle, calm])

/-- R188: the watch ends, and with the turn FREE nothing else does. -/
theorem endWatch_of_free {w b x : Nat} {s : State} (watch : s.mrg.watch = .active w b x) (free : s.tar.turn = .free) :
    endWatch s = watchLeft w s := by
  have stopped : turnRunning s = false := by simp [turnRunning, free]
  rw [endWatch_of_active watch fun running => by rw [stopped] at running; cases running]
  exact watchEnds_of_not_running stopped

/-- R188: what `set` leaves of the state `t` in which the watch has ended. -/
theorem enterSetup_of_endWatch {s t : State} (ends : endWatch (emptyQueue s) = t) (lp : t.lp = s.lp) (cst : t.cst = s.cst) :
    enterSetup s = { t with lp := { s.lp with supervision := none }, cst := { s.cst with phase := .setup } } := by
  rw [enterSetup, ends, ← lp, ← cst]
  rfl

/-- Settles O44, by the phase and what holds the change back. -/
theorem runAndSetChangeThePhase : Obligations.RunAndSetChangeThePhase := by
  intro tag s h ran set
  refine ⟨fun setup idle => ⟨fun damaged => ?_, fun sound empty => ?_, fun e l sound pattern empty => ?_⟩,
    fun run => ⟨fun busy => ?_, fun free rest calm => ?_⟩⟩
  · exact exec_run h setup (answerRun_of_damaged idle damaged) rfl
  · exact exec_run h setup (answerRun_of_empty idle sound empty) rfl
  · have others : onlyMembersDiffer ((heard s).setPhase .run) (refillAll ((heard s).setPhase .run)) :=
      refillAll_onlyMembers _
    have slots (k : Nat) : memberSlot k (refillAll ((heard s).setPhase .run)) = (memberSlot k s).filled :=
      memberSlot_refillAll k _
    have answered : answerRun (heard s) = answer .ok (loadSupervision (refillAll ((heard s).setPhase .run))) := by
      rw [answerRun_of_pattern (s := heard s) idle sound pattern, enterRun_of_empty (s := heard s) empty]
    generalize refillAll ((heard s).setPhase .run) = t at others slots answered
    refine ⟨loadSupervision t, loadSupervision_of_filled others, fun k => ?_, exec_run h setup answered others.ilm_arisen⟩
    refine (slots k).trans ?_
    cases enrolled : enrolment k s with
    | none => exact filled_of_not_enrolled enrolled
    | some e => exact filled_of_enrolled enrolled
  · exact exec_set h run (answerSet_of_busy busy) rfl
  · intro quiet
    have sets {t : State} (ends : endWatch (emptyQueue (heard s)) = t) (lp : t.lp = (heard s).lp) (cst : t.cst = s.cst)
        (done : t.ilm.arisen = s.ilm.arisen) : set .ok (quiet t) := by
      refine exec_set h run ?_ done
      rw [answerSet_of_rest (s := heard s) free rest calm, enterSetup_of_endWatch ends lp cst]
      rfl
    refine ⟨fun inactive => sets ?_ rfl rfl rfl, fun w b x watch => ?_⟩
    · have inactive : (emptyQueue (heard s)).mrg.watch = .inactive := inactive
      simp only [endWatch, inactive]
      rfl
    · exact sets (endWatch_of_free (s := emptyQueue (heard s)) watch free) (by simp) (by simp) (by simp)

theorem pumpNotice_pumpNotice (s : State) : pumpNotice (pumpNotice s) = pumpNotice s := by
  by_cases sends : (s.lp.tx == .idle && s.ntu.waiting) = true
  · have pumped : pumpNotice s = sendNotice s := if_pos sends
    rw [pumped]
    exact pumpNotice_of_none rfl
  · have stays : pumpNotice s = s := if_neg sends
    rw [stays, stays]

theorem resetEnds_arisen (kind : ResetKind) (s : State) : (resetEnds kind s).ilm.arisen = [] := by
  rw [resetEnds, pumpNotice_ilm]
  exact settle_arisen _

/-- Settles O45: the answer of `rst`, and the SOFT reset that the end of its reply brings. -/
theorem rstResetsAfterItsReply : Obligations.RstResetsAfterItsReply := by
  refine fun s => ⟨fun tag h idle => ?_, fun p running done sending soft times => ?_⟩
  · refine exec_authority ⟨rfl, rfl, rfl, rfl⟩ h ?_ h.settled rfl
    rw [ownerAnswer, answerRst, if_neg (by rw [storeBusy_eq_true_iff]; exact not_not.mpr idle)]
    rfl
  · have resets : replyEnds s = resetEnds .soft s := by simp only [replyEnds, sending, soft, if_true]
    have ends := event_now replyEnds s running (by rw [resets]; exact resetEnds_arisen .soft s)
    rw [resets, resetEnds_eq .soft s times, pumpNotice_pumpNotice] at ends
    exact congrArg _ ends

end Sys2Proof.Machine
end

section
/-! SUPPORT. The timers that end a transmission or run out (R43, R75 to R77, R100, R111, R115, R127, R151). -/

namespace Sys2Proof.Machine

/-! ## Key-down of the holder -/

section
variable {o : OpenTurn} {s t : State}

/-- R67, R68: key-down of the holder from ON_AIR. -/
theorem requestKeyDown_of_onAir (cause : KeyDownCause) (onAir : s.kch.state = .onAir) (claims : s.kch.claimant = .holder)
    (tx : s.lines.txc = true) (quiet : unblanksQuietly s) : requestKeyDown cause .holder s = keyedDown cause s := by
  have down := keyedDown_eq cause s onAir tx quiet
  rwa [claims] at down

theorem keyedDown_arisen (cause : KeyDownCause) (s : State) : (keyedDown cause s).ilm.arisen = s.ilm.arisen :=
  unblanked_arisen s

/-- R67 to R69: key-down of the holder, in the OPEN turn `o` and before ON_AIR, as `requestKeyDown_eq` has it. -/
theorem requestKeyDown_of_opened (cause : KeyDownCause) (opened : s.tar.turn = .opened o) (claims : s.kch.claimant = .holder)
    (stage : s.kch.state = .ampUp ∨ (s.kch.state = .txUp ∧ s.lines.txc = false)) (other : cause ≠ .txLimit)
    (quiet : unblanksQuietly s) (once : downAtOnce s → restsQuietly s ∧ keysUpQuietly s) :
    requestKeyDown cause .holder s =
      if downAtOnce s then idleAgain o (keyDownDone cause s) else keyDownBegun cause s := by
  have keyed : holderKeyed s = true := by rcases stage with up | ⟨up, _⟩ <;> simp [holderKeyed, claims, up]
  rw [requestKeyDown_eq cause s keyed other quiet (fun air => ?_) (fun up => ?_)
    (fun down => ⟨(once down).1, fun _ => (once down).2⟩) fun closing => ?_]
  · have opened : (keyDownDone cause s).tar.turn = .opened o := opened
    simp only [turnAtRest, opened]
  · rcases stage with up | ⟨up, _⟩ <;> rw [up] at air <;> cases air
  · rcases stage with amp | ⟨_, low⟩
    · rw [amp] at up; cases up
    · exact low
  · simp [turnClosing, opened] at closing

theorem keyDownOfOpened_arisen (cause : KeyDownCause) (o : OpenTurn) (s : State) :
    (if downAtOnce s then idleAgain o (keyDownDone cause s) else keyDownBegun cause s).ilm.arisen = s.ilm.arisen := by
  split
  · rw [idleAgain_arisen, keyDownDone_arisen]
  · exact keyDownBegun_arisen cause s

theorem holderKeyed_keyDownOfOpened (cause : KeyDownCause) (o : OpenTurn) (s : State) (up : s.kch.state ≠ .onAir) :
    holderKeyed (if downAtOnce s then idleAgain o (keyDownDone cause s) else keyDownBegun cause s) = false := by
  split
  · have claims := idleAgain_claimant o (keyDownDone cause s) (by simp [keyDownDone, restedIn])
    simp [holderKeyed, claims]
  · simp [keyDownBegun, up, holderKeyed]

/-- R14: the end of an OPEN turn whose cause asks for no key-down, with the chain not yet at rest. -/
theorem endTurn_of_moving {cause : EndCause} (opened : s.tar.turn = .opened o) (asks : asksKeyDown cause = false)
    (moves : chainAtRest s = false) :
    endTurn cause s = { s with tar := { s.tar with turn := closedBy o cause } } := by
  simp only [endTurn, opened, endOpen, asks, Bool.false_and, Bool.false_eq_true, if_false]
  have moves : chainAtRest (s.setTurn (.closing (closingOf cause o))) = false := moves
  rw [closingStep, if_neg (by simp [moves])]
  rfl

theorem chainAtRest_keyedDown (cause : KeyDownCause) (s : State) : chainAtRest (keyedDown cause s) = false := rfl

/-! ## The timers -/

/-- R43: the count of the holder of an OPEN turn is spent. -/
theorem spendLast_of_opened (opened : s.tar.turn = .opened o) : spendLast s = { s with mrg := { s.mrg with
    members := s.mrg.members.setIfInBounds o.holder { memberSlot o.holder s with remaining := 0 }
    unitOwed := false } } := by
  have named : holder s = some o.holder := by simp [holder, opened]
  simp only [spendLast, named]
  rfl

/-- R115: the grace timer of a record that is DUE has run out. -/
def graceSpent (since : Nat) (s : State) : State := { s with ids := { s.ids with record := .due since none } }

theorem graceExpires_of_keyed {since : Nat} {moment : Option Nat} (due : s.ids.record = .due since moment)
    (opened : turnOpen s = true) (keyed : holderKeyed s = true) :
    graceExpires s = requestKeyDown .idForced .holder (graceSpent since s) := by
  simp only [graceExpires, due]
  exact if_pos (Bool.and_eq_true_iff.mpr ⟨opened, keyed⟩)

theorem graceExpires_of_not_keyed {since : Nat} {moment : Option Nat} (due : s.ids.record = .due since moment)
    (rests : holderKeyed s = false) : graceExpires s = graceSpent since s := by
  simp only [graceExpires, due]
  exact if_neg fun both => Bool.noConfusion (rests.symm.trans (Bool.and_eq_true_iff.mp both).2)

/-- R100: the setting has become STALE. -/
def settingLost (s : State) : State := { s with seu := { s.seu with
  rigSilence := none
  confirmed := { s.seu.confirmed with fresh := false } } }

theorem rigFallsSilent_of_onAir (air : holderOnAir s = true) (fresh : s.seu.confirmed.fresh = true) :
    rigFallsSilent s = requestKeyDown .rigSilent .holder (raise .setting (settingLost s)) := by
  have air : holderOnAir (raise .setting (settingLost s)) = true := by simpa [holderOnAir, settingLost] using air
  rw [rigFallsSilent, if_pos fresh]
  exact if_pos air

theorem rigFallsSilent_of_fresh (off : holderOnAir s = false) (fresh : s.seu.confirmed.fresh = true) :
    rigFallsSilent s = raise .setting (settingLost s) := by
  have off : ¬ holderOnAir (raise .setting (settingLost s)) = true := by simpa [holderOnAir, settingLost] using off
  rw [rigFallsSilent, if_pos fresh]
  exact if_neg off

theorem rigFallsSilent_of_stale (off : holderOnAir s = false) (stale : s.seu.confirmed.fresh = false) :
    rigFallsSilent s = { s with seu := { s.seu with rigSilence := none } } := by
  have same : settingLost s = { s with seu := { s.seu with rigSilence := none } } := by
    have kept : ({ s.seu.confirmed with fresh := false } : Confirmed) = s.seu.confirmed := by rw [← stale]
    rw [settingLost, kept]
  have off : ¬ holderOnAir (settingLost s) = true := by rw [Bool.not_eq_true]; exact off
  unfold rigFallsSilent
  dsimp only
  rw [if_neg (show ¬ s.seu.confirmed.fresh = true by simp [stale]), ← same]
  exact if_neg off

end

/-! ## The obligation -/

section
variable {o : OpenTurn} {s : State} (air : onTheAir o s)
include air

theorem onTheAir.keysDown (cause : KeyDownCause) : requestKeyDown cause .holder s = keyedDown cause s := by
  obtain ⟨_, _, _, onAir, claims, tx, quiet⟩ := air
  exact requestKeyDown_of_onAir cause onAir claims tx quiet

theorem onTheAir.holderKeyed : holderKeyed s = true := by
  obtain ⟨_, _, _, onAir, claims, _⟩ := air
  simp [Machine.holderKeyed, onAir, claims]

theorem onTheAir.holderOnAir : holderOnAir s = true := by
  obtain ⟨_, _, _, onAir, claims, _⟩ := air
  simp [Machine.holderOnAir, onAir, claims]

theorem onTheAir.turnOpen : turnOpen s = true := by
  obtain ⟨_, _, opened, _⟩ := air
  simp [Machine.turnOpen, opened]

end

/-- R43, R75, R76, R100, R115: with the holder on the air, the five timers key it down. -/
theorem exec_timer_of_onTheAir (o : OpenTurn) (s : State) (air : onTheAir o s) :
    (fallsDue .allowanceExhausted s → exec .allowanceExhausted s = .next (pumpNotice
      { keyedDown .quota s with
        tar := { s.tar with turn := closedBy o .quota }
        mrg := { s.mrg with
          members := s.mrg.members.setIfInBounds o.holder { memberSlot o.holder s with remaining := 0 }
          unitOwed := false } })) ∧
    (fallsDue .deadManExpiry s → exec .deadManExpiry s = .next (pumpNotice
      { keyedDown .deadman s with tar := { s.tar with turn := closedBy o .deadman } })) ∧
    (fallsDue .transmissionLimitExpiry s →
      exec .transmissionLimitExpiry s = .next (pumpNotice (keyedDown .txLimit s))) ∧
    (∀ since moment, s.ids.record = .due since (some moment) → fallsDue .graceTimerExpiry s →
      exec .graceTimerExpiry s = .next (pumpNotice
        { keyedDown .idForced s with ids := { s.ids with record := .due since none } })) ∧
    (s.seu.confirmed.fresh = true → fallsDue .rigSilenceExpiry s →
      exec .rigSilenceExpiry s = .next (pumpNotice (keyedDown .rigSilent (raise .setting (settingLost s))))) := by
  have opened : s.tar.turn = .opened o := air.2.2.1
  refine ⟨fun due => ?_, fun due => ?_, fun due => ?_, fun since moment record due => ?_, fun fresh due => ?_⟩
  · have spent : onTheAir o (spendLast s) := by rw [spendLast_of_opened opened]; exact air
    have closes : allowanceRunsOut s = _ := (congrArg (endTurn .quota) (spent.keysDown .quota)).trans
      (endTurn_of_moving spent.2.2.1 rfl (chainAtRest_keyedDown .quota _))
    rw [spendLast_of_opened opened] at closes
    rw [exec_due (f := allowanceRunsOut) due rfl (by rw [closes]; exact (keyedDown_arisen .quota _).trans due.settled), closes]
    rfl
  · have stopped : onTheAir o (s.setKch { s.kch with deadMan := none }) := air
    have closes : deadManExpires s = _ := (congrArg (endTurn .deadman) (stopped.keysDown .deadman)).trans
      (endTurn_of_moving stopped.2.2.1 rfl (chainAtRest_keyedDown .deadman _))
    rw [exec_due (f := deadManExpires) due rfl (by rw [closes]; exact (keyedDown_arisen .deadman _).trans due.settled), closes]
    rfl
  · have stopped : onTheAir o (s.setKch { s.kch with txLimit := none }) := air
    have down : txLimitExpires s = _ := stopped.keysDown .txLimit
    rw [exec_due (f := txLimitExpires) due rfl (by rw [down]; exact (keyedDown_arisen .txLimit _).trans due.settled), down]
    rfl
  · have spent : onTheAir o (graceSpent since s) := air
    have down := (graceExpires_of_keyed record air.turnOpen air.holderKeyed).trans (spent.keysDown .idForced)
    rw [exec_due (f := graceExpires) due rfl (by rw [down]; exact (keyedDown_arisen .idForced _).trans due.settled), down]
    rfl
  · have lost : onTheAir o (raise .setting (settingLost s)) := by
      simpa [onTheAir, inReset, unblanksQuietly, inputActive, settingLost] using air
    have down := (rigFallsSilent_of_onAir air.holderOnAir fresh).trans (lost.keysDown .rigSilent)
    rw [exec_due (f := rigFallsSilent) due rfl (by rw [down, keyedDown_arisen]; simpa [settingLost] using due.settled), down]

/-- Settles O46: the five timers of a holder on the air, the two of a holder keyed before ON_AIR, and those that only
stop. -/
theorem timersEndATransmissionOrRunOut : Obligations.TimersEndATransmissionOrRunOut := by
  refine ⟨exec_timer_of_onTheAir, fun o s opened claims stage quiet once => ⟨fun since moment record due => ?_, ?_⟩,
    fun s => ⟨fun due => exec_due (f := holdoffExpires) due rfl due.settled,
      fun due => exec_due (f := restartAllowed) due rfl due.settled, fun due quiet => ?_, fun since moment record due rests => ?_,
      fun due off => ⟨fun fresh => ?_, fun stale => ?_⟩⟩⟩
  · have keyed : holderKeyed s = true := by rcases stage with up | ⟨up, _⟩ <;> simp [holderKeyed, claims, up]
    have down := (graceExpires_of_keyed record (by simp [turnOpen, opened]) keyed).trans
      (requestKeyDown_of_opened (s := graceSpent since s) .idForced opened claims stage (by decide) quiet once)
    rw [exec_due (f := graceExpires) due rfl (by rw [down, keyDownOfOpened_arisen]; exact due.settled), down]
    rfl
  · intro due u plain
    have onAir : s.kch.state ≠ .onAir := by rcases stage with up | ⟨up, _⟩ <;> simp [up]
    have down : requestKeyDown .deadman .holder (s.setKch { s.kch with deadMan := none }) = u :=
      requestKeyDown_of_opened (s := s.setKch { s.kch with deadMan := none }) .deadman opened claims stage (by decide) quiet once
    have ends : deadManExpires s = turnEnded .deadman u := (congrArg (endTurn .deadman) down).trans
      (endTurn_eq .deadman u plain fun keyed => by
        rw [holderKeyed_keyDownOfOpened .deadman o s onAir] at keyed; cases keyed)
    have calm : u.ilm.arisen = [] := (keyDownOfOpened_arisen .deadman o s).trans due.settled
    rw [exec_due (f := deadManExpires) due rfl (by rw [ends, turnEnded_arisen, calm]), ends]
  · have ends := stopBlanking_eq s quiet
    rw [exec_due (f := stopBlanking) due rfl (by rw [ends]; exact (unblanked_arisen s).trans due.settled), ends]
  · have spent := graceExpires_of_not_keyed record rests
    rw [exec_due (f := graceExpires) due rfl (by rw [spent]; exact due.settled), spent]
    rfl
  · have lost := rigFallsSilent_of_fresh off fresh
    rw [exec_due (f := rigFallsSilent) due rfl (by rw [lost]; simpa [settingLost] using due.settled), lost]
    rfl
  · have lost := rigFallsSilent_of_stale off stale
    rw [exec_due (f := rigFallsSilent) due rfl (by rw [lost]; exact due.settled), lost]

end Sys2Proof.Machine
end

section
/-! SUPPORT. The chain's stages, its faults and the identification on the air (R62 to R72, R111 to R118). -/

namespace Sys2Proof.Machine

/-! ## Lines that change -/

/-- What a command that moves lines does outside reset. -/
theorem exec_line {c : Instr} {f : State → State} {s : State} {x : Lines} (running : inReset (s.setLines x) = false)
    (new : x ≠ s.lines) (row : exec c s = .next (lineChange x f s))
    (done : (f (s.setLines x)).ilm.arisen = []) : exec c s = .next (pumpNotice (f (s.setLines x))) := by
  rw [row, lineChange_now x f s new running done]

/-- TXC at a level. -/
def txcAt (v : Bool) (s : State) : State := { s with lines := { s.lines with txc := v } }

/-- AMPRDY at a level. -/
def amprdyAt (v : Bool) (s : State) : State := { s with lines := { s.lines with amprdy := v } }

/-- What a change of TXC does outside reset. -/
theorem exec_txc {v : Bool} {s u : State} (running : inReset s = false) (old : s.lines.txc = !v)
    (acts : txcChanged v (txcAt v s) = u) (done : u.ilm.arisen = []) :
    exec (.txcChange v) s = .next (pumpNotice u) := by
  subst acts
  refine exec_line (x := { s.lines with txc := v }) (f := txcChanged v) running (fun same => ?_) rfl done
  have same : v = s.lines.txc := congrArg Lines.txc same
  rw [old] at same
  cases v <;> cases same

/-- What a change of AMPRDY does outside reset. -/
theorem exec_amprdy {v : Bool} {s u : State} (running : inReset s = false) (old : s.lines.amprdy = !v)
    (acts : amprdyChanged v (amprdyAt v s) = u) (done : u.ilm.arisen = []) :
    exec (.amprdyChange v) s = .next (pumpNotice u) := by
  subst acts
  refine exec_line (x := { s.lines with amprdy := v }) (f := amprdyChanged v) running (fun same => ?_) rfl done
  have same : v = s.lines.amprdy := congrArg Lines.amprdy same
  rw [old] at same
  cases v <;> cases same

/-! ## The chain advances -/

section
variable {s : State}

/-- R65: the entry to ON_AIR under claimant HOLDER. -/
theorem onAir_of_holder (claims : s.kch.claimant = .holder)
    (stale : s.seu.confirmed.fresh = false → s.lines.txc = true ∧ unblanksQuietly s) : onAir s = holderAired s := by
  rw [onAir, if_neg (by simp [claims])]
  exact onAirHolder_eq s claims stale

theorem holderAired_arisen (s : State) : (holderAired s).ilm.arisen = s.ilm.arisen := by
  unfold holderAired
  dsimp only
  split
  · rfl
  · exact unblanked_arisen s

theorem stageElapsed_of_started {a : Nat} (started : s.kch.stageStart = some a) : stageElapsed s = s.clock - a := by
  simp only [stageElapsed, started]

theorem amprdyChanged_of_ampUp {a : Nat} (amplified : s.spc.barefoot = false) (up : s.kch.state = .ampUp)
    (started : s.kch.stageStart = some a) (late : s.kch.copy.ampReadyEarliest ≤ s.clock - a) :
    amprdyChanged true s = enterTxUp onAir s := by
  simp only [amprdyChanged, amplified, up, stageElapsed_of_started started, Bool.false_eq_true, if_false]
  exact if_neg (Nat.not_lt.mpr late)

theorem txcChanged_of_txUp {a : Nat} (up : s.kch.state = .txUp) (started : s.kch.stageStart = some a)
    (late : s.kch.copy.txConfirmEarliest ≤ s.clock - a) : txcChanged true s = onAir s := by
  simp only [txcChanged, up, stageElapsed_of_started started]
  exact if_neg (Nat.not_lt.mpr late)

theorem txcChanged_of_txDown (down : s.kch.state = .txDown) : txcChanged false s = endTxDown s := by
  simp only [txcChanged, down]

/-- R68: TX_DOWN ends with an amp hold to run. -/
theorem endTxDown_of_hold (amplified : s.spc.barefoot = false) (hold : 0 < s.kch.copy.ampHold) :
    endTxDown s = beginStage .ampDown s.kch.copy.ampHold s := by
  rw [endTxDown, if_neg (by simp [amplified])]
  exact if_neg hold.ne'

/-- R5, R60: what a chain away from rest says of the turn and of the claimant. -/
theorem begun_of_moving (lawful : chainLawful s) (moves : chainAtRest s = false) :
    (turnOpen s = true ∨ turnClosing s = true) ∧ identIsSending s ∧ s.kch.claimant ≠ .none := by
  obtain ⟨sending, ⟨unclaimed, _⟩, ⟨idle, _⟩, _⟩ := lawful
  refine ⟨?_, sending, fun unclaims => ?_⟩
  · by_contra begun
    simp only [not_or, Bool.not_eq_true] at begun
    rw [(idle begun.1 begun.2).2] at moves
    cases moves
  · rw [unclaimed.mp unclaims] at moves
    cases moves

/-- R69: the chain and the monitor once a key-down has completed. -/
def chainRested (s : State) : State := { s with kch := restedChain s, ilm := restMonitor s }

/-- R68, R69: TX_DOWN ends in barefoot mode or with an amp hold of 0, and the key-down of the holder completes. -/
theorem endTxDown_rest (claims : s.kch.claimant = .holder) (rests : restsQuietly s)
    (plain : claimIsTaken (chainRested s) → keysUpQuietly (chainRested s)) (cools : turnClosing s = true → coolsQuietly s)
    (short : s.spc.barefoot = true ∨ s.kch.copy.ampHold = 0) : endTxDown s = turnAtRest (chainRested s) := by
  rcases endTxDown_completes s short with ends | ends
  · exact ends.trans (completeKeyDown_rest s claims rests plain cools)
  · exact ends.trans (completeKeyDown_rest (beginStage .ampDown 0 s) claims rests plain cools)

theorem turnAtRest_of_opened {o : OpenTurn} (opened : s.tar.turn = .opened o) : turnAtRest s = idleAgain o s := by
  simp only [turnAtRest, opened]

theorem turnAtRest_of_closing {c : ClosingTurn} (closing : s.tar.turn = .closing c) : turnAtRest s = closingEnds c s := by
  simp only [turnAtRest, closing]

end

/-- R10, R16, R69: what follows a command after which the chain of `r` has come to rest, by the turn. -/
theorem exec_turnAtRest {c : Instr} {s r : State} (turn : r.tar.turn = s.tar.turn)
    (rested : (turnClosing s = true → coolsQuietly s) → exec c s = .next (pumpNotice (turnAtRest r))) :
    (∀ o : OpenTurn, s.tar.turn = .opened o → exec c s = .next (pumpNotice (idleAgain o r))) ∧
      (∀ o : ClosingTurn, s.tar.turn = .closing o → coolsQuietly s → exec c s = .next (pumpNotice (closingEnds o r))) := by
  refine ⟨fun o opened => ?_, fun o closing cools => ?_⟩
  · rw [rested (by simp [turnClosing, opened]), turnAtRest_of_opened (turn.trans opened)]
  · rw [rested fun _ => cools, turnAtRest_of_closing (turn.trans closing)]

/-- Settles O47, by the stage: the two confirmations of key-up, and the two ends of key-down. -/
theorem chainAdvances : Obligations.ChainAdvances := by
  refine fun a s running done => ⟨?_, ?_, ?_, ?_⟩
  · intro up started late _ amplified low refl ants early
    have moves : chainAtRest s = false := by simp [chainAtRest, up]
    refine exec_amprdy running low ?_ ((txUpEntered_arisen _).trans done)
    refine (amprdyChanged_of_ampUp (s := amprdyAt true s) amplified up started late).trans ?_
    refine enterTxUp_eq onAir _ (fun _ _ => rfl) refl ants fun high => ?_
    obtain ⟨lawful, line, cools⟩ := early high
    obtain ⟨begun, sending, claimed⟩ := begun_of_moving lawful moves
    exact ⟨begun, sending, claimed, line, fun _ => cools⟩
  · intro up claims started late _ low aired
    have airs (quiet : s.seu.confirmed.fresh = false → unblanksQuietly s) :
        exec (.txcChange true) s = .next (pumpNotice (holderAired (txcAt true s))) := by
      refine exec_txc running low ?_ ((holderAired_arisen _).trans done)
      refine (txcChanged_of_txUp (s := txcAt true s) up started late).trans (onAir_of_holder (s := txcAt true s) claims fun stale => ⟨rfl, quiet stale⟩)
    refine ⟨fun fresh => (airs (by simp [fresh])).trans ?_, fun stale quiet => (airs fun _ => quiet).trans ?_⟩
    · exact congrArg (fun t => Host.Outcome.next (pumpNotice t)) (if_pos fresh)
    · exact congrArg (fun t => Host.Outcome.next (pumpNotice t)) (if_neg (by rw [Bool.not_eq_true]; exact stale))
  · intro down high amplified hold
    exact exec_txc running high ((txcChanged_of_txDown (s := txcAt false s) down).trans (endTxDown_of_hold (s := txcAt false s) amplified hold)) done
  · intro claims rests rested comesToRest
    have calm (x : Lines) : (turnAtRest (rested x)).ilm.arisen = [] :=
      (turnAtRest_arisen _).trans ((restMonitor_arisen s).trans done)
    refine ⟨fun _ due plain => exec_turnAtRest rfl fun cools => ?_,
      fun down high short plain => exec_turnAtRest rfl fun cools => ?_⟩
    · have completes : completeKeyDown s = turnAtRest (rested s.lines) := completeKeyDown_rest s claims rests plain cools
      rw [exec_due (f := completeKeyDown) due rfl (by rw [completes]; exact calm _), completes]
    · exact exec_txc running high
        ((txcChanged_of_txDown (s := txcAt false s) down).trans (endTxDown_rest (s := txcAt false s) claims rests plain cools short)) (calm _)

end Sys2Proof.Machine
end

section
/-! SUPPORT. The faults of the chain and the identification that falls due (R62 to R72, R79, R111 to R118). -/

namespace Sys2Proof.Machine

/-! ## Faults -/

theorem faulted_state (kind : FaultKind) (x : Lines) (s : State) : (faulted kind x s).kch.state = .faulted := by
  unfold faulted
  dsimp only
  split
  · rw [sendAbandoned_kch]; simp [restedIn]
  · rw [turnReleased_kch, sendAbandoned_kch]; simp [restedIn]

/-- R59, R72: PTT and AMPKEY are released with the chain FAULTED, in reset or out of it. -/
theorem outputs_of_faulted {s : State} (rest : s.kch.state = .faulted) :
    (outputs s).ptt = false ∧ (outputs s).ampkey = false := by
  by_cases reset : inReset s = true
  · simp [outputs, reset, outputsReleased]
  · simp [outputs, reset, rest, pttOf, ampkeyOf]

section
variable {s : State}

theorem amprdyChanged_of_early {a : Nat} (amplified : s.spc.barefoot = false) (up : s.kch.state = .ampUp)
    (started : s.kch.stageStart = some a) (early : s.clock - a < s.kch.copy.ampReadyEarliest) :
    amprdyChanged true s = chainFault .ampEarly s := by
  simp only [amprdyChanged, amplified, up, stageElapsed_of_started started, Bool.false_eq_true, if_false]
  exact if_pos early

theorem amprdyChanged_of_drop (amplified : s.spc.barefoot = false)
    (keyed : s.kch.state = .txUp ∨ s.kch.state = .onAir ∨ s.kch.state = .txDown) :
    amprdyChanged false s = chainFault .ampDrop s := by
  rcases keyed with keyed | keyed | keyed <;> simp [amprdyChanged, amplified, keyed]

theorem txcChanged_of_early {a : Nat} (up : s.kch.state = .txUp) (started : s.kch.stageStart = some a)
    (early : s.clock - a < s.kch.copy.txConfirmEarliest) : txcChanged true s = chainFault .txEarly s := by
  simp only [txcChanged, up, stageElapsed_of_started started]
  exact if_pos early

theorem txcChanged_of_drop (air : s.kch.state = .onAir) : txcChanged false s = chainFault .txDrop s := by
  simp only [txcChanged, air]

end

/-- Settles O48: each of the seven faults is `chainFault`, met with the lines as the command leaves them. -/
theorem faultsReleaseTheChain : Obligations.FaultsReleaseTheChain := by
  refine ⟨fun kind x s => outputs_of_faulted (faulted_state kind x s), fun a s running done lawful rests _ cools => ?_⟩
  intro faults
  have release (kind : FaultKind) (x : Lines) (same : x.refl = s.lines.refl) (moves : chainAtRest s = false) :
      chainFault kind { s with lines := x } = faulted kind x s := by
    obtain ⟨begun, sending, _⟩ := begun_of_moving lawful moves
    exact chainFault_eq kind s x same rests begun sending fun _ => cools
  have calm (kind : FaultKind) (x : Lines) : (faulted kind x s).ilm.arisen = [] := (faulted_arisen kind x s).trans done
  have expires {c : Instr} {kind : FaultKind} (due : fallsDue c s) (moves : chainAtRest s = false)
      (row : exec c s = .next (expiry (dueMoment c s) (chainFault kind) s)) : faults c kind s.lines := by
    have release := release kind s.lines rfl moves
    have acts := exec_due (f := chainFault kind) due row (by rw [show chainFault kind s = _ from release]; exact calm _ _)
    rwa [show chainFault kind s = _ from release] at acts
  have moving {k : ChainState} (state : s.kch.state = k) (idle : k ≠ .idle) (whole : k ≠ .faulted) :
      chainAtRest s = false := by simp [chainAtRest, state, idle, whole]
  refine ⟨fun up started early low amplified => ?_, fun up due => expires due (moving up (by decide) (by decide)) rfl,
    fun up started early low => ?_, fun up due => expires due (moving up (by decide) (by decide)) rfl,
    fun keyed high amplified => ?_, fun air high => ?_, fun down due => expires due (moving down (by decide) (by decide)) rfl⟩
  · exact exec_amprdy running low ((amprdyChanged_of_early (s := amprdyAt true s) amplified up started early).trans
      (release _ _ rfl (moving up (by decide) (by decide)))) (calm _ _)
  · exact exec_txc running low ((txcChanged_of_early (s := txcAt true s) up started early).trans
      (release _ _ rfl (moving up (by decide) (by decide)))) (calm _ _)
  · have moves : chainAtRest s = false := by
      rcases keyed with keyed | keyed | keyed <;> exact moving keyed (by decide) (by decide)
    exact exec_amprdy running high ((amprdyChanged_of_drop (s := amprdyAt false s) amplified keyed).trans
      (release _ _ rfl moves)) (calm _ _)
  · exact exec_txc running high ((txcChanged_of_drop (s := txcAt false s) air).trans
      (release _ _ rfl (moving air (by decide) (by decide)))) (calm _ _)

/-! ## The identification falls due -/

theorem claimInterval_of_not_open {s : State} (h : turnOpen s = false) : claimInterval s = s := by
  simp [claimInterval, h]

theorem intervalExpires_of_owed {s : State} {since moment : Nat} (owed : s.ids.record = .owed since moment) :
    intervalExpires s = claimInterval (raise .idDue { s with ids := { s.ids with
      record := .due since (some (s.clock + 1000 * s.ids.copy.grace)) } }) := by
  simp only [intervalExpires, owed]
  rfl

/-- Settles O49: the record is DUE, and the claim for it is made if it can be taken. -/
theorem identificationFallsDue : Obligations.IdentificationFallsDue := by
  intro since moment s owed falls due
  have acts {t : State} (claims : claimInterval due = t) (done : t.ilm.arisen = s.ilm.arisen) :
      exec .intervalTimerExpiry s = .next (pumpNotice t) := by
    have ends := (intervalExpires_of_owed owed).trans claims
    rw [exec_due (f := intervalExpires) falls rfl (by rw [ends, done]; exact falls.settled), ends]
  have calm : due.ilm.arisen = s.ilm.arisen := by simp [due]
  have open_iff : turnOpen due = turnOpen s := by simp [due, turnOpen]
  have taken_iff : claimIsTaken due ↔ claimIsTaken s := by
    simp [due, claimIsTaken, idOwed, owed, retuneInFlight, anyLatched, localActive, inputActive]
  have isDue : idDue due = true := by simp [due, idDue]
  have claims (quiet : claimIsTaken s → keysUpQuietly s) (opened : turnOpen s = true) :
      claimInterval due = intervalClaimMade due :=
    claimInterval_eq due (open_iff.trans opened) fun taken =>
      keysUpQuietly_of_same (quiet (taken_iff.mp taken)) (by simp [due]) (by simp [due]) (by simp [due]) (by simp [due])
  refine ⟨fun waits => acts ?_ calm, fun opened taken quiet => acts ?_ ((identClaimed_arisen _ _).trans calm)⟩
  · cases opened : turnOpen s with
    | false => exact claimInterval_of_not_open (open_iff.trans opened)
    | true =>
      have refused : ¬ claimIsTaken s := waits.resolve_left (by simp [opened])
      rw [claims (fun taken => absurd taken refused) opened, intervalClaimMade,
        if_neg fun h => refused (taken_iff.mp h.2)]
  · rw [claims (fun _ => quiet) opened, intervalClaimMade, if_pos ⟨isDue, taken_iff.mpr taken⟩]

end Sys2Proof.Machine
end

section
/-! SUPPORT. The identification on the air (R64, R65, R69, R109, R116, R117). -/

namespace Sys2Proof.Machine

/-! ## The pattern -/

section
variable {since start k began : Nat} {trigger : Trigger} {e : Element} {l : List Element} {s : State}

theorem onAir_of_ident (claims : s.kch.claimant = .ident) : onAir s = identAired s := by
  rw [onAir, if_pos (by simp [claims]), onAirIdent_eq]

theorem identAired_arisen (s : State) : (identAired s).ilm.arisen = s.ilm.arisen := rfl

theorem patternElements_of_valid (pattern : s.ids.pattern = .valid l) : patternElements s = l := by
  simp only [patternElements, pattern]

/-- R116: the pattern begins with its first element. -/
theorem identAired_of_pattern {progress : Progress} (sends : s.ids.record = .sending since trigger progress)
    (pattern : s.ids.pattern = .valid l) (first : l[0]? = some e) : identAired s = { s with
      kch := { s.kch with state := .onAir, stageStart := none, stageTimer := none, onAirStart := some (now s) }
      ids := { s.ids with
        record := .sending since trigger (.running s.clock 0 s.clock)
        tone := e == .dit || e == .dah } } := by
  cases l with
  | nil => simp at first
  | cons d l =>
    obtain rfl : d = e := by simpa using first
    simp only [identAired, sends, pattern]

theorem toneAt_of_element (pattern : s.ids.pattern = .valid l) (at_k : l[k]? = some e) :
    toneAt k s = (e == .dit || e == .dah) := by
  simp only [toneAt, patternElements_of_valid pattern, at_k]
  cases e <;> rfl

section
variable (sends : s.ids.record = .sending since trigger (.running start k began)) {moment : Nat}
include sends

theorem elementEnds_of_tone (sounds : s.ids.tone = true) : elementEnds moment s = s.setTone false := by
  simp only [elementEnds, sends, sounds, if_true]

theorem elementEnds_of_next (silent : s.ids.tone = false) (pattern : s.ids.pattern = .valid l) (next : l[k + 1]? = some e) :
    elementEnds moment s = { s with ids := { s.ids with
      record := .sending since trigger (.running start (k + 1) moment)
      tone := e == .dit || e == .dah } } := by
  have within : k + 1 < (patternElements s).length := by
    rw [patternElements_of_valid pattern]
    exact (List.getElem?_eq_some_iff.mp next).1
  simp only [elementEnds, sends, silent, Bool.false_eq_true, if_false, if_pos within, toneAt_of_element pattern next]
  rfl

theorem elementEnds_of_last (silent : s.ids.tone = false) (pattern : s.ids.pattern = .valid l) (last : l.length ≤ k + 1)
    (claims : s.kch.claimant = .ident) (air : s.kch.state = .onAir) (tx : s.lines.txc = true) (quiet : unblanksQuietly s) :
    elementEnds moment s = { keyedDown .patternEnd s with ids := { s.ids with
      record := .sending since trigger (.ended start) } } := by
  have beyond : ¬ k + 1 < (patternElements s).length := by
    rw [patternElements_of_valid pattern]
    exact Nat.not_lt.mpr last
  have still : s.setTone false = s := by rw [← silent]; rfl
  have ends : elementEnds moment s =
      requestKeyDown .patternEnd .ident (setRecord (.sending since trigger (.ended start)) s) := by
    simp only [elementEnds, patternEnds, sends, silent, Bool.false_eq_true, if_false, if_neg beyond, still]
  have down := keyedDown_eq .patternEnd (setRecord (.sending since trigger (.ended start)) s) air tx quiet
  have claims : (setRecord (.sending since trigger (.ended start)) s).kch.claimant = .ident := claims
  rw [claims] at down
  exact ends.trans down

end

/-! ## The end of the identification -/

/-- R117: the identification is SENT as its key-down completes. -/
def identSent (trigger : Trigger) (s : State) : State :=
  { writeJournal (.ident trigger .sent (patternTime s)) (chainRested s) with ids := { s.ids with record := .clear } }

theorem identSent_arisen (trigger : Trigger) (s : State) : (identSent trigger s).ilm.arisen = s.ilm.arisen := by
  simp [identSent, chainRested, restMonitor_arisen]

theorem idOwed_identSent (trigger : Trigger) (s : State) : idOwed (identSent trigger s) = false := rfl

theorem idDue_identSent (trigger : Trigger) (s : State) : idDue (identSent trigger s) = false := rfl

section
variable (sends : s.ids.record = .sending since trigger (.ended start)) (claims : s.kch.claimant = .ident)
  (rests : restsQuietly s) (cools : turnClosing s = true → coolsQuietly s)
include sends claims rests cools

theorem completeKeyDown_identSent : completeKeyDown s = turnAtRest (identSent trigger s) :=
  completeKeyDown_sent since start trigger s sends claims rests cools

theorem endTxDown_identSent (short : s.spc.barefoot = true ∨ s.kch.copy.ampHold = 0) :
    endTxDown s = turnAtRest (identSent trigger s) := by
  rcases endTxDown_completes s short with ends | ends
  · exact ends.trans (completeKeyDown_identSent sends claims rests cools)
  · exact ends.trans (completeKeyDown_identSent (s := beginStage .ampDown 0 s) sends claims rests cools)

end

theorem closingEnds_of_not_owed (c : ClosingTurn) (clear : idOwed s = false) :
    closingEnds c s = freedTo (closedRecord c s) s := by
  rw [closingEnds, if_neg (by simp [clear]), if_neg (by simp [clear]), missedThenFreed, if_neg (by simp [clear])]

theorem idleAgain_of_not_due (o : OpenTurn) (calm : idDue s = false) : idleAgain o s =
    { s with tar := { s.tar with turn := .opened { o with idleDeadline := some (now s + 10 * s.tar.copy.idleLimit) } } } :=
  if_neg fun claims => Bool.noConfusion (calm.symm.trans claims.1)

end

/-- R16, R117: what follows a command after which the identification of `t` is SENT, by the turn. -/
theorem exec_identSent {c : Instr} {trigger : Trigger} {s t : State} (tar : t.tar = s.tar) (clock : t.clock = s.clock)
    (sent : (turnClosing s = true → coolsQuietly s) → exec c s = .next (pumpNotice (turnAtRest (identSent trigger t)))) :
    (∀ o : ClosingTurn, s.tar.turn = .closing o → coolsQuietly s →
      exec c s = .next (pumpNotice (freedTo (closedRecord o s) (identSent trigger t)))) ∧
    (∀ o : OpenTurn, s.tar.turn = .opened o → exec c s = .next (pumpNotice { identSent trigger t with tar := { s.tar with
      turn := .opened { o with idleDeadline := some (now s + 10 * s.tar.copy.idleLimit) } } })) := by
  have kept : (identSent trigger t).tar = s.tar := by simp [identSent, chainRested, tar]
  have moment : now (identSent trigger t) = now s := by simp [identSent, chainRested, now, clock]
  refine ⟨fun o closing cools => ?_, fun o opened => ?_⟩
  · have record : closedRecord o (identSent trigger t) = closedRecord o s := by simp only [closedRecord, moment]
    rw [sent fun _ => cools, turnAtRest_of_closing (by rw [kept]; exact closing),
      closingEnds_of_not_owed o (idOwed_identSent trigger t), record]
  · rw [sent (by simp [turnClosing, opened]), turnAtRest_of_opened (by rw [kept]; exact opened),
      idleAgain_of_not_due o (idDue_identSent trigger t), kept, moment]

/-- Settles O50, by the pattern's first, next and last element and the end of the key-down. -/
theorem identificationIsSent : Obligations.IdentificationIsSent := by
  refine ⟨fun since start k began t trigger e l s running done claims pattern => ⟨?_, ?_⟩,
    fun since start trigger s sends claims rests => ?_⟩
  · intro a sends up started late _ low first
    have airs := (txcChanged_of_txUp (s := txcAt true s) up started late).trans
      ((onAir_of_ident (s := txcAt true s) claims).trans (identAired_of_pattern (s := txcAt true s) sends pattern first))
    exact exec_txc running low airs done
  · intro sends moment come
    have acts {u : State} (ends : elementEnds t s = u) (calm : u.ilm.arisen = s.ilm.arisen) :
        exec .idElementEnd s = .next (pumpNotice u) := by
      have at_t : (elementMoment s).getD 0 = t := congrArg (·.getD 0) moment
      have ends : elementEnds ((elementMoment s).getD 0) s = u := by rw [at_t, ends]
      have due : fallsDue .idElementEnd s := ⟨running, done, t, moment, come⟩
      rw [exec_due (f := elementEnds ((elementMoment s).getD 0)) due rfl (by rw [ends, calm]; exact done), ends]
    refine ⟨fun sounds => acts (elementEnds_of_tone sends sounds) rfl,
      fun silent next => acts (elementEnds_of_next sends silent pattern next) rfl, fun silent last air tx quiet => ?_⟩
    exact acts (elementEnds_of_last sends silent pattern last claims air tx quiet) (keyedDown_arisen .patternEnd s)
  · intro sent cleared completes
    have calm (x : Lines) : (turnAtRest (identSent trigger { s with lines := x })).ilm.arisen = s.ilm.arisen :=
      (turnAtRest_arisen _).trans (identSent_arisen trigger _)
    refine ⟨fun due => exec_identSent (t := s) rfl rfl fun cools => ?_,
      fun running done down high short => exec_identSent (t := txcAt false s) rfl rfl fun cools => ?_⟩
    · have ends := completeKeyDown_identSent sends claims rests cools
      rw [exec_due (f := completeKeyDown) due rfl (by rw [ends]; exact (calm s.lines).trans due.settled), ends]
    · exact exec_txc running high ((txcChanged_of_txDown (s := txcAt false s) down).trans
        (endTxDown_identSent (s := txcAt false s) sends claims rests cools short)) ((calm _).trans done)

end Sys2Proof.Machine
end

section
/-! SUPPORT. The end of a retune and the readbacks (R85, R92 to R100, R103, R113, R114, R129). -/

namespace Sys2Proof.Machine

/-! ## A retune waits and ends -/

section
variable {r : Requested} {s : State}

theorem senseConfirms_eq_true_iff (s : State) :
    senseConfirms s = true ↔ s.lines.antv = true ∧ s.lines.code = s.seu.selected := by
  simp [senseConfirms]

theorem requested_of_switching {limit : Nat} (switches : s.seu.retune = .switching r limit) :
    requested s = some (r, none) := by
  simp only [requested, switches]

theorem requested_of_awaiting {tag : Byte} {limit : Nat} (awaits : s.seu.retune = .awaiting r tag limit) :
    requested s = some (r, some tag) := by
  simp only [requested, awaits]

section
variable (result : RetuneResult) (r : Requested) (tag : Option Byte) (s : State)

theorem retuneEnded_arisen : (retuneEnded result r tag s).ilm.arisen = s.ilm.arisen := by simp [retuneEnded]

theorem coolsQuietly_retuneEnded (h : coolsQuietly s) : coolsQuietly (retuneEnded result r tag s) := by
  simpa [retuneEnded, coolsQuietly, movesQuietly, inputActive] using h

theorem keysUpQuietly_retuneEnded (h : keysUpQuietly s) : keysUpQuietly (retuneEnded result r tag s) := by
  obtain ⟨refl, ants, early⟩ := h
  refine ⟨by simpa [retuneEnded, inputActive] using refl, by simpa [retuneEnded, inputActive, senseConfirms] using ants,
    fun high => ?_⟩
  obtain ⟨line, cools⟩ := early (by simpa [retuneEnded] using high)
  exact ⟨by simpa [retuneEnded] using line, coolsQuietly_retuneEnded result r tag s cools⟩

end

/-- R95: a retune ends, and the claim that it held back is made. -/
theorem claimHeldBack_endRetune {result : RetuneResult} {tag : Option Byte} (asked : requested s = some (r, tag))
    (plain : claimIsTaken (retuneEnded result r tag s) → keysUpQuietly s) (cools : coolsQuietly s) :
    claimHeldBack (endRetune result s) = heldClaimMade (retuneEnded result r tag s) := by
  rw [endRetune_eq result r tag s asked]
  exact claimHeldBack_eq _ (fun taken => keysUpQuietly_retuneEnded result r tag s (plain taken))
    (coolsQuietly_retuneEnded result r tag s cools)

theorem heldClaimMade_retuneEnded_arisen (result : RetuneResult) (r : Requested) (tag : Option Byte) (s : State) :
    (heldClaimMade (retuneEnded result r tag s)).ilm.arisen = s.ilm.arisen :=
  (heldClaimMade_arisen _).trans (retuneEnded_arisen result r tag s)

end

/-- Settles O51, by the sense change and the two timers. -/
theorem retunesWaitAndEnd : Obligations.RetunesWaitAndEnd := by
  refine fun r s => ⟨fun v code running done changed => ?_, ?_⟩
  · intro t lost moved quiet
    have acts {u : State} (ends : antennaLinesChanged t = u) (calm : u.ilm.arisen = s.ilm.arisen) :
        exec (.antennaSenseChange v code) s = .next (pumpNotice u) := by
      subst ends
      refine exec_line (x := { s.lines with antv := v, code := code }) (f := antennaLinesChanged) running (fun same => ?_)
        rfl (calm.trans done)
      rcases changed with valid | named
      · exact valid (congrArg Lines.antv same).symm
      · exact named (congrArg Lines.code same).symm
    have calm : moved.ilm.arisen = s.ilm.arisen := inputMoved_arisen .ants lost s
    refine ⟨fun limit switches valid named => acts ?_ calm, fun waits => acts (antennaLinesChanged_moved t ?_ quiet) calm⟩
    · have confirms : senseConfirms t = true := (senseConfirms_eq_true_iff t).mpr ⟨valid, named⟩
      have kept : lost = false := by simp [lost, confirms]
      have line := antennaLinesChanged_confirms r limit t switches confirms (by rw [kept] at quiet; exact quiet)
      rw [line]
      simp only [moved, kept]
      rfl
    · rcases waits with steady | wrong
      · exact .inl steady
      · refine .inr (Bool.eq_false_iff.mpr fun confirms => ?_)
        obtain ⟨valid, named⟩ := (senseConfirms_eq_true_iff t).mp confirms
        rcases wrong with invalid | other
        · exact Bool.noConfusion (valid.symm.trans invalid)
        · exact other named
  · intro ends
    refine ⟨fun limit switches due plain cools => ?_, fun tag limit awaits due plain cools => ?_⟩
    · have passes : settlePasses s = _ := claimHeldBack_endRetune (requested_of_switching switches) plain cools
      rw [exec_due (f := settlePasses) due rfl (by
        rw [passes, heldClaimMade_retuneEnded_arisen]; exact due.settled), passes]
    · have passes : readbackTimesOut s = _ :=
        claimHeldBack_endRetune (s := staleSetting s) (requested_of_awaiting awaits) plain cools
      rw [exec_due (f := readbackTimesOut) due rfl (by
        rw [passes, heldClaimMade_retuneEnded_arisen]; exact due.settled), passes]
      rfl

/-! ## Readbacks -/

section
variable {tag mode : Byte} {f : Word} {p check : Half} {s : State}

theorem readbackArrives_of_bad (bad : check ≠ checkCode (rigBytes tag f mode p) ∨ modeOf mode = none ∨ 1500 < p.toNat) :
    readbackArrives tag f mode p check s = { s with seu := { s.seu with rx := .hunting } } := by
  by_cases coded : check = checkCode (rigBytes tag f mode p)
  · cases named : modeOf mode with
    | none =>
      simp only [readbackArrives, if_pos coded, named]
      rfl
    | some md =>
      have high : 1500 < p.toNat := by
        rcases bad with wrong | unknown | high
        · exact absurd coded wrong
        · rw [unknown] at named; cases named
        · exact high
      simp only [readbackArrives, if_pos coded, named, if_neg (Nat.not_le.mpr high)]
      rfl
  · exact if_neg coded

theorem readbackArrives_of_sound {md : Mode} (sound : check = checkCode (rigBytes tag f mode p) ∧ p.toNat ≤ 1500)
    (named : modeOf mode = some md) : readbackArrives tag f mode p check s =
      takeReadback tag ⟨f.toNat, md, p.toNat⟩ { s with seu := { s.seu with rx := .hunting } } := by
  simp only [readbackArrives, if_pos sound.1, named, if_pos sound.2]
  rfl

theorem takeReadback_of_awaited {x : Setting} {r : Requested} {limit : Nat} (awaits : s.seu.retune = .awaiting r tag limit) :
    takeReadback tag x s = claimHeldBack (endRetune (if readbackMatches r x then .done else .failedMismatch)
      (checkOnAir x (confirmSetting x s))) := by
  simp only [takeReadback, awaits, if_true]

theorem takeReadback_of_unsolicited {x : Setting} (other : ∀ r limit, s.seu.retune ≠ .awaiting r tag limit) :
    takeReadback tag x s = unsolicited x s := by
  unfold takeReadback
  split
  · rename_i r awaited limit awaits
    exact if_neg fun same : tag = awaited => other r limit (same ▸ awaits)
  · rfl

theorem readbackMatches_eq_true_iff (r : Requested) (x : Setting) : readbackMatches r x = true ↔
    r.setting.frequency ≤ x.frequency + 10 ∧ x.frequency ≤ r.setting.frequency + 10 ∧ x.mode = r.setting.mode ∧
      x.power ≤ r.setting.power := by
  simp [readbackMatches, and_assoc]

theorem checkOnAir_of_off (x : Setting) (off : holderOnAir s = false) : checkOnAir x s = s := by
  simp [checkOnAir, off]

theorem privileged_eq_false {m : Nat} {x : Setting} {a : BitVec 2} {reason : Reason}
    (denied : privilege m x a s = .error reason) : privileged m x a s = false := by
  simp only [privileged, denied]

theorem privileged_eq_true {m : Nat} {x : Setting} {a : BitVec 2} {ceiling : Nat}
    (allowed : privilege m x a s = .ok ceiling) : privileged m x a s = true := by
  simp only [privileged, allowed]

/-- R99: the check of a holder on the air. -/
theorem checkOnAir_of_onTheAir {o : OpenTurn} (x : Setting) (air : onTheAir o s) : checkOnAir x s =
    if privileged o.holder x s.seu.selected s then s else keyedDown .outOfPrivilege s := by
  have named : holder s = some o.holder := by simp [holder, air.2.2.1]
  simp only [checkOnAir, air.holderOnAir, named, air.keysDown, if_true]

/-- R98: what an unsolicited readback does, from what the check of the holder on the air leaves. -/
theorem unsolicited_eq {x : Setting} {t : State} (checked : checkOnAir x (confirmSetting x s) = t) :
    unsolicited x s = if s.seu.confirmed = ⟨some x, true⟩ then t else raise .setting t := by
  simp only [unsolicited, checked, beq_iff_eq]

end

/-- Settles O52: a discarded readback, an awaited one, and an unsolicited one off and on the air. -/
theorem readbacksAreTaken : Obligations.ReadbacksAreTaken := by
  intro tag mode f p check s running done run sound discarded
  have acts {t : State} (arrives : readbackArrives tag f mode p check s = t) (calm : t.ilm.arisen = s.ilm.arisen) : run t := by
    have ends := event_now (readbackArrives tag f mode p check) s running (by rw [arrives, calm]; exact done)
    rw [arrives] at ends
    exact congrArg _ ends
  refine ⟨fun bad => acts (readbackArrives_of_bad bad) rfl, fun md right named => ?_⟩
  intro x taken
  have arrives := readbackArrives_of_sound (s := s) right named
  have checked (off : holderOnAir s = false) : checkOnAir x taken = taken := checkOnAir_of_off x off
  refine ⟨fun r limit awaits off => ?_, fun other off => ?_, fun o air other => ?_⟩
  · intro matched ends
    have result (res : RetuneResult) (is : (if readbackMatches r x then .done else .failedMismatch) = res) :
        ends (retuneEnded res r (some tag) taken) := fun plain cools => by
      refine acts (arrives.trans ?_) (heldClaimMade_retuneEnded_arisen _ _ _ _)
      refine (takeReadback_of_awaited (s := discarded) awaits).trans ?_
      rw [is, show checkOnAir x (confirmSetting x discarded) = taken from checked off]
      exact claimHeldBack_endRetune (s := taken) (requested_of_awaiting awaits) plain cools
    refine ⟨fun same => result .done (if_pos ((readbackMatches_eq_true_iff r x).mpr same)),
      fun differs => result .failedMismatch (if_neg fun same => differs ((readbackMatches_eq_true_iff r x).mp same))⟩
  · have arrives := arrives.trans ((takeReadback_of_unsolicited (s := discarded) other).trans
      (unsolicited_eq (s := discarded) (checked off)))
    exact ⟨fun same => acts (arrives.trans (if_pos same)) rfl,
      fun new => acts (arrives.trans (if_neg new)) (by simp [taken])⟩
  · intro told
    have unsolicited {t : State} (checked : checkOnAir x taken = t) (calm : t.ilm.arisen = s.ilm.arisen) : run (told t) := by
      refine acts (arrives.trans ((takeReadback_of_unsolicited (s := discarded) other).trans
        (unsolicited_eq (s := discarded) checked))) ?_
      simp only [told]
      split
      · exact calm
      · simpa using calm
    have onAir : checkOnAir x taken = _ := checkOnAir_of_onTheAir x air
    refine ⟨fun reason denied => unsolicited (onAir.trans (if_neg ?_)) (keyedDown_arisen _ taken),
      fun ceiling allowed => unsolicited (onAir.trans (if_pos ?_)) rfl⟩
    · rw [Bool.not_eq_true]
      exact privileged_eq_false denied
    · exact privileged_eq_true allowed

end Sys2Proof.Machine
end

section
/-! SUPPORT. The rig port and the interlocks (R102, R104, R124, R125, R130 to R138, R152). -/

namespace Sys2Proof.Machine

/-! ## The rig port -/

section
variable {s : State} {received : List Byte}

theorem rigBreak_of_quiet (hunts : s.seu.rx = .hunting) (none_begins : ∀ b ∈ received, b ≠ 0x69) :
    rigBreak received s = { s with seu := { s.seu with rx := .hunting } } := by
  rw [rigBreak, rigBytes_hunting received s hunts none_begins]
  rfl

theorem rigBreak_of_assembling {got : List Byte} (assembles : s.seu.rx = .assembling got)
    (short : got.length + received.length < 10) :
    rigBreak received s = { s with seu := { s.seu with rx := .hunting } } := by
  rw [rigBreak, rigBytes_assembling received s got assembles short]
  rfl

theorem rigByte_begins (hunts : s.seu.rx = .hunting) :
    rigByte s 0x69 = { s with seu := { s.seu with rx := .assembling [] } } := by
  simp only [rigByte, hunts, if_true]
  rfl

theorem rigBreak_of_begun {before part : List Byte} (hunts : s.seu.rx = .hunting) (none_begins : ∀ b ∈ before, b ≠ 0x69)
    (short : part.length < 10) :
    rigBreak (before ++ 0x69 :: part) s = { s with seu := { s.seu with rx := .hunting } } := by
  have joins := rigBytes_assembling part { s with seu := { s.seu with rx := .assembling [] } } [] rfl (by simpa using short)
  rw [rigBreak, List.foldl_append, rigBytes_hunting before s hunts none_begins, List.foldl_cons, rigByte_begins hunts, joins]
  rfl

end

/-- Settles O53, by what the receiver held and received; the sender has a frame to end or none. -/
theorem rigPortReceivesAndSends : Obligations.RigPortReceivesAndSends := by
  refine fun s running done => ⟨fun received parts => ?_, fun g sends => ?_, fun silent => ?_⟩
  · have hunts : rigBreak received s = { s with seu := { s.seu with rx := .hunting } } := by
      rcases parts with ⟨hunts, quiet⟩ | ⟨hunts, before, part, rfl, quiet, short⟩ | ⟨got, assembles, short⟩
      · exact rigBreak_of_quiet hunts quiet
      · exact rigBreak_of_begun hunts quiet short
      · exact rigBreak_of_assembling assembles short
    have ends := event_now (rigBreak received) s running (by rw [hunts]; exact done)
    rw [hunts] at ends
    exact ⟨congrArg _ ends, congrArg _ ends⟩
  · have next : settingSent s = { s with seu := { s.seu with tx := { sending := s.seu.tx.waiting, waiting := none } } } := by
      simp only [settingSent, sends]
      rfl
    have ends := event_now settingSent s running (by rw [next]; exact done)
    rw [next] at ends
    exact congrArg _ ends
  · have stays : settingSent s = s := by simp only [settingSent, silent]
    have ends := event_now settingSent s running (by rw [stays]; exact done)
    rw [stays] at ends
    exact congrArg _ ends

/-! ## The expiry of a filter timer -/

/-- R125: an input's filter in a state. -/
def filterTurned (i : Input) (f : Filter) (s : State) : State :=
  { s with ilm := { s.ilm with filters := s.ilm.filters.set i f } }

theorem filterTurned_get_other {i j : Input} (other : j ≠ i) (f : Filter) (s : State) :
    (filterTurned i f s).ilm.filters.get j = s.ilm.filters.get j := by
  cases i <;> cases j <;> simp_all [filterTurned, PerInput.get, PerInput.set]

theorem inputActive_filterTurned_other {i j : Input} (other : j ≠ i) (f : Filter) (s : State) :
    inputActive j (filterTurned i f s) = inputActive j s := by
  simp only [inputActive, filterTurned_get_other other]

section
variable {i : Input} {k : Nat} {s t : State}

/-- R125: what the timer of a filter heading QUIET brings about. -/
theorem exec_filterQuiet (due : fallsDue (.filterTimerExpiry i) s) (heading : s.ilm.filters.get i = .headingQuiet k)
    (acts : inputBecame i false (filterTurned i .quiet s) = t) (done : t.ilm.arisen = s.ilm.arisen) :
    exec (.filterTimerExpiry i) s = .next (pumpNotice t) := by
  obtain ⟨running, calm, moment, at_moment, come⟩ := due
  exact congrArg _ (filterExpiry_now i false s t _ moment running calm at_moment come
    (by simp only [filterExpires, heading]) acts (done.trans calm))

/-- R125: what the timer of a filter heading ACTIVE brings about. -/
theorem exec_filterActive (due : fallsDue (.filterTimerExpiry i) s) (heading : s.ilm.filters.get i = .headingActive k)
    (acts : inputBecame i true (filterTurned i .active s) = t) (done : t.ilm.arisen = s.ilm.arisen) :
    exec (.filterTimerExpiry i) s = .next (pumpNotice t) := by
  obtain ⟨running, calm, moment, at_moment, come⟩ := due
  exact congrArg _ (filterExpiry_now i true s t _ moment running calm at_moment come
    (by simp only [filterExpires, heading]) acts (done.trans calm))

theorem inputBecame_quiet (other : i ≠ .localKey) : inputBecame i false s = s := by
  cases i
  case localKey => exact absurd rfl other
  all_goals rfl

theorem inputBecame_active (other : i ≠ .localKey) :
    inputBecame i true s = if tripOption i s then trip i s else report i s := by
  cases i
  case localKey => exact absurd rfl other
  all_goals rfl

theorem inputBecame_reports (other : i ≠ .localKey) (reports : tripOption i s = false) :
    inputBecame i true s = report i s :=
  (inputBecame_active other).trans (if_neg (Bool.eq_false_iff.mp reports))

theorem inputBecame_trips (other : i ≠ .localKey) (trips : tripOption i s = true) :
    inputBecame i true s = trip i s := (inputBecame_active other).trans (if_pos trips)

/-- R130: with neither option REPORT in the way, an input other than LOCAL trips. -/
theorem tripOption_of_trip (other : i ≠ .localKey) (refl : i = .refl → s.ilm.copy.reflReport = false)
    (ampf : i = .ampf → s.ilm.copy.ampfReport = false) : tripOption i s = true := by
  cases i <;> simp_all [tripOption]

end

/-- Settles O54: a line that changes moves its filter, and an expiry turns the input and brings what follows from that. -/
theorem filtersFollowTheLines : Obligations.FiltersFollowTheLines := by
  refine fun s running done => ⟨fun line active new long => ?_, fun i k due => ?_⟩
  · intro t i limit becomes
    have moves : senseInput i t = _ := senseInput_moved i t (.inl long)
    have acts : exec (.interlockInputChange line active) s = .next (pumpNotice (senseInput i t)) :=
      exec_line (by cases line <;> exact running) new rfl ((congrArg (·.ilm.arisen) moves).trans done)
    rw [moves] at acts
    exact acts
  · intro turned
    refine ⟨fun heading => ⟨fun other => ?_, fun isLocal calm => ?_⟩, fun heading => ⟨fun reports => ?_, fun isLocal rests cools => ?_⟩⟩
    · exact exec_filterQuiet due heading (inputBecame_quiet other) rfl
    · subst isLocal
      refine exec_filterQuiet due heading ?_ (by simp [turned])
      exact congrArg runSelection (claimInterval_of_not_due calm)
    · have other : i ≠ .localKey := by rcases reports with ⟨rfl, _⟩ | ⟨rfl, _⟩ <;> decide
      have option : tripOption i (turned .active) = false := by
        rcases reports with ⟨rfl, on⟩ | ⟨rfl, on⟩ <;> simp [tripOption, turned, on]
      exact exec_filterActive due heading (inputBecame_reports other option) (by simp [turned])
    · subst isLocal
      refine exec_filterActive due heading ?_ (releasedBy_arisen _ _ _)
      exact released_eq .localControl .localControl (turned .active) rests cools

/-! ## Trips -/

theorem anyLatched_of_latched {i : Input} {s : State} (latched : s.ilm.latched.get i = true) : anyLatched s = true :=
  (anyLatched_eq_true_iff s).mpr ⟨i, latched⟩

theorem selectionHeld_of_latched {s : State} (latched : anyLatched s = true) : selectionHeld s = true := by
  simp [selectionHeld, latched]

/-- R6, R17: a turn that becomes FREE with a trip latched stays so. -/
theorem freedTo_of_latched (r : JournalBody) {s : State} (latched : anyLatched s = true) : (freedTo r s).tar.turn = .free := by
  unfold freedTo
  split
  · rw [coolingEntered_tar, turnFreed_turn]
  · have latched : anyLatched (turnFreed r s) = true := by simpa [anyLatched, turnFreed] using latched
    rw [runSelection_noop _ (.inr (selectionHeld_of_latched latched)), turnFreed_turn]

theorem missedThenFreed_of_latched (r : JournalBody) {s : State} (latched : anyLatched s = true) :
    (missedThenFreed r s).tar.turn = .free := by
  unfold missedThenFreed
  split
  · exact freedTo_of_latched r (by simpa [anyLatched, identMissed_ilm] using latched)
  · exact freedTo_of_latched r latched

theorem turnReleased_of_latched (cause : EndCause) {s : State} (latched : anyLatched s = true) :
    (turnReleased cause s).tar.turn = .free := by
  cases turn : s.tar.turn with
  | free => simp only [turnReleased, turn]
  | offered o => simp only [turnReleased, turn, freedTo_of_latched _ latched]
  | opened o => simp only [turnReleased, turn, missedThenFreed_of_latched _ latched]
  | closing c => simp only [turnReleased, turn, missedThenFreed_of_latched _ latched]

theorem releasedBy_of_latched (cause : KeyDownCause) (ends : EndCause) {s : State} (latched : anyLatched s = true) :
    (releasedBy cause ends s).tar.turn = .free := by
  unfold releasedBy
  refine turnReleased_of_latched ends ?_
  split
  · exact latched
  · simp only [anyLatched, sendAbandoned_ilm]
    have kept : (restMonitor s).latched = s.ilm.latched := unblanked_latched s
    rw [kept]
    exact latched

/-- R130, R131: an input of a state is latched, with the TRIP record and the cause TRIP. -/
def tripLatched (i : Input) (s : State) : State :=
  raise .trip (writeJournal (.trip i s.kch.state (if s.kch.claimant = .holder then holder s else none))
    { s with ilm := { s.ilm with latched := s.ilm.latched.set i true } })

theorem tripLatched_ilm (i : Input) (s : State) :
    (tripLatched i s).ilm = { s.ilm with latched := s.ilm.latched.set i true } := by simp [tripLatched]

theorem anyLatched_tripLatched (i : Input) (s : State) : anyLatched (tripLatched i s) = true := by
  refine anyLatched_of_latched (i := i) ?_
  rw [tripLatched_ilm]
  cases i <;> rfl

/-- R131, R152: an input that trips. -/
theorem trip_eq {i : Input} {s : State} (rests : chainAtRest (tripLatched i s) = true ∨ restsQuietly (tripLatched i s))
    (cools : coolsQuietly (tripLatched i s)) : trip i s =
      if i = .supok ∧ (releasedBy .trip .trip (tripLatched i s)).spc.power.state ≠ .off then
        enterOff none (releasedBy .trip .trip (tripLatched i s))
      else releasedBy .trip .trip (tripLatched i s) := by
  have released := released_eq .trip .trip (tripLatched i s) rests cools
  have latched : raise .trip (writeJournal (.trip i s.kch.state (chainMember s))
      (s.setIlm { s.ilm with latched := s.ilm.latched.set i true })) = tripLatched i s := by
    simp only [tripLatched, chainMember, beq_iff_eq]
    rfl
  simp only [trip, latched, released, Bool.and_eq_true, beq_iff_eq, bne_iff_ne]

/-- Settles O55: the input is latched and the transmission released, so that the turn is FREE; SUPOK goes on to OFF. -/
theorem tripsBringTheStationDown : Obligations.TripsBringTheStationDown := by
  intro i k s due heading other refl ampf quiet tripped released cools
  have trips : tripOption i (filterTurned i .active s) = true := tripOption_of_trip other refl ampf
  have rests : chainAtRest tripped = true ∨ restsQuietly tripped := by
    refine quiet.imp (fun rest => by simpa [tripped, chainAtRest] using rest) fun ⟨blanks, ants⟩ => ⟨?_, ?_⟩
    · rcases blanks with blanks | long
      · exact .inl (by simpa [tripped] using blanks)
      · exact .inr (.inl (by simpa [tripped] using long))
    · rcases ants with long | ⟨another, calm⟩
      · exact .inl (by simpa [tripped] using long)
      · refine .inr ?_
        have same := (inputActive_filterTurned_other (Ne.symm another) .active s).trans calm
        simpa [tripped, inputActive, filterTurned] using same
  have acts : inputBecame i true (filterTurned i .active s) = _ :=
    (inputBecame_trips other trips).trans (trip_eq (s := filterTurned i .active s) rests cools)
  have calm : released.ilm.arisen = s.ilm.arisen := (releasedBy_arisen .trip .trip tripped).trans (by simp [tripped])
  refine ⟨releasedBy_of_latched .trip .trip (anyLatched_tripLatched i (filterTurned i .active s)), fun another => ?_,
    fun isSupok long => ?_⟩
  · exact exec_filterActive due heading (acts.trans (if_neg fun h => another h.1)) calm
  · by_cases off : released.spc.power.state = .off
    · rw [if_pos off]
      exact exec_filterActive due heading (acts.trans (if_neg fun h => h.2 off)) calm
    · rw [if_neg off]
      have copy : released.ilm.copy = s.ilm.copy := (releasedBy_copy .trip .trip tripped).trans (by simp [tripped])
      have enters : enterOff none released = offEntered none released := enterOff_eq none released (.inl (by rw [copy]; exact long))
      exact exec_filterActive due heading (acts.trans ((if_pos ⟨isSupok, off⟩).trans enters))
        ((offEntered_arisen none released).trans calm)

end Sys2Proof.Machine
end

section
/-! SUPPORT. Station power (R120, R125, R128, R147 to R151). -/

namespace Sys2Proof.Machine

section
variable {s t : State}

/-- What a change of SUPOK does outside reset. -/
theorem exec_supok {v : Bool} {u : State} (running : inReset s = false) (old : s.lines.supok = !v)
    (changed : t = { s with lines := { s.lines with supok := v } }) (acts : supokChanged v t = u)
    (done : u.ilm.arisen = []) : exec (.supokChange v) s = .next (pumpNotice u) := by
  subst changed acts
  refine exec_line (x := { s.lines with supok := v }) (f := supokChanged v) running (fun same => ?_) rfl done
  have same : v = s.lines.supok := congrArg Lines.supok same
  rw [old] at same
  cases v <;> cases same

theorem supokChanged_of_other (other : ∀ k, s.spc.power ≠ .supplyWait k) : supokChanged true s = senseInput .supok s := by
  cases power : s.spc.power
  case supplyWait k => exact absurd power (other k)
  all_goals simp only [supokChanged, power]

theorem supokChanged_of_inactive : supokChanged false s = senseInput .supok s := by
  cases power : s.spc.power <;> simp only [supokChanged, power]

/-- R125, R128: SUPOK filtered by a condition that its line and the power state give. -/
theorem senseSupok_eq {b : Bool} (condition : faultCondition .supok s = b) (quiet : movesQuietly .supok b s) :
    senseInput .supok s = { s with ilm := inputMoved .supok b s } := by
  subst condition
  exact senseInput_inputMoved .supok s quiet

theorem turn_free_of_not_ready (needs : turnsNeedPower s) {p : Power} (power : s.spc.power = p) (other : p ≠ .ready) :
    s.tar.turn = .free := needs (power ▸ other)

end

/-- Settles O56, by SUPOK's line and the three timers of the power state. -/
theorem powerAdvances : Obligations.PowerAdvances := by
  intro s running done failed
  refine ⟨?_, fun high quiet => ?_,
    fun quiet => ⟨fun k waits due => ?_, fun k warms needs due => ?_, fun k b cools due => ?_⟩⟩
  · intro low quiet t
    refine ⟨fun k waits needs => ?_, fun other => ?_⟩
    · exact exec_supok running low rfl
        (supokChanged_confirms k t waits (turn_free_of_not_ready needs waits (by simp)) rfl quiet)
        ((supplyConfirmed_supok t).2.1.trans done)
    · exact exec_supok running low rfl ((supokChanged_of_other (s := t) other).trans (senseSupok_eq (s := t) rfl quiet)) done
  · exact exec_supok running high rfl (supokChanged_of_inactive.trans
      (senseSupok_eq (s := { s with lines := { s.lines with supok := false } }) rfl quiet)) done
  · have fails : supplyFails s = offEntered (some failed) (checkRecorded failed s) :=
      enterOff_eq (some failed) (checkRecorded failed s) quiet
    have calm := (offEntered_arisen (some failed) (checkRecorded failed s)).trans done
    rw [exec_due (f := supplyFails) due rfl (by rw [fails]; exact calm), fails]
  · have checks := makeSelfCheck_eq s (turn_free_of_not_ready needs warms (by simp)) quiet
    rw [exec_due (f := makeSelfCheck) due rfl (by rw [checks, selfChecked_arisen]; exact done), checks]
  · have enters := enterOff_eq none s quiet
    rw [exec_due (f := enterOff none) due rfl (by rw [enters, offEntered_arisen]; exact done), enters]

end Sys2Proof.Machine
end

section
/-! SUPPORT. The outputs at the pins, and the resets (R59, R88, R104, R143, R159, R170, R184, R189 to R191). -/

namespace Sys2Proof.Machine

/-! ## The outputs -/

section
variable {s : State}

theorem outputs_of_reset (reset : inReset s = true) : outputs s = outputsReleased := if_pos reset

theorem pttOf_eq_true_iff (c : ChainState) : pttOf c = true ↔ c = .txUp ∨ c = .onAir := by cases c <;> decide

theorem ampkeyOf_eq_true_iff (c : ChainState) : ampkeyOf c = true ↔ c ≠ .idle ∧ c ≠ .faulted := by cases c <;> decide

theorem selectedLow_eq_true_iff (a : BitVec 2) : a.getLsbD 0 = true ↔ a = 1 ∨ a = 3 := by
  revert a
  decide

theorem selectedHigh_eq_true_iff (a : BitVec 2) : a.getLsbD 1 = true ↔ a = 2 ∨ a = 3 := by
  revert a
  decide

end

/-! ## The pins (R143) -/

theorem drainOf_iff (b : Bool) : (drainOf b = .sinks ↔ b = true) ∧ (drainOf b = .leftOpen ↔ b = false) := by
  cases b <;> decide

theorem serialOf_nil : serialOf [] = .idle .high := rfl

theorem serialOf_of_ne_nil {l : List Byte} (some_bytes : l ≠ []) : serialOf l = .carries l :=
  if_neg (by simpa using some_bytes)

theorem reads_low_iff (pin : Option Level) : (reads pin == .low) = true ↔ pin = some .low := by
  rcases pin with _ | _ | _ <;> decide

theorem reads_high_iff (pin : Option Level) : (reads pin == .high) = false ↔ pin = some .low := by
  rcases pin with _ | _ | _ <;> decide

theorem codeOf_low (a b : Bool) : (BitVec.ofNat 2 (bitOf 0 a + bitOf 1 b)).getLsbD 0 = a := by
  cases a <;> cases b <;> rfl

theorem codeOf_high (a b : Bool) : (BitVec.ofNat 2 (bitOf 0 a + bitOf 1 b)).getLsbD 1 = b := by
  cases a <;> cases b <;> rfl

theorem serialSensed_iff (pin : Option SerialPin) :
    (pin = none ∨ pin = some (.idle .high) → serialSensed pin = .idle) ∧
      (pin = some (.idle .low) → serialSensed pin = .heldLow) ∧
      (∀ l : List Byte, pin = some (.carries l) → serialSensed pin = if l = [] then .idle else .hears l) := by
  refine ⟨?_, ?_, ?_⟩
  · rintro (rfl | rfl) <;> rfl
  · rintro rfl
    rfl
  · rintro l rfl
    simp [serialSensed]

/-- Settles O57: the outputs in reset and out of it, and the pins one by one. -/
theorem outputsFollowTheBlocks : Obligations.OutputsFollowTheBlocks := by
  refine ⟨fun s => ⟨fun reset => ?_, fun running => ?_⟩, fun o => ?_, fun p => ?_⟩
  · rw [outputs_of_reset reset]
    exact ⟨rfl, rfl⟩
  · have outs : outputs s = _ := if_neg (Bool.eq_false_iff.mp running)
    rw [outs]
    refine ⟨pttOf_eq_true_iff _, ?_, bne_iff_ne, selectedLow_eq_true_iff _, selectedHigh_eq_true_iff _, rfl,
      fun idle => ?_, fun r replies => ?_, fun n notifies => ?_, fun silent => ?_, fun g sends => ?_⟩
    · simp only [Bool.and_eq_true, Bool.not_eq_true', ampkeyOf_eq_true_iff]
    · simp only [idle, transmittedBytes]
    · simp only [replies, transmittedBytes]
      rfl
    · simp only [notifies, transmittedBytes]
      rfl
    · simp only [rigTransmittedBytes, silent]
    · simp only [rigTransmittedBytes, sends]
  · intro sinks carries
    have drains (b : Bool) : sinks (drainOf b) b := drainOf_iff b
    have lines (l : List Byte) : carries (serialOf l) l := ⟨fun empty => empty ▸ serialOf_nil, serialOf_of_ne_nil⟩
    refine ⟨drains _, drains _, drains _, drains _, drains _, ?_, ?_, lines _, lines _⟩
    · simp [outputPins]
    · simp [outputPins]
  · intro x hears
    have low (pin : Option Level) := reads_low_iff pin
    refine ⟨low _, low _, low _, low _, low _, low _, low _, low _, reads_high_iff _, ?_, ?_, serialSensed_iff _,
      serialSensed_iff _⟩
    · exact (iff_of_eq (congrArg (· = true) (codeOf_low _ _))).trans (low _)
    · exact (iff_of_eq (congrArg (· = true) (codeOf_high _ _))).trans (low _)

/-! ## A reset takes hold -/

theorem cutWrite_eq (s : State) : cutWrite s = { s with cst := (cutWrite s).cst } := by
  cases writing : s.cst.writing with
  | none => simp only [cutWrite, writing]
  | some w =>
    simp only [cutWrite, writing]
    rfl

theorem cutWrite_of_idle {s : State} (idle : s.cst.writing = none) : cutWrite s = s := by simp only [cutWrite, idle]

theorem cutWrite_of_writing {s : State} {w : WriteInFlight} (writing : s.cst.writing = some w) :
    cutWrite s = { s with cst := { s.cst with records := spoilRecord w.write s.cst.records, writing := none } } := by
  simp only [cutWrite, writing]
  rfl

/-- R189: the kind of the span that a reset begins or joins. -/
def spanJoined (kind : ResetKind) (span : Option ResetKind) : ResetKind := span.elim kind (spanKind · kind)

/-- R170, R184, R189: what every reset that takes hold does. -/
theorem takeHold_eq (kind : ResetKind) (s : State) : takeHold kind s = { cutWrite s with
    cst := { (cutWrite s).cst with softReset := false }
    lp := { s.lp with tx := .idle }
    seu := { s.seu with tx := ⟨none, none⟩ }
    span := some (spanJoined kind s.span) } := by
  have span : (cutWrite s).span = s.span := by rw [cutWrite_eq]
  unfold takeHold silence
  dsimp only
  rw [cutWrite_eq s]
  cases s.span with
  | none => rfl
  | some k => rfl

theorem spanJoined_powerOn (span : Option ResetKind) : spanJoined .powerOn span = .powerOn := by
  rcases span with _ | k
  · rfl
  · cases k <;> rfl

theorem spanJoined_pin (span : Option ResetKind) :
    spanJoined .pin span = if span = some .powerOn then .powerOn else .pin := by
  rcases span with _ | k
  · rfl
  · cases k <;> rfl

theorem spanJoined_clock (span : Option ResetKind) : spanJoined .clock span =
    if span = some .powerOn then .powerOn else if span = some .pin then .pin else .clock := by
  rcases span with _ | k
  · rfl
  · cases k <;> rfl

/-! ## A record spoilt -/

section
variable {α : Type} (bytes : α → List Byte)

theorem storedSound_spoilt (r : Stored α) : storedSound bytes (storedSpoilt bytes r) = false := by
  refine beq_false_of_ne fun same => ?_
  have bit : (recordCheck (bytes r.contents)).getLsbD 0 = (~~~recordCheck (bytes r.contents)).getLsbD 0 :=
    congrArg (·.getLsbD 0) same
  simp at bit

variable {n : Nat} (v : Vector (Stored α) n) {i : Nat}

theorem spoilAt_of_lt (small : i < n) : spoilAt bytes v i = v.setIfInBounds i (storedSpoilt bytes v[i]) := by
  simp [spoilAt, small]

theorem spoilAt_other {k : Nat} (small : k < n) (other : k ≠ i) : (spoilAt bytes v i)[k] = v[k] := by
  by_cases inside : i < n
  · simp only [spoilAt_of_lt bytes v inside]
    exact Vector.getElem_setIfInBounds_ne small other.symm
  · simp [spoilAt, inside]

theorem spoilAt_self (small : i < n) : storedSound bytes (spoilAt bytes v i)[i] = false := by
  simp only [spoilAt_of_lt bytes v small, Vector.getElem_setIfInBounds_self]
  exact storedSound_spoilt bytes v[i]

end

theorem event_of_reset {s : State} (f : State → State) (reset : inReset s = true) : event f s = s := if_pos reset

/-- Settles O58: the three resets, what they leave of a write in flight, and the requests they leave unheard. -/
theorem resetsTakeHold : Obligations.ResetsTakeHold := by
  intro s u held
  have released {t : State} (reset : inReset t = true) : outputs t = ⟨false, false, false, false, false, false, [], []⟩ :=
    outputs_of_reset reset
  refine ⟨⟨?_, released ?_⟩, ⟨?_, released ?_⟩, ⟨?_, released ?_⟩, cutWrite_of_idle, fun w writing => ?_,
    fun c carried reset => ?_⟩
  · refine congrArg Host.Outcome.next ?_
    rw [applyPower, takeHold_eq, spanJoined_powerOn]
    rfl
  · simp [inReset]
  · refine congrArg Host.Outcome.next ?_
    rw [pullReset, takeHold_eq, spanJoined_pin]
    have lines : (cutWrite s).lines = s.lines := by rw [cutWrite_eq]
    simp only [lines]
    rfl
  · simp [inReset]
  · refine congrArg Host.Outcome.next ?_
    rw [failClock, takeHold_eq, spanJoined_clock]
    rfl
  · simp [inReset]
  · intro cut
    have cuts {x : StoreWrite} (is : w.write = x) : cut (spoilRecord x s.cst.records) := by
      subst is
      exact cutWrite_of_writing writing
    refine ⟨fun m x is => ⟨_, cuts is, fun k h other => spoilAt_other _ _ h other, fun h => spoilAt_self _ _ h⟩,
      fun i l is => ⟨_, cuts is, fun k h other => spoilAt_other _ _ h other, fun h => spoilAt_self _ _ h⟩,
      fun i x is => ⟨_, cuts is, fun k h other => spoilAt_other _ _ h other, fun h => spoilAt_self _ _ h⟩,
      fun l is => ⟨_, cuts is, storedSound_spoilt _ _⟩, fun p is => ?_⟩
    rcases is with is | is
    · exact ⟨_, cuts is, storedSound_spoilt _ _⟩
    · exact ⟨_, cuts is, storedSound_spoilt _ _⟩
  · obtain ⟨⟨tag, m, r⟩, row⟩ := Option.isSome_iff_exists.mp carried
    rw [exec_carries c tag m r s row, arrive, event_of_reset _ reset]

/-! ## A reset ends -/

section
variable {kind : ResetKind} {s : State} (spans : s.span = some kind)
include spans

theorem leaveHold_of_reset (reset : inReset s = true) : leaveHold s = s := by
  simp only [leaveHold, spans, reset, if_true]

theorem leaveHold_of_running (running : inReset s = false) : leaveHold s = resetEnds kind s := by
  simp only [leaveHold, spans, running, Bool.false_eq_true, if_false]

end

theorem filterTimesPositive_of_cst {s t : State} (h : filterTimesPositive s) (cst : t.cst = s.cst) : filterTimesPositive t := by
  have same : (cutWrite t).cst.records = (cutWrite s).cst.records := by
    cases writing : s.cst.writing with
    | none => rw [cutWrite_of_idle writing, cutWrite_of_idle (cst ▸ writing), cst]
    | some w => rw [cutWrite_of_writing writing, cutWrite_of_writing (cst ▸ writing), cst]
  unfold filterTimesPositive
  rw [same]
  exact h

/-- Settles O59, by whether another cause of the reset still stands. -/
theorem resetsEnd : Obligations.ResetsEnd := by
  intro kind s spans long ends
  have leaves {c : Instr} (t : State) (row : exec c s = .next (leaveHold t)) (span : t.span = s.span) (cst : t.cst = s.cst) :
      ends c t := by
    have spans : t.span = some kind := span.trans spans
    refine ⟨fun reset => ?_, fun running => ?_⟩
    · rw [row, leaveHold_of_reset spans reset]
    · rw [row, leaveHold_of_running spans running, resetEnds_eq kind t (filterTimesPositive_of_cst long cst)]
  exact ⟨leaves _ rfl rfl rfl, leaves _ rfl rfl rfl, leaves _ rfl rfl rfl⟩

/-! ## The blocks after a reset -/

section
variable (kind : ResetKind) (s : State)

theorem resetBlocks_tar : (resetBlocks kind s).tar = arbiterAfterReset (loadedParams s.cst.records) := rfl
theorem resetBlocks_mrg :
    (resetBlocks kind s).mrg = registerAfterReset s.cst.records (loadedParams s.cst.records) := rfl
theorem resetBlocks_kch : (resetBlocks kind s).kch = chainAfterReset (loadedParams s.cst.records) := rfl
theorem resetBlocks_seu :
    (resetBlocks kind s).seu = settingAfterReset s.cst.records (loadedParams s.cst.records) := rfl
theorem resetBlocks_ids :
    (resetBlocks kind s).ids = senderAfterReset s.cst.records (loadedParams s.cst.records) := rfl
theorem resetBlocks_ilm : (resetBlocks kind s).ilm = monitorAfterReset (loadedParams s.cst.records) := rfl
theorem resetBlocks_spc : (resetBlocks kind s).spc = powerAfterReset (loadedParams s.cst.records) := rfl
theorem resetBlocks_lp : (resetBlocks kind s).lp = linkAfterReset (loadedParams s.cst.records) := rfl
theorem resetBlocks_cst : (resetBlocks kind s).cst = storeAfterReset kind s.cst.records := rfl

theorem startsAfresh_eq_true_iff : startsAfresh kind = true ↔ kind = .powerOn ∨ kind = .pin := by
  cases kind <;> decide

theorem resetBlocks_clock : (resetBlocks kind s).clock = if kind = .powerOn ∨ kind = .pin then 0 else s.clock := by
  simp only [resetBlocks, startsAfresh_eq_true_iff]

theorem resetBlocks_journal :
    (resetBlocks kind s).journal = if kind = .powerOn ∨ kind = .pin then [] else s.journal := by
  simp only [resetBlocks, startsAfresh_eq_true_iff]

/-- What a reset neither loads nor sets. -/
theorem resetBlocks_kept : (resetBlocks kind s).lines = s.lines ∧ (resetBlocks kind s).pending = s.pending ∧
    (resetBlocks kind s).span = none ∧ (resetBlocks kind s).powerHeld = s.powerHeld ∧
    (resetBlocks kind s).clockGood = s.clockGood ∧ (resetBlocks kind s).choices = s.choices := ⟨rfl, rfl, rfl, rfl, rfl, rfl⟩

theorem memberSlot_resetBlocks {m : Nat} (small : m < 32) :
    memberSlot m (resetBlocks kind s) = ⟨loadMember s.cst.records.members[m], false, 0⟩ := by
  simp [memberSlot, resetBlocks_mrg, registerAfterReset, small]

theorem resetBlocks_ntu : (resetBlocks kind s).ntu.pending = 0 ∧ (resetBlocks kind s).ntu.waiting = false ∧
    (resetBlocks kind s).ntu.deferredStore = false ∧
    (kind = .soft → (resetBlocks kind s).ntu.enabled = s.ntu.enabled ∧ (resetBlocks kind s).ntu.held = s.ntu.held) ∧
    (kind ≠ .soft → (resetBlocks kind s).ntu.enabled = 0 ∧ (resetBlocks kind s).ntu.held = true) := by
  cases kind <;> simp [resetBlocks, noticesAfterReset]

end

/-- R142: no input is ACTIVE or filtering, and none is latched. -/
theorem monitorAfterReset_get (p : Params) (i : Input) :
    (monitorAfterReset p).filters.get i = .quiet ∧ (monitorAfterReset p).latched.get i = false := by
  cases i <;> exact ⟨rfl, rfl⟩

/-- Settles O60, block by block, with the parameter record that the load gives. -/
theorem everyBlockIsReset : Obligations.EveryBlockIsReset := by
  intro kind s r t
  obtain ⟨lines, pending, span, power, clock, choices⟩ := resetBlocks_kept kind s
  obtain ⟨none_pending, waiting, deferred, soft, hard⟩ := resetBlocks_ntu kind s
  refine ⟨loadedParams r, fun sound => if_pos sound, fun damaged => if_neg (Bool.eq_false_iff.mp damaged),
    resetBlocks_clock kind s, resetBlocks_journal kind s, lines, pending, span, ?_⟩
  simp only [t, r, resetBlocks_tar, resetBlocks_mrg, resetBlocks_kch, resetBlocks_seu, resetBlocks_ids, resetBlocks_ilm,
    resetBlocks_spc, resetBlocks_lp, resetBlocks_cst, monitorAfterReset_get]
  simp only [arbiterAfterReset, registerAfterReset, chainAfterReset, settingAfterReset, senderAfterReset, monitorAfterReset,
    powerAfterReset, linkAfterReset, storeAfterReset, Vector.getElem_map, Bool.not_eq_true', implies_true, true_and]
  exact ⟨fun m => memberSlot_resetBlocks kind s, none_pending, waiting, deferred, soft, hard, power, clock, choices⟩

end Sys2Proof.Machine
end
